-- ==== Sys2Proof/Word.lean ====
section
/-! DEFINITION. The machine word, the byte, and the plain types of whole numbers that the manual writes as bits. -/

namespace Sys2Proof

/-- A byte (introduction, Numbers). -/
abbrev Byte := BitVec 8

/-- A word of 32 bits, bit 31 the most significant (introduction, Numbers). -/
abbrev Word := BitVec 32

/-- A byte address on the upstream bus, up to 27 bits (memory path chapter, the Relay and the upstream bus). -/
abbrev BusAddr := BitVec 27

end Sys2Proof
end

