-- ==== Sys2Proof/Syntax.lean ====
section
/-! DEFINITION. The commands: one constructor per row of spec/opcode_table.json, in the table's order.

A command is a step of the part, whole and indivisible. Some come from the host's bus, some from the power unit, the
straps and the panel link, some are expiries of the part's timers, and the rest are the steps of the part's own
blocks. A record command (REGION, TUNE, GLYPH_RUN_SET ...) executes the record that the Composer holds in execution,
so it carries no operand: its fields are the words of that record. -/

namespace Sys2Proof

/-- The commands of the LX26. -/
inductive Instr where
  /-- RESET: reset, from the pin or at power-on, with the strap code sampled at its release (R157). -/
  | reset (straps : BitVec 2)
  /-- SDRAM_INITIALIZATION_END (R158). -/
  | sdramInitializationEnd
  /-- START_UP_CLEARING_END (R158). -/
  | startUpClearingEnd
  /-- HOST_READ_BEAT: an upstream read beat at a byte address (R1). -/
  | hostReadBeat (addr : BusAddr)
  /-- HOST_WRITE_BEAT: an upstream write beat with its byte address, its data and its four byte enables (R2). -/
  | hostWriteBeat (addr : BusAddr) (data : Word) (enables : BitVec 4)
  /-- HOST_WRITE_LANDS (R1). -/
  | hostWriteLands
  /-- DRAFT_WRITE (R39). -/
  | draftWrite
  /-- FONT_REGION_WRITE (R63). -/
  | fontRegionWrite
  /-- CONSUMED_COUNT_WRITE (R154). -/
  | consumedCountWrite
  /-- FAULT_CLEAR_WRITE (R155). -/
  | faultClearWrite
  /-- CONTROL_RING_WRITE (R17). -/
  | controlRingWrite
  /-- HOLD_RELEASE_ON_ROOM (R19). -/
  | holdReleaseOnRoom
  /-- HOLD_TIMER_EXPIRY (R19). -/
  | holdTimerExpiry
  /-- STALL_TIMER_EXPIRY (R26). -/
  | stallTimerExpiry
  /-- RESTART (R25). -/
  | restart
  /-- RECORD_TAKE (R28). -/
  | recordTake
  /-- RECORD_EXECUTION_END (R28). -/
  | recordExecutionEnd
  /-- NOP (R30). -/
  | nop
  /-- TUNE (R32). -/
  | tune
  /-- REGION (R11). -/
  | region
  /-- GUARD (R13). -/
  | guard
  /-- LOCK_TIGHT (R14). -/
  | lockTight
  /-- PANEL_LOAD (R139). -/
  | panelLoad
  /-- WAVEFORM_CHECK_END (R140). -/
  | waveformCheckEnd
  /-- GEOMETRY_CLEAR_END (R141). -/
  | geometryClearEnd
  /-- PANEL_UNLOAD (R142). -/
  | panelUnload
  /-- FONT_BIND with the unbind flag clear (R54). -/
  | fontBind
  /-- FONT_BIND with the unbind flag set (R54). -/
  | fontUnbind
  /-- COLUMN (R66). -/
  | column
  /-- PAGE_OPEN with the FILL option (R37). -/
  | pageOpenFill
  /-- PAGE_OPEN with KEEP_CLEAN (R36). -/
  | pageOpenKeepClean
  /-- PAGE_OPEN with KEEP_DIRTY (R36). -/
  | pageOpenKeepDirty
  /-- PAGE_DISCARD (R44). -/
  | pageDiscard
  /-- PAGE_COPY (R46). -/
  | pageCopy
  /-- FILL with SET (R47). -/
  | fillSet
  /-- FILL with MULTIPLY (R47). -/
  | fillMultiply
  /-- GLYPH_RUN with CONTINUE (R68). -/
  | glyphRunContinue
  /-- GLYPH_RUN with SET (R69). -/
  | glyphRunSet
  /-- HIGHLIGHT (R90). -/
  | highlight
  /-- NOTE_CLEAR with scope ONE (R100). -/
  | noteClearOne
  /-- NOTE_CLEAR with scope ALL (R100). -/
  | noteClearAll
  /-- PROBE (R101). -/
  | probe
  /-- PAGE_COMMIT: the Commit Engine grants the hand-over (R106). -/
  | pageCommit
  /-- REFRESH: the Commit Engine grants the hand-over (R113). -/
  | refresh
  /-- SETTLE_TIMER_EXPIRY of one page slot (R50). -/
  | settleTimerExpiry (slot : Fin 4)
  /-- LATENCY_TIMER_EXPIRY of one page slot (R50). -/
  | latencyTimerExpiry (slot : Fin 4)
  /-- AUTO_COMMIT_GRANT (R111). -/
  | autoCommitGrant
  /-- DIFF_TILE_VISIT (R107). -/
  | diffTileVisit
  /-- DIFF_END (R110). -/
  | diffEnd
  /-- PENDING_RETRY (R117). -/
  | pendingRetry
  /-- START_CONSIDERATION (R126). -/
  | startConsideration
  /-- DOWNSTREAM_GRANT (R7). `rowBufferNeeds` says whether the Panel Scanner's row buffer needs data at this moment, and
  `reporterPick` what the Reporter writes if it is the one granted: 0 its oldest appended entry, k + 1 the marked
  Status Block words from word k on. The manual leaves both open (log entries 9 and 10). -/
  | downstreamGrant (rowBufferNeeds : Bool) (reporterPick : Nat)
  /-- REFRESH_TIMER_EXPIRY (R7). -/
  | refreshTimerExpiry
  /-- LOADING_COMPLETE (R133). -/
  | loadingComplete
  /-- FRAME_START (R134). -/
  | frameStart
  /-- FRAME_END (R135). -/
  | frameEnd
  /-- PANEL_READY_ASSERTED (R145). -/
  | panelReadyAsserted
  /-- PANEL_READY_DROPPED (R148). -/
  | panelReadyDropped
  /-- RISE_TIMER_EXPIRY (R145). -/
  | riseTimerExpiry
  /-- GAP_TIMER_EXPIRY (R145). -/
  | gapTimerExpiry
  /-- HOLD_TIME_EXPIRY (R146). -/
  | holdTimeExpiry
  /-- FALL_TIMER_EXPIRY (R146). -/
  | fallTimerExpiry
  /-- GRACE_TIMER_EXPIRY (R149). -/
  | graceTimerExpiry
  /-- READING_TIMER_EXPIRY (R147). -/
  | readingTimerExpiry
  /-- TEMPERATURE_READING: a whole °C, or `none` for an invalid indication (R147). -/
  | temperatureReading (reading : Option Int)
  /-- DOZE_TIMER_EXPIRY (R159). -/
  | dozeTimerExpiry
  /-- DOZE_WAKE (R159). -/
  | dozeWake
  /-- INTERRUPT_PULSE_END (R156). -/
  | interruptPulseEnd
  /-- TIME_STAMP_TICK (R153). -/
  | timeStampTick
deriving DecidableEq, Repr

end Sys2Proof
end

