-- ==== Sys2Proof/Decode.lean ====
section
/-! DEFINITION. The command that a word of the opcode table spells. No row of spec/opcode_table.json gives any bits
(the reader's counts: 69 rows unread, none with fixed bits or fields), so no word spells a command. The records of the
Control Ring, which do have bit layouts, are read in Machine/Operands.lean. -/

namespace Sys2Proof

/-- The command a word of `nbits` bits spells by the table's bits: none, since no row gives bits. -/
def decodeTableWord (_nbits _w : Nat) : Option Instr := none

end Sys2Proof
end

