-- ==== Sys2Proof/Config.lean ====
section
/-! DEFINITION. What the manual fixes for the part: the layout of the reserved top, the sizes of its tables and the
fixed times. -/

namespace Sys2Proof.Config

/-- The memory size in bytes that a strap code selects: codes 0, 1 and 2 select 32, 64 and 128 MiB, and code 3 is
taken as 32 MiB (R157). -/
def memoryBytes (straps : BitVec 2) : Nat :=
  if straps = 1 then 0x0400_0000 else if straps = 2 then 0x0800_0000 else 0x0200_0000

/-- The reserved top is the top 6 MiB (introduction, the reserved top and the memory map). -/
def reservedBytes : Nat := 0x60_0000

/-- Offset of the Prior Image from T (R4). -/
def priorOffset : Nat := 0x00_0000
/-- Offset of the Panel Image from T (R4). -/
def panelOffset : Nat := 0x28_0000
/-- Offset of the Waveform Store from T (R4). -/
def storeOffset : Nat := 0x50_0000
/-- Offset of the Control Ring from T (R4). -/
def ringOffset : Nat := 0x54_0000
/-- Offset of the Report Area from T (R4). -/
def reportOffset : Nat := 0x54_4000
/-- Offset of the Remainder from T (R4). -/
def remainderOffset : Nat := 0x54_5000

/-- The unit in which regions and guard bounds are counted (introduction, Numbers). -/
def unitBytes : Nat := 4096

/-- What a byte of memory that nothing has written reads as.
DESIGN CHOICE (log entry 2), unsafe: the manual gives the SDRAM no contents at power-on. -/
def unlistedByte : Byte := 0xFF

/-- Words in each image of the full 2.5 MiB (R158). -/
def imageWords : Nat := 0x28_0000 / 4

/-- Words of the Waveform Store that the check sums: 64 of header and 32,768 of drive table (R140). -/
def checkedWords : Nat := 32832

/-- Record Queue entries (R27). -/
def queueEntries : Nat := 32
/-- Record Queue words (R27). -/
def queueWords : Nat := 2048
/-- Words of the Control Ring. -/
def ringWords : Nat := 4096
/-- Pending List entries (R114). -/
def pendingEntries : Nat := 32
/-- Commit numbers an entry may hold (R114). -/
def commitsPerEntry : Nat := 4
/-- Glyph Cache entries (R61). -/
def cacheEntries : Nat := 128
/-- Word Log entries per page slot (R83). -/
def logEntries : Nat := 512
/-- Notes in the Note Anchor Table (R87). -/
def noteEntries : Nat := 64
/-- Rectangles in a note (R87). -/
def noteRects : Nat := 8
/-- Glyphs in the word buffer (R70). -/
def bufferGlyphs : Nat := 64
/-- Entries of the Event Ring (R153). -/
def eventEntries : Nat := 240
/-- Words of the Report Area (R152 and the chapter on formats). -/
def reportWords : Nat := 1024
/-- Words of the Status Block. -/
def statusWords : Nat := 64
/-- Tiles along a row of the largest panel: Dirty Map marks and Ghost Counters are numbered j × 80 + i (R38, R124). -/
def tileStride : Nat := 80
/-- The top of a Ghost Counter's range (R124). -/
def ghostTop : Nat := 63
/-- The largest whole number of a 16-bit count or position that saturates. -/
def top16 : Nat := 65535
/-- Most words in one grant of the Downstream Port (introduction to R7). -/
def grantWords : Nat := 8

/-- The gap after a failed rise attempt, in ms (R145). -/
def gapTime : Nat := 10
/-- The fall time, in ms (R146). -/
def fallTime : Nat := 10
/-- The reading timer, 30 s, in ms (R147). -/
def readingTime : Nat := 30000
/-- Rise attempts before FAILED (R145). -/
def riseAttempts : Nat := 3

end Sys2Proof.Config
end

