-- ==== Sys2Proof/Machine/State.lean ====
section
/-! DEFINITION. The state of the part as plain data, block by block, the reasons a step can stop, and the state right
after reset. Every field cites the rule of spec/ that gives it. Widths: words, addresses and numbers that wrap are bit
vectors. Counts, positions and sizes whose ranges the manual gives as ranges are whole numbers. -/

namespace Sys2Proof.Machine

/-- Why the machine stops with a fault. -/
inductive Fault where
  /-- Raised by DOWNSTREAM_GRANT when the grant it would make, other than a host beat's, reaches an address at or beyond
  the memory size. The manual gives such an address no word. No run from reset comes to it, because every engine works
  inside regions and images below the memory size. Safe: the model stops. -/
  | grantBeyondMemory
deriving DecidableEq, Repr

/-- Why the machine refuses a command. -/
inductive Refusal where
  /-- Raised by an arm of `exec` whose command has no meaning yet. Safe: the model stops. No arm raises it. -/
  | notModelled (mnemonic : String)
deriving DecidableEq, Repr

/-- Memory: the bytes that differ from what an unlisted address reads as, addresses strictly rising. -/
abbrev Memory := List Host.Cell

/-- A timer: `none` while stopped, and while running the count that was in force when it was last started (conventions,
Timers). When it expires is a command of its own. -/
abbrev Timer := Option Nat

/-- A rectangle, half-open, in pixels or in tiles (conventions, Rectangles). -/
structure Rect where
  left : Nat
  top : Nat
  right : Nat
  bottom : Nat
deriving DecidableEq, Repr

/-- The panel geometry (R138). -/
structure Geometry where
  width : Nat
  height : Nat
deriving DecidableEq, Repr

/-- The mode of an update (introduction, mode). -/
inductive Mode where
  | clean
  | grey
  | text
  | pen
deriving DecidableEq, Repr

/-! ## The Relay -/

/-- An upstream write beat: byte address, 32 data bits, four byte enables. -/
structure HostWrite where
  addr : BusAddr
  data : Word
  enables : BitVec 4
deriving DecidableEq, Repr

/-- An upstream beat. -/
inductive Beat where
  | read (addr : BusAddr)
  | write (w : HostWrite)
deriving DecidableEq, Repr

/-- The block to which a passed write is handed when it has landed (R5). -/
inductive Handoff where
  /-- No block: a PLAIN region, no region, the Remainder, the INVALID store, a released Control Ring write. -/
  | nobody
  /-- The Page Slot Table, with the region's entry index and the byte offset of the written word. -/
  | page (entry : Fin 8) (offset : Nat)
  /-- The Glyph Cache, with the region's entry index. -/
  | font (entry : Fin 8)
  /-- The Reporter, for the Consumed Count word. -/
  | consumedCount
  /-- The Reporter, for the Fault Clear word. -/
  | faultClear
deriving DecidableEq, Repr

/-- The Relay: idle or serving one beat (R1). While it is not idle the ready line is held. -/
inductive Relay where
  | idle
  /-- A beat held undecided, while the SDRAM is being initialized or the part wakes from doze (R157, R159). -/
  | held (b : Beat)
  /-- A read below the memory size that waits for its grant (R7). -/
  | reading (addr : BusAddr)
  /-- A write decided as passed that waits for its grant (R7, R9). -/
  | writing (w : HostWrite) (dest : Handoff)
  /-- A Control Ring write that is to be offered to the Ring Decoder (R6). -/
  | ringOffer (w : HostWrite)
  /-- A Control Ring write that the Ring Decoder holds back for want of room (R19). -/
  | ringHold (w : HostWrite)
deriving DecidableEq, Repr

/-- The kind of a Region Map entry (Region Map table). -/
inductive RegionKind where
  | page
  | font
  | plain
deriving DecidableEq, Repr

/-- A non-empty Region Map entry (R10). -/
structure Region where
  base : Nat
  size : Nat
  kind : RegionKind
  /-- The host-write field: ABSORB when true, PASS when false. -/
  absorb : Bool
deriving DecidableEq, Repr

/-- The Write Guard (R12). -/
structure Guard where
  on : Bool
  invert : Bool
  lower : Nat
  upper : Nat
deriving DecidableEq, Repr

/-- The cause of an access fault (R155). -/
inductive FaultCause where
  | range
  | guarded
  | region
  | reserved
deriving DecidableEq, Repr

/-! ## The Ring Decoder and the Record Queue -/

/-- The decoder state, with what each state holds (table before R15). -/
inductive DecoderState where
  | sync
  /-- The record under collection: the offset of its header and the words consumed so far, header first. -/
  | body (headerOffset : BitVec 12) (words : List Word)
  /-- The words still to be skipped and the length of the record being skipped. -/
  | skip (remainder : Nat) (length : Nat)
  | hunt
deriving DecidableEq, Repr

/-- The Ring Decoder (table before R15), with its hold timer (R19). -/
structure Decoder where
  state : DecoderState
  ep : BitVec 12
  gap : List (BitVec 12)
  huntCount : Nat
  stray : Nat
  skipped : Nat
  stall : Timer
  hold : Timer
  lowSpace : Bool
deriving DecidableEq, Repr

/-- A framed record: the offset of its header in the ring and its words as they were offered, header first (R20). -/
structure Record where
  offset : BitVec 12
  words : List Word
deriving DecidableEq, Repr

/-- The tunable limits (TUNE table). Marks are in steps of 8 words, the panel hold time in 10 ms, the hold limit in µs,
the other times in ms. -/
structure Tunables where
  stallTimeout : Nat
  holdLimit : Nat
  highMark : Nat
  lowMark : Nat
  settleTime : Nat
  latencyLimit : Nat
  ghostLimit : Nat
  panelHold : Nat
  defaultBand : Nat
  /-- The interrupt mode: PULSE when true, LEVEL when false. -/
  pulseMode : Bool
  classMask : BitVec 8
  dozeEnable : Bool
  dozeDelay : Nat
deriving DecidableEq, Repr

/-! ## Page slots, fonts, columns and notes -/

/-- A column cursor (R67). -/
structure Cursor where
  pen : Nat
  baseline : Nat
  full : Bool
  lineHolds : Bool
  pendingSpace : Nat
deriving DecidableEq, Repr

/-- A Word Log entry (R83). -/
structure LogEntry where
  runId : Nat
  first : Nat
  count : Nat
  column : Fin 4
  baseline : Nat
  xLeft : Int
  xRight : Int
  font : Fin 8
deriving DecidableEq, Repr

/-- A page slot (R34). It is OPEN exactly while it holds a bound region. -/
structure PageSlot where
  region : Option (Fin 8)
  inCommit : Bool
  pageId : Word
  live : Bool
  settle : Timer
  latency : Timer
  autoCommit : Bool
  /-- The Dirty Map: the mark of tile (i, j) is bit j × 80 + i (R38). -/
  dirty : BitVec 5120
  cursors : Vector Cursor 4
  log : List LogEntry
  logFull : Bool
deriving DecidableEq, Repr

/-- The binding of a font slot (R52). A special code of 0xFFFF is none. -/
structure Font where
  region : Fin 8
  tableOffset : Nat
  count : Nat
  ascent : Nat
  descent : Nat
  space : BitVec 16
  hyphen : BitVec 16
  newline : BitVec 16
deriving DecidableEq, Repr

/-- A glyph-table entry (R56). -/
structure Glyph where
  bitmap : Nat
  width : Nat
  height : Nat
  bearingX : Int
  bearingY : Int
  advance : Nat
deriving DecidableEq, Repr

/-- A valid Glyph Cache entry (R61), with the number of the entry it occupies (R62). -/
structure CacheEntry where
  number : Nat
  font : Fin 8
  code : Nat
  glyph : Glyph
  bad : Bool
deriving DecidableEq, Repr

/-- A defined column (R65). -/
structure Column where
  left : Nat
  top : Nat
  right : Nat
  bottom : Nat
  pitch : Nat
  firstBaseline : Nat
  tracking : Int
deriving DecidableEq, Repr

/-- The style of a note (R87). -/
inductive NoteStyle where
  | band
  | underline
deriving DecidableEq, Repr

/-- A note of the Note Anchor Table (R87). -/
structure Note where
  slot : Fin 4
  id : Nat
  pageId : Word
  style : NoteStyle
  tone : Nat
  sequence : Nat
  rects : List Rect
deriving DecidableEq, Repr

/-! ## The Composer -/

/-- What a painting does to the pixels of its rectangle (R47, R96, R97). -/
inductive PaintOp where
  | set
  | multiply
deriving DecidableEq, Repr

/-- One rectangle of pixels to be painted. -/
structure Paint where
  rect : Rect
  op : PaintOp
  tone : Nat
deriving DecidableEq, Repr

/-- Rectangles being painted into a draft, the first at the pixel row and word column reached, with the word under
read-modify-write as it was read (R9, R47). -/
structure Painting where
  slot : Fin 4
  base : Nat
  stride : Nat
  paints : List Paint
  row : Nat
  col : Nat
  held : Option Word
deriving DecidableEq, Repr

/-- An image copy in progress: words read and not yet written stand in the buffer (R46). -/
structure Copying where
  dest : Fin 4
  sourceBase : Nat
  destBase : Nat
  next : Nat
  total : Nat
  buffer : List Word
deriving DecidableEq, Repr

/-- A glyph in the word buffer (R70). -/
structure BufGlyph where
  index : Nat
  glyph : Glyph
  drawn : Bool
deriving DecidableEq, Repr

/-- A glyph that has been set and is to be drawn: its left pixel, its top row, its box and the byte address of its
bitmap (R73, R80). -/
structure Blit where
  left : Int
  top : Int
  width : Nat
  height : Nat
  bitmap : Nat
deriving DecidableEq, Repr

/-- A draft word that holds covered pixels of a glyph, with the coverage of its eight pixels, 0 for a skipped one
(R80, R82). -/
structure Touch where
  addr : Nat
  coverage : List Nat
deriving DecidableEq, Repr

/-- How far the drawing of the first waiting glyph has come: the bitmap bytes read so far (R60), then the words to be
blended with the one under read-modify-write as it was read (R82). -/
inductive Drawing where
  | bitmap (bytes : List Byte)
  | blend (touches : List Touch) (held : Option Word)
deriving DecidableEq, Repr

/-- A lookup that waits for the read of a glyph-table entry (R58, R59, R61): the code and its index, whether it is the
space code, and, while the entry of code 0 is the one being read, the advance a left-out glyph would take. -/
structure Lookup where
  code : Nat
  index : Nat
  space : Bool
  fallback : Option Nat
deriving DecidableEq, Repr

/-- What a run still has to do before it reads its next code (R70, R71). -/
inductive RunAct where
  | push (g : BufGlyph)
  | endWord
  | space (advance : Nat)
  | newline
  | finish
deriving DecidableEq, Repr

/-- A GLYPH_RUN in execution (R68 to R86). -/
structure Run where
  slot : Fin 4
  column : Fin 4
  font : Fin 8
  tone : Nat
  runId : Nat
  tag : Nat
  codes : List (BitVec 16)
  index : Nat
  buffer : List BufGlyph
  acts : List RunAct
  lookup : Option Lookup
  blits : List Blit
  drawing : Drawing
  substituted : Nat
  leftOut : Nat
  firstBad : Option Nat
deriving DecidableEq, Repr

/-- The Composer. The record in execution, when there is one, is the oldest of the Record Queue (R28). -/
inductive Composer where
  | idle
  /-- A record has been taken and its execution waits to be carried out. A PAGE_COMMIT or REFRESH so taken is the
  hand-over offered to the Commit Engine (R104). -/
  | taken
  | painting (p : Painting)
  | copying (c : Copying)
  | running (r : Run)
  /-- The Commit Engine has granted the hand-over and has not finished with it (R104). -/
  | atCommitEngine
  /-- The Supply Controller is executing a PANEL LOAD (R140). -/
  | atSupply
  /-- Execution has ended and the record is to be removed (R28). -/
  | ended
deriving DecidableEq, Repr

/-! ## Commits and updates -/

/-- An update request: an entry of the Pending List (R114) or of the Repair List (R123), or a request in hand. The
source `none` is PANEL, and the rectangle is in tiles. -/
structure Request where
  source : Option (Fin 4)
  rect : Rect
  mode : Mode
  commits : List (BitVec 16)
  repair : Bool
deriving DecidableEq, Repr

/-- Where a commit came from (R103). -/
inductive Origin where
  | pageCommit (slot : Fin 4) (tag : Nat)
  | auto (slot : Fin 4)
  | refresh
deriving DecidableEq, Repr

/-- The commit in hand: its origin, its requested mode (`none` is AUTO, and an auto-commit requests none) and its
commit number (R103, R105). -/
structure Commit where
  origin : Origin
  mode : Option Mode
  number : BitVec 16
deriving DecidableEq, Repr

/-- A tile visit in progress: the row being read, the draft row read and not yet compared, and what the rows so far have
shown (R107, R108). -/
structure Visit where
  i : Nat
  j : Nat
  row : Nat
  draft : Option (List Word)
  changed : Bool
  grey : Bool
deriving DecidableEq, Repr

/-- The progress of a diff: the next tile in raster order (numbered j × (width ÷ 32) + i), the bounding rectangle so far,
the grey-seen flag and the visit in progress (R103). -/
structure Diff where
  next : Nat
  bounds : Option Rect
  grey : Bool
  visit : Option Visit
deriving DecidableEq, Repr

/-- The Commit Engine's state (R103): IDLE, or BUSY with a diff, or BUSY with a request in hand that waits (R117). -/
inductive EngineState where
  | idle
  | diffing (c : Commit) (d : Diff)
  | waiting (c : Commit) (r : Request)
deriving DecidableEq, Repr

/-- The Commit Engine (R103). -/
structure CommitEngine where
  state : EngineState
  nextNumber : BitVec 16
  pending : List Request
deriving DecidableEq, Repr

/-- The state of an update slot that is not FREE (R121). -/
inductive UpdateState where
  | loading
  | ready
  | active
  | frozen
deriving DecidableEq, Repr

/-- An update slot that is not FREE (R121). -/
structure Update where
  state : UpdateState
  source : Option (Fin 4)
  draftBase : Option Nat
  rect : Rect
  mode : Mode
  band : Nat
  length : Nat
  counter : Nat
  commits : List (BitVec 16)
  repair : Bool
deriving DecidableEq, Repr

/-- The Update Scheduler: the Slot Table, the start order, the Repair List, the Ghost Counters (those that are not 63,
by tile number j × 80 + i, rising), and whether an event of R125 still calls for a consideration. -/
structure Scheduler where
  slots : Vector (Option Update) 15
  order : List (Fin 15)
  repairs : List Request
  ghosts : List (Nat × Nat)
  due : Bool
deriving DecidableEq, Repr

/-- Where the Slot Loader stands within a piece (R130). Pieces are lists of four words. -/
inductive LoadPhase where
  | readPanel
  | readDraft (panel : List Word)
  | readPrior (panel : List Word) (new : List Word)
  | writePrior (prior : List Word) (panelNew : Option (List Word))
  | writePanel (panelNew : List Word)
deriving DecidableEq, Repr

/-- The progress of the load of one slot: pixel row, tile column and place within the piece (R130). -/
structure Load where
  row : Nat
  col : Nat
  phase : LoadPhase
deriving DecidableEq, Repr

/-- A clearing of the two images to white: the words of each image and how many of the two together are written, Prior
Image first (R141, R158). -/
structure Clear where
  words : Nat
  next : Nat
deriving DecidableEq, Repr

/-- The Slot Loader. `load` is the progress of the first LOADING slot in the start order, once begun (R130). -/
structure Loader where
  load : Option Load
  clear : Option Clear
deriving DecidableEq, Repr

/-! ## Panel drive -/

/-- A frame in progress: the next eight-pixel word of the panel to be scanned in raster order, its Panel and Prior
Image words once read, and the drive codes of its pixels found so far (R143, R144). -/
structure Frame where
  next : Nat
  panel : Option Word
  prior : Option Word
  codes : List (BitVec 2)
deriving DecidableEq, Repr

/-- The Panel Scanner: the frame in progress, its raised request (R7), and the drive codes of the frame last started as
the panel link has them, eight for each eight-pixel word of the panel by its number in raster order. Words whose codes are
not all hold are listed, numbers rising (R144, log entry 19). -/
structure Scanner where
  frame : Option Frame
  request : Bool
  link : List (Nat × List (BitVec 2))
deriving DecidableEq, Repr

/-- The panel state (R138). -/
inductive PanelState where
  | unconfigured
  | off
  | rising
  | on
  | holding
  | suspended
  | falling
  | failed
deriving DecidableEq, Repr

/-- The waveform check of a LOAD: words summed so far, their sum, the spoilt flag, and whether the check has passed and
the images are being cleared after a geometry change (R140, R141). -/
structure Check where
  next : Nat
  sum : Word
  spoilt : Bool
  clearing : Bool
deriving DecidableEq, Repr

/-- The Supply Controller (R138), with the level of the panel-ready line, the loss noted for the frame end (R148) and
the readings asked for and still to arrive (R147, R159). Timers are in ms. -/
structure Supply where
  panel : PanelState
  enable : Bool
  valid : Bool
  geometry : Option Geometry
  framePeriod : Nat
  riseTimeout : Nat
  grace : Nat
  attempt : Nat
  reading : Option Int
  riseTimer : Timer
  gapTimer : Timer
  holdTimer : Timer
  graceTimer : Timer
  fallTimer : Timer
  readingTimer : Timer
  check : Option Check
  readyLine : Bool
  lossNoted : Bool
  readingsAsked : Nat
deriving DecidableEq, Repr

/-! ## The Reporter, start-up, doze and the port -/

/-- An event appended to the Event Ring and not yet written: its entry number, its four words, whether its class was
enabled at the append (R156), and P and N just after it (R152). -/
structure Entry where
  index : Nat
  words : List Word
  enabled : Bool
  producedAfter : BitVec 16
  nextAfter : Nat
deriving DecidableEq, Repr

/-- The Reporter (R152 to R156). `marks` has one bit for each of the Status Block words 0 to 17: some field of that word
has changed and is not yet written. `writtenProduced` and `writtenNext` are P and N just after the newest entry whose
write has ended, and `toSignal` counts the written entries of enabled classes that no Produced Count write has counted
yet. A pulse is on the line while `pulse` is set, and `pulsesQueued` more are to follow (log entry 31). -/
structure Reporter where
  produced : BitVec 16
  consumed : BitVec 16
  nextIndex : Nat
  dropped : Nat
  unwritten : List Entry
  writtenProduced : BitVec 16
  writtenNext : Nat
  toSignal : Nat
  marks : BitVec 18
  faultCount : Nat
  faultAddr : Word
  faultCause : Option FaultCause
  attention : Bool
  pulse : Bool
  pulsesQueued : Nat
deriving DecidableEq, Repr

/-- Start-up (R157, R158): SDRAM initialization, then the start-up clearing with the words of the Report Area written so
far, then running. -/
inductive Startup where
  | initializing
  | clearing (reportNext : Nat)
  | running
deriving DecidableEq, Repr

/-- The Doze Controller (R159): AWAKE or DOZING, and the doze timer. -/
structure Doze where
  dozing : Bool
  timer : Timer
deriving DecidableEq, Repr

/-- The internal engines, in the fixed circular order (R8). -/
inductive EngineName where
  | composer
  | commitEngine
  | slotLoader
  | reporter
  | waveformCheck
deriving DecidableEq, Repr

/-- The Downstream Port's arbiter: the raised refresh request (R7) and the turn pointer (R8). -/
structure Port where
  refreshRequest : Bool
  turn : EngineName
deriving DecidableEq, Repr

/-! ## The whole part -/

/-- The state of the LX26. -/
structure State where
  /-- The commands that wait, first in, first out (the model's own). -/
  pending : List Instr
  /-- The strap code sampled at the release of reset; it fixes the memory size and T (R157). -/
  straps : BitVec 2
  /-- The SDRAM. -/
  mem : Memory
  /-- The 32 data bits of the last read beat that completed (R1, R3). -/
  readData : Word
  relay : Relay
  regions : Vector (Option Region) 8
  guard : Guard
  /-- LOCK_TIGHT has been executed since reset (R14). -/
  locked : Bool
  decoder : Decoder
  /-- The Record Queue, oldest first (R27). -/
  queue : List Record
  composer : Composer
  tune : Tunables
  pages : Vector PageSlot 4
  fonts : Vector (Option Font) 8
  /-- The valid Glyph Cache entries, most recently used first (R61). -/
  cache : List CacheEntry
  columns : Vector (Option Column) 4
  /-- The Note Anchor Table, in the order of creation (R87, R88). -/
  notes : List Note
  /-- The creation counter (R88). -/
  noteCounter : Nat
  commit : CommitEngine
  updates : Scheduler
  loader : Loader
  scanner : Scanner
  supply : Supply
  reporter : Reporter
  startup : Startup
  doze : Doze
  /-- The time stamp count (conventions, Time stamps). -/
  time : Word
  port : Port
deriving DecidableEq, Repr

/-! ## Reset values -/

/-- The defaults of the TUNE table (R32). -/
def Tunables.reset : Tunables :=
  { stallTimeout := 20, holdLimit := 32, highMark := 192, lowMark := 64, settleTime := 8, latencyLimit := 40,
    ghostLimit := 8, panelHold := 50, defaultBand := 3, pulseMode := false, classMask := 255, dozeEnable := false,
    dozeDelay := 50 }

/-- The Ring Decoder after reset (R15). -/
def Decoder.reset : Decoder :=
  { state := .sync, ep := 0, gap := [], huntCount := 0, stray := 0, skipped := 0, stall := none, hold := none,
    lowSpace := false }

/-- The FULL cursor that a cursor reset gives where the column is undefined (R67). DESIGN CHOICE (log entry 26), unsafe:
of a cursor that becomes FULL at the reset of the part or at a discard the manual says FULL alone; here it takes this
value too. -/
def Cursor.fullCursor : Cursor :=
  { pen := 0, baseline := 0, full := true, lineHolds := false, pendingSpace := 0 }

/-- A page slot after reset and after a discard (R34, R44); for the other fields of its FULL cursors see log entry 26. -/
def PageSlot.reset : PageSlot :=
  { region := none, inCommit := false, pageId := 0, live := false, settle := none, latency := none,
    autoCommit := false, dirty := 0, cursors := Vector.replicate 4 Cursor.fullCursor, log := [], logFull := false }

/-- The Commit Engine after reset (R103). -/
def CommitEngine.reset : CommitEngine :=
  { state := .idle, nextNumber := 1, pending := [] }

/-- The Update Scheduler after reset: every slot FREE, every Ghost Counter 63 (R121 to R124). -/
def Scheduler.reset : Scheduler :=
  { slots := Vector.replicate 15 none, order := [], repairs := [], ghosts := [], due := false }

/-- The Supply Controller after reset (R138). -/
def Supply.reset : Supply :=
  { panel := .unconfigured, enable := false, valid := false, geometry := none, framePeriod := 118, riseTimeout := 25,
    grace := 10, attempt := 0, reading := none, riseTimer := none, gapTimer := none, holdTimer := none,
    graceTimer := none, fallTimer := none, readingTimer := none, check := none, readyLine := false,
    lossNoted := false, readingsAsked := 0 }

/-- The Reporter after reset: its quantities 0, its marks clear, attention clear, the line deasserted (R152 to R156). -/
def Reporter.reset : Reporter :=
  { produced := 0, consumed := 0, nextIndex := 0, dropped := 0, unwritten := [], writtenProduced := 0,
    writtenNext := 0, toSignal := 0, marks := 0, faultCount := 0, faultAddr := 0, faultCause := none,
    attention := false, pulse := false, pulsesQueued := 0 }

/-- The machine right after reset, with no command waiting, nothing listed in memory and strap code 0 (32 MiB).
DESIGN CHOICE (log entry 3): the straps, the panel-ready line's level and the read data are outside the part's reset
values. -/
def State.reset : State :=
  { pending := []
    straps := 0
    mem := []
    readData := 0
    relay := .idle
    regions := Vector.replicate 8 none
    guard := { on := false, invert := false, lower := 0, upper := 0 }
    locked := false
    decoder := Decoder.reset
    queue := []
    composer := .idle
    tune := Tunables.reset
    pages := Vector.replicate 4 PageSlot.reset
    fonts := Vector.replicate 8 none
    cache := []
    columns := Vector.replicate 4 none
    notes := []
    noteCounter := 0
    commit := CommitEngine.reset
    updates := Scheduler.reset
    loader := { load := none, clear := none }
    scanner := { frame := none, request := false, link := [] }
    supply := Supply.reset
    reporter := Reporter.reset
    startup := .initializing
    doze := { dozing := false, timer := none }
    time := 0
    port := { refreshRequest := false, turn := .composer } }

end Sys2Proof.Machine
end

