-- ==== Sys2Proof/Machine/Memory.lean ====
section
/-! DEFINITION. Sparse tables in one canonical form, memory as one of them, and the words and pixels that bytes make.
The Ghost Counters are held in the same form. -/

namespace Sys2Proof.Machine

/-! ## Sparse tables -/

/-- The value at key `k` of a table that lists only what differs from the default `d`, keys strictly rising. -/
def Sparse.get {α : Type} (d : α) : List (Nat × α) → Nat → α
  | [], _ => d
  | (a, v) :: l, k => if k = a then v else if k < a then d else Sparse.get d l k

/-- The table with `v` at key `k`, in canonical form: an entry equal to the default is not listed. -/
def Sparse.put {α : Type} [DecidableEq α] (d : α) (k : Nat) (v : α) : List (Nat × α) → List (Nat × α)
  | [] => if v = d then [] else [(k, v)]
  | (a, w) :: l =>
    if k < a then (if v = d then (a, w) :: l else (k, v) :: (a, w) :: l)
    else if k = a then (if v = d then l else (k, v) :: l)
    else (a, w) :: Sparse.put d k v l

/-- Every key of the table is above `k`, and keys rise strictly from there, no entry equal to the default. -/
def Sparse.wfFrom {α : Type} [DecidableEq α] (d : α) : Option Nat → List (Nat × α) → Bool
  | _, [] => true
  | lo, (a, v) :: l =>
    (match lo with | none => true | some b => decide (b < a)) && decide (v ≠ d) && Sparse.wfFrom d (some a) l

/-- The canonical form of a sparse table. -/
def Sparse.wf {α : Type} [DecidableEq α] (d : α) (l : List (Nat × α)) : Bool := Sparse.wfFrom d none l

/-! ## Memory -/

/-- The byte at an address. What an unlisted address reads as is `Config.unlistedByte`. -/
def Memory.byte (m : Memory) (a : Nat) : Byte := Sparse.get Config.unlistedByte m a

/-- Memory with one byte written. -/
def Memory.setByte (m : Memory) (a : Nat) (b : Byte) : Memory := Sparse.put Config.unlistedByte a b m

/-- The canonical form of memory. -/
def Memory.wf (m : Memory) : Bool := Sparse.wf Config.unlistedByte m

/-- Byte `k` of a word: byte 0, at the lowest address, is bits 7 to 0.
DESIGN CHOICE (log entry 1), unsafe: the manual states no byte order within a word. -/
def byteOf (w : Word) (k : Nat) : Byte := (w >>> (8 * k)).setWidth 8

/-- The word whose bytes, lowest address first, are given (log entry 1). -/
def wordOfBytes (b0 b1 b2 b3 : Byte) : Word := b3 ++ b2 ++ b1 ++ b0

/-- The word at a word address. -/
def Memory.word (m : Memory) (a : Nat) : Word :=
  wordOfBytes (m.byte a) (m.byte (a + 1)) (m.byte (a + 2)) (m.byte (a + 3))

/-- A write of a word with byte enables: enable `k` writes byte `k`, and bytes whose enables are off are left unchanged
(R1). -/
def Memory.writeMasked (m : Memory) (a : Nat) (w : Word) (enables : BitVec 4) : Memory :=
  (List.range 4).foldl (fun m k => if enables.getLsbD k then m.setByte (a + k) (byteOf w k) else m) m

/-- A write of a whole word. -/
def Memory.setWord (m : Memory) (a : Nat) (w : Word) : Memory := m.writeMasked a w 15

/-- `n` words from a word address. -/
def Memory.words (m : Memory) (a n : Nat) : List Word := (List.range n).map (fun k => m.word (a + 4 * k))

/-- Words written at consecutive word addresses. -/
def Memory.setWords (m : Memory) (a : Nat) : List Word → Memory
  | [] => m
  | w :: ws => Memory.setWords (m.setWord a w) (a + 4) ws

/-- The bytes of words in ascending address order. -/
def bytesOfWords (ws : List Word) : List Byte :=
  ws.flatMap (fun w => [byteOf w 0, byteOf w 1, byteOf w 2, byteOf w 3])

/-! ## Pixels (conventions, Image storage) -/

/-- Pixel `p` of the two in a byte: the even pixel is the high nibble, the odd the low. -/
def nibble (b : Byte) (p : Nat) : Nat := if p % 2 = 0 then b.toNat / 16 else b.toNat % 16

/-- The level of pixel `p` (0 to 7, left to right) of a word of an image. -/
def pixel (w : Word) (p : Nat) : Nat := nibble (byteOf w (p / 2)) p

/-- The byte of two pixels, the left one high. -/
def byteOfPixels (left right : Nat) : Byte := BitVec.ofNat 8 (left % 16 * 16 + right % 16)

/-- The word whose eight pixels, left to right, have the levels `f 0` to `f 7`. -/
def wordOfPixels (f : Nat → Nat) : Word :=
  wordOfBytes (byteOfPixels (f 0) (f 1)) (byteOfPixels (f 2) (f 3)) (byteOfPixels (f 4) (f 5)) (byteOfPixels (f 6) (f 7))

/-- A word whose eight pixels have one level. -/
def wordOfTone (t : Nat) : Word := wordOfPixels (fun _ => t)

/-- The glyph blend of ink tone `k` over level `p` under coverage `a` (R81). -/
def glyphBlend (p a k : Nat) : Nat := (p * (15 - a) + k * a + 7) / 15

/-- The highlight multiply of level `p` by tone `t` (R47, R96). -/
def highlightMultiply (p t : Nat) : Nat := (p * t + 7) / 15

/-! ## Rectangles (conventions, Rectangles) -/

/-- Some whole number lies in both half-open spans. -/
def spansOverlap (a b c d : Nat) : Bool := decide (max a c < min b d)

/-- Some pixel (or tile) lies in both rectangles. -/
def Rect.overlaps (p q : Rect) : Bool :=
  spansOverlap p.left p.right q.left q.right && spansOverlap p.top p.bottom q.top q.bottom

/-- The rectangles do not overlap but one's right is the other's left (or bottom the other's top) and their spans along
that edge overlap. -/
def Rect.sharesEdge (p q : Rect) : Bool :=
  !(p.overlaps q) &&
    (((decide (p.right = q.left) || decide (q.right = p.left)) && spansOverlap p.top p.bottom q.top q.bottom) ||
     ((decide (p.bottom = q.top) || decide (q.bottom = p.top)) && spansOverlap p.left p.right q.left q.right))

/-- The smallest rectangle that contains both. -/
def Rect.union (p q : Rect) : Rect :=
  { left := min p.left q.left, top := min p.top q.top, right := max p.right q.right, bottom := max p.bottom q.bottom }

/-- The point lies in the rectangle. -/
def Rect.contains (p : Rect) (x y : Nat) : Bool :=
  decide (p.left ≤ x) && decide (x < p.right) && decide (p.top ≤ y) && decide (y < p.bottom)

/-- The rectangle holds at least one pixel (or tile). -/
def Rect.nonempty (p : Rect) : Bool := decide (p.left < p.right) && decide (p.top < p.bottom)

/-- The whole numbers from `a` up to `b`, exclusive. -/
def span (a b : Nat) : List Nat := (List.range (b - a)).map (a + ·)

/-- A whole number that stops at 65535. -/
def sat16 (n : Nat) : Nat := min n Config.top16

end Sys2Proof.Machine
end

