-- ==== Sys2Proof/Machine/Operands.lean ====
section
/-! DEFINITION. The fields of records, read from the bit positions of the chapter on formats (R16, R160), and the
fields of glyph-table entries (R56). No other bit of a record's words is examined. -/

namespace Sys2Proof.Machine

/-- Bits `hi` down to `lo` of a word, as a whole number. -/
def bits (w : Word) (hi lo : Nat) : Nat := (w.toNat >>> lo) % 2 ^ (hi + 1 - lo)

/-- One bit of a word. -/
def bit (w : Word) (k : Nat) : Bool := w.getLsbD k

/-- A two's complement field of eight bits. -/
def signed8 (n : Nat) : Int := if n < 128 then (n : Int) else (n : Int) - 256

/-! ## Headers -/

/-- The kinds of record (table of R16). -/
inductive RecordKind where
  | nop | restart | tune | region | guard | lockTight | panel | fontBind | column | pageOpen | pageDiscard | pageCopy
  | fill | glyphRun | highlight | noteClear | probe | pageCommit | refresh
deriving DecidableEq, Repr

/-- The kind that a kind value stands for (table of R16). -/
def kindOf (code : Nat) : Option RecordKind :=
  match code with
  | 0x00 => some .nop
  | 0x01 => some .restart
  | 0x02 => some .tune
  | 0x08 => some .region
  | 0x09 => some .guard
  | 0x0A => some .lockTight
  | 0x0C => some .panel
  | 0x10 => some .fontBind
  | 0x11 => some .column
  | 0x20 => some .pageOpen
  | 0x21 => some .pageDiscard
  | 0x22 => some .pageCopy
  | 0x23 => some .fill
  | 0x24 => some .glyphRun
  | 0x28 => some .highlight
  | 0x29 => some .noteClear
  | 0x2A => some .probe
  | 0x30 => some .pageCommit
  | 0x31 => some .refresh
  | _ => none

/-- The lengths, in words, that a kind takes (table of R16). -/
def lengthInRange (k : RecordKind) (n : Nat) : Bool :=
  match k with
  | .nop => decide (1 ≤ n ∧ n ≤ 1024)
  | .glyphRun => decide (3 ≤ n ∧ n ≤ 1024)
  | .restart | .lockTight | .pageDiscard | .pageCommit => n == 1
  | .guard | .pageCopy | .noteClear | .probe => n == 2
  | .region | .pageOpen | .fill | .highlight | .refresh => n == 3
  | .tune | .column => n == 4
  | .panel | .fontBind => n == 5

/-- The sync value of a header. -/
def headerSync (w : Word) : Nat := bits w 31 24
/-- The kind value of a header. -/
def headerKindCode (w : Word) : Nat := bits w 23 16
/-- The page slot of a header. -/
def headerSlot (w : Word) : Fin 4 := Fin.ofNat 4 (bits w 15 14)
/-- The host tag of a header. -/
def headerTag (w : Word) : Nat := bits w 13 10
/-- The length of a header: its length field plus one. -/
def headerLength (w : Word) : Nat := bits w 9 0 + 1

/-- The kind of a valid header: sync value, kind value and length all right (R16). -/
def validHeader (w : Word) : Option RecordKind :=
  if headerSync w = 0xB6 then
    match kindOf (headerKindCode w) with
    | some k => if lengthInRange k (headerLength w) then some k else none
    | none => none
  else none

/-! ## Records -/

/-- Word `k` of a record; word 0 is its header. -/
def Record.word (r : Record) (k : Nat) : Word := r.words.getD k 0
/-- The header of a record. -/
def Record.header (r : Record) : Word := r.word 0
/-- The kind of a record. -/
def Record.kind (r : Record) : Option RecordKind := kindOf (headerKindCode r.header)
/-- The page slot field of a record's header. -/
def Record.slot (r : Record) : Fin 4 := headerSlot r.header
/-- The host tag of a record. -/
def Record.tag (r : Record) : Nat := headerTag r.header

/-- The thirteen fields of TUNE as one run of 96 bits, word 1 highest. -/
def Record.tuneBits (r : Record) : Nat :=
  (r.word 1).toNat * 2 ^ 64 + (r.word 2).toNat * 2 ^ 32 + (r.word 3).toNat

/-- The TUNE field of `width` bits whose lowest bit is bit `lo` of the run. -/
def Record.tuneField (r : Record) (lo width : Nat) : Nat := (r.tuneBits >>> lo) % 2 ^ width

/-- REGION: host-write code, kind code, entry index, base and size. -/
def Record.regionAbsorbCode (r : Record) : Nat := bits (r.word 1) 13 12
def Record.regionKindCode (r : Record) : Nat := bits (r.word 1) 9 8
def Record.regionEntry (r : Record) : Fin 8 := Fin.ofNat 8 (bits (r.word 1) 2 0)
def Record.regionBase (r : Record) : Nat := bits (r.word 2) 31 16
def Record.regionSize (r : Record) : Nat := bits (r.word 2) 15 0

/-- The region kind of a kind code: 0 PAGE, 1 FONT, 2 PLAIN. -/
def regionKindOf (code : Nat) : Option RegionKind :=
  match code with | 0 => some .page | 1 => some .font | 2 => some .plain | _ => none

/-- The host-write field of its code: 0 PASS (false), 1 ABSORB (true). -/
def absorbOf (code : Nat) : Option Bool :=
  match code with | 0 => some false | 1 => some true | _ => none

/-- GUARD: the whole Write Guard. -/
def Record.guardFields (r : Record) : Guard :=
  { on := bit (r.word 1) 31, invert := bit (r.word 1) 30, lower := bits (r.word 1) 29 15, upper := bits (r.word 1) 14 0 }

/-- PANEL: width, height, timings, check value and action code (1 LOAD, 2 UNLOAD). -/
def Record.panelWidth (r : Record) : Nat := bits (r.word 1) 27 16
def Record.panelHeight (r : Record) : Nat := bits (r.word 1) 11 0
def Record.panelPeriod (r : Record) : Nat := bits (r.word 2) 23 16
def Record.panelRise (r : Record) : Nat := bits (r.word 2) 15 8
def Record.panelGrace (r : Record) : Nat := bits (r.word 2) 7 0
def Record.panelCheck (r : Record) : Word := r.word 3
def Record.panelAction (r : Record) : Nat := bits (r.word 4) 1 0

/-- FONT_BIND: the binding, the unbind flag and the font slot. -/
def Record.fontFields (r : Record) : Font :=
  { region := Fin.ofNat 8 (bits (r.word 1) 10 8), tableOffset := (r.word 2).toNat, count := bits (r.word 1) 31 16 + 1,
    ascent := bits (r.word 3) 15 8, descent := bits (r.word 3) 7 0,
    space := (r.word 4 >>> 16).setWidth 16, hyphen := (r.word 4).setWidth 16, newline := (r.word 3 >>> 16).setWidth 16 }
def Record.fontUnbind (r : Record) : Bool := bit (r.word 1) 7
def Record.fontSlot (r : Record) : Fin 8 := Fin.ofNat 8 (bits (r.word 1) 2 0)

/-- COLUMN: the column and its box, pitch, first baseline and tracking as written. -/
def Record.columnIndex (r : Record) : Fin 4 := Fin.ofNat 4 (bits (r.word 1) 31 30)
def Record.columnFields (r : Record) : Column :=
  { left := bits (r.word 1) 27 16, top := bits (r.word 1) 11 0, right := bits (r.word 2) 27 16,
    bottom := bits (r.word 2) 11 0, pitch := bits (r.word 3) 23 16, firstBaseline := bits (r.word 3) 15 8,
    tracking := signed8 (bits (r.word 3) 7 0) }

/-- PAGE_OPEN: live, fill tone, start option code (0 FILL, 1 KEEP_CLEAN, 2 KEEP_DIRTY), region index, page id. -/
def Record.openLive (r : Record) : Bool := bit (r.word 1) 16
def Record.openTone (r : Record) : Nat := bits (r.word 1) 11 8
def Record.openOption (r : Record) : Nat := bits (r.word 1) 5 4
def Record.openRegion (r : Record) : Fin 8 := Fin.ofNat 8 (bits (r.word 1) 2 0)
def Record.openPageId (r : Record) : Word := r.word 2

/-- PAGE_COPY: the source page slot. -/
def Record.copySource (r : Record) : Fin 4 := Fin.ofNat 4 (bits (r.word 1) 1 0)

/-- FILL: the rectangle as written, the tone and the operation code (0 SET, 1 MULTIPLY). -/
def Record.fillRect (r : Record) : Rect :=
  { left := bits (r.word 1) 27 16, top := bits (r.word 1) 11 0, right := bits (r.word 2) 27 16,
    bottom := bits (r.word 2) 11 0 }
def Record.fillTone (r : Record) : Nat := bits (r.word 2) 31 28
def Record.fillOp (r : Record) : Nat := bits (r.word 2) 13 12

/-- GLYPH_RUN: run id, column, placement code (0 CONTINUE, 1 SET), glyph count, font slot, tone, x, y. -/
def Record.runId (r : Record) : Nat := bits (r.word 1) 31 16
def Record.runColumn (r : Record) : Fin 4 := Fin.ofNat 4 (bits (r.word 1) 15 14)
def Record.runPlacement (r : Record) : Nat := bits (r.word 1) 13 12
def Record.runCount (r : Record) : Nat := bits (r.word 1) 10 0
def Record.runFont (r : Record) : Fin 8 := Fin.ofNat 8 (bits (r.word 2) 30 28)
def Record.runTone (r : Record) : Nat := bits (r.word 2) 27 24
def Record.runX (r : Record) : Nat := bits (r.word 2) 23 12
def Record.runY (r : Record) : Nat := bits (r.word 2) 11 0

/-- The glyph codes of a run: index 2k in bits 31–16 of word 3 + k, index 2k + 1 in bits 15–0. -/
def Record.runCodes (r : Record) : List (BitVec 16) :=
  ((r.words.drop 3).flatMap (fun (w : Word) => [(w >>> 16).setWidth 16, w.setWidth 16])).take r.runCount

/-- HIGHLIGHT: note id, run id, style code (0 BAND, 1 UNDERLINE), first and last index, tone. -/
def Record.highlightNote (r : Record) : Nat := bits (r.word 1) 31 16
def Record.highlightRun (r : Record) : Nat := bits (r.word 1) 15 0
def Record.highlightStyle (r : Record) : Nat := bits (r.word 2) 29 28
def Record.highlightFirst (r : Record) : Nat := bits (r.word 2) 26 16
def Record.highlightTone (r : Record) : Nat := bits (r.word 2) 15 12
def Record.highlightLast (r : Record) : Nat := bits (r.word 2) 10 0

/-- The style of a style code. -/
def styleOf (code : Nat) : Option NoteStyle :=
  match code with | 0 => some .band | 1 => some .underline | _ => none

/-- NOTE_CLEAR: scope code (0 ONE, 1 ALL) and note id. -/
def Record.clearScope (r : Record) : Nat := bits (r.word 1) 17 16
def Record.clearNote (r : Record) : Nat := bits (r.word 1) 15 0

/-- PROBE: the point and the probe tag. -/
def Record.probeX (r : Record) : Nat := bits (r.word 1) 31 20
def Record.probeY (r : Record) : Nat := bits (r.word 1) 19 8
def Record.probeTag (r : Record) : Nat := bits (r.word 1) 7 0

/-- REFRESH: the whole-panel flag, the mode code (0 CLEAN, 1 GREY) and the rectangle as written. -/
def Record.refreshWhole (r : Record) : Bool := bit (r.word 1) 31
def Record.refreshMode (r : Record) : Nat := bits (r.word 1) 29 28
def Record.refreshRect (r : Record) : Rect :=
  { left := bits (r.word 1) 27 16, top := bits (r.word 1) 11 0, right := bits (r.word 2) 27 16,
    bottom := bits (r.word 2) 11 0 }

/-- The code of a mode: CLEAN 0, GREY 1, TEXT 2, PEN 3. -/
def Mode.code : Mode → Nat
  | .clean => 0 | .grey => 1 | .text => 2 | .pen => 3

/-- The mode of a PAGE_COMMIT's host tag: 0 to 3 the modes, 4 AUTO (`some none`), the others undefined (R160). -/
def commitModeOf (code : Nat) : Option (Option Mode) :=
  match code with
  | 0 => some (some .clean) | 1 => some (some .grey) | 2 => some (some .text) | 3 => some (some .pen)
  | 4 => some none
  | _ => none

/-- The mode of a REFRESH mode code. -/
def refreshModeOf (code : Nat) : Option Mode :=
  match code with | 0 => some .clean | 1 => some .grey | _ => none

/-! ## Glyph-table entries -/

/-- The glyph-table entry of two words (chapter on formats). -/
def glyphOf (w0 w1 : Word) : Glyph :=
  { bitmap := bits w0 31 12, advance := bits w0 11 0, width := bits w1 31 24, height := bits w1 23 16,
    bearingX := signed8 (bits w1 15 8), bearingY := signed8 (bits w1 7 0) }

/-- Bytes in a row of a bitmap: ceil(width ÷ 2) (R57). -/
def Glyph.rowBytes (g : Glyph) : Nat := (g.width + 1) / 2

/-- Bytes of a bitmap (R57). -/
def Glyph.bitmapBytes (g : Glyph) : Nat := g.height * g.rowBytes

/-- The bad verdict in a region of `size` units (R57). -/
def Glyph.isBad (g : Glyph) (size : Nat) : Bool :=
  decide (0 < g.bitmapBytes ∧ size * Config.unitBytes < g.bitmap + g.bitmapBytes)

/-! ## PANEL timings -/

/-- A PANEL timing field: 0 takes the default, and any other value is clamped to its range (R139). -/
def timing (value low high default : Nat) : Nat :=
  if value = 0 then default else min high (max low value)

end Sys2Proof.Machine
end

