-- ==== Sys2Proof/Machine/Ops.lean ====
section
/-! DEFINITION. Named operations over the state that several blocks share: the memory map, the page slots and their
Dirty Maps, the Record Queue's figures, the update slots, the Ghost Counters and the temperature band. -/

namespace Sys2Proof.Machine

/-! ## The memory map (introduction) -/

/-- The memory size in bytes (R157). -/
def State.memBytes (s : State) : Nat := Config.memoryBytes s.straps
/-- T, the base of the reserved top. -/
def State.top (s : State) : Nat := s.memBytes - Config.reservedBytes
/-- The base of the Prior Image. -/
def State.priorBase (s : State) : Nat := s.top + Config.priorOffset
/-- The base of the Panel Image. -/
def State.panelBase (s : State) : Nat := s.top + Config.panelOffset
/-- The base of the Waveform Store. -/
def State.storeBase (s : State) : Nat := s.top + Config.storeOffset
/-- The base of the Control Ring. -/
def State.ringBase (s : State) : Nat := s.top + Config.ringOffset
/-- The base of the Report Area. -/
def State.reportBase (s : State) : Nat := s.top + Config.reportOffset
/-- The base of the Remainder. -/
def State.remainderBase (s : State) : Nat := s.top + Config.remainderOffset

/-- The address of the word that holds a byte address. -/
def wordAddr (a : Nat) : Nat := a / 4 * 4

/-- Word `k` of the Waveform Store. -/
def State.storeWord (s : State) (k : Nat) : Word := s.mem.word (s.storeBase + 4 * k)

/-! ## Page slots -/

/-- A page slot by number. -/
def State.page (s : State) (i : Fin 4) : PageSlot := s.pages[i]

/-- The state with one page slot replaced. -/
def State.setPage (s : State) (i : Fin 4) (p : PageSlot) : State := { s with pages := s.pages.set i p }

/-- A page slot is OPEN while it holds a bound region (R34). -/
def PageSlot.isOpen (p : PageSlot) : Bool := p.region.isSome

/-- A page has dirty tiles when at least one mark is set (R38). -/
def PageSlot.hasDirty (p : PageSlot) : Bool := decide (p.dirty ≠ 0)

/-- The mark of a tile. -/
def PageSlot.marked (p : PageSlot) (tile : Nat) : Bool := p.dirty.getLsbD tile

/-- The base address of a region. -/
def Region.baseAddr (r : Region) : Nat := r.base * Config.unitBytes

/-- The base address of the draft of a page slot, that of its bound region; 0 where there is none. -/
def State.draftBase (s : State) (i : Fin 4) : Nat :=
  match (s.page i).region with
  | some e => match s.regions[e] with
    | some r => r.baseAddr
    | none => 0
  | none => 0

/-- The row stride of an image, the panel width ÷ 2 bytes (conventions, Image storage). -/
def Geometry.stride (g : Geometry) : Nat := g.width / 2
/-- The image size, width × height ÷ 2 bytes (after R34). -/
def Geometry.imageBytes (g : Geometry) : Nat := g.width * g.height / 2
/-- Tiles along a row of the panel. -/
def Geometry.tileCols (g : Geometry) : Nat := g.width / 32
/-- Tile rows of the panel. -/
def Geometry.tileRows (g : Geometry) : Nat := g.height / 32

/-- The geometry in force, or one of no pixels while it is absent (R138). -/
def State.geometry (s : State) : Geometry :=
  match s.supply.geometry with
  | some g => g
  | none => { width := 0, height := 0 }

/-- The number of a tile in the Dirty Maps and Ghost Counters. -/
def tileNumber (i j : Nat) : Nat := j * Config.tileStride + i

/-- The tile of the word at byte offset `o` of an image with stride `stride` (R39). -/
def tileOfOffset (stride o : Nat) : Nat := tileNumber (o % stride / 16) (o / stride / 32)

/-- The mark of one tile. -/
def tileMask (tile : Nat) : BitVec 5120 := 1#5120 <<< tile

/-- The marks of every tile of a geometry (R36, R37, R46). -/
def Geometry.allTiles (g : Geometry) : BitVec 5120 :=
  (List.range g.tileRows).foldl
    (fun m j => m ||| (BitVec.ofNat 5120 (2 ^ g.tileCols - 1) <<< (j * Config.tileStride))) 0

/-- Sets marks in a page's Dirty Map. On a live page that has no dirty tiles, the latency timer starts with the latency
limit in force (R49). -/
def PageSlot.mark (p : PageSlot) (latencyLimit : Nat) (marks : BitVec 5120) : PageSlot :=
  { p with
    dirty := p.dirty ||| marks
    latency := if p.live && !p.hasDirty && decide (marks ≠ 0) then some latencyLimit else p.latency }

/-- Marks tiles in the Dirty Map of a page slot. -/
def State.markTiles (s : State) (i : Fin 4) (marks : BitVec 5120) : State :=
  s.setPage i ((s.page i).mark s.tune.latencyLimit marks)

/-- Marks the tiles of words that the Composer has written into a draft, given by their byte offsets (R40). -/
def State.markOffsets (s : State) (i : Fin 4) (offsets : List Nat) : State :=
  s.markTiles i (offsets.foldl (fun m o => m ||| tileMask (tileOfOffset s.geometry.stride o)) 0)

/-- A region is bound while an OPEN page slot or a font slot names it (R10). -/
def State.entryBound (s : State) (e : Fin 8) : Bool :=
  s.pages.toList.any (fun p => p.region == some e) ||
  s.fonts.toList.any (fun f => match f with | some f => f.region == e | none => false)

/-! ## The Record Queue (R27) -/

/-- The words reserved for the record under collection. -/
def Decoder.reservedWords (d : Decoder) : Nat :=
  match d.state with
  | .body _ words => headerLength (words.headD 0)
  | _ => 0

/-- The entry reserved for the record under collection. -/
def Decoder.reservedEntries (d : Decoder) : Nat :=
  match d.state with
  | .body _ _ => 1
  | _ => 0

/-- The used words: those of the queue's entries and the reservation. -/
def State.usedWords (s : State) : Nat :=
  (s.queue.map (fun r => r.words.length)).sum + s.decoder.reservedWords

/-- The entries held, with the reservation. -/
def State.usedEntries (s : State) : Nat := s.queue.length + s.decoder.reservedEntries

/-- Room for a record of `n` words (R19). -/
def State.hasRoom (s : State) (n : Nat) : Bool :=
  decide (s.usedEntries < Config.queueEntries) && decide (s.usedWords + n ≤ Config.queueWords)

/-! ## Update slots -/

/-- An update slot by number; `none` is FREE. -/
def State.update (s : State) (u : Fin 15) : Option Update := s.updates.slots[u]

/-- The state with one update slot replaced. -/
def State.setUpdate (s : State) (u : Fin 15) (x : Option Update) : State :=
  { s with updates := { s.updates with slots := s.updates.slots.set u x } }

/-- The updates of the slots that are not FREE, by slot number. -/
def State.busyUpdates (s : State) : List Update := s.updates.slots.toList.filterMap id

/-- Some slot is in the given state. -/
def State.anySlot (s : State) (st : UpdateState) : Bool := s.busyUpdates.any (fun x => x.state == st)

/-- Every slot is FREE. -/
def State.allFree (s : State) : Bool := s.busyUpdates.isEmpty

/-- The state of an update slot, absent while FREE. -/
def State.slotState (s : State) (u : Fin 15) : Option UpdateState := (s.update u).map (·.state)

/-! ## Ghost Counters (R124) -/

/-- The Ghost Counter of a tile. -/
def State.ghost (s : State) (tile : Nat) : Nat := Sparse.get Config.ghostTop s.updates.ghosts tile

/-- The tile numbers of a rectangle in tiles, in raster order. -/
def Rect.tiles (r : Rect) : List Nat :=
  (span r.top r.bottom).flatMap (fun j => (span r.left r.right).map (fun i => tileNumber i j))

/-! ## The temperature band (R128) -/

/-- The number of the store header's seven thresholds at or below a reading. -/
def State.bandOf (s : State) (reading : Int) : Nat :=
  ((List.range 7).filter (fun k => decide ((s.storeWord k).toInt ≤ reading))).length

/-- The band R128 chooses at this moment, the default band while no reading is held or the store is INVALID (R138). -/
def State.bandNow (s : State) : Nat :=
  match s.supply.reading with
  | some t => if s.supply.valid then s.bandOf t else s.tune.defaultBand
  | none => s.tune.defaultBand

/-- The length table's length for a mode and band (chapter on formats, word 8 + 8m + b). -/
def State.waveLength (s : State) (m : Mode) (band : Nat) : Nat := (s.storeWord (8 + 8 * m.code + band)).toNat

end Sys2Proof.Machine
end

