-- ==== Sys2Proof/Machine/Flags.lean ====
section
/-! DEFINITION. The Reporter's flags and reports: events and their entries (R153, R161), the words of the Status Block
(R152), their change marks, access faults (R155), the low-space flag (R27), the interrupt line (R156), and what follows
every command: the change marks and the doze timer (R159). -/

namespace Sys2Proof.Machine

/-! ## Events -/

/-- The refusal reasons (R29). -/
inductive Reason where
  | badField | notOpen | inUse | bound | overlap | tooSmall | locked | busy | noTrace | notesFull | badWaveform
  | unconfigured
deriving DecidableEq, Repr

/-- The reason codes (chapter on formats). -/
def Reason.code : Reason → Nat
  | .badField => 1 | .notOpen => 2 | .inUse => 3 | .bound => 4 | .overlap => 5 | .tooSmall => 6 | .locked => 7
  | .busy => 8 | .noTrace => 9 | .notesFull => 10 | .badWaveform => 11 | .unconfigured => 12

/-- The causes of RECORD_TORN (chapter on formats). -/
inductive TornCause where
  | partialWord | stall | restart
deriving DecidableEq, Repr

def TornCause.code : TornCause → Nat
  | .partialWord => 1 | .stall => 2 | .restart => 3

/-- The codes of the fault causes (Status Block word 7). -/
def FaultCause.code : FaultCause → Nat
  | .range => 1 | .reserved => 2 | .guarded => 3 | .region => 4

/-- The events of the part (event table of the chapter on formats). -/
inductive Event where
  | recordRefused (reason : Reason) (r : Record)
  | recordTorn (cause : TornCause) (header : Word) (offset : BitVec 12) (consumed : Nat)
  | recordOverrun (header : Word) (offset : BitVec 12)
  | resync (header : Word) (offset : BitVec 12) (hunt : Nat)
  | restarted (header : Word) (dropped : Nat)
  | lowSpace (used : Nat)
  | spaceAgain (used : Nat)
  | accessFault (addr : Word) (cause : FaultCause)
  | overflow (tag runId : Nat) (slot column : Fin 4) (index : Nat)
  | glyphsMissing (tag runId : Nat) (slot : Fin 4) (first substituted leftOut : Nat)
  | logFull (tag runId : Nat) (slot : Fin 4) (first : Nat)
  | highlightCut (tag noteId runId : Nat) (slot : Fin 4) (dropped held : Nat)
  | probeResult (tag noteId probeTag : Nat) (slot : Fin 4) (rect : Nat) (pageId : Word)
  | commitEmpty (tag : Nat) (auto : Bool) (slot : Fin 4) (number : BitVec 16)
  | updateDone (source : Option (Fin 4)) (mode : Mode) (repair : Bool) (commits : List (BitVec 16))
  | updateCancelled (source : Option (Fin 4)) (mode : Mode) (commits : List (BitVec 16))
  | panelFault (aborted : Nat)
  | panelFailed (ready : Nat)
  | tempInvalid (held : Option Int)
deriving DecidableEq, Repr

/-- A word made of fields, each a value, its lowest bit and its width; every other bit is 0 (R161). -/
def fieldsWord (fs : List (Nat × Nat × Nat)) : Word :=
  BitVec.ofNat 32 ((fs.map (fun f => f.1 % 2 ^ f.2.2 * 2 ^ f.2.1)).sum)

/-- The event kind. -/
def Event.kindCode : Event → Nat
  | .recordRefused .. => 0x01 | .recordTorn .. => 0x02 | .recordOverrun .. => 0x03 | .resync .. => 0x04
  | .restarted .. => 0x05 | .lowSpace .. => 0x06 | .spaceAgain .. => 0x07 | .accessFault .. => 0x10
  | .overflow .. => 0x20 | .glyphsMissing .. => 0x21 | .logFull .. => 0x22 | .highlightCut .. => 0x30
  | .probeResult .. => 0x40 | .commitEmpty .. => 0x50 | .updateDone .. => 0x60 | .updateCancelled .. => 0x61
  | .panelFault .. => 0x70 | .panelFailed .. => 0x71 | .tempInvalid .. => 0x72

/-- The event class (R156). -/
def Event.classOf : Event → Nat
  | .recordRefused .. | .recordTorn .. | .recordOverrun .. | .resync .. | .restarted .. | .lowSpace ..
  | .spaceAgain .. => 0
  | .accessFault .. => 1
  | .overflow .. | .glyphsMissing .. | .logFull .. => 2
  | .highlightCut .. => 3
  | .probeResult .. => 4
  | .commitEmpty .. => 5
  | .updateDone .. | .updateCancelled .. => 6
  | .panelFault .. | .panelFailed .. | .tempInvalid .. => 7

/-- The cause field of an UPDATE event: count 23–21, repair 20, mode 17–16 of the entry's first word. -/
def updateCause (mode : Mode) (repair : Bool) (commits : List (BitVec 16)) : Nat :=
  commits.length % 8 * 32 + (if repair then 16 else 0) + mode.code

/-- The reason or cause field. -/
def Event.causeField : Event → Nat
  | .recordRefused reason _ => reason.code
  | .recordTorn cause .. => cause.code
  | .accessFault _ cause => cause.code
  | .updateDone _ mode repair commits => updateCause mode repair commits
  | .updateCancelled _ mode commits => updateCause mode false commits
  | _ => 0

/-- A source in a tag field: the page slot, or 0xFF for PANEL. -/
def sourceTag : Option (Fin 4) → Nat
  | some i => i.val
  | none => 0xFF

/-- The tag field (R31 and the event tables of the chapters). -/
def Event.tagField : Event → Nat
  | .recordRefused _ r => r.tag
  | .recordTorn _ header .. => headerTag header
  | .recordOverrun header _ => headerTag header
  | .resync header .. => headerTag header
  | .restarted header _ => headerTag header
  | .overflow tag .. => tag
  | .glyphsMissing tag .. => tag
  | .logFull tag .. => tag
  | .highlightCut tag .. => tag
  | .probeResult tag .. => tag
  | .commitEmpty tag .. => tag
  | .updateDone source .. => sourceTag source
  | .updateCancelled source .. => sourceTag source
  | _ => 0

/-- Commit number `k` of a list, 0 beyond its end (R161). -/
def commitAt (commits : List (BitVec 16)) (k : Nat) : Nat := (commits.getD k 0).toNat

/-- The two payload words (event table of the chapter on formats). -/
def Event.payload : Event → Word × Word
  | .recordRefused _ r =>
    (fieldsWord [(headerKindCode r.header, 24, 8), (r.slot.val, 16, 2), (r.offset.toNat, 0, 12)], 0)
  | .recordTorn _ header offset consumed =>
    (fieldsWord [(headerKindCode header, 24, 8), (offset.toNat, 0, 12)], BitVec.ofNat 32 consumed)
  | .recordOverrun header offset =>
    (fieldsWord [(headerKindCode header, 24, 8), (offset.toNat, 0, 12)], BitVec.ofNat 32 (headerLength header))
  | .resync _ offset hunt => (fieldsWord [(offset.toNat, 0, 12)], BitVec.ofNat 32 hunt)
  | .restarted _ dropped => (0, BitVec.ofNat 32 dropped)
  | .lowSpace used => (BitVec.ofNat 32 used, 0)
  | .spaceAgain used => (BitVec.ofNat 32 used, 0)
  | .accessFault addr _ => (addr, 0)
  | .overflow _ runId slot column index =>
    (fieldsWord [(runId, 16, 16), (slot.val, 12, 2), (column.val, 8, 2)], BitVec.ofNat 32 index)
  | .glyphsMissing _ runId slot first substituted leftOut =>
    (fieldsWord [(runId, 16, 16), (slot.val, 12, 2), (first, 0, 11)],
     fieldsWord [(substituted, 16, 16), (leftOut, 0, 16)])
  | .logFull _ runId slot first => (fieldsWord [(runId, 16, 16), (slot.val, 12, 2)], BitVec.ofNat 32 first)
  | .highlightCut _ noteId runId slot dropped held =>
    (fieldsWord [(noteId, 16, 16), (runId, 0, 16)],
     fieldsWord [(slot.val, 24, 2), (dropped, 8, 10), (held, 0, 8)])
  | .probeResult _ noteId probeTag slot rect pageId =>
    (fieldsWord [(noteId, 16, 16), (probeTag, 8, 8), (slot.val, 4, 2), (rect, 0, 3)], pageId)
  | .commitEmpty _ auto slot number =>
    (fieldsWord [((if auto then 1 else 0), 24, 1), (slot.val, 16, 2), (number.toNat, 0, 16)], 0)
  | .updateDone _ _ _ commits =>
    (fieldsWord [(commitAt commits 0, 16, 16), (commitAt commits 1, 0, 16)],
     fieldsWord [(commitAt commits 2, 16, 16), (commitAt commits 3, 0, 16)])
  | .updateCancelled _ _ commits =>
    (fieldsWord [(commitAt commits 0, 16, 16), (commitAt commits 1, 0, 16)],
     fieldsWord [(commitAt commits 2, 16, 16), (commitAt commits 3, 0, 16)])
  | .panelFault aborted => (BitVec.ofNat 32 aborted, 0)
  | .panelFailed ready => (BitVec.ofNat 32 ready, 0)
  | .tempInvalid held =>
    match held with
    | some t => (fieldsWord [(1, 8, 1), ((BitVec.ofInt 8 t).toNat, 0, 8)], 0)
    | none => (0, 0)

/-- The four words of an event's entry with its time stamp (chapter on formats, R161). -/
def Event.words (e : Event) (time : Word) : List Word :=
  [fieldsWord [(e.kindCode, 24, 8), (e.causeField, 16, 8), (e.tagField, 8, 8)], time, e.payload.1, e.payload.2]

/-- The outstanding number, (P − C) mod 65536 (R153). -/
def Reporter.outstanding (r : Reporter) : Nat := (r.produced - r.consumed).toNat

/-- Raises an event: it is appended while fewer than 240 are outstanding, and otherwise dropped and counted (R153). -/
def State.raise (s : State) (e : Event) : State :=
  let r := s.reporter
  if r.outstanding < Config.eventEntries then
    let p := r.produced + 1
    let n := if r.nextIndex + 1 = Config.eventEntries then 0 else r.nextIndex + 1
    let entry : Entry :=
      { index := r.nextIndex, words := e.words s.time, enabled := s.tune.classMask.getLsbD e.classOf,
        producedAfter := p, nextAfter := n }
    { s with reporter := { r with produced := p, nextIndex := n, unwritten := r.unwritten ++ [entry] } }
  else
    { s with reporter := { r with dropped := sat16 (r.dropped + 1) } }

/-- Raises events one after another. -/
def State.raiseAll (s : State) (es : List Event) : State := es.foldl State.raise s

/-! ## Access faults (R155) -/

/-- Counts an access fault; the first since Fault Clear keeps its address and cause and raises ACCESS_FAULT. -/
def State.accessFault (s : State) (addr : BusAddr) (cause : FaultCause) : State :=
  let r := s.reporter
  if r.faultCount = 0 then
    State.raise
      { s with reporter :=
        { r with faultCount := 1, faultAddr := addr.setWidth 32, faultCause := some cause } }
      (.accessFault (addr.setWidth 32) cause)
  else
    { s with reporter := { r with faultCount := sat16 (r.faultCount + 1) } }

/-! ## The low-space flag (R27) -/

/-- The check of the used words against the marks in force, made each time either changes. -/
def State.checkSpace (s : State) : State :=
  if s.decoder.lowSpace then
    if s.usedWords ≤ 8 * s.tune.lowMark then
      State.raise { s with decoder := { s.decoder with lowSpace := false } } (.spaceAgain s.usedWords)
    else s
  else
    if 8 * s.tune.highMark ≤ s.usedWords then
      State.raise { s with decoder := { s.decoder with lowSpace := true } } (.lowSpace s.usedWords)
    else s

/-! ## The Status Block -/

/-- The decoder state code. -/
def DecoderState.code : DecoderState → Nat
  | .sync => 0 | .body .. => 1 | .skip .. => 2 | .hunt => 3

/-- The panel state code. -/
def PanelState.code : PanelState → Nat
  | .unconfigured => 0 | .off => 1 | .rising => 2 | .on => 3 | .holding => 4 | .suspended => 5 | .falling => 6
  | .failed => 7

/-- The update slot code, 0 for FREE. -/
def slotCode : Option Update → Nat
  | none => 0
  | some x => match x.state with
    | .loading => 1 | .ready => 2 | .active => 3 | .frozen => 4

/-- A flag as a bit. -/
def flag (b : Bool) : Nat := if b then 1 else 0

/-- The three bits of a page slot in word 11. -/
def PageSlot.statusBits (p : PageSlot) : Nat := flag p.isOpen + 2 * flag p.inCommit + 4 * flag p.live

/-- Word `k` of the Status Block as the quantities stand (chapter on formats). Word 0 shows P and N as they stood after
the newest written entry (R152), word 2 the 0 that the start-up clearing writes, words 18 to 63 are 0. -/
def State.statusWord (s : State) (k : Nat) : Word :=
  let r := s.reporter
  match k with
  | 0 => fieldsWord [(r.writtenNext, 16, 8), (r.writtenProduced.toNat, 0, 16)]
  | 1 => fieldsWord [(r.consumed.toNat, 0, 16)]
  | 3 => fieldsWord [(r.dropped, 0, 16)]
  | 4 => fieldsWord [(s.decoder.state.code, 24, 2), (s.decoder.ep.toNat, 0, 12)]
  | 5 => fieldsWord [(Config.queueEntries - s.usedEntries, 16, 6), (Config.queueWords - s.usedWords, 0, 12)]
  | 6 => fieldsWord [(s.decoder.stray, 16, 16), (s.decoder.skipped, 0, 16)]
  | 7 => fieldsWord [((match r.faultCause with | some c => c.code | none => 0), 16, 4), (r.faultCount, 0, 16)]
  | 8 => r.faultAddr
  | 9 => fieldsWord [(s.updates.repairs.length, 24, 4), (s.commit.pending.length, 16, 6),
                     (s.commit.nextNumber.toNat, 0, 16)]
  | 10 => fieldsWord [((match s.supply.reading with | some t => (BitVec.ofInt 8 t).toNat | none => 0), 16, 8),
                      (flag s.supply.reading.isSome, 15, 1), (s.bandNow, 8, 3), (flag s.supply.valid, 4, 1),
                      (s.supply.panel.code, 0, 4)]
  | 11 => fieldsWord [((s.page 0).statusBits, 0, 3), ((s.page 1).statusBits, 8, 3), ((s.page 2).statusBits, 16, 3),
                      ((s.page 3).statusBits, 24, 3)]
  | 12 => (s.page 0).pageId
  | 13 => (s.page 1).pageId
  | 14 => (s.page 2).pageId
  | 15 => (s.page 3).pageId
  | 16 => fieldsWord ((s.updates.slots.toList.take 8).zipIdx.map (fun u => (slotCode u.1, 4 * u.2, 3)))
  | 17 => fieldsWord ((s.updates.slots.toList.drop 8).zipIdx.map (fun u => (slotCode u.1, 4 * u.2, 3)))
  | _ => 0

/-- The Status Block words whose change marks are set by comparing what they show: every word of a Reporter field but
the host-written words 1 and 2 (R152, R154). -/
def comparedWords : List Nat := [0, 3, 4, 5, 6, 7, 8, 9, 10, 11, 12, 13, 14, 15, 16, 17]

/-- The marks of the words that show a new value after a command (R152). -/
def changedMarks (before after : State) : BitVec 18 :=
  comparedWords.foldl
    (fun m k => if before.statusWord k ≠ after.statusWord k then m ||| (1#18 <<< k) else m) 0

/-- A mark of a Status Block word. -/
def statusMark (k : Nat) : BitVec 18 := 1#18 <<< k

/-- The state with change marks added. -/
def State.addMarks (s : State) (marks : BitVec 18) : State :=
  { s with reporter := { s.reporter with marks := s.reporter.marks ||| marks } }

/-- A quantity that a Status Block word shows has changed: the word is marked, whatever becomes of the quantity later in
the same command (R152). -/
def State.touchStatus (s : State) (k : Nat) : State := s.addMarks (statusMark k)

/-- The Reporter has nothing unwritten (R152). -/
def Reporter.nothingUnwritten (r : Reporter) : Bool := r.unwritten.isEmpty && decide (r.marks = 0)

/-! ## The interrupt line (R156) -/

/-- The interrupt line: asserted while a pulse runs, and in LEVEL mode while attention is set (log entry 14). -/
def State.interruptLine (s : State) : Bool :=
  s.reporter.pulse || (!s.tune.pulseMode && s.reporter.attention)

/-! ## Doze (R159) -/

/-- The panel state allows doze and a PANEL record: UNCONFIGURED, OFF or FAILED. -/
def PanelState.isDown : PanelState → Bool
  | .unconfigured | .off | .failed => true
  | _ => false

/-- The idle conditions (R159). -/
def State.idleConditions (s : State) : Bool :=
  s.tune.dozeEnable && s.supply.panel.isDown && s.allFree && s.commit.pending.isEmpty && s.updates.repairs.isEmpty &&
  s.queue.isEmpty && (match s.decoder.state with | .sync | .hunt => true | _ => false) &&
  (match s.composer with | .idle => true | _ => false) &&
  (match s.commit.state with | .idle => true | _ => false) &&
  s.pages.toList.all (fun p => !(p.live && p.hasDirty)) && s.reporter.nothingUnwritten &&
  decide (s.supply.readingsAsked = 0) && (match s.startup with | .running => true | _ => false)

/-- The doze timer starts when the idle conditions come to hold while AWAKE, and is stopped when one ceases to hold. -/
def State.watchDoze (s : State) : State :=
  if s.doze.dozing then s
  else if s.idleConditions then
    match s.doze.timer with
    | some _ => s
    | none => { s with doze := { s.doze with timer := some s.tune.dozeDelay } }
  else { s with doze := { s.doze with timer := none } }

/-- What follows every command: the Status Block words that show a new value are marked, and the doze timer is
looked at. -/
def conclude (before after : State) : State := (after.addMarks (changedMarks before after)).watchDoze

/-- The answer of a command that finds its occasion. -/
def proceed (before after : State) : Host.Outcome State Fault Refusal := .next (conclude before after)

/-- The answer of a command whose occasion does not stand: the event it names cannot happen in this state (a stopped
timer does not expire, a block that is busy takes nothing), and nothing changes (log entry 4). -/
def noOccasion (s : State) : Host.Outcome State Fault Refusal := .next s

end Sys2Proof.Machine
end

