-- ==== Sys2Proof/Machine/Records.lean ====
section
/-! DEFINITION. How the Composer takes, executes and ends records (R28, R29), and the records it executes by itself that
belong to no other chapter: NOP (R30) and TUNE (R32). -/

namespace Sys2Proof.Machine

/-! ## Shared operations -/

/-- The record taken and not yet carried out (R28). -/
def State.recordInHand (s : State) : Option Record :=
  match s.composer with
  | .taken => s.queue.head?
  | _ => none

/-- The record in execution, at whatever stage (R28). -/
def State.headRecord (s : State) : Record := s.queue.headD { offset := 0, words := [] }

/-- Execution of the record has ended; the Composer is to remove it (R28). -/
def State.endExecution (s : State) : State := { s with composer := .ended }

/-- A record is refused with a reason: RECORD_REFUSED is raised and execution ends; nothing else changes (R29). -/
def State.refuse (s : State) (r : Record) (reason : Reason) : State :=
  (s.raise (.recordRefused reason r)).endExecution

/-- The shape of every record command: where the record taken fits the command, the command is carried out. -/
def onRecord (s : State) (fits : Record → Bool) (run : Record → State) : Host.Outcome State Fault Refusal :=
  match s.recordInHand with
  | some r => if fits r then proceed s (run r) else noOccasion s
  | none => noOccasion s

/-- The record is of a kind. -/
def Record.isKind (r : Record) (k : RecordKind) : Bool := r.kind == some k

/-- The first failing check of a list, in its order, each a condition with the reason it refuses with. -/
def firstFailing : List (Bool × Reason) → Option Reason
  | [] => none
  | (fails, reason) :: rest => if fails then some reason else firstFailing rest

/-- Checks made in order, the record refused at the first that fails and otherwise carried out (R29). -/
def State.checked (s : State) (r : Record) (checks : List (Bool × Reason)) (carryOut : State) : State :=
  match firstFailing checks with
  | some reason => s.refuse r reason
  | none => carryOut

/-! ## Taking and ending -/

/-- RECORD_TAKE (R28): with no record in execution, the queue not empty and the start-up clearing ended, the oldest
record is taken. -/
def execRecordTake (s : State) : Host.Outcome State Fault Refusal :=
  match s.startup, s.composer, s.queue with
  | .running, .idle, _ :: _ => proceed s { s with composer := .taken }
  | _, _, _ => noOccasion s

/-- RECORD_EXECUTION_END (R28): the record whose execution has ended is removed, which frees its entry and words; the
used words are checked against the marks (R27). -/
def execRecordExecutionEnd (s : State) : Host.Outcome State Fault Refusal :=
  match s.composer with
  | .ended => proceed s (State.checkSpace { s with composer := .idle, queue := s.queue.tail })
  | _ => noOccasion s

/-- NOP (R30): execution ends at once, with no effect and no event. -/
def execNop (s : State) : Host.Outcome State Fault Refusal :=
  onRecord s (·.isKind .nop) (fun _ => s.endExecution)

/-! ## TUNE (R32) -/

/-- A TUNE field: all ones leaves the stored value, and any other value is clamped to the nearest end of its range. -/
def tuned (value allOnes low high stored : Nat) : Nat :=
  if value = allOnes then stored else min high (max low value)

/-- The tunable limits after a TUNE record: each field in turn, then the two dependent pairs (R32).
DESIGN CHOICE (log entry 25): R32 says only `a fixed order`; here the high mark and the settle time are stored first, and
the low mark and the latency limit of the same record are clamped to the ranges that those new values give. -/
def Tunables.after (t : Tunables) (r : Record) : Tunables :=
  let high := tuned (r.tuneField 69 9) 511 8 256 t.highMark
  let low := tuned (r.tuneField 60 9) 511 0 (high - 1) t.lowMark
  let settle := tuned (r.tuneField 51 9) 511 1 255 t.settleTime
  let latency := tuned (r.tuneField 42 9) 511 settle 255 t.latencyLimit
  { stallTimeout := tuned (r.tuneField 87 9) 511 0 255 t.stallTimeout
    holdLimit := tuned (r.tuneField 78 9) 511 0 255 t.holdLimit
    highMark := high
    lowMark := if low < high then low else high - 1
    settleTime := settle
    latencyLimit := if latency < settle then settle else latency
    ghostLimit := tuned (r.tuneField 35 7) 127 1 63 t.ghostLimit
    panelHold := tuned (r.tuneField 26 9) 511 0 255 t.panelHold
    defaultBand := tuned (r.tuneField 22 4) 15 0 7 t.defaultBand
    pulseMode := decide (tuned (r.tuneField 20 2) 3 0 1 (flag t.pulseMode) = 1)
    classMask := BitVec.ofNat 8 (tuned (r.tuneField 11 9) 511 0 255 t.classMask.toNat)
    dozeEnable := decide (tuned (r.tuneField 9 2) 3 0 1 (flag t.dozeEnable) = 1)
    dozeDelay := tuned (r.tuneField 0 9) 511 1 255 t.dozeDelay }

/-- TUNE (R32, R33): the limits are updated, the marks are checked against the used words at once, and a change of the
interrupt mode to LEVEL drops the pulses not yet begun (R156, log entry 14).
DESIGN CHOICE (log entry 30): R32 and R33 do not say which class mask governs a LOW_SPACE or SPACE_AGAIN that a TUNE of
both a mark and the mask raises; here every limit is stored first, so the new mask does. -/
def execTune (s : State) : Host.Outcome State Fault Refusal :=
  onRecord s (·.isKind .tune) (fun r =>
    let t := s.tune.after r
    let queued := if t.pulseMode then s.reporter.pulsesQueued else 0
    (State.checkSpace
      { s with tune := t, reporter := { s.reporter with pulsesQueued := queued } }).endExecution)

end Sys2Proof.Machine
end

