-- ==== Sys2Proof/Machine/Fonts.lean ====
section
/-! DEFINITION. Font slots and FONT_BIND (R52 to R55), and the Glyph Cache with its replacement and invalidation (R57,
R61 to R64). -/

namespace Sys2Proof.Machine

/-! ## Font slots -/

/-- The binding of a font slot. -/
def State.font (s : State) (f : Fin 8) : Option Font := s.fonts[f]

/-- The ascent of a font slot, 0 for an unbound one (R55). -/
def State.ascent (s : State) (f : Fin 8) : Nat := match s.font f with | some b => b.ascent | none => 0

/-- The descent of a font slot, 0 for an unbound one (R55). -/
def State.descent (s : State) (f : Fin 8) : Nat := match s.font f with | some b => b.descent | none => 0

/-- The base address of the region of a binding. -/
def State.fontBase (s : State) (b : Font) : Nat :=
  match s.regions[b.region] with | some r => r.baseAddr | none => 0

/-- The size, in units, of the region of a binding. -/
def State.fontUnits (s : State) (b : Font) : Nat :=
  match s.regions[b.region] with | some r => r.size | none => 0

/-- The byte address of the glyph-table entry of a code (R56). -/
def State.glyphAddr (s : State) (b : Font) (code : Nat) : Nat := s.fontBase b + b.tableOffset + 8 * code

/-! ## The Glyph Cache -/

/-- The valid entry with a key, if there is one (R61). -/
def cacheFind (c : List CacheEntry) (f : Fin 8) (code : Nat) : Option CacheEntry :=
  c.find? (fun e => e.font == f && e.code == code)

/-- The entry with a key moved to the most recent place (R61). -/
def cacheTouch (c : List CacheEntry) (e : CacheEntry) : List CacheEntry :=
  e :: c.filter (fun x => !(x.font == e.font && x.code == e.code))

/-- The lowest-numbered invalid entry, if any entry is invalid (R62). -/
def cacheFree (c : List CacheEntry) : Option Nat :=
  (List.range Config.cacheEntries).find? (fun n => !(c.any (fun e => e.number == n)))

/-- An entry installed in the most recent place: in the lowest-numbered invalid entry, or else in place of the least
recent one (R62). -/
def cacheInstall (c : List CacheEntry) (f : Fin 8) (code : Nat) (g : Glyph) (bad : Bool) : List CacheEntry :=
  match cacheFree c with
  | some n => { number := n, font := f, code := code, glyph := g, bad := bad } :: c
  | none =>
    match c.getLast? with
    | some old => { number := old.number, font := f, code := code, glyph := g, bad := bad } :: c.dropLast
    | none => [{ number := 0, font := f, code := code, glyph := g, bad := bad }]

/-- Every entry of a font slot invalidated (R64). -/
def cacheDropFont (c : List CacheEntry) (f : Fin 8) : List CacheEntry := c.filter (fun e => !(e.font == f))

/-- A host write into a FONT region: every entry whose font slot is bound to the region is invalidated (R63). -/
def State.invalidateRegion (s : State) (e : Fin 8) : State :=
  { s with cache := s.cache.filter (fun x =>
      !(match s.font x.font with | some b => b.region == e | none => false)) }

/-! ## FONT_BIND -/

/-- Two special codes are equal and not 0xFFFF (R53). -/
def Font.codesClash (b : Font) : Bool :=
  let clash := fun (x y : BitVec 16) => x == y && x != 0xFFFF
  clash b.space b.hyphen || clash b.space b.newline || clash b.hyphen b.newline

/-- The checks of a FONT_BIND record whose unbind flag is clear, in their order (R53). -/
def State.fontChecks (s : State) (r : Record) : List (Bool × Reason) :=
  let b := r.fontFields
  match s.regions[b.region] with
  | some region =>
    [(decide (region.kind ≠ .font) || decide (b.tableOffset % 8 ≠ 0) || b.codesClash, .badField),
     (decide (region.size * Config.unitBytes < b.tableOffset + 8 * b.count), .tooSmall)]
  | none => [(true, .badField)]

/-- FONT_BIND with the unbind flag clear: the slot takes the record's binding and its cached entries are invalidated
(R54, R64). -/
def execFontBind (s : State) : Host.Outcome State Fault Refusal :=
  onRecord s (fun r => r.isKind .fontBind && !r.fontUnbind) (fun r =>
    s.checked r (s.fontChecks r)
      (State.endExecution
        { s with fonts := s.fonts.set r.fontSlot (some r.fontFields), cache := cacheDropFont s.cache r.fontSlot }))

/-- FONT_BIND with the unbind flag set: never refused; the slot becomes unbound and its cached entries are invalidated
(R53, R54, R64). -/
def execFontUnbind (s : State) : Host.Outcome State Fault Refusal :=
  onRecord s (fun r => r.isKind .fontBind && r.fontUnbind) (fun r =>
    State.endExecution
      { s with fonts := s.fonts.set r.fontSlot none, cache := cacheDropFont s.cache r.fontSlot })

end Sys2Proof.Machine
end

