-- ==== Sys2Proof/Machine/Paint.lean ====
section
/-! DEFINITION. The Composer's long works on a draft that need no text: painting rectangles (PAGE_OPEN's fill, FILL,
bands and underlines) and copying an image, one grant of the Downstream Port at a time (R9, R37, R46, R47, R96, R97). -/

namespace Sys2Proof.Machine

/-- One transfer that an engine asks of the Downstream Port: 1 to 8 words at consecutive word addresses, all reads or
all writes (introduction to R7). -/
structure Access where
  addr : Nat
  words : Nat
  write : Bool
deriving DecidableEq, Repr

/-! ## Painting -/

/-- The first word column of a rectangle's rows. -/
def Rect.firstCol (r : Rect) : Nat := r.left / 8
/-- The word column just past a rectangle's rows. -/
def Rect.endCol (r : Rect) : Nat := (r.right + 7) / 8

/-- The eight pixels of a word column all lie within the rectangle's span. -/
def Rect.coversCol (r : Rect) (col : Nat) : Bool := decide (r.left ≤ 8 * col) && decide (8 * col + 8 ≤ r.right)

/-- The whole words of a row from a word column on, at most eight, that SET writes in one grant without a read. -/
def Rect.wholeRun (r : Rect) (col : Nat) : Nat := min Config.grantWords (r.right / 8 - col)

/-- A rectangle brought within the panel (R47, R92). -/
def Rect.clampTo (r : Rect) (g : Geometry) : Rect :=
  { left := min r.left g.width, top := min r.top g.height, right := min r.right g.width,
    bottom := min r.bottom g.height }

/-- The new level of a painted pixel (R47). -/
def PaintOp.level (op : PaintOp) (old tone : Nat) : Nat :=
  match op with
  | .set => tone
  | .multiply => highlightMultiply old tone

/-- A word with the pixels of a word column that lie in the rectangle painted, and the others kept (R47). -/
def Paint.word (p : Paint) (col : Nat) (old : Word) : Word :=
  wordOfPixels (fun k =>
    if p.rect.left ≤ 8 * col + k ∧ 8 * col + k < p.rect.right then p.op.level (pixel old k) p.tone else pixel old k)

/-- The painting of a list of rectangles, those that hold no pixel left out. -/
def Painting.start (slot : Fin 4) (base stride : Nat) (paints : List Paint) : Painting :=
  let work := paints.filter (fun p => p.rect.nonempty)
  let first := (work.headD { rect := { left := 0, top := 0, right := 0, bottom := 0 }, op := .set, tone := 0 }).rect
  { slot := slot, base := base, stride := stride, paints := work, row := first.top, col := first.firstCol,
    held := none }

/-- The byte offset, within the image, of the word reached. -/
def Painting.offset (p : Painting) : Nat := p.row * p.stride + 4 * p.col

/-- Whether the word reached is written whole, without a read: SET over eight pixels of the rectangle (R47). -/
def Painting.whole (p : Painting) (j : Paint) : Bool :=
  (match j.op with | .set => true | .multiply => false) && j.rect.coversCol p.col

/-- The painting with `n` words of the current row done: the next word, the next row or the next rectangle. -/
def Painting.advance (p : Painting) (n : Nat) : Painting :=
  match p.paints with
  | [] => p
  | j :: rest =>
    if p.col + n < j.rect.endCol then { p with col := p.col + n, held := none }
    else if p.row + 1 < j.rect.bottom then { p with row := p.row + 1, col := j.rect.firstCol, held := none }
    else
      match rest with
      | [] => { p with paints := [], held := none }
      | k :: _ => { p with paints := rest, row := k.rect.top, col := k.rect.firstCol, held := none }

/-- The grant a painting asks for: the write-back of the word under read-modify-write, a write of whole words, or the
read of a word to be changed. -/
def Painting.access (p : Painting) : Option Access :=
  match p.paints with
  | [] => none
  | j :: _ =>
    match p.held with
    | some _ => some { addr := p.base + p.offset, words := 1, write := true }
    | none =>
      if p.whole j then some { addr := p.base + p.offset, words := max 1 (j.rect.wholeRun p.col), write := true }
      else some { addr := p.base + p.offset, words := 1, write := false }

/-- The Composer goes on painting, or ends execution when nothing is left to paint. -/
def State.resumePainting (s : State) (p : Painting) : State :=
  if p.paints.isEmpty then s.endExecution else { s with composer := .painting p }

/-- A grant of a painting, run to its end: each word written marks its tile (R40). -/
def State.servePainting (s : State) (p : Painting) : State :=
  match p.paints with
  | [] => s
  | j :: _ =>
    let o := p.offset
    match p.held with
    | some old =>
      State.resumePainting
        (State.markOffsets { s with mem := s.mem.setWord (p.base + o) (j.word p.col old) } p.slot [o]) (p.advance 1)
    | none =>
      if p.whole j then
        let n := max 1 (j.rect.wholeRun p.col)
        State.resumePainting
          (State.markOffsets
            { s with mem := s.mem.setWords (p.base + o) (List.replicate n (wordOfTone j.tone)) } p.slot
            ((List.range n).map (fun k => o + 4 * k)))
          (p.advance n)
      else { s with composer := .painting { p with held := some (s.mem.word (p.base + o)) } }

/-- Begins painting rectangles into the draft of a page slot; with nothing to paint, execution ends at once. -/
def State.beginPainting (s : State) (slot : Fin 4) (paints : List Paint) : State :=
  s.resumePainting (Painting.start slot (s.draftBase slot) s.geometry.stride paints)

/-! ## Copying -/

/-- The grant a copy asks for: the read of up to eight words of the source, then the write of the words read (R46). -/
def Copying.access (c : Copying) : Option Access :=
  if c.buffer.isEmpty then
    (if c.next < c.total then
      some { addr := c.sourceBase + 4 * c.next, words := min Config.grantWords (c.total - c.next), write := false }
     else none)
  else some { addr := c.destBase + 4 * c.next, words := c.buffer.length, write := true }

/-- A grant of a copy, run to its end (R46). -/
def State.serveCopying (s : State) (c : Copying) : State :=
  if c.buffer.isEmpty then
    let n := min Config.grantWords (c.total - c.next)
    { s with composer := .copying { c with buffer := s.mem.words (c.sourceBase + 4 * c.next) n } }
  else
    let n := c.buffer.length
    let s' := State.markOffsets { s with mem := s.mem.setWords (c.destBase + 4 * c.next) c.buffer } c.dest
      ((List.range n).map (fun k => 4 * (c.next + k)))
    if c.next + n < c.total then { s' with composer := .copying { c with next := c.next + n, buffer := [] } }
    else s'.endExecution

end Sys2Proof.Machine
end

