-- ==== Sys2Proof/Machine/Notes.lean ====
section
/-! DEFINITION. The Highlight Unit and the Note Anchor Table (R87 to R102). -/

namespace Sys2Proof.Machine

/-! ## The table -/

/-- The note keyed by a page slot and a note id (R87). -/
def State.findNote (s : State) (i : Fin 4) (id : Nat) : Option Note :=
  s.notes.find? (fun n => n.slot == i && n.id == id)

/-- The notes of a page slot. -/
def State.notesOf (s : State) (i : Fin 4) : List Note := s.notes.filter (fun n => n.slot == i)

/-- Every note of a page slot removed (R89). -/
def State.dropNotes (s : State) (i : Fin 4) : State := { s with notes := s.notes.filter (fun n => !(n.slot == i)) }

/-- The top of the creation counter (R88). -/
def sequenceTop : Nat := 0xFFFF_FFFF

/-- At the top of the counter every note is renumbered 0, 1, 2 … in its order, and the counter set to their number
(R88). -/
def State.renumberNotes (s : State) : State :=
  if s.noteCounter = sequenceTop then
    { s with notes := s.notes.zipIdx.map (fun p => { p.1 with sequence := p.2 }), noteCounter := s.notes.length }
  else s

/-- A note is created: it takes the counter's value as its creation sequence, and the counter increases by 1 (R88). -/
def State.createNote (s : State) (n : Note) : State :=
  let s' := s.renumberNotes
  { s' with notes := s'.notes ++ [{ n with sequence := s'.noteCounter }], noteCounter := s'.noteCounter + 1 }

/-- The notes of one page slot copied to another, after those of the destination are removed (R89). -/
def State.copyNotes (s : State) (source dest : Fin 4) : State :=
  (s.notesOf source).foldl
    (fun s n => s.createNote { n with slot := dest, pageId := (s.page dest).pageId }) (s.dropNotes dest)

/-! ## Selection and lines (R91, R92) -/

/-- A Word Log entry belongs to the selection: the run id is the record's and the glyph ranges meet (R91). -/
def LogEntry.selected (e : LogEntry) (runId first last : Nat) : Bool :=
  decide (e.runId = runId) && decide (max first e.first ≤ min last (e.first + e.count - 1)) && decide (0 < e.count)

/-- The entries of a selection (R91). -/
def State.selection (s : State) (r : Record) : List LogEntry :=
  (s.page r.slot).log.filter (fun e => e.selected r.highlightRun r.highlightFirst r.highlightLast)

/-- Two entries belong to the same line (R92). -/
def LogEntry.sameLine (a b : LogEntry) : Bool := a.column == b.column && a.baseline == b.baseline

/-- The first entry of each line, in log order (R92). -/
def lineHeads : List LogEntry → List LogEntry → List LogEntry
  | _, [] => []
  | seen, e :: es => if seen.any (·.sameLine e) then lineHeads seen es else e :: lineHeads (e :: seen) es

/-- A rectangle of a line with the line's baseline. -/
structure LineRect where
  rect : Rect
  baseline : Nat
deriving DecidableEq, Repr

/-- A whole number brought into 0 to `top`. -/
def clampInt (x : Int) (top : Nat) : Nat := min x.toNat top

/-- The largest of a list of counts, 0 for none. -/
def largestNat (xs : List Nat) : Nat := xs.foldl max 0

/-- The rectangle of the line that an entry heads (R92). -/
def State.lineRect (s : State) (sel : List LogEntry) (head : LogEntry) : LineRect :=
  let es := sel.filter (·.sameLine head)
  let g := s.geometry
  let left := (es.map (·.xLeft)).foldl min head.xLeft
  let right := (es.map (·.xRight)).foldl max head.xRight
  let up := largestNat (es.map (fun e => s.ascent e.font))
  let down := largestNat (es.map (fun e => s.descent e.font))
  { rect := { left := clampInt left g.width, right := clampInt right g.width,
              top := clampInt ((head.baseline : Int) - up) g.height, bottom := min (head.baseline + down) g.height }
    baseline := head.baseline }

/-- The rectangles of a selection's lines, those that contain no pixel passed over (R92). -/
def State.lineRects (s : State) (sel : List LogEntry) : List LineRect :=
  ((lineHeads [] sel).map (s.lineRect sel)).filter (fun l => l.rect.nonempty)

/-! ## HIGHLIGHT -/

/-- The rectangles of R92 that are not passed over: those equal to none the note holds and to none taken earlier in the
same step (R94). -/
def freshRects : List Rect → List LineRect → List LineRect
  | _, [] => []
  | seen, l :: ls => if seen.contains l.rect then freshRects seen ls else l :: freshRects (l.rect :: seen) ls

/-- The rectangles of R92 taken in order against those a note holds: which are appended, while the note holds fewer than
8, and how many are dropped (R94). -/
def takeRects (held : List Rect) (lines : List LineRect) : List LineRect × Nat :=
  let fresh := freshRects held lines
  let more := fresh.take (Config.noteRects - held.length)
  (more, fresh.length - more.length)

/-- The two rows of an underline, those at or beyond the panel height not drawn (R97). -/
def underlineRows (l : LineRect) (tone height : Nat) : List Paint :=
  ([l.baseline + 1, l.baseline + 2].filter (fun y => decide (y < height))).map (fun y =>
    { rect := { left := l.rect.left, top := y, right := l.rect.right, bottom := y + 1 }, op := .set, tone := tone })

/-- What is painted for the rectangles drawn in a style and tone (R96, R97). -/
def notePaints (style : NoteStyle) (tone height : Nat) (ls : List LineRect) : List Paint :=
  match style with
  | .band => ls.map (fun l => { rect := l.rect, op := .multiply, tone := tone })
  | .underline => ls.flatMap (fun l => underlineRows l tone height)

/-- HIGHLIGHT_CUT when rectangles were dropped (R95). -/
def State.raiseCut (s : State) (r : Record) (dropped held : Nat) : State :=
  if dropped = 0 then s
  else s.raise (.highlightCut r.tag r.highlightNote r.highlightRun r.slot dropped held)

/-- A note with its rectangles extended. -/
def State.extendNote (s : State) (n : Note) (rects : List Rect) : State :=
  { s with notes := s.notes.map (fun m => if m.slot == n.slot && m.id == n.id then { m with rects := m.rects ++ rects }
      else m) }

/-- The checks of a HIGHLIGHT record, in their order (R90). -/
def State.highlightChecks (s : State) (r : Record) : List (Bool × Reason) :=
  [(!(s.page r.slot).isOpen, .notOpen),
   (decide (r.highlightNote = 0) || (styleOf r.highlightStyle).isNone, .badField),
   ((s.lineRects (s.selection r)).isEmpty, .noTrace),
   ((s.findNote r.slot r.highlightNote).isNone && decide (Config.noteEntries ≤ s.notes.length), .notesFull)]

/-- A HIGHLIGHT carried out: the note is created or added to, HIGHLIGHT_CUT is raised if rectangles were dropped, and the
drawing begins (R93 to R97). -/
def State.doHighlight (s : State) (r : Record) : State :=
  let lines := s.lineRects (s.selection r)
  match s.findNote r.slot r.highlightNote with
  | some n =>
    let (more, dropped) := takeRects n.rects lines
    let s1 := s.extendNote n (more.map (·.rect))
    State.beginPainting (s1.raiseCut r dropped (n.rects.length + more.length)) r.slot
      (notePaints n.style n.tone s.geometry.height more)
  | none =>
    let first := lines.take Config.noteRects
    let style := (styleOf r.highlightStyle).getD .band
    let s1 := s.createNote
      { slot := r.slot, id := r.highlightNote, pageId := (s.page r.slot).pageId, style := style,
        tone := r.highlightTone, sequence := 0, rects := first.map (·.rect) }
    State.beginPainting (s1.raiseCut r (lines.length - first.length) first.length) r.slot
      (notePaints style r.highlightTone s.geometry.height first)

/-- HIGHLIGHT (R90 to R98). -/
def execHighlight (s : State) : Host.Outcome State Fault Refusal :=
  onRecord s (·.isKind .highlight) (fun r => s.checked r (s.highlightChecks r) (s.doHighlight r))

/-! ## NOTE_CLEAR (R100) -/

/-- The checks of a NOTE_CLEAR record, in their order (R100). -/
def State.clearChecks (s : State) (r : Record) : List (Bool × Reason) :=
  [(!(s.page r.slot).isOpen, .notOpen),
   (decide (1 < r.clearScope) || (decide (r.clearScope = 0) && decide (r.clearNote = 0)), .badField)]

/-- NOTE_CLEAR with scope ONE: the note keyed by the slot and the note id is removed if it stands. A record with an
undefined scope is refused by either of the two commands. -/
def execNoteClearOne (s : State) : Host.Outcome State Fault Refusal :=
  onRecord s (fun r => r.isKind .noteClear && decide (r.clearScope ≠ 1)) (fun r =>
    s.checked r (s.clearChecks r)
      (State.endExecution
        { s with notes := s.notes.filter (fun n => !(n.slot == r.slot && n.id == r.clearNote)) }))

/-- NOTE_CLEAR with scope ALL: every note of the slot is removed. -/
def execNoteClearAll (s : State) : Host.Outcome State Fault Refusal :=
  onRecord s (fun r => r.isKind .noteClear && decide (r.clearScope ≠ 0)) (fun r =>
    s.checked r (s.clearChecks r) (s.dropNotes r.slot).endExecution)

/-! ## PROBE (R101, R102) -/

/-- The younger of two notes, by creation sequence (R88). -/
def younger (a b : Note) : Note := if a.sequence < b.sequence then b else a

/-- The youngest of some notes. -/
def youngest : List Note → Option Note
  | [] => none
  | n :: ns => some (ns.foldl younger n)

/-- The answer of a probe: the youngest note of the slot that holds a rectangle containing the point (R101). -/
def State.probeAnswer (s : State) (i : Fin 4) (x y : Nat) : Option Note :=
  match s.supply.geometry with
  | none => none
  | some g =>
    if x < g.width ∧ y < g.height then
      youngest ((s.notesOf i).filter (fun n => n.rects.any (·.contains x y)))
    else none

/-- The event of a probe: the note, its first rectangle that contains the point and its page id, or zeros (R102). -/
def State.probeEvent (s : State) (r : Record) : Event :=
  match s.probeAnswer r.slot r.probeX r.probeY with
  | some n =>
    .probeResult r.tag n.id r.probeTag r.slot (n.rects.findIdx (·.contains r.probeX r.probeY)) n.pageId
  | none => .probeResult r.tag 0 r.probeTag r.slot 0 0

/-- PROBE: never refused, one PROBE_RESULT (R101, R102). -/
def execProbe (s : State) : Host.Outcome State Fault Refusal :=
  onRecord s (·.isKind .probe) (fun r => (s.raise (s.probeEvent r)).endExecution)

end Sys2Proof.Machine
end

