-- ==== Sys2Proof/Machine/Commits.lean ====
section
/-! DEFINITION. The Commit Engine: its grants, commit numbers, the diff, appending and merging into the Pending List, the
end of a commit and cancellation (R103 to R120), with what a discard does (R43, R44) and the live pages' timers (R48 to
R51). -/

namespace Sys2Proof.Machine

/-! ## The Pending List -/

/-- Raises the call for a consideration of starts (R125). -/
def State.callConsideration (s : State) : State := { s with updates := { s.updates with due := true } }

/-- The stronger of two modes, in the order CLEAN, GREY, TEXT, PEN (R116). -/
def Mode.stronger (a b : Mode) : Mode := if a.code ≤ b.code then a else b

/-- An entry is a candidate for a request in hand (R115). -/
def Request.isCandidate (p r : Request) : Bool :=
  decide (p.source = r.source) && (p.rect.overlaps r.rect || p.rect.sharesEdge r.rect) &&
  decide (p.commits.length < Config.commitsPerEntry)

/-- A list cut at the last element with a property: what stands before it, the element, what stands after it. -/
def cutAtLast {α : Type} (p : α → Bool) : List α → Option (List α × α × List α)
  | [] => none
  | x :: xs =>
    match cutAtLast p xs with
    | some (before, y, after) => some (x :: before, y, after)
    | none => if p x then some ([], x, xs) else none

/-- The merge of a request into an entry: the union, the stronger mode, the commit number added at the end (R116). -/
def Request.merged (p r : Request) : Request :=
  { p with rect := p.rect.union r.rect, mode := p.mode.stronger r.mode, commits := p.commits ++ r.commits }

/-- The Pending List with a request merged into its candidate, where the candidate exists and no younger entry overlaps
the union (R115). -/
def mergePending (pending : List Request) (r : Request) : Option (List Request) :=
  match cutAtLast (fun p => p.isCandidate r) pending with
  | some (before, p, younger) =>
    if younger.all (fun q => !(q.rect.overlaps (p.rect.union r.rect))) then some (before ++ p.merged r :: younger)
    else none
  | none => none

/-! ## Cancellation (R119, R120) -/

/-- UPDATE_CANCELLED for each of some entries, oldest first. -/
def cancelEvents (source : Option (Fin 4)) (es : List Request) : List Event :=
  es.map (fun e => .updateCancelled source e.mode e.commits)

/-- A discard removes every Pending List entry whose source is the page slot (R119). -/
def State.cancelPage (s : State) (i : Fin 4) : State :=
  let gone := s.commit.pending.filter (fun e => decide (e.source = some i))
  let kept := s.commit.pending.filter (fun e => !decide (e.source = some i))
  let s1 := State.raiseAll { s with commit := { s.commit with pending := kept } } (cancelEvents (some i) gone)
  if gone.isEmpty then s1 else s1.callConsideration

/-- A geometry change removes every Pending List entry (R120). -/
def State.cancelAll (s : State) : State :=
  let gone := s.commit.pending
  let s1 := State.raiseAll { s with commit := { s.commit with pending := [] } } (cancelEvents none gone)
  if gone.isEmpty then s1 else s1.callConsideration

/-! ## Discards (R43, R44) -/

/-- A discard takes effect (R44): the Pending List entries of the slot are cancelled, its notes removed and the slot
CLOSED. -/
def State.discardPage (s : State) (i : Fin 4) : State :=
  ((s.cancelPage i).setPage i PageSlot.reset).dropNotes i

/-- A PAGE_DISCARD of the page slot waits in execution for in commit to clear (R43). -/
def State.discardWaits (s : State) (i : Fin 4) : Bool :=
  match s.recordInHand with
  | some r => r.isKind .pageDiscard && decide (r.slot = i) && (s.page i).isOpen
  | none => false

/-- In commit has cleared: a discard that waits for it takes effect, and its record's execution ends (R43). -/
def State.takeWaitingDiscard (s : State) (i : Fin 4) : State :=
  if s.discardWaits i then (s.discardPage i).endExecution else s

/-! ## The end of a commit (R118) -/

/-- The page slot of a page commit. -/
def Origin.slot : Origin → Option (Fin 4)
  | .pageCommit i _ => some i
  | .auto i => some i
  | .refresh => none

/-- The commit executes a record of the Composer. -/
def Origin.isRecord : Origin → Bool
  | .auto _ => false
  | _ => true

/-- The Commit Engine has finished with a page: in commit clears, and on a live page the latency timer starts if the page
still has dirty tiles and the timer is stopped (R49, R51). -/
def PageSlot.leaveCommit (p : PageSlot) (latencyLimit : Nat) : PageSlot :=
  { p with
    inCommit := false
    latency := if p.live && p.hasDirty && p.latency.isNone then some latencyLimit else p.latency }

/-- The engine finishes with the commit in hand: in commit clears, the record's execution ends, and the engine becomes
IDLE (R118, steps 2 to 4); a discard of the page that waits for in commit to clear then takes effect (R43). -/
def State.endCommit (s : State) (c : Commit) : State :=
  match c.origin.slot with
  | some i =>
    let s1 := s.setPage i ((s.page i).leaveCommit s.tune.latencyLimit)
    let s2 := if c.origin.isRecord then s1.endExecution else s1
    State.takeWaitingDiscard { s2 with commit := { s2.commit with state := .idle } } i
  | none =>
    let s1 := if c.origin.isRecord then s.endExecution else s
    { s1 with commit := { s1.commit with state := .idle } }

/-- A request is appended: the number of entries that the Status Block shows rises, and a consideration is called for
(R116, R125, R152). -/
def State.append (s : State) (r : Request) : State :=
  State.callConsideration
    (State.touchStatus { s with commit := { s.commit with pending := s.commit.pending ++ [r] } } 9)

/-- The decision on a request in hand: merged, appended, or waiting while the list holds 32 entries (R115 to R117). -/
def State.decideRequest (s : State) (c : Commit) (r : Request) : State :=
  match mergePending s.commit.pending r with
  | some pending => State.endCommit { s with commit := { s.commit with pending := pending } } c
  | none =>
    if s.commit.pending.length < Config.pendingEntries then (s.append r).endCommit c
    else { s with commit := { s.commit with state := .waiting c r } }

/-! ## Grants -/

/-- The lowest-numbered page slot whose auto-commit request is raised (R104). -/
def State.raisedRequest (s : State) : Option (Fin 4) := (List.finRange 4).find? (fun i => (s.page i).autoCommit)

/-- The Commit Engine is IDLE. -/
def State.engineIdle (s : State) : Bool := match s.commit.state with | .idle => true | _ => false

/-- The engine may grant the Composer's hand-over: it is IDLE and no auto-commit request is raised (R104). -/
def State.grantsHandOver (s : State) : Bool := s.engineIdle && s.raisedRequest.isNone

/-- The next commit number is given, and increases by 1 (R105). -/
def State.takeNumber (s : State) : State :=
  { s with commit := { s.commit with nextNumber := s.commit.nextNumber + 1 } }

/-- A page enters commit: both timers are stopped and its request is lowered (R42, R51). -/
def PageSlot.enterCommit (p : PageSlot) : PageSlot :=
  { p with inCommit := true, settle := none, latency := none, autoCommit := false }

/-- A commit of a page is granted: it receives its number, the page enters commit and the diff begins (R105, R106, R111). -/
def State.beginDiff (s : State) (origin : Origin) (mode : Option Mode) (i : Fin 4) : State :=
  let c : Commit := { origin := origin, mode := mode, number := s.commit.nextNumber }
  let s1 := s.takeNumber.setPage i (s.page i).enterCommit
  { s1 with commit :=
    { s1.commit with state := .diffing c { next := 0, bounds := none, grey := false, visit := none } } }

/-- The hand-over of a kind, offered by the Composer and not yet granted (R104). -/
def onHandOver (s : State) (kind : RecordKind) (run : Record → State) : Host.Outcome State Fault Refusal :=
  if s.grantsHandOver then onRecord s (·.isKind kind) run else noOccasion s

/-- The checks of a PAGE_COMMIT record, in their order (R106). -/
def State.commitChecks (s : State) (r : Record) : List (Bool × Reason) :=
  [(!(s.page r.slot).isOpen, .notOpen), ((commitModeOf r.tag).isNone, .badField)]

/-- PAGE_COMMIT (R106): the engine grants the hand-over. -/
def execPageCommit (s : State) : Host.Outcome State Fault Refusal :=
  onHandOver s .pageCommit (fun r =>
    s.checked r (s.commitChecks r)
      { (s.beginDiff (.pageCommit r.slot r.tag) ((commitModeOf r.tag).getD none) r.slot) with
        composer := .atCommitEngine })

/-- The rectangle of a REFRESH in tiles: the whole panel, or the clamped rectangle snapped outward (R112). -/
def State.refreshTiles (s : State) (r : Record) : Rect :=
  let g := s.geometry
  if r.refreshWhole then { left := 0, top := 0, right := g.tileCols, bottom := g.tileRows }
  else
    let p := r.refreshRect.clampTo g
    { left := p.left / 32, top := p.top / 32, right := (p.right + 31) / 32, bottom := (p.bottom + 31) / 32 }

/-- The rectangle of a REFRESH that is not the whole panel contains no tile (R113, log entry 16). -/
def State.refreshEmpty (s : State) (r : Record) : Bool := !r.refreshWhole && !(s.refreshTiles r).nonempty

/-- The checks of a REFRESH record, in their order (R113). -/
def State.refreshChecks (s : State) (r : Record) : List (Bool × Reason) :=
  [(s.supply.geometry.isNone, .unconfigured), ((refreshModeOf r.refreshMode).isNone || s.refreshEmpty r, .badField)]

/-- REFRESH (R112, R113): the engine grants the hand-over and makes a PANEL request at once. -/
def execRefresh (s : State) : Host.Outcome State Fault Refusal :=
  onHandOver s .refresh (fun r =>
    s.checked r (s.refreshChecks r)
      (let number := s.commit.nextNumber
       State.decideRequest { s.takeNumber with composer := .atCommitEngine }
        { origin := .refresh, mode := refreshModeOf r.refreshMode, number := number }
        { source := none, rect := s.refreshTiles r, mode := (refreshModeOf r.refreshMode).getD .clean,
          commits := [number], repair := false }))

/-- AUTO_COMMIT_GRANT (R104, R111): the IDLE engine grants the raised request of the lowest-numbered page slot. -/
def execAutoCommitGrant (s : State) : Host.Outcome State Fault Refusal :=
  match s.commit.state, s.raisedRequest with
  | .idle, some i => proceed s (s.beginDiff (.auto i) none i)
  | _, _ => noOccasion s

/-! ## The diff (R107 to R110) -/

/-- The page slot of the commit in hand. -/
def Commit.page (c : Commit) : Fin 4 := c.origin.slot.getD 0

/-- The tile of a raster number. -/
def Geometry.tileAt (g : Geometry) (n : Nat) : Nat × Nat := (n % g.tileCols, n / g.tileCols)

/-- The next marked tile that the walk reaches, from a raster number on (R107). -/
def State.nextMarked (s : State) (i : Fin 4) (start : Nat) : Option Nat :=
  let g := s.geometry
  (span start (g.tileCols * g.tileRows)).find? (fun n =>
    (s.page i).marked (tileNumber (g.tileAt n).1 (g.tileAt n).2))

/-- A mark is cleared (R41). -/
def PageSlot.clearMark (p : PageSlot) (tile : Nat) : PageSlot := { p with dirty := p.dirty &&& ~~~(tileMask tile) }

/-- DIFF_TILE_VISIT (R41, R107): the walk reaches the next marked tile, its mark is cleared, and its rows are to be read,
one row of one image a grant. The comparison follows the last of those grants. -/
def execDiffTileVisit (s : State) : Host.Outcome State Fault Refusal :=
  match s.commit.state with
  | .diffing c d =>
    match d.visit, s.nextMarked c.page d.next with
    | none, some n =>
      let (i, j) := s.geometry.tileAt n
      let s1 := s.setPage c.page ((s.page c.page).clearMark (tileNumber i j))
      let v : Visit := { i := i, j := j, row := 0, draft := none, changed := false, grey := false }
      let d' : Diff := { d with next := n, visit := some v }
      proceed s { s1 with commit := { s1.commit with state := .diffing c d' } }
    | _, _ => noOccasion s
  | _ => noOccasion s

/-- The byte offset of a tile's row within an image (R107, R130). -/
def tileRowOffset (stride i y : Nat) : Nat := y * stride + 16 * i

/-- The grant a visit asks for: the draft row, then the Panel Image row (R107). -/
def Visit.access (v : Visit) (s : State) (c : Commit) : Access :=
  let o := tileRowOffset s.geometry.stride v.i (32 * v.j + v.row)
  match v.draft with
  | none => { addr := s.draftBase c.page + o, words := 4, write := false }
  | some _ => { addr := s.panelBase + o, words := 4, write := false }

/-- The levels of the pixels of words, left to right. -/
def levelsOf (ws : List Word) : List Nat := ws.flatMap (fun w => (List.range 8).map (pixel w))

/-- Some pixel of a row is changed (R108). -/
def rowChanged (draft panel : List Nat) : Bool := (draft.zip panel).any (fun p => p.1 != p.2)

/-- Some changed pixel of a row has a draft level from 1 to 14 (R108). -/
def rowGrey (draft panel : List Nat) : Bool :=
  (draft.zip panel).any (fun p => p.1 != p.2 && decide (1 ≤ p.1) && decide (p.1 ≤ 14))

/-- The commit looks for grey levels: its requested mode is AUTO, or it is an auto-commit (R108). -/
def Commit.seeksGrey (c : Commit) : Bool := c.mode.isNone

/-- The bounding rectangle with a tile added (R108). -/
def addTile (bounds : Option Rect) (i j : Nat) : Option Rect :=
  let t : Rect := { left := i, top := j, right := i + 1, bottom := j + 1 }
  some (match bounds with | some b => b.union t | none => t)

/-- The end of a visit: the tile counts as changed under R108 and the walk goes on past it. -/
def Diff.endVisit (d : Diff) (c : Commit) (v : Visit) : Diff :=
  let counts := v.changed || decide (c.mode = some .clean)
  { next := d.next + 1
    bounds := if counts then addTile d.bounds v.i v.j else d.bounds
    grey := d.grey || (c.seeksGrey && v.grey)
    visit := none }

/-- A grant of the diff, run to its end: a draft row is kept, and a Panel Image row is compared with it. -/
def State.serveDiff (s : State) : State :=
  match s.commit.state with
  | .diffing c d =>
    match d.visit with
    | some v =>
      let words := s.mem.words (v.access s c).addr 4
      let d' := match v.draft with
        | none => { d with visit := some { v with draft := some words } }
        | some draft =>
          let v' := { v with
            row := v.row + 1, draft := none
            changed := v.changed || rowChanged (levelsOf draft) (levelsOf words)
            grey := v.grey || rowGrey (levelsOf draft) (levelsOf words) }
          if v'.row < 32 then { d with visit := some v' } else d.endVisit c v'
      { s with commit := { s.commit with state := .diffing c d' } }
    | none => s
  | _ => s

/-- The mode of the request a diff makes (table of R110). -/
def Commit.resolveMode (c : Commit) (grey : Bool) : Mode :=
  match c.mode with
  | some m => m
  | none =>
    if grey then .grey
    else match c.origin with
      | .auto _ => .pen
      | _ => .text

/-- COMMIT_EMPTY of a page commit (R118). -/
def Commit.emptyEvent (c : Commit) : Event :=
  match c.origin with
  | .pageCommit i tag => .commitEmpty tag false i c.number
  | .auto i => .commitEmpty 0 true i c.number
  | .refresh => .commitEmpty 0 false 0 c.number

/-- DIFF_END (R110, R118): the walk has passed the last tile; an empty diff ends the commit, and otherwise the request is
made and decided upon. -/
def execDiffEnd (s : State) : Host.Outcome State Fault Refusal :=
  match s.commit.state with
  | .diffing c d =>
    match d.visit, s.nextMarked c.page d.next with
    | none, none =>
      match d.bounds with
      | none => proceed s ((s.raise c.emptyEvent).endCommit c)
      | some rect =>
        proceed s (s.decideRequest c
          { source := some c.page, rect := rect, mode := c.resolveMode d.grey, commits := [c.number], repair := false })
    | _, _ => noOccasion s
  | _ => noOccasion s

/-- PENDING_RETRY (R117): the engine that waits with a request decides anew against the list as it stands. -/
def execPendingRetry (s : State) : Host.Outcome State Fault Refusal :=
  match s.commit.state with
  | .waiting c r => proceed s (s.decideRequest c r)
  | _ => noOccasion s

/-! ## Live pages (R48 to R50) -/

/-- The page raises its auto-commit request if it has dirty tiles (R50). -/
def PageSlot.askCommit (p : PageSlot) : PageSlot := { p with autoCommit := p.autoCommit || p.hasDirty }

/-- SETTLE_TIMER_EXPIRY (R50): the timer is stopped, and a page with dirty tiles raises its request. -/
def execSettleTimerExpiry (slot : Fin 4) (s : State) : Host.Outcome State Fault Refusal :=
  match (s.page slot).settle with
  | some _ => proceed s (s.setPage slot { (s.page slot).askCommit with settle := none })
  | none => noOccasion s

/-- LATENCY_TIMER_EXPIRY (R50). -/
def execLatencyTimerExpiry (slot : Fin 4) (s : State) : Host.Outcome State Fault Refusal :=
  match (s.page slot).latency with
  | some _ => proceed s (s.setPage slot { (s.page slot).askCommit with latency := none })
  | none => noOccasion s

end Sys2Proof.Machine
end

