-- ==== Sys2Proof/Machine/Power.lean ====
section
/-! DEFINITION. Panel power: the panel states, the rise attempts, hold, fall, grace, temperature readings and failure
(R145 to R151), as the Supply Controller's commands. -/

namespace Sys2Proof.Machine

/-! ## Shared transitions -/

/-- The state with the Supply Controller's state replaced. -/
def State.setSupply (s : State) (p : Supply) : State := { s with supply := p }

/-- Every timer of the Supply Controller stopped (R142, R151). -/
def Supply.stopTimers (p : Supply) : Supply :=
  { p with riseTimer := none, gapTimer := none, holdTimer := none, graceTimer := none, fallTimer := none,
           readingTimer := none }

/-- A temperature reading is asked for and the reading timer started (R146, R147). -/
def Supply.askReading (p : Supply) : Supply :=
  { p with readingsAsked := p.readingsAsked + 1, readingTimer := some Config.readingTime }

/-- The panel enters ON from RISING: the rise timer is stopped, a reading asked for and the reading timer started (R145,
R146). -/
def Supply.onFromRising (p : Supply) : Supply :=
  Supply.askReading { p with panel := .on, riseTimer := none, lossNoted := false }

/-- The panel enters ON from HOLDING or SUSPENDED, with no reading asked for (R146, R149). -/
def Supply.backOn (p : Supply) : Supply :=
  { p with panel := .on, holdTimer := none, graceTimer := none, lossNoted := false }

/-- A rise attempt: the enable is raised and the rise timer started; a panel-ready line that is already asserted takes
the panel to ON (R145). -/
def Supply.beginAttempt (p : Supply) : Supply :=
  let p' := { p with enable := true, gapTimer := none, riseTimer := some p.riseTimeout }
  if p.readyLine then p'.onFromRising else p'

/-- The panel enters RISING with attempt 1 (R145). -/
def Supply.enterRising (p : Supply) : Supply := Supply.beginAttempt { p with panel := .rising, attempt := 1 }

/-- The panel enters FALLING: the enable is lowered, the hold, grace and reading timers stopped and the fall timer
started (R146, R149). -/
def Supply.enterFalling (p : Supply) : Supply :=
  { p with panel := .falling, enable := false, holdTimer := none, graceTimer := none, readingTimer := none,
           fallTimer := some Config.fallTime, lossNoted := false }

/-- The panel that is OFF goes to RISING when a slot is READY (R145). -/
def State.riseIfReady (s : State) : State :=
  if s.supply.panel = .off ∧ s.anySlot .ready then s.setSupply s.supply.enterRising else s

/-- The number of slots READY (R151). -/
def State.readyCount (s : State) : Nat := (s.busyUpdates.filter (fun x => x.state == .ready)).length

/-- A slot has become READY: a panel OFF rises, and a panel HOLDING goes back to ON (R133, R145, R146). -/
def State.slotBecameReady (s : State) : State :=
  match s.supply.panel with
  | .holding => s.setSupply s.supply.backOn
  | _ => s.riseIfReady

/-! ## The panel-ready line -/

/-- PANEL_READY_ASSERTED (R145, R149): in RISING while the rise timer runs, and in SUSPENDED, the panel enters ON; in any
other state the change is not taken, beyond the level of the line. -/
def execPanelReadyAsserted (s : State) : Host.Outcome State Fault Refusal :=
  if s.supply.readyLine then noOccasion s
  else
    let p := { s.supply with readyLine := true }
    proceed s (s.setSupply
      (match p.panel, p.riseTimer with
       | .rising, some _ => p.onFromRising
       | .suspended, _ => p.backOn
       | _, _ => p))

/-- PANEL_READY_DROPPED (R146, R148, R150): in ON the loss is noted for the frame end; in HOLDING the panel falls and
PANEL_FAULT is raised with 0; in any other state the fall is not taken, beyond the level of the line. -/
def execPanelReadyDropped (s : State) : Host.Outcome State Fault Refusal :=
  if s.supply.readyLine then
    let p := { s.supply with readyLine := false }
    proceed s
      (match p.panel with
       | .on => s.setSupply { p with lossNoted := true }
       | .holding => (s.setSupply p.enterFalling).raise (.panelFault 0)
       | _ => s.setSupply p)
  else noOccasion s

/-! ## Timers -/

/-- RISE_TIMER_EXPIRY (R145, R151): the attempt has failed and the enable is lowered; a gap follows the first two, and
after the third the panel enters FAILED and PANEL_FAILED is raised. -/
def execRiseTimerExpiry (s : State) : Host.Outcome State Fault Refusal :=
  match s.supply.panel, s.supply.riseTimer with
  | .rising, some _ =>
    let p := { s.supply with enable := false, riseTimer := none }
    if p.attempt < Config.riseAttempts then proceed s (s.setSupply { p with gapTimer := some Config.gapTime })
    else
      proceed s ((s.setSupply { p.stopTimers with panel := .failed }).raise (.panelFailed s.readyCount))
  | _, _ => noOccasion s

/-- GAP_TIMER_EXPIRY (R145): the attempt number increases by 1 and the next attempt begins. -/
def execGapTimerExpiry (s : State) : Host.Outcome State Fault Refusal :=
  match s.supply.panel, s.supply.gapTimer with
  | .rising, some _ => proceed s (s.setSupply (Supply.beginAttempt { s.supply with attempt := s.supply.attempt + 1 }))
  | _, _ => noOccasion s

/-- HOLD_TIME_EXPIRY (R146): the panel enters FALLING. -/
def execHoldTimeExpiry (s : State) : Host.Outcome State Fault Refusal :=
  match s.supply.panel, s.supply.holdTimer with
  | .holding, some _ => proceed s (s.setSupply s.supply.enterFalling)
  | _, _ => noOccasion s

/-- FALL_TIMER_EXPIRY (R146): the panel enters OFF, and goes to RISING at once if a slot is READY. -/
def execFallTimerExpiry (s : State) : Host.Outcome State Fault Refusal :=
  match s.supply.panel, s.supply.fallTimer with
  | .falling, some _ => proceed s (State.riseIfReady (s.setSupply { s.supply with panel := .off, fallTimer := none }))
  | _, _ => noOccasion s

/-! ## The grace timer -/

/-- The repair that takes the place of an aborted update (R123, R149). -/
def Update.toRepair (x : Update) : Request :=
  { source := none, rect := x.rect, mode := .clean, commits := x.commits, repair := true }

/-- A slot becomes FREE and leaves the start order (R122). -/
def State.freeSlot (s : State) (u : Fin 15) : State :=
  let s' := s.setUpdate u none
  { s' with updates := { s'.updates with order := s'.updates.order.filter (fun v => decide (v ≠ u)) } }

/-- The slots of the start order that are in a state, in that order. -/
def State.inOrder (s : State) (st : UpdateState) : List (Fin 15) :=
  s.updates.order.filter (fun u => decide (s.slotState u = some st))

/-- A FROZEN slot is aborted: it becomes FREE, and its repair joins the tail of the Repair List (R149). -/
def State.abort (s : State) (u : Fin 15) : State :=
  match s.update u with
  | some x =>
    let s' := s.freeSlot u
    { s' with updates := { s'.updates with repairs := s'.updates.repairs ++ [x.toRepair] } }
  | none => s

/-- GRACE_TIMER_EXPIRY (R149): the panel enters FALLING, every FROZEN slot is aborted in start order, PANEL_FAULT is
raised with their number, and a consideration is called for. -/
def execGraceTimerExpiry (s : State) : Host.Outcome State Fault Refusal :=
  match s.supply.panel, s.supply.graceTimer with
  | .suspended, some _ =>
    let frozen := s.inOrder .frozen
    proceed s
      (State.callConsideration
        ((frozen.foldl State.abort (s.setSupply s.supply.enterFalling)).raise (.panelFault frozen.length)))
  | _, _ => noOccasion s

/-! ## Temperature readings (R147) -/

/-- READING_TIMER_EXPIRY: a reading is asked for, and the timer restarts. -/
def execReadingTimerExpiry (s : State) : Host.Outcome State Fault Refusal :=
  match s.supply.readingTimer with
  | some _ => proceed s (s.setSupply s.supply.askReading)
  | none => noOccasion s

/-- TEMPERATURE_READING: a reading arrives and is taken, whatever the panel state and even when a reset has forgotten
that it was asked for (log entry 21); a valid one becomes the held reading, and an invalid indication raises TEMP_INVALID
with the reading held. -/
def execTemperatureReading (reading : Option Int) (s : State) : Host.Outcome State Fault Refusal :=
  let p := { s.supply with readingsAsked := s.supply.readingsAsked - 1 }
  match reading with
  | some t =>
    if -40 ≤ t ∧ t ≤ 85 then proceed s (s.setSupply { p with reading := some t }) else noOccasion s
  | none => proceed s ((s.setSupply p).raise (.tempInvalid p.reading))

end Sys2Proof.Machine
end

