-- ==== Sys2Proof/Machine/Frames.lean ====
section
/-! DEFINITION. Frames and drive codes: the Panel Scanner's reads, and what a frame start and a frame end do to the Slot
Table and to panel power (R134 to R136, R143, R144, R146, R148). -/

namespace Sys2Proof.Machine

/-! ## Drive codes (R137, R144) -/

/-- The index of the drive-table entry for a mode, band, from level and to level (R137). -/
def driveIndex (m : Mode) (band from_ to_ : Nat) : Nat := ((m.code * 8 + band) * 16 + from_) * 16 + to_

/-- The address of the word of an entry that holds the code of a frame (chapter on formats). -/
def State.driveAddr (s : State) (index frame : Nat) : Nat := s.storeBase + 0x100 + 16 * index + 4 * (frame / 16)

/-- The code of a frame in the word that holds it. -/
def codeIn (w : Word) (frame : Nat) : BitVec 2 := (w >>> (30 - 2 * (frame % 16))).setWidth 2

/-- The pixel is held without a look at the drive table: the mode is not CLEAN and the levels are equal (R144). -/
def heldPixel (m : Mode) (from_ to_ : Nat) : Bool := decide (m ≠ .clean) && decide (from_ = to_)

/-- The drive code of a pixel of an ACTIVE update with its Prior and Panel levels (R144). -/
def State.driveCode (s : State) (x : Update) (from_ to_ : Nat) : BitVec 2 :=
  if heldPixel x.mode from_ to_ then 0
  else codeIn (s.mem.word (s.driveAddr (driveIndex x.mode x.band from_ to_) x.counter)) x.counter

/-! ## The scan -/

/-- Eight-pixel words in a row of the panel. -/
def Geometry.rowWords (g : Geometry) : Nat := g.width / 8

/-- The tile column and row of a word of the panel. -/
def Geometry.wordTile (g : Geometry) (n : Nat) : Nat × Nat := (n % g.rowWords / 4, n / g.rowWords / 32)

/-- The ACTIVE update that covers a word of the panel. A word lies within one tile. -/
def State.activeAt (s : State) (n : Nat) : Option Update :=
  s.busyUpdates.find? (fun x =>
    x.state == .active && x.rect.contains (s.geometry.wordTile n).1 (s.geometry.wordTile n).2)

/-- The next word, from one on, that an ACTIVE slot covers. Every word passed over delivers hold codes (R144), which is
what the panel link's table shows for a word not listed (`State.linkCodes`). -/
def State.nextScanned (s : State) (start : Nat) : Option Nat :=
  (span start (s.geometry.rowWords * s.geometry.height)).find? (fun n => (s.activeAt n).isSome)

/-- The word the frame in progress has still to read for, with the update that covers it. -/
def State.scanInHand (s : State) : Option (Frame × Nat × Update) :=
  match s.scanner.frame with
  | some f => match s.nextScanned f.next with
    | some n => match s.activeAt n with
      | some x => some (f, n, x)
      | none => none
    | none => none
  | none => none

/-- The codes found so far carried on over the pixels that are held, up to the next pixel that needs the drive table. -/
def holdOn (m : Mode) (prior panel : Word) : Nat → List (BitVec 2) → List (BitVec 2)
  | 0, codes => codes
  | fuel + 1, codes =>
    if codes.length < 8 ∧ heldPixel m (pixel prior codes.length) (pixel panel codes.length) then
      holdOn m prior panel fuel (codes ++ [0])
    else codes

/-- Eight hold codes: what every word in no ACTIVE rectangle receives (R144). -/
def holdCodes : List (BitVec 2) := List.replicate 8 0

/-- The eight drive codes that a word of the panel has received in the frame last started, left to right; hold codes for
a word that the frame has not reached (R144, log entry 19). -/
def State.linkCodes (s : State) (n : Nat) : List (BitVec 2) := Sparse.get holdCodes s.scanner.link n

/-- The frame with the codes of a word found so far: after the eighth the word is delivered to the panel link and the
scan goes on past it. -/
def State.deliver (s : State) (f : Frame) (n : Nat) (codes : List (BitVec 2)) : State :=
  if 8 ≤ codes.length then
    { s with scanner :=
      { s.scanner with
        frame := some { next := n + 1, panel := none, prior := none, codes := [] }
        link := Sparse.put holdCodes n codes s.scanner.link } }
  else { s with scanner := { s.scanner with frame := some { f with codes := codes } } }

/-- The grant the scanner asks for: the word of the Panel Image, the word of the Prior Image, then a word of the drive
table for each pixel that needs one. -/
def State.scanAccess (s : State) : Option Access :=
  match s.scanInHand with
  | some (f, n, x) =>
    match f.panel, f.prior with
    | none, _ => some { addr := s.panelBase + 4 * n, words := 1, write := false }
    | some _, none => some { addr := s.priorBase + 4 * n, words := 1, write := false }
    | some q, some p =>
      let k := f.codes.length
      some { addr := s.driveAddr (driveIndex x.mode x.band (pixel p k) (pixel q k)) x.counter, words := 1,
             write := false }
  | none => none

/-- A grant of the scanner, run to its end. -/
def State.serveScan (s : State) : State :=
  match s.scanInHand with
  | some (f, n, x) =>
    let s := { s with scanner := { s.scanner with request := false } }
    match f.panel, f.prior with
    | none, _ =>
      { s with scanner := { s.scanner with frame := some { f with panel := some (s.mem.word (s.panelBase + 4 * n)) } } }
    | some q, none =>
      let p := s.mem.word (s.priorBase + 4 * n)
      s.deliver { f with prior := some p } n (holdOn x.mode p q 8 f.codes)
    | some q, some p =>
      let k := f.codes.length
      s.deliver f n (holdOn x.mode p q 8 (f.codes ++ [s.driveCode x (pixel p k) (pixel q k)]))
  | none => s

/-! ## Frame start and frame end -/

/-- What a frame start does to a slot (R134, R143). -/
def Update.atFrameStart (x : Update) : Update :=
  match x.state with
  | .ready => { x with state := .active, counter := 0 }
  | .frozen => { x with state := .active }
  | _ => x

/-- The Slot Table with a change made to every slot that is not FREE. -/
def State.mapUpdates (s : State) (f : Update → Update) : State :=
  { s with updates := { s.updates with slots := s.updates.slots.map (Option.map f) } }

/-- FRAME_START (R134, R143): the panel is ON and no frame is in progress. No word of the new frame has received a code
other than hold yet. -/
def execFrameStart (s : State) : Host.Outcome State Fault Refusal :=
  match s.supply.panel, s.scanner.frame with
  | .on, none =>
    let s1 := s.mapUpdates Update.atFrameStart
    proceed s
      { s1 with scanner :=
        { s1.scanner with frame := some { next := 0, panel := none, prior := none, codes := [] }, link := [] } }
  | _, _ => noOccasion s

/-- An ACTIVE slot counts the frame (R135). -/
def Update.countFrame (x : Update) : Update :=
  match x.state with
  | .active => { x with counter := x.counter + 1 }
  | _ => x

/-- The update has been driven in all its frames (R135). -/
def Update.finished (x : Update) : Bool := x.state == .active && decide (x.counter = x.length)

/-- The slots that have finished, in start order. -/
def State.finishedSlots (s : State) : List (Fin 15) :=
  s.updates.order.filter (fun u => match s.update u with | some x => x.finished | none => false)

/-- A finished slot is freed, and its UPDATE_DONE raised (R135, R136). -/
def State.finishSlot (s : State) (u : Fin 15) : State :=
  match s.update u with
  | some x => (s.freeSlot u).raise (.updateDone x.source x.mode x.repair x.commits)
  | none => s

/-- An ACTIVE slot freezes (R148). -/
def Update.freeze (x : Update) : Update :=
  match x.state with
  | .active => { x with state := .frozen }
  | _ => x

/-- The counting and completions of a frame end (R135). -/
def State.countFrames (s : State) : State :=
  let counted := s.mapUpdates Update.countFrame
  let done := counted.finishedSlots
  let freed := done.foldl State.finishSlot counted
  if done.isEmpty then freed else freed.callConsideration

/-- The panel is suspended after a loss: ACTIVE slots freeze and the grace timer starts; a panel-ready line that is
asserted again takes the panel back to ON at once (R148). The panel state has changed either way, and its Status Block
word is marked (R138, R152). -/
def State.suspend (s : State) : State :=
  let s1 := (s.mapUpdates Update.freeze).touchStatus 10
  let p := { s1.supply with panel := .suspended, lossNoted := false, graceTimer := some (10 * s1.supply.grace) }
  s1.setSupply (if p.readyLine then p.backOn else p)

/-- No slot needs frames: none is READY, ACTIVE or FROZEN (R146). -/
def State.noFramesNeeded (s : State) : Bool := !(s.anySlot .ready || s.anySlot .active || s.anySlot .frozen)

/-- The panel enters HOLDING with the panel hold time in force; a hold time of 0 expires at once, and the panel falls
(R146). -/
def State.hold (s : State) : State :=
  let p := { s.supply with panel := .holding, holdTimer := some (10 * s.tune.panelHold) }
  s.setSupply (if s.tune.panelHold = 0 then p.enterFalling else p)

/-- FRAME_END (R135, R143, R146, R148): the frame has delivered all its codes. -/
def execFrameEnd (s : State) : Host.Outcome State Fault Refusal :=
  match s.supply.panel, s.scanner.frame, s.scanInHand with
  | .on, some _, none =>
    let s1 := State.countFrames { s with scanner := { s.scanner with frame := none } }
    proceed s (if s1.supply.lossNoted then s1.suspend else if s1.noFramesNeeded then s1.hold else s1)
  | _, _, _ => noOccasion s

end Sys2Proof.Machine
end

