-- ==== Sys2Proof/Machine/Layout.lean ====
section
/-! DEFINITION. The Layout Engine: columns and cursors (R65 to R67), GLYPH_RUN (R68 to R86) and glyph lookups (R58, R59),
with the reading of bitmaps (R60) and the blending of glyphs into the draft (R80 to R82). -/

namespace Sys2Proof.Machine

/-! ## Columns and cursors -/

/-- A cursor reset to the start of its column, or FULL where the column is undefined (R67). -/
def resetCursor (c : Option Column) : Cursor :=
  match c with
  | some c =>
    { pen := c.left * 16, baseline := c.top + c.firstBaseline, full := false, lineHolds := false, pendingSpace := 0 }
  | none => Cursor.fullCursor

/-- The cursors of a page slot that has just been opened (R36). -/
def State.resetCursors (s : State) : Vector Cursor 4 := Vector.ofFn (fun k => resetCursor s.columns[k])

/-- The cursor of a page slot and column. -/
def State.cursor (s : State) (i : Fin 4) (c : Fin 4) : Cursor := (s.page i).cursors[c]

/-- The state with one cursor replaced. -/
def State.setCursor (s : State) (i : Fin 4) (c : Fin 4) (x : Cursor) : State :=
  s.setPage i { s.page i with cursors := (s.page i).cursors.set c x }

/-- The column of a COLUMN record with its box clamped to the panel (R66). -/
def State.clampedColumn (s : State) (r : Record) : Column :=
  let c := r.columnFields
  let g := s.geometry
  { c with left := min c.left g.width, top := min c.top g.height, right := min c.right g.width,
           bottom := min c.bottom g.height }

/-- The checks of a COLUMN record, in their order (R66). -/
def State.columnChecks (s : State) (r : Record) : List (Bool × Reason) :=
  let c := s.clampedColumn r
  [(s.supply.geometry.isNone, .unconfigured),
   (decide (c.right ≤ c.left) || decide (c.bottom ≤ c.top) || decide (c.pitch = 0), .badField)]

/-- The cursor of a column reset in every OPEN page slot (R66). -/
def State.resetOpenCursors (s : State) (c : Fin 4) : State :=
  (List.finRange 4).foldl
    (fun s i => if (s.page i).isOpen then s.setCursor i c (resetCursor s.columns[c]) else s) s

/-- COLUMN (R66). -/
def execColumn (s : State) : Host.Outcome State Fault Refusal :=
  onRecord s (·.isKind .column) (fun r =>
    s.checked r (s.columnChecks r)
      (State.endExecution
        (State.resetOpenCursors { s with columns := s.columns.set r.columnIndex (some (s.clampedColumn r)) }
          r.columnIndex)))

/-! ## Positions (R73, R74) -/

/-- The left pixel of a glyph set at a pen. -/
def leftPixel (pen : Nat) (g : Glyph) : Int := ((pen + 8) / 16 : Nat) + g.bearingX

/-- The extent of a glyph set at a pen, the pixel column just past its ink; the left pixel of a glyph without ink, one
whose width or height is 0 (R56, R73, R83; log entry 27). -/
def extent (pen : Nat) (g : Glyph) : Int := leftPixel pen g + (if g.height = 0 then 0 else g.width)

/-- The step of an advance under a tracking. -/
def stepOf (advance : Nat) (tracking : Int) : Nat := ((advance : Int) + tracking).toNat

/-- The pen after a glyph. -/
def penAfter (pen : Nat) (g : Glyph) (tracking : Int) : Nat := sat16 (pen + stepOf g.advance tracking)

/-- A glyph of a word with the pen at which it is set. -/
structure SetGlyph where
  g : BufGlyph
  pen : Nat
deriving DecidableEq, Repr

/-- The walk of a word's glyphs from a start, each with its pen. -/
def walkWord (tracking : Int) : Nat → List BufGlyph → List SetGlyph
  | _, [] => []
  | pen, g :: gs => { g := g, pen := pen } :: walkWord tracking (penAfter pen g.glyph tracking) gs

/-- The pen after the walk of a word. -/
def penAfterWord (tracking : Int) (pen : Nat) (gs : List BufGlyph) : Nat :=
  gs.foldl (fun p g => penAfter p g.glyph tracking) pen

/-- The word set from a start fits: its largest extent does not exceed the column's right (R74). -/
def wordFits (c : Column) (pen : Nat) (gs : List BufGlyph) : Bool :=
  (walkWord c.tracking pen gs).all (fun x => decide (extent x.pen x.g.glyph ≤ c.right))

/-! ## Placing a word (R75 to R79) -/

/-- The vertical check: the cursor becomes FULL when its baseline plus the descent exceeds the bottom (R77). -/
def verticalCheck (c : Column) (descent : Nat) (k : Cursor) : Cursor :=
  if c.bottom < k.baseline + descent then { k with full := true } else k

/-- A line break, with its vertical check (R76). -/
def lineBreak (c : Column) (descent : Nat) (k : Cursor) : Cursor :=
  verticalCheck c descent
    { k with pen := c.left * 16, baseline := k.baseline + c.pitch, pendingSpace := 0, lineHolds := false }

/-- What placing a word brings about: the cursor, the glyphs set with the baseline of each, the words or segments to be
logged, and, when the word overflowed, the index of the first code not placed. -/
structure Placement where
  cursor : Cursor
  glyphs : List (SetGlyph × Nat)
  segments : List (List SetGlyph × Nat)
  overflow : Option Nat
deriving DecidableEq, Repr

/-- A word set whole from a pen on the cursor's line: drawn, logged as one entry, the pen moved past it (R75, R76). -/
def setWhole (c : Column) (k : Cursor) (pen : Nat) (word : List BufGlyph) : Placement :=
  let walked := walkWord c.tracking pen word
  { cursor := { k with pen := penAfterWord c.tracking pen word, pendingSpace := 0, lineHolds := true }
    glyphs := walked.map (fun x => (x, k.baseline))
    segments := [(walked, k.baseline)]
    overflow := none }

/-- A word overflows: nothing of it is set (R79). -/
def overflowAt (k : Cursor) (index : Nat) : Placement :=
  { cursor := { k with pendingSpace := 0 }, glyphs := [], segments := [], overflow := some index }

/-- A word broken glyph by glyph (R77): `segment` holds the glyphs set so far on the current line. -/
def breakWord (c : Column) (descent : Nat) : Cursor → List SetGlyph → List BufGlyph → Placement
  | k, segment, [] =>
    { cursor := k, glyphs := [], segments := if segment.isEmpty then [] else [(segment, k.baseline)], overflow := none }
  | k, segment, g :: gs =>
    if !segment.isEmpty && decide ((c.right : Int) < extent k.pen g.glyph) then
      let k' := lineBreak c descent k
      if k'.full then
        { cursor := k', glyphs := [], segments := [(segment, k.baseline)], overflow := some g.index }
      else
        let x : SetGlyph := { g := g, pen := k'.pen }
        let rest := breakWord c descent
          { k' with pen := penAfter k'.pen g.glyph c.tracking, lineHolds := true } [x] gs
        { rest with glyphs := (x, k'.baseline) :: rest.glyphs, segments := (segment, k.baseline) :: rest.segments }
    else
      let x : SetGlyph := { g := g, pen := k.pen }
      let rest := breakWord c descent
        { k with pen := penAfter k.pen g.glyph c.tracking, lineHolds := true } (segment ++ [x]) gs
      { rest with glyphs := (x, k.baseline) :: rest.glyphs }

/-- A word placed on a line that holds no glyphs and whose pen stands at the column's left (R76, R77). -/
def placeAtLeft (c : Column) (descent : Nat) (k : Cursor) (word : List BufGlyph) (first : Nat) : Placement :=
  let k := verticalCheck c descent { k with pendingSpace := 0 }
  if k.full then overflowAt k first
  else if wordFits c k.pen word then setWhole c k k.pen word
  else breakWord c descent k [] word

/-- A word placed on a line that holds no glyphs (R76). -/
def placeOnEmpty (c : Column) (descent : Nat) (k : Cursor) (word : List BufGlyph) (first : Nat) : Placement :=
  let k := verticalCheck c descent { k with pendingSpace := 0 }
  if k.full then overflowAt k first
  else if wordFits c k.pen word then setWhole c k k.pen word
  else if c.left * 16 < k.pen then
    let k' := lineBreak c descent k
    if k'.full then overflowAt k' first else placeAtLeft c descent k' word first
  else breakWord c descent k [] word

/-- The placing of a complete word (R75 to R77). -/
def placeWord (c : Column) (descent : Nat) (k : Cursor) (word : List BufGlyph) : Placement :=
  let first := match word with | g :: _ => g.index | [] => 0
  if k.lineHolds then
    let start := sat16 (k.pen + k.pendingSpace)
    if wordFits c start word then setWhole c k start word
    else
      let k' := lineBreak c descent k
      if k'.full then overflowAt k' first else placeOnEmpty c descent k' word first
  else placeOnEmpty c descent k word first

/-! ## The Word Log (R83, R84) -/

/-- The smallest and the largest of a list of whole numbers, from a first one. -/
def smallest (x : Int) (xs : List Int) : Int := xs.foldl min x
def largest (x : Int) (xs : List Int) : Int := xs.foldl max x

/-- The log entry of a word or segment set on a baseline (R83). -/
def logEntryOf (r : Run) (segment : List SetGlyph) (baseline : Nat) : LogEntry :=
  let lefts := segment.map (fun x => leftPixel x.pen x.g.glyph)
  let rights := segment.map (fun x => extent x.pen x.g.glyph)
  { runId := r.runId, first := match segment with | x :: _ => x.g.index | [] => 0
    count := segment.length, column := r.column, baseline := baseline
    xLeft := smallest (lefts.headD 0) lefts, xRight := largest (rights.headD 0) rights, font := r.font }

/-- Appends an entry to the Word Log of a page slot, or, when the log holds 512, sets the full flag and raises LOG_FULL
unless the flag is already set (R84). -/
def State.appendLog (s : State) (r : Run) (e : LogEntry) : State :=
  let p := s.page r.slot
  if p.log.length < Config.logEntries then s.setPage r.slot { p with log := p.log ++ [e] }
  else if p.logFull then s
  else (s.setPage r.slot { p with logFull := true }).raise (.logFull r.tag r.runId r.slot e.first)

/-! ## Drawing (R80 to R82) -/

/-- The glyph draws something: it is drawn, has a box, and its box does not lie wholly off the panel (R80). -/
def Blit.visible (b : Blit) (g : Geometry) : Bool :=
  decide (0 < b.width) && decide (0 < b.height) && decide (b.left < g.width) && decide (0 < b.left + b.width) &&
  decide (b.top < g.height) && decide (0 < b.top + b.height)

/-- The drawing of a glyph that has been set (R73, R80). -/
def State.blitOf (s : State) (b : Font) (x : SetGlyph) (baseline : Nat) : Blit :=
  { left := leftPixel x.pen x.g.glyph, top := (baseline : Int) - x.g.glyph.bearingY, width := x.g.glyph.width,
    height := x.g.glyph.height, bitmap := s.fontBase b + x.g.glyph.bitmap }

/-- Bytes in a row of the bitmap being drawn. -/
def Blit.rowBytes (b : Blit) : Nat := (b.width + 1) / 2

/-- Bytes of the bitmap being drawn. -/
def Blit.bytes (b : Blit) : Nat := b.height * b.rowBytes

/-- The coverage of row `r` and column `k` of a bitmap (R60). -/
def Blit.coverage (b : Blit) (bytes : List Byte) (r k : Nat) : Nat := nibble (bytes.getD (r * b.rowBytes + k / 2) 0) k

/-- The coverage that the glyph lays on a panel pixel; 0 outside its box and off the panel (R80). -/
def Blit.coverageAt (b : Blit) (g : Geometry) (bytes : List Byte) (r x : Nat) : Nat :=
  let k := (x : Int) - b.left
  if 0 ≤ k ∧ k < b.width ∧ x < g.width then b.coverage bytes r k.toNat else 0

/-- The draft words that the glyph covers in bitmap row `r`, left to right, those of no coverage left out (R82). -/
def Blit.rowTouches (b : Blit) (g : Geometry) (base : Nat) (bytes : List Byte) (r : Nat) : List Touch :=
  let y := b.top + r
  if 0 ≤ y ∧ y < g.height then
    (span (b.left.toNat / 8) ((min (b.left + b.width).toNat g.width + 7) / 8)).filterMap (fun col =>
      let cover := (List.range 8).map (fun p => b.coverageAt g bytes r (8 * col + p))
      if cover.all (· == 0) then none
      else some { addr := base + y.toNat * g.stride + 4 * col, coverage := cover })
  else []

/-- The draft words that the glyph covers, rows from top to bottom (R80). -/
def Blit.touches (b : Blit) (g : Geometry) (base : Nat) (bytes : List Byte) : List Touch :=
  (List.range b.height).flatMap (fun r => b.rowTouches g base bytes r)

/-- A word with the covered pixels blended toward the tone (R81, R82). -/
def Touch.word (t : Touch) (tone : Nat) (old : Word) : Word :=
  wordOfPixels (fun k =>
    let a := t.coverage.getD k 0
    if a = 0 then pixel old k else glyphBlend (pixel old k) a tone)

/-- The next words of a bitmap to be read: the first word address and the words of the next grant (R60). -/
def Blit.nextRead (b : Blit) (bytes : List Byte) : Nat × Nat :=
  let next := b.bitmap + bytes.length
  (wordAddr next, min Config.grantWords ((b.bitmap + b.bytes + 3) / 4 - next / 4))

/-! ## A run in execution -/

/-- The Composer goes on with a run as it stands. -/
def State.keepRun (s : State) (r : Run) : State := { s with composer := .running r }

/-- The end of a run: GLYPHS_MISSING if any lookup was substituted or left out, then execution ends (R85, R86). -/
def State.finishRun (s : State) (r : Run) : State :=
  if 0 < r.substituted + r.leftOut then
    (s.raise (.glyphsMissing r.tag r.runId r.slot (r.firstBad.getD 0) r.substituted r.leftOut)).endExecution
  else s.endExecution

/-- A run overflows: OVERFLOW is raised with the index of the first code not placed, and no later code is read (R79). -/
def State.overflowRun (s : State) (r : Run) (index : Nat) : State × Run :=
  (s.raise (.overflow r.tag r.runId r.slot r.column index), { r with codes := [], buffer := [], acts := [.finish] })

/-- The column of a run, and the binding of its font slot; both stand while it executes. -/
def State.runColumn (s : State) (r : Run) : Column :=
  match s.columns[r.column] with
  | some c => c
  | none => { left := 0, top := 0, right := 0, bottom := 0, pitch := 0, firstBaseline := 0, tracking := 0 }

/-- The glyphs of a placement that are to be drawn, in the order they were set (R80). -/
def State.blitsOf (s : State) (r : Run) (glyphs : List (SetGlyph × Nat)) : List Blit :=
  match s.font r.font with
  | some b =>
    ((glyphs.filter (fun x => x.1.g.drawn)).map (fun x => s.blitOf b x.1 x.2)).filter (fun x => x.visible s.geometry)
  | none => []

/-- The end of a word: the glyphs in the buffer are placed, logged and handed to the drawing (R71, R75 to R84).
DESIGN CHOICE (log entry 29): the manual does not say whether an entry is appended, LOG_FULL raised (R84), or the OVERFLOW
of a broken word raised (R77, R79), before or after the glyphs already set are drawn; here all three come before the
first of their grants. -/
def State.endWord (s : State) (r : Run) : State × Run :=
  if r.buffer.isEmpty then (s, r)
  else
    let p := placeWord (s.runColumn r) (s.descent r.font) (s.cursor r.slot r.column) r.buffer
    let s1 := s.setCursor r.slot r.column p.cursor
    let s2 := p.segments.foldl (fun s x => s.appendLog r (logEntryOf r x.1 x.2)) s1
    let r1 := { r with buffer := [], blits := r.blits ++ s.blitsOf r p.glyphs }
    match p.overflow with
    | some index => s2.overflowRun r1 index
    | none => (s2, r1)

/-- A space code: its step joins the pending space (R72). -/
def State.addSpace (s : State) (r : Run) (advance : Nat) : State :=
  let k := s.cursor r.slot r.column
  s.setCursor r.slot r.column
    { k with pendingSpace := sat16 (k.pendingSpace + stepOf advance (s.runColumn r).tracking) }

/-- A newline code: a forced line break; a FULL cursor overflows the run when it holds further codes (R78). -/
def State.forceBreak (s : State) (r : Run) : State × Run :=
  let k := lineBreak (s.runColumn r) (s.descent r.font) (s.cursor r.slot r.column)
  let s' := s.setCursor r.slot r.column k
  if k.full && !r.codes.isEmpty then s'.overflowRun r r.index else (s', r)

/-- Counts a lookup whose outcome was not drawn (R85). -/
def Run.countOutcome (r : Run) (index : Nat) (substituted leftOut : Nat) : Run :=
  { r with
    substituted := r.substituted + substituted
    leftOut := r.leftOut + leftOut
    firstBad := if substituted + leftOut = 0 then r.firstBad else some (r.firstBad.getD index) }

/-- A glyph looked up joins the word buffer; if the buffer already holds 64 glyphs the word ends first, and a hyphen ends
the word after it (R70, R71).
DESIGN CHOICE (log entry 28): the glyph that finds the buffer full has been looked up, and counted, before the 64-glyph
word is placed, also where that word then overflows. -/
def Run.takeGlyph (r : Run) (g : BufGlyph) (hyphen : Bool) : Run :=
  let pushed := if r.buffer.length < Config.bufferGlyphs then [RunAct.push g] else [.endWord, .push g]
  { r with acts := pushed ++ (if hyphen then [.endWord] else []) }

/-- The glyph of a code that is left out: no ink, with an advance (R58). -/
def leftOutGlyph (advance : Nat) : Glyph :=
  { bitmap := 0, width := 0, height := 0, bearingX := 0, bearingY := 0, advance := advance }

/-- The code is the hyphen code of a binding (R59). -/
def Font.isHyphen (b : Font) (code : Nat) : Bool := b.hyphen != 0xFFFF && decide (b.hyphen.toNat = code)

/-- A lookup resolved by the entry of code 0, read in the second search or in the first for a code at or beyond the count
(R58 step 2 and 3, R59). -/
def Run.resolveZero (r : Run) (b : Font) (l : Lookup) (ownAdvance : Nat) (g : Glyph) (bad : Bool) : Run :=
  if l.space then { r.countOutcome l.index 1 0 with acts := [.endWord, .space g.advance] }
  else if bad then
    (r.countOutcome l.index 0 1).takeGlyph { index := l.index, glyph := leftOutGlyph ownAdvance, drawn := false }
      (b.isHyphen l.code)
  else (r.countOutcome l.index 1 0).takeGlyph { index := l.index, glyph := g, drawn := true } (b.isHyphen l.code)

/-- A search of the Glyph Cache for the entry of code 0: a hit resolves the lookup, a miss leaves it waiting for a grant
(R58, R61). -/
def State.searchZero (s : State) (r : Run) (b : Font) (l : Lookup) (ownAdvance : Nat) : State × Run :=
  match cacheFind s.cache r.font 0 with
  | some e => ({ s with cache := cacheTouch s.cache e },
      { r with lookup := none }.resolveZero b l ownAdvance e.glyph e.bad)
  | none => (s, { r with lookup := some { l with fallback := some ownAdvance } })

/-- A lookup resolved, or carried on to code 0, by the entry of its own code (R58 step 1, R59). -/
def State.resolveOwn (s : State) (r : Run) (b : Font) (l : Lookup) (g : Glyph) (bad : Bool) : State × Run :=
  if l.space then (s, { r with acts := [.endWord, .space g.advance] })
  else if !bad then (s, r.takeGlyph { index := l.index, glyph := g, drawn := true } (b.isHyphen l.code))
  else if l.code = 0 then
    (s, (r.countOutcome l.index 0 1).takeGlyph { index := l.index, glyph := leftOutGlyph g.advance, drawn := false }
      (b.isHyphen l.code))
  else s.searchZero r b l g.advance

/-- A lookup of a code in a bound font slot (R58, R61). -/
def State.beginLookup (s : State) (r : Run) (b : Font) (l : Lookup) : State × Run :=
  if l.code < b.count then
    match cacheFind s.cache r.font l.code with
    | some e => State.resolveOwn { s with cache := cacheTouch s.cache e } r b l e.glyph e.bad
    | none => (s, { r with lookup := some l })
  else s.searchZero r b l 0

/-- Reads the next code of a run and classifies it against the special codes (R59, R70).
DESIGN CHOICE (log entry 28): the space code that ends a word, and the ordinary or hyphen code that finds 64 glyphs in the
buffer, are looked up, counted and cached before the word is placed, in the order of R70; where the word then overflows,
R79 could be read to leave that lookup out. -/
def State.readCode (s : State) (r : Run) (code : BitVec 16) (rest : List (BitVec 16)) : State × Run :=
  let index := r.index
  let r := { r with codes := rest, index := index + 1 }
  match s.font r.font with
  | none => (s, { r with codes := [] })
  | some b =>
    if b.newline ≠ 0xFFFF ∧ code = b.newline then (s, { r with acts := [.endWord, .newline] })
    else
      s.beginLookup r b
        { code := code.toNat, index := index, space := b.space != 0xFFFF && code == b.space, fallback := none }

/-- The run goes on without memory until it must read a glyph-table entry, draw glyphs, or end. `fuel` bounds the codes
and acts handled. -/
def State.runOn : Nat → State → Run → State
  | 0, s, r => s.keepRun r
  | n + 1, s, r =>
    if !r.blits.isEmpty || r.lookup.isSome then s.keepRun r
    else
      match r.acts with
      | .finish :: _ => s.finishRun r
      | .push g :: rest => State.runOn n s { r with buffer := r.buffer ++ [g], acts := rest }
      | .endWord :: rest => let (s', r') := s.endWord { r with acts := rest }
                            State.runOn n s' r'
      | .space advance :: rest => State.runOn n (s.addSpace r advance) { r with acts := rest }
      | .newline :: rest => let (s', r') := s.forceBreak { r with acts := rest }
                            State.runOn n s' r'
      | [] =>
        match r.codes with
        | code :: rest => let (s', r') := s.readCode r code rest
                          State.runOn n s' r'
        | [] => State.runOn n s { r with acts := [.endWord, .finish] }

/-- Enough fuel for a run: each code takes one reading and at most three acts, and the end takes three. -/
def Run.fuel (r : Run) : Nat := 4 * r.codes.length + r.acts.length + 8

/-- The Composer goes on with a run as far as it can without a grant. -/
def State.resumeRun (s : State) (r : Run) : State := s.runOn r.fuel r

/-! ## The grants of a run -/

/-- The grant a run asks for: a bitmap's words, the read or the write-back of a draft word, or a glyph-table entry. -/
def Run.access (r : Run) (s : State) : Option Access :=
  match r.blits with
  | b :: _ =>
    match r.drawing with
    | .bitmap bytes => some { addr := (b.nextRead bytes).1, words := max 1 (b.nextRead bytes).2, write := false }
    | .blend (t :: _) (some _) => some { addr := t.addr, words := 1, write := true }
    | .blend (t :: _) none => some { addr := t.addr, words := 1, write := false }
    | .blend [] _ => none
  | [] =>
    match r.lookup, s.font r.font with
    | some l, some b =>
      some { addr := s.glyphAddr b (match l.fallback with | some _ => 0 | none => l.code), words := 2, write := false }
    | _, _ => none

/-- The next glyph is taken up when one has been drawn, and the run goes on when none is left. -/
def State.nextBlit (s : State) (r : Run) : State :=
  State.resumeRun s { r with blits := r.blits.tail, drawing := .bitmap [] }

/-- The blending goes on with the words left, or the glyph is done. -/
def State.blendOn (s : State) (r : Run) (touches : List Touch) : State :=
  match touches with
  | [] => s.nextBlit r
  | _ => s.keepRun { r with drawing := .blend touches none }

/-- A grant that reads words of the bitmap: the bytes of the bitmap are kept, and after the last of them the words to be
blended are known (R60, R80). -/
def State.serveBitmap (s : State) (r : Run) (b : Blit) (bytes : List Byte) : State :=
  let (addr, n) := b.nextRead bytes
  let read := (bytesOfWords (s.mem.words addr (max 1 n))).drop (b.bitmap + bytes.length - addr)
  let all := (bytes ++ read).take b.bytes
  if all.length < b.bytes then s.keepRun { r with drawing := .bitmap all }
  else s.blendOn r (b.touches s.geometry (s.draftBase r.slot) all)

/-- A grant that reads a glyph-table entry on a miss: the entry is installed with its verdict, and the lookup goes on
(R61). -/
def State.serveEntry (s : State) (r : Run) (b : Font) (l : Lookup) : State :=
  let code := match l.fallback with | some _ => 0 | none => l.code
  let a := s.glyphAddr b code
  let g := glyphOf (s.mem.word a) (s.mem.word (a + 4))
  let bad := g.isBad (s.fontUnits b)
  let s' := { s with cache := cacheInstall s.cache r.font code g bad }
  let r' := { r with lookup := none }
  match l.fallback with
  | some ownAdvance => s'.resumeRun (r'.resolveZero b l ownAdvance g bad)
  | none => let (s2, r2) := s'.resolveOwn r' b l g bad
            s2.resumeRun r2

/-- A grant of a run, run to its end. -/
def State.serveRun (s : State) (r : Run) : State :=
  match r.blits with
  | b :: _ =>
    match r.drawing with
    | .bitmap bytes => s.serveBitmap r b bytes
    | .blend (t :: rest) (some old) =>
      State.blendOn
        (State.markOffsets { s with mem := s.mem.setWord t.addr (t.word r.tone old) } r.slot
          [t.addr - s.draftBase r.slot]) r rest
    | .blend (t :: rest) none => s.keepRun { r with drawing := .blend (t :: rest) (some (s.mem.word t.addr)) }
    | .blend [] _ => s.nextBlit r
  | [] =>
    match r.lookup, s.font r.font with
    | some l, some b => s.serveEntry r b l
    | _, _ => s

/-! ## GLYPH_RUN -/

/-- The checks of a GLYPH_RUN record, in their order (R68). -/
def State.runChecks (s : State) (r : Record) : List (Bool × Reason) :=
  [(!(s.page r.slot).isOpen, .notOpen),
   (decide (r.words.length ≠ 3 + (r.runCount + 1) / 2) || decide (1 < r.runPlacement) ||
      s.columns[r.runColumn].isNone || (s.font r.runFont).isNone, .badField)]

/-- The cursor as a SET run prepares it: at the point clamped into the column, on a fresh line (R69). -/
def setCursorAt (c : Column) (x y : Nat) : Cursor :=
  { pen := min (max x c.left) (c.right - 1) * 16, baseline := min (max y c.top) (c.bottom - 1), full := false,
    lineHolds := false, pendingSpace := 0 }

/-- The run of a GLYPH_RUN record, before its first code. -/
def Record.run (r : Record) : Run :=
  { slot := r.slot, column := r.runColumn, font := r.runFont, tone := r.runTone, runId := r.runId, tag := r.tag,
    codes := r.runCodes, index := 0, buffer := [], acts := [], lookup := none, blits := [], drawing := .bitmap [],
    substituted := 0, leftOut := 0, firstBad := none }

/-- An accepted run begins: a FULL cursor overflows it at index 0 when it holds a code, and otherwise it goes on (R69). -/
def State.beginRun (s : State) (run : Run) : State :=
  if (s.cursor run.slot run.column).full then
    (if run.codes.isEmpty then s.endExecution
     else (s.raise (.overflow run.tag run.runId run.slot run.column 0)).endExecution)
  else s.resumeRun run

/-- GLYPH_RUN with CONTINUE: the cursor is used as it stands (R68, R69). A record with an undefined placement code is
refused by either of the two commands. -/
def execGlyphRunContinue (s : State) : Host.Outcome State Fault Refusal :=
  onRecord s (fun r => r.isKind .glyphRun && decide (r.runPlacement ≠ 1)) (fun r =>
    s.checked r (s.runChecks r) (s.beginRun r.run))

/-- GLYPH_RUN with SET: the cursor first moves to the clamped point (R68, R69). -/
def execGlyphRunSet (s : State) : Host.Outcome State Fault Refusal :=
  onRecord s (fun r => r.isKind .glyphRun && decide (r.runPlacement ≠ 0)) (fun r =>
    s.checked r (s.runChecks r)
      (State.beginRun
        (s.setCursor r.slot r.runColumn (setCursorAt (s.runColumn r.run) r.runX r.runY)) r.run))

end Sys2Proof.Machine
end

