-- ==== Sys2Proof/Machine/Pages.lean ====
section
/-! DEFINITION. The records of the Page Slot Table: PAGE_OPEN, PAGE_DISCARD, PAGE_COPY and FILL (R34 to R47), and what a
host write into a draft does (R39, R48). -/

namespace Sys2Proof.Machine

/-! ## Host writes into drafts (R39, R48, R49) -/

/-- The OPEN page slot whose bound region is a Region Map entry (R39). -/
def State.pageOfRegion (s : State) (e : Fin 8) : Option (Fin 4) :=
  (List.finRange 4).find? (fun i => (s.page i).region == some e)

/-- A host write recorded on a page: its tile is marked, and on a live page the settle timer is restarted (R48, R49). -/
def PageSlot.hostWrite (p : PageSlot) (t : Tunables) (tile : Nat) : PageSlot :=
  let p' := p.mark t.latencyLimit (tileMask tile)
  { p' with settle := if p.live then some t.settleTime else p'.settle }

/-- A host write into a PASS region of kind PAGE has landed at a byte offset of the region: it is recorded if an OPEN page
slot is bound to the region and the offset is below the image size (R39). -/
def State.draftWritten (s : State) (e : Fin 8) (offset : Nat) : State :=
  match s.pageOfRegion e with
  | some i =>
    if offset < s.geometry.imageBytes then
      s.setPage i ((s.page i).hostWrite s.tune (tileOfOffset s.geometry.stride offset))
    else s
  | none => s

/-! ## PAGE_OPEN -/

/-- The checks of a PAGE_OPEN record, in their order (R35). -/
def State.openChecks (s : State) (r : Record) : List (Bool × Reason) :=
  let entry := s.regions[r.openRegion]
  [(s.supply.geometry.isNone, .unconfigured),
   ((s.page r.slot).isOpen, .inUse),
   ((match entry with | some g => decide (g.kind ≠ .page) | none => true) || decide (2 < r.openOption), .badField),
   ((match entry with | some g => decide (g.size * Config.unitBytes < s.geometry.imageBytes) | none => false),
      .tooSmall),
   ((List.finRange 4).any (fun i => decide (i ≠ r.slot) && (s.page i).region == some r.openRegion), .bound)]

/-- The page slot as an accepted PAGE_OPEN sets it up (R36). -/
def State.openedPage (s : State) (r : Record) : PageSlot :=
  { region := some r.openRegion, inCommit := false, pageId := r.openPageId, live := r.openLive, settle := none,
    latency := none, autoCommit := false, dirty := 0, cursors := s.resetCursors, log := [], logFull := false }

/-- The slot set up, with the notes that name it removed (R36, R89). -/
def State.openPage (s : State) (r : Record) : State := (s.setPage r.slot (s.openedPage r)).dropNotes r.slot

/-- The slot set up with every tile of the geometry marked (R36, R37). -/
def State.openMarked (s : State) (r : Record) : State := (s.openPage r).markTiles r.slot s.geometry.allTiles

/-- PAGE_OPEN with FILL (R36, R37): the fill tone is then written over the whole image. A record with an undefined start
option is refused by any of the three commands. -/
def execPageOpenFill (s : State) : Host.Outcome State Fault Refusal :=
  onRecord s (fun r => r.isKind .pageOpen && decide (r.openOption ≠ 1) && decide (r.openOption ≠ 2)) (fun r =>
    s.checked r (s.openChecks r)
      ((s.openMarked r).beginPainting r.slot
        [{ rect := { left := 0, top := 0, right := s.geometry.width, bottom := s.geometry.height }, op := .set,
           tone := r.openTone }]))

/-- PAGE_OPEN with KEEP_CLEAN (R36): the draft is left as it is, with no tile marked. -/
def execPageOpenKeepClean (s : State) : Host.Outcome State Fault Refusal :=
  onRecord s (fun r => r.isKind .pageOpen && decide (r.openOption ≠ 0) && decide (r.openOption ≠ 2)) (fun r =>
    s.checked r (s.openChecks r) (s.openPage r).endExecution)

/-- PAGE_OPEN with KEEP_DIRTY (R36): the draft is left as it is, with every tile marked. -/
def execPageOpenKeepDirty (s : State) : Host.Outcome State Fault Refusal :=
  onRecord s (fun r => r.isKind .pageOpen && decide (r.openOption ≠ 0) && decide (r.openOption ≠ 1)) (fun r =>
    s.checked r (s.openChecks r) (s.openMarked r).endExecution)

/-! ## PAGE_DISCARD -/

/-- PAGE_DISCARD (R43, R44): refused for a CLOSED slot; while the slot is in commit the record waits in execution and
nothing changes, and the end of the commit carries it out (`State.endCommit`); otherwise the discard takes effect. -/
def execPageDiscard (s : State) : Host.Outcome State Fault Refusal :=
  onRecord s (·.isKind .pageDiscard) (fun r =>
    s.checked r [(!(s.page r.slot).isOpen, .notOpen)]
      (if (s.page r.slot).inCommit then s else (s.discardPage r.slot).endExecution))

/-! ## PAGE_COPY -/

/-- The checks of a PAGE_COPY record, in their order (R45). -/
def State.copyChecks (s : State) (r : Record) : List (Bool × Reason) :=
  [(!(s.page r.slot).isOpen || !(s.page r.copySource).isOpen, .notOpen),
   (decide (r.slot = r.copySource), .badField),
   (decide (Config.noteEntries - s.notes.length + (s.notesOf r.slot).length < (s.notesOf r.copySource).length),
      .notesFull)]

/-- The destination takes a copy of the source's Word Log and full flag (R46). -/
def State.copyLog (s : State) (source dest : Fin 4) : State :=
  s.setPage dest { s.page dest with log := (s.page source).log, logFull := (s.page source).logFull }

/-- PAGE_COPY (R45, R46): notes, Word Log and marks at once, then the image word by word. -/
def execPageCopy (s : State) : Host.Outcome State Fault Refusal :=
  onRecord s (·.isKind .pageCopy) (fun r =>
    s.checked r (s.copyChecks r)
      (let s1 := ((s.copyNotes r.copySource r.slot).copyLog r.copySource r.slot).markTiles r.slot s.geometry.allTiles
       let total := s.geometry.imageBytes / 4
       if total = 0 then s1.endExecution
       else
        let c : Copying :=
          { dest := r.slot, sourceBase := s.draftBase r.copySource, destBase := s.draftBase r.slot, next := 0,
            total := total, buffer := [] }
        { s1 with composer := .copying c }))

/-! ## FILL (R47) -/

/-- The checks of a FILL record, in their order (R47). -/
def State.fillChecks (s : State) (r : Record) : List (Bool × Reason) :=
  [(!(s.page r.slot).isOpen, .notOpen), (decide (1 < r.fillOp), .badField)]

/-- The rectangle of a FILL clamped to the panel, with its tone and operation. -/
def State.fillPaint (s : State) (r : Record) (op : PaintOp) : Paint :=
  { rect := r.fillRect.clampTo s.geometry, op := op, tone := r.fillTone }

/-- FILL with SET. A record with an undefined operation is refused by either of the two commands. -/
def execFillSet (s : State) : Host.Outcome State Fault Refusal :=
  onRecord s (fun r => r.isKind .fill && decide (r.fillOp ≠ 1)) (fun r =>
    s.checked r (s.fillChecks r) (s.beginPainting r.slot [s.fillPaint r .set]))

/-- FILL with MULTIPLY. -/
def execFillMultiply (s : State) : Host.Outcome State Fault Refusal :=
  onRecord s (fun r => r.isKind .fill && decide (r.fillOp ≠ 0)) (fun r =>
    s.checked r (s.fillChecks r) (s.beginPainting r.slot [s.fillPaint r .multiply]))

end Sys2Proof.Machine
end

