-- ==== Sys2Proof/Machine/Reports.lean ====
section
/-! DEFINITION. The Reporter's writes into the Report Area, the Consumed Count and Fault Clear words, the pulses of the
interrupt line and the time stamp (R152 to R156, R158, R161). -/

namespace Sys2Proof.Machine

/-! ## What the Reporter writes -/

/-- The next write of the Reporter. -/
inductive ReportWork where
  /-- Words of the start-up clearing, from a word of the Report Area on (R158). -/
  | clear (word : Nat)
  /-- An appended entry, the oldest not yet written (R153). -/
  | entry (e : Entry)
  /-- Neighbouring marked words of the Status Block, from a word on (R152). -/
  | words (first count : Nat)
deriving DecidableEq, Repr

/-- A word of the Status Block is marked. -/
def Reporter.marked (r : Reporter) (k : Nat) : Bool := r.marks.getLsbD k

/-- The number of neighbouring marked words from a word on, at most eight (R152). -/
def Reporter.runFrom (r : Reporter) (k : Nat) : Nat :=
  ((List.range Config.grantWords).takeWhile (fun i => r.marked (k + i))).length

/-- The lowest marked word, with its neighbours. -/
def Reporter.lowestMarked (r : Reporter) : Option ReportWork :=
  match (List.range 18).find? (fun k => r.marked k) with
  | some k => some (.words k (r.runFrom k))
  | none => none

/-- What the Reporter writes next while the part runs: its pick where that is there to be written, and otherwise its
oldest entry or its lowest marked word. The manual fixes no order (R152, log entry 10). -/
def Reporter.choice (r : Reporter) (pick : Nat) : Option ReportWork :=
  if 0 < pick ∧ r.marked (pick - 1) then some (.words (pick - 1) (r.runFrom (pick - 1)))
  else match r.unwritten with
    | e :: _ => some (.entry e)
    | [] => r.lowestMarked

/-- What the Reporter writes next: during the start-up clearing nothing but the clearing (R152, R158). -/
def State.reportWork (s : State) (pick : Nat) : Option ReportWork :=
  match s.startup with
  | .initializing => none
  | .clearing next => if next < Config.reportWords then some (.clear next) else none
  | .running => s.reporter.choice pick

/-- The byte address of a word of the Report Area. -/
def State.reportAddr (s : State) (word : Nat) : Nat := s.reportBase + 4 * word

/-- The word of the Report Area that entry N of the Event Ring begins at (R153). -/
def entryWord (index : Nat) : Nat := Config.statusWords + 4 * index

/-- The grant that a write of the Reporter asks for. -/
def ReportWork.access (w : ReportWork) (s : State) : Access :=
  match w with
  | .clear word => { addr := s.reportAddr word, words := min Config.grantWords (Config.reportWords - word), write := true }
  | .entry e => { addr := s.reportAddr (entryWord e.index), words := e.words.length, write := true }
  | .words first count => { addr := s.reportAddr first, words := max 1 count, write := true }

/-- The word that the start-up clearing writes: the Status Block word as the quantities stand, or 0 (R158). -/
def State.clearedWord (s : State) (k : Nat) : Word := if k < Config.statusWords then s.statusWord k else 0

/-- The Produced Count write has been made: with entries of enabled classes newly counted and events outstanding,
attention is set, and in PULSE mode each such entry gives a pulse (R156). -/
def Reporter.signal (r : Reporter) (pulseMode : Bool) : Reporter :=
  if r.toSignal = 0 then r
  else if r.outstanding = 0 then { r with toSignal := 0 }
  else if pulseMode then
    { r with
      attention := true, toSignal := 0, pulse := true
      pulsesQueued := if r.pulse then r.pulsesQueued + r.toSignal else r.pulsesQueued + r.toSignal - 1 }
  else { r with attention := true, toSignal := 0 }

/-- An entry's write has ended: P and N just after it may be shown, the Produced Count word is marked, and an entry of an
enabled class is to be signalled (R152, R153, R156). -/
def Reporter.entryWritten (r : Reporter) (e : Entry) : Reporter :=
  { r with
    unwritten := r.unwritten.tail, writtenProduced := e.producedAfter, writtenNext := e.nextAfter
    toSignal := r.toSignal + (if e.enabled then 1 else 0), marks := r.marks ||| statusMark 0 }

/-- Words of the Status Block have been written: their marks are cleared (R152). -/
def Reporter.wordsWritten (r : Reporter) (first count : Nat) : Reporter :=
  { r with marks := (List.range count).foldl (fun m i => m &&& ~~~(statusMark (first + i))) r.marks }

/-- A grant of the Reporter, run to its end. -/
def State.serveReport (s : State) (w : ReportWork) : State :=
  let a := w.access s
  match w with
  | .clear word =>
    { s with
      mem := s.mem.setWords a.addr ((List.range a.words).map (fun i => s.clearedWord (word + i)))
      startup := .clearing (word + a.words) }
  | .entry e => { s with mem := s.mem.setWords a.addr e.words, reporter := s.reporter.entryWritten e }
  | .words first _ =>
    let r := s.reporter.wordsWritten first a.words
    { s with
      mem := s.mem.setWords a.addr ((List.range a.words).map (fun i => s.statusWord (first + i)))
      reporter := if first = 0 then r.signal s.tune.pulseMode else r }

/-! ## The two host-written words -/

/-- The Consumed Count that a proposed value gives: the value itself within 240 of P, and otherwise P (R154). -/
def Reporter.acceptConsumed (r : Reporter) (v : BitVec 16) : BitVec 16 :=
  if (r.produced - v).toNat ≤ Config.eventEntries then v else r.produced

/-- A host write to the Consumed Count word has landed (R154, R156). -/
def State.consumedWritten (s : State) : State :=
  let word := s.mem.word (s.reportAddr 1)
  let c := s.reporter.acceptConsumed (word.setWidth 16)
  { s with reporter :=
    { s.reporter with
      consumed := c
      attention := s.reporter.attention && decide (c ≠ s.reporter.produced)
      marks := if c.setWidth 32 = word then s.reporter.marks else s.reporter.marks ||| statusMark 1 } }

/-- A host write to the Fault Clear word has landed (R155). -/
def State.faultClearWritten (s : State) : State :=
  if s.mem.word (s.reportAddr 2) = 0 then { s with reporter := { s.reporter with faultCount := 0 } } else s

/-! ## The interrupt line and the time stamp -/

/-- INTERRUPT_PULSE_END (R156): the pulse runs to its end, and the next one queued begins.
DESIGN CHOICE (log entry 31): R156 gives queued pulses `one after another` and no gap between them; here the next one
begins in the step that ends the one before, so the line shows no deasserted state between the two. -/
def execInterruptPulseEnd (s : State) : Host.Outcome State Fault Refusal :=
  if s.reporter.pulse then
    proceed s { s with reporter :=
      { s.reporter with
        pulse := decide (0 < s.reporter.pulsesQueued), pulsesQueued := s.reporter.pulsesQueued - 1 } }
  else noOccasion s

/-- TIME_STAMP_TICK (conventions, Time stamps; R159): the count advances by one and wraps. -/
def execTimeStampTick (s : State) : Host.Outcome State Fault Refusal := proceed s { s with time := s.time + 1 }

end Sys2Proof.Machine
end

