-- ==== Sys2Proof/Machine/Updates.lean ====
section
/-! DEFINITION. The Update Scheduler's considerations of starts and the Slot Loader (R121 to R133). -/

namespace Sys2Proof.Machine

/-! ## Starting an update (R126 to R129) -/

/-- The lowest-numbered FREE slot (R126). -/
def State.lowestFree (s : State) : Option (Fin 15) := (List.finRange 15).find? (fun u => (s.update u).isNone)

/-- Condition 2 of R126: the store is VALID, and the panel is neither FAILED nor UNCONFIGURED. -/
def State.allowsStarts (s : State) : Bool :=
  s.supply.valid && (match s.supply.panel with | .failed | .unconfigured => false | _ => true)

/-- The four conditions of R126 for an entry, given the older entries that still wait. -/
def State.canStart (s : State) (older : List Request) (e : Request) : Bool :=
  s.lowestFree.isSome && s.allowsStarts && s.busyUpdates.all (fun x => !(x.rect.overlaps e.rect)) &&
  older.all (fun q => !(q.rect.overlaps e.rect))

/-- The mode an entry starts in: GREY and TEXT are promoted to CLEAN when a tile of the rectangle has a Ghost Counter at
or above the ghost limit (R129). -/
def State.resolvedMode (s : State) (e : Request) : Mode :=
  match e.mode with
  | .grey | .text => if e.rect.tiles.any (fun t => decide (s.tune.ghostLimit ≤ s.ghost t)) then .clean else e.mode
  | m => m

/-- A Ghost Counter after a start in a mode (R129). -/
def ghostAfter (m : Mode) (count : Nat) : Nat :=
  match m with
  | .clean => 0
  | _ => min Config.ghostTop (count + 1)

/-- The Ghost Counters of the tiles of a rectangle changed by a start (R129). -/
def ghostsAfter (m : Mode) (tiles : List Nat) (ghosts : List (Nat × Nat)) : List (Nat × Nat) :=
  tiles.foldl (fun g t => Sparse.put Config.ghostTop t (ghostAfter m (Sparse.get Config.ghostTop g t)) g) ghosts

/-- The slot as an entry that starts fills it (R127). -/
def State.startedUpdate (s : State) (e : Request) : Update :=
  let m := s.resolvedMode e
  { state := .loading, source := e.source, draftBase := e.source.map s.draftBase, rect := e.rect, mode := m,
    band := s.bandNow, length := s.waveLength m s.bandNow, counter := 0, commits := e.commits, repair := e.repair }

/-- An entry starts into the lowest-numbered FREE slot (R127). -/
def State.startUpdate (s : State) (e : Request) : State :=
  match s.lowestFree with
  | some u =>
    { s with updates :=
      { s.updates with
        slots := s.updates.slots.set u (some (s.startedUpdate e))
        order := s.updates.order ++ [u]
        ghosts := ghostsAfter (s.resolvedMode e) e.rect.tiles s.updates.ghosts } }
  | none => s

/-- The walk of a list of entries from oldest to youngest, after older entries that wait: the state, and all the entries
that wait after it (R126). -/
def State.walkEntries (s : State) (waiting : List Request) : List Request → State × List Request
  | [] => (s, waiting)
  | e :: es =>
    if s.canStart waiting e then State.walkEntries (s.startUpdate e) waiting es
    else State.walkEntries s (waiting ++ [e]) es

/-- A consideration of starts: the Repair List and then the Pending List (R126). -/
def State.consider (s : State) : State :=
  let first := s.walkEntries [] s.updates.repairs
  let second := first.1.walkEntries first.2 s.commit.pending
  { second.1 with
    updates := { second.1.updates with repairs := first.2 }
    commit := { second.1.commit with pending := second.2.drop first.2.length } }

/-- START_CONSIDERATION (R125, R126): made when an event of R125 calls for it. -/
def execStartConsideration (s : State) : Host.Outcome State Fault Refusal :=
  if s.updates.due then proceed s (State.consider { s with updates := { s.updates with due := false } })
  else noOccasion s

/-! ## Clearing the images (R141, R158) -/

/-- The grant that a clearing asks for: up to eight words of one image. -/
def Clear.access (c : Clear) (s : State) : Access :=
  if c.next < c.words then
    { addr := s.priorBase + 4 * c.next, words := min Config.grantWords (c.words - c.next), write := true }
  else
    { addr := s.panelBase + 4 * (c.next - c.words), words := min Config.grantWords (2 * c.words - c.next), write := true }

/-- A clearing of two images of some words each, absent when there is none to write. -/
def Clear.start (words : Nat) : Option Clear := if words = 0 then none else some { words := words, next := 0 }

/-- A grant of a clearing, run to its end: level 15 into every pixel of its words. -/
def State.serveClear (s : State) (c : Clear) : State :=
  let a := c.access s
  let next := c.next + a.words
  { s with
    mem := s.mem.setWords a.addr (List.replicate a.words (wordOfTone 15))
    loader := { s.loader with clear := if next < 2 * c.words then some { c with next := next } else none } }

/-! ## Loading (R130 to R132) -/

/-- The slot being loaded: the first of the start order that is LOADING (R130). -/
def State.loadingSlot (s : State) : Option (Fin 15) := (s.inOrder .loading).head?

/-- Where the load of a slot stands; at the first piece while it has not begun (R130). -/
def State.loadOf (s : State) (x : Update) : Load :=
  match s.loader.load with
  | some l => l
  | none => { row := 32 * x.rect.top, col := x.rect.left, phase := .readPanel }

/-- The load has passed the last piece of its rectangle (R133). -/
def Load.finished (l : Load) (x : Update) : Bool :=
  decide (32 * x.rect.bottom ≤ l.row) || !x.rect.nonempty

/-- The piece after this one: tile by tile along the row, then the next row (R130). -/
def Load.next (l : Load) (x : Update) : Load :=
  if l.col + 1 < x.rect.right then { row := l.row, col := l.col + 1, phase := .readPanel }
  else { row := l.row + 1, col := x.rect.left, phase := .readPanel }

/-- The byte offset of a piece within an image (R130). -/
def State.pieceOffset (s : State) (l : Load) : Nat := tileRowOffset s.geometry.stride l.col l.row

/-- The grant that a load asks for, four words each (R130). -/
def State.loadAccess (s : State) (x : Update) (l : Load) : Access :=
  let o := s.pieceOffset l
  match l.phase with
  | .readPanel => { addr := s.panelBase + o, words := 4, write := false }
  | .readDraft _ => { addr := x.draftBase.getD 0 + o, words := 4, write := false }
  | .readPrior _ _ => { addr := s.priorBase + o, words := 4, write := false }
  | .writePrior prior _ => { addr := s.priorBase + o, words := prior.length, write := true }
  | .writePanel new => { addr := s.panelBase + o, words := new.length, write := true }

/-- The new Prior Image word under GREY, TEXT or PEN: the old level where the pixel changes, and the Prior level it had
elsewhere (R131). -/
def priorWord (old new prior : Word) : Word :=
  wordOfPixels (fun k => if pixel old k ≠ pixel new k then pixel old k else pixel prior k)

/-- The new Prior Image piece under GREY, TEXT or PEN (R131). -/
def priorPiece : List Word → List Word → List Word → List Word
  | o :: os, n :: ns, p :: ps => priorWord o n p :: priorPiece os ns ps
  | _, _, _ => []

/-- Some pixel of a piece changes (R131). -/
def pieceChanges (old new : List Word) : Bool := (levelsOf old).zip (levelsOf new) |>.any (fun p => p.1 != p.2)

/-- Every pixel of a piece changes. -/
def pieceChangesWhole (old new : List Word) : Bool := (levelsOf old).zip (levelsOf new) |>.all (fun p => p.1 != p.2)

/-- The load with its levels worked out: CLEAN writes every old level as Prior; the other modes write where a pixel
changes, and read the Prior piece first when some pixel of it does not change (R130, R131). -/
def Load.plan (l : Load) (x : Update) (old new : List Word) : Load :=
  let panelNew := if pieceChanges old new then some new else none
  match x.mode with
  | .clean => { l with phase := .writePrior old panelNew }
  | _ =>
    if !pieceChanges old new then l.next x
    else if pieceChangesWhole old new then { l with phase := .writePrior old panelNew }
    else { l with phase := .readPrior old new }

/-- The state with the progress of the load replaced. -/
def State.setLoad (s : State) (l : Load) : State := { s with loader := { s.loader with load := some l } }

/-- A grant of a load, run to its end: the words read, or memory written, and the load carried on. -/
def State.serveLoad (s : State) (x : Update) (l : Load) : State :=
  let a := s.loadAccess x l
  match l.phase with
  | .readPanel =>
    let old := s.mem.words a.addr 4
    s.setLoad (if x.source.isSome then { l with phase := .readDraft old } else l.plan x old old)
  | .readDraft old => s.setLoad (l.plan x old (s.mem.words a.addr 4))
  | .readPrior old new =>
    s.setLoad { l with phase := .writePrior (priorPiece old new (s.mem.words a.addr 4)) (some new) }
  | .writePrior prior panelNew =>
    State.setLoad { s with mem := s.mem.setWords a.addr prior }
      (match panelNew with | some new => { l with phase := .writePanel new } | none => l.next x)
  | .writePanel new => State.setLoad { s with mem := s.mem.setWords a.addr new } (l.next x)

/-! ## The Slot Loader as an engine -/

/-- The update being loaded, while pieces of it are left. -/
def State.loadInHand (s : State) : Option (Update × Load) :=
  match s.loadingSlot with
  | some u => match s.update u with
    | some x => if (s.loadOf x).finished x then none else some (x, s.loadOf x)
    | none => none
  | none => none

/-- The grant the Slot Loader asks for: of a clearing, or of the load in hand. -/
def State.loaderAccess (s : State) : Option Access :=
  match s.loader.clear with
  | some c => some (c.access s)
  | none => match s.loadInHand with
    | some (x, l) => some (s.loadAccess x l)
    | none => none

/-- A grant of the Slot Loader, run to its end. -/
def State.serveLoader (s : State) : State :=
  match s.loader.clear with
  | some c => s.serveClear c
  | none => match s.loadInHand with
    | some (x, l) => s.serveLoad x l
    | none => s

/-- A slot's state replaced. -/
def State.setSlotState (s : State) (u : Fin 15) (st : UpdateState) : State :=
  match s.update u with
  | some x => s.setUpdate u (some { x with state := st })
  | none => s

/-- LOADING_COMPLETE (R133): every piece has been passed or written; the slot becomes READY, and the Supply Controller
acts on that. -/
def execLoadingComplete (s : State) : Host.Outcome State Fault Refusal :=
  match s.loadingSlot with
  | some u =>
    match s.update u with
    | some x =>
      if (s.loadOf x).finished x then
        proceed s
          (State.slotBecameReady { s.setSlotState u .ready with loader := { s.loader with load := none } })
      else noOccasion s
    | none => noOccasion s
  | none => noOccasion s

end Sys2Proof.Machine
end

