-- ==== Sys2Proof/Machine/Waveform.lean ====
section
/-! DEFINITION. The PANEL record and the waveform check (R137 to R142). -/

namespace Sys2Proof.Machine

/-! ## The checks of a PANEL record (R139) -/

/-- A panel dimension is a multiple of 32 from 32 up to a largest value. -/
def dimensionOk (n most : Nat) : Bool := decide (n % 32 = 0) && decide (32 ≤ n) && decide (n ≤ most)

/-- The geometry of a LOAD. -/
def Record.panelGeometry (r : Record) : Geometry := { width := r.panelWidth, height := r.panelHeight }

/-- A LOAD changes the geometry: none is set, or it differs from the one set (R139). -/
def State.changesGeometry (s : State) (r : Record) : Bool := decide (s.supply.geometry ≠ some r.panelGeometry)

/-- The conditions of BUSY that LOAD and UNLOAD share: the panel state and the Repair List. -/
def State.panelBusy (s : State) : Bool := !s.supply.panel.isDown || !s.updates.repairs.isEmpty

/-- BUSY for a LOAD: in FAILED, slots LOADING or READY do not count against one that keeps the geometry (R139). -/
def State.loadBusy (s : State) (r : Record) : Bool :=
  s.panelBusy ||
  (if s.supply.panel = .failed ∧ s.changesGeometry r = false then s.anySlot .active || s.anySlot .frozen
   else !s.allFree)

/-- The checks of a PANEL LOAD, in their order. -/
def State.loadChecks (s : State) (r : Record) : List (Bool × Reason) :=
  [(decide (r.panelAction ≠ 1) || !dimensionOk r.panelWidth 2560 || !dimensionOk r.panelHeight 2048, .badField),
   (s.loadBusy r, .busy),
   (s.changesGeometry r && s.pages.toList.any (·.isOpen), .bound)]

/-- The checks of a PANEL UNLOAD, in their order. -/
def State.unloadChecks (s : State) : List (Bool × Reason) :=
  [(s.locked, .locked), (s.panelBusy || !s.allFree, .busy)]

/-- PANEL_LOAD (R139, R140): the record is checked, and the waveform check begins. A record with an undefined action is
refused here. -/
def execPanelLoad (s : State) : Host.Outcome State Fault Refusal :=
  onRecord s (fun r => r.isKind .panel && decide (r.panelAction ≠ 2)) (fun r =>
    s.checked r (s.loadChecks r)
      (let c : Check := { next := 0, sum := 0, spoilt := false, clearing := false }
       { s with composer := .atSupply, supply := { s.supply with check := some c } }))

/-- PANEL_UNLOAD (R139, R142): the store becomes INVALID and the panel UNCONFIGURED, with the enable low and every timer
stopped. A panel that so leaves FAILED calls for a consideration (R125). -/
def execPanelUnload (s : State) : Host.Outcome State Fault Refusal :=
  onRecord s (fun r => r.isKind .panel && decide (r.panelAction = 2)) (fun r =>
    s.checked r s.unloadChecks
      (let s1 := s.setSupply { s.supply.stopTimers with valid := false, panel := .unconfigured, enable := false }
       (if s.supply.panel = .failed then s1.callConsideration else s1).endExecution))

/-! ## The waveform check (R140) -/

/-- The grant that a waveform check asks for: the next words of the store, at most eight. -/
def State.checkAccess (s : State) : Option Access :=
  match s.supply.check with
  | some c =>
    if c.next < Config.checkedWords then
      some { addr := s.storeBase + 4 * c.next, words := min Config.grantWords (Config.checkedWords - c.next),
             write := false }
    else none
  | none => none

/-- A sum of words modulo 2^32. -/
def sumWords (start : Word) (ws : List Word) : Word := ws.foldl (· + ·) start

/-- A grant of the waveform check, run to its end: its words are added. -/
def State.serveCheck (s : State) : State :=
  match s.supply.check with
  | some c =>
    let n := min Config.grantWords (Config.checkedWords - c.next)
    let c' : Check := { c with next := c.next + n, sum := sumWords c.sum (s.mem.words (s.storeBase + 4 * c.next) n) }
    s.setSupply { s.supply with check := some c' }
  | none => s

/-- The 32 lengths of the length table all lie in 1..64. -/
def State.lengthsOk (s : State) : Bool :=
  (List.range 32).all (fun k => decide (1 ≤ (s.storeWord (8 + k)).toNat) && decide ((s.storeWord (8 + k)).toNat ≤ 64))

/-- The seven thresholds do not fall. -/
def State.thresholdsOk (s : State) : Bool :=
  (List.range 6).all (fun k => decide ((s.storeWord k).toInt ≤ (s.storeWord (k + 1)).toInt))

/-- The check passes (R140). -/
def State.checkPasses (s : State) (c : Check) (r : Record) : Bool :=
  decide (c.sum = r.panelCheck) && s.lengthsOk && s.thresholdsOk && !c.spoilt

/-! ## A LOAD that succeeds (R141) -/

/-- Steps 1 and 2: the store becomes VALID and the timings take the record's values, clamped (R139). -/
def Supply.load (p : Supply) (r : Record) : Supply :=
  { p with valid := true, framePeriod := timing r.panelPeriod 80 250 118, riseTimeout := timing r.panelRise 1 100 25,
           grace := timing r.panelGrace 1 100 10 }

/-- Steps 4 and 5: UNCONFIGURED and FAILED become OFF, the attempt number becomes 0, a consideration is called for, a
READY slot takes the panel to RISING, and the record's execution ends. -/
def State.finishLoad (s : State) : State :=
  let panel := match s.supply.panel with
    | .unconfigured | .failed => PanelState.off
    | p => p
  State.endExecution
    (State.riseIfReady
      (State.callConsideration
        (s.setSupply { s.supply with panel := panel, attempt := 0, check := none })))

/-- Step 3: the geometry takes the record's values, the Pending List is cancelled, every column becomes undefined, every
Ghost Counter becomes 63, and the clearing of the two images begins. -/
def State.changeGeometry (s : State) (c : Check) (g : Geometry) : State :=
  let s1 := State.cancelAll
    (s.setSupply { s.supply with geometry := some g, check := some { c with clearing := true } })
  { s1 with
    columns := Vector.replicate 4 none
    updates := { s1.updates with ghosts := [] }
    loader := { s1.loader with clear := Clear.start (g.imageBytes / 4) } }

/-- The record of a LOAD is refused when its check ends. -/
def State.refuseLoad (s : State) (r : Record) (reason : Reason) : State :=
  State.refuse (s.setSupply { s.supply with check := none }) r reason

/-- WAVEFORM_CHECK_END (R140, R141): the last grant of the check has ended; the LOAD is refused with BAD_WAVEFORM or BUSY,
or succeeds. -/
def execWaveformCheckEnd (s : State) : Host.Outcome State Fault Refusal :=
  match s.supply.check with
  | some c =>
    if c.next = Config.checkedWords ∧ c.clearing = false then
      let r := s.headRecord
      proceed s
        (if s.checkPasses c r then
          if s.loadBusy r then s.refuseLoad r .busy
          else
            let s1 := s.setSupply (s.supply.load r)
            if s.changesGeometry r then s1.changeGeometry c r.panelGeometry else s1.finishLoad
         else s.refuseLoad r .badWaveform)
    else noOccasion s
  | none => noOccasion s

/-- GEOMETRY_CLEAR_END (R141): the last word of the two images has been written, and the LOAD completes. -/
def execGeometryClearEnd (s : State) : Host.Outcome State Fault Refusal :=
  match s.supply.check, s.loader.clear with
  | some c, none => if c.clearing then proceed s s.finishLoad else noOccasion s
  | _, _ => noOccasion s

end Sys2Proof.Machine
end

