-- ==== Sys2Proof/Machine/Port.lean ====
section
/-! DEFINITION. The Downstream Port: the arbiter's choice, what each requester asks for, and the Relay's grants (R1, R5,
R7 to R9). -/

namespace Sys2Proof.Machine

/-! ## Requests -/

/-- The port grants requests: not while the SDRAM is being initialized, nor in self-refresh (R157, R159). -/
def State.portReady (s : State) : Bool :=
  (match s.startup with | .initializing => false | _ => true) && !s.doze.dozing

/-- The address of the word under the Composer's read-modify-write, if there is one (R9). -/
def State.heldWord (s : State) : Option Nat :=
  match s.composer with
  | .painting p => match p.held with
    | some _ => some (p.base + p.offset)
    | none => none
  | .running r => match r.blits, r.drawing with
    | _ :: _, .blend (t :: _) (some _) => some t.addr
    | _, _ => none
  | _ => none

/-- The Relay has a request waiting: a read below the memory size, or a passed write that no read-modify-write is holding
back (R7, R9). -/
def State.relayRequests (s : State) : Bool :=
  match s.relay with
  | .reading _ => true
  | .writing w _ => decide (s.heldWord ≠ some (wordAddr w.addr.toNat))
  | _ => false

/-- The grant the Composer asks for. -/
def State.composerAccess (s : State) : Option Access :=
  match s.composer with
  | .painting p => p.access
  | .copying c => c.access
  | .running r => r.access s
  | _ => none

/-- The grant the Commit Engine asks for. -/
def State.commitAccess (s : State) : Option Access :=
  match s.commit.state with
  | .diffing c d => match d.visit with
    | some v => some (v.access s c)
    | none => none
  | _ => none

/-- The grant an engine asks for, with what the Reporter picks (R7). -/
def State.engineAccess (s : State) (pick : Nat) : EngineName → Option Access
  | .composer => s.composerAccess
  | .commitEngine => s.commitAccess
  | .slotLoader => s.loaderAccess
  | .reporter => (s.reportWork pick).map (·.access s)
  | .waveformCheck => s.checkAccess

/-- A grant of an engine, run to its end. -/
def State.serveEngine (s : State) (pick : Nat) : EngineName → State
  | .composer => match s.composer with
    | .painting p => s.servePainting p
    | .copying c => s.serveCopying c
    | .running r => s.serveRun r
    | _ => s
  | .commitEngine => s.serveDiff
  | .slotLoader => s.serveLoader
  | .reporter => match s.reportWork pick with
    | some w => s.serveReport w
    | none => s
  | .waveformCheck => s.serveCheck

/-! ## The arbiter -/

/-- The engine after another in the circular order (R8). -/
def EngineName.after : EngineName → EngineName
  | .composer => .commitEngine
  | .commitEngine => .slotLoader
  | .slotLoader => .reporter
  | .reporter => .waveformCheck
  | .waveformCheck => .composer

/-- The five engines from one on, round the circle (R8). -/
def EngineName.round (e : EngineName) : List EngineName :=
  [e, e.after, e.after.after, e.after.after.after, e.after.after.after.after]

/-- The first engine with a request waiting, from the turn pointer on (R8). -/
def State.engineInTurn (s : State) (pick : Nat) : Option EngineName :=
  s.port.turn.round.find? (fun e => (s.engineAccess pick e).isSome)

/-- What the arbiter grants. -/
inductive Grant where
  | refresh
  | scanner
  | relay
  | engine (e : EngineName)
deriving DecidableEq, Repr

/-- The arbiter's choice: the first kind that has a request waiting (R7). -/
def State.choose (s : State) (pick : Nat) : Option Grant :=
  if !s.portReady then none
  else if s.port.refreshRequest then some .refresh
  else if s.scanner.request && s.scanAccess.isSome then some .scanner
  else if s.relayRequests then some .relay
  else match s.engineInTurn pick with
    | some e => some (.engine e)
    | none => none

/-- The Relay's request would be granted now. -/
def State.relayGranted (s : State) : Bool := decide (s.choose 0 = some .relay)

/-! ## The Relay's grants -/

/-- What the block that watches a landed write does (R5). -/
def State.handOff (s : State) : Handoff → State
  | .nobody => s
  | .page e o => s.draftWritten e o
  | .font e => s.invalidateRegion e
  | .consumedCount => s.consumedWritten
  | .faultClear => s.faultClearWritten

/-- A passed write lands: the enabled bytes are written, the block that watches the word is told, and ready is released
(R1, R5). -/
def State.landWrite (s : State) (w : HostWrite) (dest : Handoff) : State :=
  State.handOff
    { s with mem := s.mem.writeMasked (wordAddr w.addr.toNat) w.data w.enables, relay := .idle } dest

/-- A grant of the Relay, run to its end (R1). -/
def State.serveRelay (s : State) : State :=
  match s.relay with
  | .reading addr => { s with readData := s.mem.word (wordAddr addr.toNat), relay := .idle }
  | .writing w dest => s.landWrite w dest
  | _ => s

/-- The Relay's request is granted at once where nothing goes ahead of it. -/
def State.landIfGranted (s : State) : State := if s.relayGranted then s.serveRelay else s

/-! ## DOWNSTREAM_GRANT -/

/-- The scanner raises its request when its row buffer needs data and the frame in progress has words to read, and holds
it until it is granted (R7). -/
def State.raiseScan (s : State) (needs : Bool) : State :=
  { s with scanner := { s.scanner with request := s.scanner.request || (needs && s.scanAccess.isSome) } }

/-- The access a grant performs; a refresh performs none, and a host beat's word was found in range by R3. -/
def State.grantAccess (s : State) (pick : Nat) : Grant → Option Access
  | .refresh | .relay => none
  | .scanner => s.scanAccess
  | .engine e => s.engineAccess pick e

/-- The words of an access all lie below the memory size. -/
def Access.below (a : Access) (limit : Nat) : Bool := decide (a.addr + 4 * a.words ≤ limit)

/-- The access of a grant lies below the memory size. -/
def State.grantInMemory (s : State) (pick : Nat) (g : Grant) : Bool :=
  match s.grantAccess pick g with
  | some a => a.below s.memBytes
  | none => true

/-- A grant made and run to its end. An engine's grant moves the turn pointer past it (R8). -/
def State.serveGrant (s : State) (pick : Nat) : Grant → State
  | .refresh => { s with port := { s.port with refreshRequest := false } }
  | .scanner => s.serveScan
  | .relay => s.serveRelay
  | .engine e => State.serveEngine { s with port := { s.port with turn := e.after } } pick e

/-- DOWNSTREAM_GRANT (R7, R8): the free port grants one waiting request and runs it to its end. -/
def execDownstreamGrant (rowBufferNeeds : Bool) (reporterPick : Nat) (s : State) : Host.Outcome State Fault Refusal :=
  let s1 := s.raiseScan rowBufferNeeds
  match s1.choose reporterPick with
  | some g =>
    if s1.grantInMemory reporterPick g then proceed s (s1.serveGrant reporterPick g) else .fault .grantBeyondMemory
  | none => noOccasion s

/-- REFRESH_TIMER_EXPIRY (R7): the refresh request is raised, except while the SDRAM is in self-refresh or not yet
initialized. -/
def execRefreshTimerExpiry (s : State) : Host.Outcome State Fault Refusal :=
  if s.portReady then proceed s { s with port := { s.port with refreshRequest := true } } else noOccasion s

end Sys2Proof.Machine
end

