-- ==== Sys2Proof/Machine/Protect.lean ====
section
/-! DEFINITION. The Region Map, the Write Guard and LOCK_TIGHT (R10 to R14), and the treatment of a host write (R2 to
R5). -/

namespace Sys2Proof.Machine

/-! ## The treatment of host writes -/

/-- What the Relay decides for a host write (table after R2). -/
inductive Treatment where
  | dropped
  | absorbed (cause : FaultCause)
  | passed (dest : Handoff)
  /-- Passed, after the Ring Decoder has released it. -/
  | offered
deriving DecidableEq, Repr

/-- The region covers a byte address (Region Map table). -/
def Region.covers (r : Region) (a : Nat) : Bool :=
  decide (r.base * Config.unitBytes ≤ a) && decide (a < (r.base + r.size) * Config.unitBytes)

/-- The Write Guard absorbs a write of this unit (R12). -/
def Guard.absorbs (g : Guard) (unit : Nat) : Bool :=
  g.on && (if g.invert then decide (unit < g.lower) || decide (g.upper < unit)
           else decide (g.lower ≤ unit) && decide (unit ≤ g.upper))

/-- The Region Map entry that holds a byte address, with its index; at most one does (R10). -/
def State.regionAt (s : State) (a : Nat) : Option (Fin 8 × Region) :=
  (List.finRange 8).findSome? (fun e =>
    match s.regions[e] with
    | some r => if r.covers a then some (e, r) else none
    | none => none)

/-- The treatment below T by the Region Map (R10), for a write that the guard has let through. -/
def State.treatByRegion (s : State) (a : Nat) : Treatment :=
  match s.regionAt a with
  | none => .passed .nobody
  | some (e, r) =>
    if r.absorb then .absorbed .region
    else match r.kind with
      | .page => .passed (.page e (wordAddr a - r.baseAddr))
      | .font => .passed (.font e)
      | .plain => .passed .nobody

/-- The treatment at or above T by the area that contains the address (R4). -/
def State.treatReserved (s : State) (a : Nat) : Treatment :=
  if a < s.storeBase then .absorbed .reserved
  else if a < s.ringBase then (if s.supply.valid then .absorbed .reserved else .passed .nobody)
  else if a < s.reportBase then .offered
  else if a < s.remainderBase then
    (if wordAddr a = s.reportBase + 4 then .passed .consumedCount
     else if wordAddr a = s.reportBase + 8 then .passed .faultClear
     else .absorbed .reserved)
  else .passed .nobody

/-- The treatment of a host write at a byte address: the checks of R2 in order. -/
def State.treat (s : State) (addr : BusAddr) : Treatment :=
  let a := addr.toNat
  if s.memBytes ≤ a then .dropped
  else if s.top ≤ a then s.treatReserved a
  else if s.guard.absorbs (a / Config.unitBytes) then .absorbed .guarded
  else s.treatByRegion a

/-- The address lies in the Waveform Store (R4). -/
def State.inStore (s : State) (a : Nat) : Bool := decide (s.storeBase ≤ a) && decide (a < s.ringBase)

/-! ## REGION (R11) -/

/-- The region that a REGION record describes, absent for a size of 0 and for an undefined code. -/
def Record.region (r : Record) : Option Region :=
  if r.regionSize = 0 then none
  else match regionKindOf r.regionKindCode, absorbOf r.regionAbsorbCode with
    | some k, some a => some { base := r.regionBase, size := r.regionSize, kind := k, absorb := a }
    | _, _ => none

/-- The two regions share at least one unit. -/
def Region.sharesUnit (p q : Region) : Bool :=
  spansOverlap p.base (p.base + p.size) q.base (q.base + q.size)

/-- Two entries agree in base, size and kind: nothing but the host-write field may differ. -/
def sameButAbsorb : Option Region → Option Region → Bool
  | some p, some q => p.base == q.base && p.size == q.size && p.kind == q.kind
  | none, none => true
  | _, _ => false

/-- The checks of a REGION record, in their order (R11). -/
def State.regionChecks (s : State) (r : Record) : List (Bool × Reason) :=
  let e := r.regionEntry
  [(s.locked, .locked),
   (decide (r.regionSize ≠ 0) &&
      ((regionKindOf r.regionKindCode).isNone || (absorbOf r.regionAbsorbCode).isNone ||
        decide (s.top / Config.unitBytes < r.regionBase + r.regionSize)), .badField),
   (s.entryBound e && !sameButAbsorb s.regions[e] r.region, .bound),
   ((match r.region with
      | some new => (List.finRange 8).any (fun k => decide (k ≠ e) &&
          (match s.regions[k] with | some old => new.sharesUnit old | none => false))
      | none => false), .overlap)]

/-- REGION (R11). -/
def execRegion (s : State) : Host.Outcome State Fault Refusal :=
  onRecord s (·.isKind .region) (fun r =>
    s.checked r (s.regionChecks r)
      (State.endExecution { s with regions := s.regions.set r.regionEntry r.region }))

/-! ## GUARD and LOCK_TIGHT (R13, R14) -/

/-- The checks of a GUARD record, in their order (R13). -/
def State.guardChecks (s : State) (r : Record) : List (Bool × Reason) :=
  let g := r.guardFields
  [(s.locked, .locked), (g.on && decide (g.upper < g.lower), .badField)]

/-- GUARD (R13): all four pieces of state are replaced at once. -/
def execGuard (s : State) : Host.Outcome State Fault Refusal :=
  onRecord s (·.isKind .guard) (fun r =>
    s.checked r (s.guardChecks r) (State.endExecution { s with guard := r.guardFields }))

/-- LOCK_TIGHT (R14): always accepted. -/
def execLockTight (s : State) : Host.Outcome State Fault Refusal :=
  onRecord s (·.isKind .lockTight) (fun _ => State.endExecution { s with locked := true })

end Sys2Proof.Machine
end

