-- ==== Sys2Proof/Machine/Ring.lean ====
section
/-! DEFINITION. The Ring Decoder: framing the words offered to it into records (R15 to R27). The commands that offer a
word stand in Machine/Relay.lean, since the write goes on to memory. -/

namespace Sys2Proof.Machine

/-! ## Pointers, gap and timers -/

/-- A boundary is a word offset that is a multiple of 4 (R17). -/
def isBoundary (o : BitVec 12) : Bool := decide (o.toNat % 4 = 0)

/-- The boundary at or after an offset (R17). -/
def boundaryAfter (o : BitVec 12) : BitVec 12 := BitVec.ofNat 12 ((o.toNat + 3) / 4 * 4)

/-- The offsets that moving EP to the next boundary passes over (R17). -/
def gapFrom (o : BitVec 12) : List (BitVec 12) :=
  (List.range ((o.toNat + 3) / 4 * 4 - o.toNat)).map (fun k => o + BitVec.ofNat 12 k)

/-- Moving EP to the next boundary from an offset; the offsets passed over become the gap (R17). -/
def Decoder.toBoundary (d : Decoder) (o : BitVec 12) : Decoder :=
  { d with ep := boundaryAfter o, gap := gapFrom o }

/-- A word is consumed at EP: EP advances by one and the gap is emptied (R17, R18). -/
def Decoder.consume (d : Decoder) : Decoder := { d with ep := d.ep + 1, gap := [] }

/-- The stall timer started or restarted with the stall timeout in force; a timeout of 0 leaves it stopped (R26). -/
def stallStart (t : Tunables) : Timer := if t.stallTimeout = 0 then none else some t.stallTimeout

/-- One more skipped word (R15). -/
def Decoder.countSkipped (d : Decoder) : Decoder := { d with skipped := sat16 (d.skipped + 1) }

/-! ## Events of the decoder -/

/-- The record under collection is dropped and its reservation released, with the space check that the change of the
used words brings; then RECORD_TORN is raised (R23, R27, log entry 12). The decoder is left in HUNT with the hunt count 0. -/
def State.tear (s : State) (cause : TornCause) (offset : BitVec 12) (words : List Word) : State :=
  let released := State.checkSpace
    { s with decoder := { s.decoder with state := .hunt, huntCount := 0, stall := none } }
  released.raise (.recordTorn cause (words.headD 0) offset words.length)

/-- The broken word in SYNC, a word that is no valid header in SYNC, or the broken word after a torn record: it is
consumed and counted as skipped, the hunt count becomes 1 and the decoder enters HUNT (R18, R23). -/
def State.skipToHunt (s : State) : State :=
  { s with decoder := { s.decoder.consume.countSkipped with state := .hunt, huntCount := 1, stall := none } }

/-- A word skipped in HUNT (R22). -/
def State.skipInHunt (s : State) : State :=
  { s with decoder :=
    { s.decoder.consume.countSkipped with huntCount := sat16 (s.decoder.huntCount + 1) } }

/-- A word skipped in SKIP, whole or broken; the last one moves EP to the next boundary and returns to SYNC (R21). -/
def State.skipInSkip (s : State) (remainder length : Nat) : State :=
  let d := s.decoder.consume.countSkipped
  if remainder ≤ 1 then
    { s with decoder := { d.toBoundary d.ep with state := .sync, stall := none } }
  else
    { s with decoder := { d with state := .skip (remainder - 1) length, stall := stallStart s.tune } }

/-- The record is complete: its words join the queue in place of the reservation, the stall timer is stopped, EP moves
to the next boundary and the decoder returns to SYNC (R20). -/
def State.complete (s : State) (offset : BitVec 12) (words : List Word) : State :=
  { s with
    queue := s.queue ++ [{ offset := offset, words := words }]
    decoder := { s.decoder.toBoundary s.decoder.ep with state := .sync, stall := none } }

/-- A whole word in BODY joins the record under collection (R20). -/
def State.collect (s : State) (offset : BitVec 12) (words : List Word) (w : Word) : State :=
  let all := words ++ [w]
  let s' := { s with decoder := s.decoder.consume }
  if headerLength (words.headD 0) ≤ all.length then s'.complete offset all
  else { s' with decoder := { s'.decoder with state := .body offset all, stall := stallStart s.tune } }

/-- A record is started at EP: its entry and words are reserved, the header is consumed, and a record of length 1 is
complete at once (R18). The used words grow by its length, and are checked against the marks (R27). -/
def State.startRecord (s : State) (header : Word) : State :=
  let offset := s.decoder.ep
  let s' := { s with decoder := { s.decoder.consume with state := .body offset [header], stall := stallStart s.tune } }
  State.checkSpace (if headerLength header ≤ 1 then s'.complete offset [header] else s')

/-- The words of an interrupted record consumed so far, header included (R25). -/
def Decoder.droppedByRestart (d : Decoder) : Nat :=
  match d.state with
  | .body _ words => words.length
  | .skip remainder length => length - remainder
  | _ => 0

/-- A RESTART takes effect (R25): a record under collection is torn, the stream is set back to offset 4 in SYNC, and
RESTARTED is raised. -/
def State.doRestart (s : State) (header : Word) : State :=
  let dropped := s.decoder.droppedByRestart
  let torn := match s.decoder.state with
    | .body offset words => s.tear .restart offset words
    | _ => s
  State.raise
    { torn with decoder := { torn.decoder with state := .sync, ep := 4, gap := [], huntCount := 0, stall := none } }
    (.restarted header dropped)

/-- A write that would take effect as a RESTART at offset 0 while EP is not 0 (R25). -/
def restartsAtZero (s : State) (offset : BitVec 12) (whole : Bool) (w : Word) : Bool :=
  whole && decide (validHeader w = some .restart) && decide (offset = 0) && decide (s.decoder.ep ≠ 0)

/-- The decoder expects a header at EP: in SYNC, or in HUNT at a boundary (R18, R22). -/
def Decoder.expectsHeader (d : Decoder) : Bool :=
  match d.state with
  | .sync => true
  | .hunt => isBoundary d.ep
  | _ => false

/-- A write that takes effect as a RESTART, in either of the two ways of R25. -/
def takesRestart (s : State) (offset : BitVec 12) (whole : Bool) (w : Word) : Bool :=
  restartsAtZero s offset whole w ||
  (whole && decide (validHeader w = some .restart) && decide (offset = s.decoder.ep) && s.decoder.expectsHeader)

/-- What becomes of an offered write: released to memory, or held back for want of room (R6, R19). -/
structure Offered where
  state : State
  held : Bool

/-- The hold limit is reached: the header is consumed unread, RECORD_OVERRUN is raised, and the rest of the record is to
be skipped; a record of length 1 leaves nothing to skip (R19). -/
def State.overrun (s : State) (w : Word) : State :=
  let offset := s.decoder.ep
  let d := { s.decoder.consume with hold := none }
  let n := headerLength w
  let d' := if n ≤ 1 then { d.toBoundary d.ep with state := .sync }
    else { d with state := .skip (n - 1) n, stall := stallStart s.tune }
  State.raise { s with decoder := d' } (.recordOverrun w offset)

/-- A valid header at EP, in SYNC or at the end of a hunt: a RESTART is taken, a record with room is started, and a
header without room is held back with the hold limit in force; a hold limit of 0 is reached at once (R18, R19, R25). -/
def State.takeHeader (s : State) (w : Word) : Offered :=
  if validHeader w = some .restart then { state := s.doRestart w, held := false }
  else if s.hasRoom (headerLength w) then { state := s.startRecord w, held := false }
  else if s.tune.holdLimit = 0 then { state := s.overrun w, held := false }
  else { state := { s with decoder := { s.decoder with hold := some s.tune.holdLimit } }, held := true }

/-- The end of a hunt at a valid header: RESYNC is raised with the hunt count, which returns to 0 (R22). -/
def State.endHunt (s : State) (w : Word) : State :=
  State.raise { s with decoder := { s.decoder with state := .sync, huntCount := 0 } }
    (.resync w s.decoder.ep s.decoder.huntCount)

/-- A write at EP (R17 to R23). -/
def State.offerAtEp (s : State) (whole : Bool) (w : Word) : Offered :=
  match s.decoder.state with
  | .sync =>
    if whole && (validHeader w).isSome then s.takeHeader w else { state := s.skipToHunt, held := false }
  | .body offset words =>
    if whole then { state := s.collect offset words w, held := false }
    else { state := (s.tear .partialWord offset words).skipToHunt, held := false }
  | .skip remainder length => { state := s.skipInSkip remainder length, held := false }
  | .hunt =>
    if whole && isBoundary s.decoder.ep && (validHeader w).isSome then (s.endHunt w).takeHeader w
    else { state := s.skipInHunt, held := false }

/-- A host write offered to the Ring Decoder (R6, R17 to R25): its word offset, whether all four byte enables are set,
and its data. A write that is neither at EP nor a RESTART is stray unless it lies in the gap (R24). -/
def State.offer (s : State) (offset : BitVec 12) (whole : Bool) (w : Word) : Offered :=
  if restartsAtZero s offset whole w then { state := s.doRestart w, held := false }
  else if offset = s.decoder.ep then s.offerAtEp whole w
  else if s.decoder.gap.contains offset then { state := s, held := false }
  else { state := { s with decoder := { s.decoder with stray := sat16 (s.decoder.stray + 1) } }, held := false }

/-- Room has appeared for the held header: the hold timer is stopped and the record is started (R19). -/
def State.releaseHeld (s : State) (w : Word) : State :=
  State.startRecord { s with decoder := { s.decoder with hold := none } } w

/-- STALL_TIMER_EXPIRY (R26): in BODY the record is torn with cause STALL, in SKIP the skipping ends; the decoder enters
HUNT with the hunt count 0 and EP where it stands. -/
def execStallTimerExpiry (s : State) : Host.Outcome State Fault Refusal :=
  match s.decoder.stall, s.decoder.state with
  | some _, .body offset words => proceed s (s.tear .stall offset words)
  | some _, .skip _ _ =>
    proceed s { s with decoder := { s.decoder with state := .hunt, huntCount := 0, stall := none } }
  | _, _ => noOccasion s

end Sys2Proof.Machine
end

