-- ==== Sys2Proof/Machine/Relay.lean ====
section
/-! DEFINITION. The Relay: host read and write beats, the landing of passed writes, and the Control Ring writes that the
Ring Decoder is offered, holds and releases (R1 to R6, R19, R25). -/

namespace Sys2Proof.Machine

/-! ## Serving a beat -/

/-- The waveform check is spoilt by a write that passes into the INVALID store while it runs (R140). -/
def State.spoilCheck (s : State) (a : Nat) : State :=
  match s.supply.check with
  | some c => if s.inStore a then s.setSupply { s.supply with check := some { c with spoilt := true } } else s
  | none => s

/-- The Relay serves a read beat: an out-of-range read completes at once with zeros and an access fault, and any other
asks for its grant (R1, R3). -/
def State.serveRead (s : State) (addr : BusAddr) : State :=
  if s.memBytes ≤ addr.toNat then State.accessFault { s with readData := 0, relay := .idle } addr .range
  else State.landIfGranted { s with relay := .reading addr }

/-- The Relay decides the treatment of a write beat (R2): dropped and absorbed writes complete at once with an access
fault, and the others wait for their grant or for the Ring Decoder. -/
def State.decideWrite (s : State) (w : HostWrite) : State :=
  match s.treat w.addr with
  | .dropped => State.accessFault { s with relay := .idle } w.addr .range
  | .absorbed cause => State.accessFault { s with relay := .idle } w.addr cause
  | .passed dest => State.spoilCheck { s with relay := .writing w dest } w.addr.toNat
  | .offered => { s with relay := .ringOffer w }

/-- The Relay serves a beat. -/
def State.serveBeat (s : State) : Beat → State
  | .read addr => s.serveRead addr
  | .write w => s.decideWrite w

/-- An upstream beat restarts a running doze timer with the doze delay in force (R159). -/
def State.touchDoze (s : State) : State :=
  { s with doze := { s.doze with timer := s.doze.timer.map (fun _ => s.tune.dozeDelay) } }

/-- A beat arrives at the idle Relay: it is served, or held while the SDRAM is being initialized or while the part dozes
(R1, R157, R159). -/
def State.arrive (s : State) (b : Beat) : State :=
  if s.portReady then s.touchDoze.serveBeat b else { s with relay := .held b }

/-- The Relay serves no beat. -/
def State.relayIdle (s : State) : Bool := match s.relay with | .idle => true | _ => false

/-- HOST_READ_BEAT (R1, R3). -/
def execHostReadBeat (addr : BusAddr) (s : State) : Host.Outcome State Fault Refusal :=
  if s.relayIdle then proceed s (s.arrive (.read addr)) else noOccasion s

/-- HOST_WRITE_BEAT (R2 to R4). -/
def execHostWriteBeat (addr : BusAddr) (data : Word) (enables : BitVec 4) (s : State) :
    Host.Outcome State Fault Refusal :=
  if s.relayIdle then proceed s (s.arrive (.write { addr := addr, data := data, enables := enables }))
  else noOccasion s

/-! ## Passed writes land (R1, R5) -/

/-- The shape of the landing commands: the Relay's write of this kind is granted, and lands. -/
def onLanding (s : State) (fits : Handoff → Bool) : Host.Outcome State Fault Refusal :=
  match s.relay with
  | .writing w dest => if fits dest && s.relayGranted then proceed s (s.landWrite w dest) else noOccasion s
  | _ => noOccasion s

/-- HOST_WRITE_LANDS (R1): a write that is handed to no block. -/
def execHostWriteLands (s : State) : Host.Outcome State Fault Refusal :=
  onLanding s (fun d => match d with | .nobody => true | _ => false)

/-- DRAFT_WRITE (R39, R48, R49): a write into a PASS region of kind PAGE. -/
def execDraftWrite (s : State) : Host.Outcome State Fault Refusal :=
  onLanding s (fun d => match d with | .page _ _ => true | _ => false)

/-- FONT_REGION_WRITE (R63): a write into a PASS region of kind FONT. -/
def execFontRegionWrite (s : State) : Host.Outcome State Fault Refusal :=
  onLanding s (fun d => match d with | .font _ => true | _ => false)

/-- CONSUMED_COUNT_WRITE (R154). -/
def execConsumedCountWrite (s : State) : Host.Outcome State Fault Refusal :=
  onLanding s (fun d => match d with | .consumedCount => true | _ => false)

/-- FAULT_CLEAR_WRITE (R155). -/
def execFaultClearWrite (s : State) : Host.Outcome State Fault Refusal :=
  onLanding s (fun d => match d with | .faultClear => true | _ => false)

/-! ## Control Ring writes (R6, R17 to R25) -/

/-- The word offset of a write in the Control Ring (R6). -/
def State.ringWord (s : State) (w : HostWrite) : BitVec 12 := BitVec.ofNat 12 ((w.addr.toNat - s.ringBase) / 4)

/-- A write has all four byte enables. -/
def HostWrite.whole (w : HostWrite) : Bool := decide (w.enables = 15)

/-- The offered write takes effect as a RESTART (R25). -/
def State.offersRestart (s : State) (w : HostWrite) : Bool := takesRestart s (s.ringWord w) w.whole w.data

/-- A released Control Ring write is presented to the Downstream Port, and lands when its grant comes (R6). -/
def State.release (s : State) (w : HostWrite) : State :=
  State.landIfGranted { s with relay := .writing w .nobody }

/-- A Control Ring write is offered to the Ring Decoder, and released or held (R6). -/
def State.offerWrite (s : State) (w : HostWrite) : State :=
  let o := s.offer (s.ringWord w) w.whole w.data
  if o.held then { o.state with relay := .ringHold w } else o.state.release w

/-- CONTROL_RING_WRITE (R17 to R24): an offered write that is no RESTART. -/
def execControlRingWrite (s : State) : Host.Outcome State Fault Refusal :=
  match s.relay with
  | .ringOffer w => if s.offersRestart w then noOccasion s else proceed s (s.offerWrite w)
  | _ => noOccasion s

/-- RESTART (R25): an offered write that takes effect as a RESTART. -/
def execRestart (s : State) : Host.Outcome State Fault Refusal :=
  match s.relay with
  | .ringOffer w => if s.offersRestart w then proceed s (s.offerWrite w) else noOccasion s
  | _ => noOccasion s

/-- HOLD_RELEASE_ON_ROOM (R19): room has appeared for the held header. -/
def execHoldReleaseOnRoom (s : State) : Host.Outcome State Fault Refusal :=
  match s.relay with
  | .ringHold w =>
    if s.hasRoom (headerLength w.data) then proceed s ((s.releaseHeld w.data).release w) else noOccasion s
  | _ => noOccasion s

/-- HOLD_TIMER_EXPIRY (R19): the hold limit is reached and no room has appeared. -/
def execHoldTimerExpiry (s : State) : Host.Outcome State Fault Refusal :=
  match s.relay, s.decoder.hold with
  | .ringHold w, some _ =>
    if s.hasRoom (headerLength w.data) then noOccasion s else proceed s ((s.overrun w.data).release w)
  | _, _ => noOccasion s

end Sys2Proof.Machine
end

