-- ==== Sys2Proof/Machine/Startup.lean ====
section
/-! DEFINITION. Reset, start-up and doze (R157 to R159). -/

namespace Sys2Proof.Machine

/-- RESET (R157): every piece of state takes its reset value and the straps are sampled; memory holds what it held, the
panel-ready line keeps its level, and the commands that wait outside the part go on waiting. -/
def execReset (straps : BitVec 2) (s : State) : Host.Outcome State Fault Refusal :=
  .next { State.reset with
    pending := s.pending, straps := straps, mem := s.mem
    supply := { Supply.reset with readyLine := s.supply.readyLine } }

/-- A held beat is served when the reason for holding it ends (R1). -/
def State.serveHeld (s : State) : State :=
  match s.relay with
  | .held b => s.serveBeat b
  | _ => s

/-- SDRAM_INITIALIZATION_END (R157, R158): the start-up clearing begins, and the Relay begins serving host beats. -/
def execSdramInitializationEnd (s : State) : Host.Outcome State Fault Refusal :=
  match s.startup with
  | .initializing =>
    proceed s
      (State.serveHeld
        { s with startup := .clearing 0, loader := { s.loader with clear := Clear.start Config.imageWords } })
  | _ => noOccasion s

/-- START_UP_CLEARING_END (R158): the images and the Report Area have been written. -/
def execStartUpClearingEnd (s : State) : Host.Outcome State Fault Refusal :=
  match s.startup, s.loader.clear with
  | .clearing next, none =>
    if next = Config.reportWords then proceed s { s with startup := .running } else noOccasion s
  | _, _ => noOccasion s

/-- DOZE_TIMER_EXPIRY (R159): the idle conditions hold to the end of the doze delay, and the part enters doze.
DESIGN CHOICE (log entry 24): R159 names no condition on the Relay; here the expiry has no occasion while the Relay is
serving a beat, so no beat already decided, offered or waiting for its grant is ever put to doze. -/
def execDozeTimerExpiry (s : State) : Host.Outcome State Fault Refusal :=
  match s.doze.timer with
  | some _ =>
    if s.idleConditions && !s.doze.dozing && s.relayIdle then proceed s { s with doze := { dozing := true, timer := none } }
    else noOccasion s
  | none => noOccasion s

/-- DOZE_WAKE (R159): a beat that arrived while DOZING has waked the part; the Doze Controller becomes AWAKE and the beat
is served with the treatment decided now. A part that dozes holds no other kind of beat (log entry 24). -/
def execDozeWake (s : State) : Host.Outcome State Fault Refusal :=
  match s.relay with
  | .held b =>
    if s.doze.dozing then
      proceed s (State.serveBeat { s with doze := { dozing := false, timer := none } } b)
    else noOccasion s
  | _ => noOccasion s

end Sys2Proof.Machine
end

