-- ==== Sys2Proof/Machine/Dispatch.lean ====
section
/-! DEFINITION. The dispatch of commands: one arm per constructor of Instr, in the order of spec/opcode_table.json. -/

namespace Sys2Proof.Machine

/-- A command's effect on everything but the queue of waiting commands. -/
def exec (i : Instr) (s : State) : Host.Outcome State Fault Refusal :=
  match i with
  | .reset straps => Sys2Proof.Machine.execReset straps s
  | .sdramInitializationEnd => Sys2Proof.Machine.execSdramInitializationEnd s
  | .startUpClearingEnd => Sys2Proof.Machine.execStartUpClearingEnd s
  | .hostReadBeat addr => Sys2Proof.Machine.execHostReadBeat addr s
  | .hostWriteBeat addr data enables => Sys2Proof.Machine.execHostWriteBeat addr data enables s
  | .hostWriteLands => Sys2Proof.Machine.execHostWriteLands s
  | .draftWrite => Sys2Proof.Machine.execDraftWrite s
  | .fontRegionWrite => Sys2Proof.Machine.execFontRegionWrite s
  | .consumedCountWrite => Sys2Proof.Machine.execConsumedCountWrite s
  | .faultClearWrite => Sys2Proof.Machine.execFaultClearWrite s
  | .controlRingWrite => Sys2Proof.Machine.execControlRingWrite s
  | .holdReleaseOnRoom => Sys2Proof.Machine.execHoldReleaseOnRoom s
  | .holdTimerExpiry => Sys2Proof.Machine.execHoldTimerExpiry s
  | .stallTimerExpiry => Sys2Proof.Machine.execStallTimerExpiry s
  | .restart => Sys2Proof.Machine.execRestart s
  | .recordTake => Sys2Proof.Machine.execRecordTake s
  | .recordExecutionEnd => Sys2Proof.Machine.execRecordExecutionEnd s
  | .nop => Sys2Proof.Machine.execNop s
  | .tune => Sys2Proof.Machine.execTune s
  | .region => Sys2Proof.Machine.execRegion s
  | .guard => Sys2Proof.Machine.execGuard s
  | .lockTight => Sys2Proof.Machine.execLockTight s
  | .panelLoad => Sys2Proof.Machine.execPanelLoad s
  | .waveformCheckEnd => Sys2Proof.Machine.execWaveformCheckEnd s
  | .geometryClearEnd => Sys2Proof.Machine.execGeometryClearEnd s
  | .panelUnload => Sys2Proof.Machine.execPanelUnload s
  | .fontBind => Sys2Proof.Machine.execFontBind s
  | .fontUnbind => Sys2Proof.Machine.execFontUnbind s
  | .column => Sys2Proof.Machine.execColumn s
  | .pageOpenFill => Sys2Proof.Machine.execPageOpenFill s
  | .pageOpenKeepClean => Sys2Proof.Machine.execPageOpenKeepClean s
  | .pageOpenKeepDirty => Sys2Proof.Machine.execPageOpenKeepDirty s
  | .pageDiscard => Sys2Proof.Machine.execPageDiscard s
  | .pageCopy => Sys2Proof.Machine.execPageCopy s
  | .fillSet => Sys2Proof.Machine.execFillSet s
  | .fillMultiply => Sys2Proof.Machine.execFillMultiply s
  | .glyphRunContinue => Sys2Proof.Machine.execGlyphRunContinue s
  | .glyphRunSet => Sys2Proof.Machine.execGlyphRunSet s
  | .highlight => Sys2Proof.Machine.execHighlight s
  | .noteClearOne => Sys2Proof.Machine.execNoteClearOne s
  | .noteClearAll => Sys2Proof.Machine.execNoteClearAll s
  | .probe => Sys2Proof.Machine.execProbe s
  | .pageCommit => Sys2Proof.Machine.execPageCommit s
  | .refresh => Sys2Proof.Machine.execRefresh s
  | .settleTimerExpiry slot => Sys2Proof.Machine.execSettleTimerExpiry slot s
  | .latencyTimerExpiry slot => Sys2Proof.Machine.execLatencyTimerExpiry slot s
  | .autoCommitGrant => Sys2Proof.Machine.execAutoCommitGrant s
  | .diffTileVisit => Sys2Proof.Machine.execDiffTileVisit s
  | .diffEnd => Sys2Proof.Machine.execDiffEnd s
  | .pendingRetry => Sys2Proof.Machine.execPendingRetry s
  | .startConsideration => Sys2Proof.Machine.execStartConsideration s
  | .downstreamGrant rowBufferNeeds reporterPick => Sys2Proof.Machine.execDownstreamGrant rowBufferNeeds reporterPick s
  | .refreshTimerExpiry => Sys2Proof.Machine.execRefreshTimerExpiry s
  | .loadingComplete => Sys2Proof.Machine.execLoadingComplete s
  | .frameStart => Sys2Proof.Machine.execFrameStart s
  | .frameEnd => Sys2Proof.Machine.execFrameEnd s
  | .panelReadyAsserted => Sys2Proof.Machine.execPanelReadyAsserted s
  | .panelReadyDropped => Sys2Proof.Machine.execPanelReadyDropped s
  | .riseTimerExpiry => Sys2Proof.Machine.execRiseTimerExpiry s
  | .gapTimerExpiry => Sys2Proof.Machine.execGapTimerExpiry s
  | .holdTimeExpiry => Sys2Proof.Machine.execHoldTimeExpiry s
  | .fallTimerExpiry => Sys2Proof.Machine.execFallTimerExpiry s
  | .graceTimerExpiry => Sys2Proof.Machine.execGraceTimerExpiry s
  | .readingTimerExpiry => Sys2Proof.Machine.execReadingTimerExpiry s
  | .temperatureReading reading => Sys2Proof.Machine.execTemperatureReading reading s
  | .dozeTimerExpiry => Sys2Proof.Machine.execDozeTimerExpiry s
  | .dozeWake => Sys2Proof.Machine.execDozeWake s
  | .interruptPulseEnd => Sys2Proof.Machine.execInterruptPulseEnd s
  | .timeStampTick => Sys2Proof.Machine.execTimeStampTick s

end Sys2Proof.Machine
end

