-- ==== Sys2Proof/Safety.lean ====
section
/-! DEFINITION. The terms in which claims about the machine are made: what a command yields, and the laws of the device
that hold in every state. -/

namespace Sys2Proof.Machine

/-! ## What a command yields -/

/-- The two states agree in everything but the Status Block's change marks and the Doze Controller, which follow every
command by rules of their own (R152, R159). -/
def State.agrees (t want : State) : Prop :=
  { t with reporter := { (t.reporter) with marks := want.reporter.marks }, doze := want.doze } = want

/-- The command answers a next state that is `want`, beside the change marks and the Doze Controller. -/
def Yields (c : Instr) (s want : State) : Prop := ∃ t, exec c s = .next t ∧ t.agrees want

/-- The Composer holds a record of a kind in execution and has not yet carried it out (R28). -/
def State.executing (s : State) (r : Record) (k : RecordKind) : Prop :=
  s.composer = .taken ∧ s.queue.head? = some r ∧ r.kind = some k

/-- The state with an event raised and the record's execution ended: what a refusal comes to (R29). -/
def State.refused (s : State) (r : Record) (reason : Reason) : State :=
  { s.raise (.recordRefused reason r) with composer := .ended }

/-- The Composer's execution has ended, and nothing else has changed. -/
def State.ended (s : State) : State := { s with composer := .ended }

/-! ## Conditions on states -/

/-- A legal panel geometry (R138). -/
def Geometry.legal (g : Geometry) : Prop :=
  g.width % 32 = 0 ∧ 32 ≤ g.width ∧ g.width ≤ 2560 ∧ g.height % 32 = 0 ∧ 32 ≤ g.height ∧ g.height ≤ 2048

/-- The Downstream Port grants requests, and neither a refresh nor the scanner asks ahead of the Relay (R7). -/
def State.portFree (s : State) : Prop :=
  s.portReady = true ∧ s.port.refreshRequest = false ∧ s.scanner.request = false

/-- A passed write would be granted at once: the port is free for the Relay and the word is not under
read-modify-write (R7, R9). -/
def State.clearFor (s : State) (w : HostWrite) : Prop := s.portFree ∧ s.heldWord ≠ some (wordAddr w.addr.toNat)

/-- Memory with a host write landed in it (R1). -/
def HostWrite.into (w : HostWrite) (m : Memory) : Memory := m.writeMasked (wordAddr w.addr.toNat) w.data w.enables

/-- The used words bring no space event (R27). -/
def State.spaceQuiet (s : State) : Prop :=
  (s.decoder.lowSpace = false ∧ s.usedWords < 8 * s.tune.highMark) ∨
  (s.decoder.lowSpace = true ∧ 8 * s.tune.lowMark < s.usedWords)

/-- The command by which a passed write lands (R1, R5). -/
def Handoff.command : Handoff → Instr
  | .nobody => .hostWriteLands
  | .page _ _ => .draftWrite
  | .font _ => .fontRegionWrite
  | .consumedCount => .consumedCountWrite
  | .faultClear => .faultClearWrite

/-- No request but the Composer's own is before the Commit Engine: it is IDLE and no auto-commit is raised (R104). -/
def State.engineFree (s : State) : Prop := s.commit.state = .idle ∧ ∀ i, (s.page i).autoCommit = false

/-! ## Grants of engines -/

/-- The place of an engine in the fixed circular order: the Composer, the Commit Engine, the Slot Loader, the Reporter,
the waveform check (R8). -/
def EngineName.place : EngineName → Nat
  | .composer => 0 | .commitEngine => 1 | .slotLoader => 2 | .reporter => 3 | .waveformCheck => 4

/-- How far an engine stands past another round the circle of five (R8). -/
def EngineName.past (e turn : EngineName) : Nat := (e.place + 5 - turn.place) % 5

/-- The next grant is an engine's: the port grants requests, neither a refresh nor the scanner nor the Relay asks, the
engine is the first from the turn pointer on with a request, and what it asks for lies below the memory size (R7, R8). -/
def State.grantsTo (s : State) (needs : Bool) (pick : Nat) (e : EngineName) : Prop :=
  s.portReady = true ∧ s.port.refreshRequest = false ∧ (s.raiseScan needs).scanner.request = false ∧
  s.relayRequests = false ∧ s.engineInTurn pick = some e ∧ s.grantInMemory pick (.engine e) = true

/-- The grant made to an engine leaves what is wanted, with the turn pointer at the engine after it (R8). -/
def GrantLeaves (needs : Bool) (pick : Nat) (s : State) (e : EngineName) (want : State) : Prop :=
  Yields (.downstreamGrant needs pick) s { want with port := { (want.port) with turn := e.after } }

/-- From one state to the other page slot `i` differs in its marks and latency timer alone, and no other page slot
differs: the tiles of the words written at some byte offsets of its image are marked, and a live page that had no dirty
tiles starts its latency timer (R39, R40, R49). -/
def MarksWritten (s t : State) (i : Fin 4) (offsets : List Nat) : Prop :=
  let tile (o : Nat) : Nat := o / (s.geometry.width / 2) / 32 * 80 + o % (s.geometry.width / 2) / 16
  (∀ j, j ≠ i → t.page j = s.page j) ∧
  { t.page i with dirty := (s.page i).dirty, latency := (s.page i).latency } = s.page i ∧
  (∀ k, k < 5120 → ((t.page i).marked k = true ↔ (s.page i).marked k = true ∨ ∃ o ∈ offsets, tile o = k)) ∧
  ((t.page i).latency =
    if (s.page i).live = true ∧ (s.page i).dirty = 0 ∧ (∃ o ∈ offsets, tile o < 5120) then some s.tune.latencyLimit
    else (s.page i).latency)

/-! ## Ends of records and of commits -/

/-- The Ring Decoder after it has consumed the last word of a record at EP: in SYNC with the stall timer stopped, EP at the
next boundary, and the gap the offsets passed over (R17, R20, R21). -/
def Decoder.closed (d : Decoder) : Decoder :=
  { d with
    state := .sync, stall := none, ep := BitVec.ofNat 12 ((d.ep.toNat + 4) / 4 * 4)
    gap := (List.range (3 - d.ep.toNat % 4)).map (fun k => d.ep + 1 + BitVec.ofNat 12 k) }

/-- The command by which a beat arrives (R1). -/
def Beat.command : Beat → Instr
  | .read addr => .hostReadBeat addr
  | .write w => .hostWriteBeat w.addr w.data w.enables

/-- The state in which the Commit Engine has finished with a commit and left a Pending List: it is IDLE, the page is no
longer in commit and, if live with dirty tiles and its latency timer stopped, starts that timer, and a record's execution
has ended (R49, R118). -/
def State.leftBy (s : State) (c : Commit) (pending : List Request) : State :=
  { s with
    commit := { (s.commit) with state := .idle, pending := pending }
    composer := (match c.origin with | .auto _ => s.composer | _ => .ended)
    pages := (match c.origin.slot with
      | some i => s.pages.set i
          { s.page i with
            inCommit := false
            latency :=
              if (s.page i).live = true ∧ (s.page i).dirty ≠ 0 ∧ (s.page i).latency = none then some s.tune.latencyLimit
              else (s.page i).latency }
      | none => s.pages) }

/-- A PAGE_DISCARD of an OPEN page slot waits in execution (R43). -/
def State.awaitsDiscard (s : State) (i : Fin 4) : Prop :=
  (s.page i).isOpen = true ∧ ∃ r, s.executing r .pageDiscard ∧ r.slot = i

/-- No PAGE_DISCARD waits for this commit to end (R43). -/
def State.noDiscardWaits (s : State) (c : Commit) : Prop := ∀ i, c.origin.slot = some i → ¬ s.awaitsDiscard i

/-- The state in which a discard of a page slot has taken effect: its Pending List entries removed with an UPDATE_CANCELLED
for each, oldest first, its notes removed, the slot CLOSED and the record's execution ended (R44, R119). -/
def State.discarded (s : State) (i : Fin 4) : State :=
  let gone := s.commit.pending.filter (fun e => e.source == some i)
  { (s.raiseAll (gone.map (fun e => .updateCancelled (some i) e.mode e.commits))) with
    pages := s.pages.set i PageSlot.reset
    notes := s.notes.filter (fun n => n.slot != i)
    commit := { (s.commit) with pending := s.commit.pending.filter (fun e => e.source != some i) }
    updates := { (s.updates) with due := s.updates.due || !gone.isEmpty }
    composer := .ended }

/-- An entry is a candidate for a request: of its source, touching it by a tile or an edge, and with fewer than four
commit numbers (R115). -/
def Request.touches (p r : Request) : Prop :=
  p.source = r.source ∧ (p.rect.overlaps r.rect = true ∨ p.rect.sharesEdge r.rect = true) ∧ p.commits.length < 4

/-- A list of entries merges a request into an entry: the entry is the youngest candidate, and no younger entry overlaps
the union (R115). -/
def mergesInto (pending : List Request) (r : Request) (before : List Request) (p : Request) (younger : List Request) : Prop :=
  pending = before ++ p :: younger ∧ p.touches r ∧ (∀ y ∈ younger, ¬ y.touches r) ∧
  ∀ y ∈ younger, y.rect.overlaps (p.rect.union r.rect) = false

/-- The entry with a request merged into it (R116). -/
def Request.withMerged (p r : Request) : Request :=
  { p with rect := p.rect.union r.rect, mode := if p.mode.code ≤ r.mode.code then p.mode else r.mode,
           commits := p.commits ++ r.commits }

/-! ## Text (R70 to R84) -/

/-- The glyphs of a GLYPH_RUN record of one word: 1 to 64 codes, none of them special, each with its entry in the Glyph
Cache and not bad (R58, R59, R70, R71). -/
def State.wordReady (s : State) (r : Record) (b : Font) (glyphs : List Glyph) : Prop :=
  s.font r.runFont = some b ∧ 1 ≤ r.runCount ∧ r.runCount ≤ 64 ∧ glyphs.length = r.runCount ∧
  ∀ (k : Nat) (g : Glyph), glyphs[k]? = some g →
    ∃ code e, r.runCodes[k]? = some code ∧ code.toNat < b.count ∧
      (∀ special ∈ [b.space, b.hyphen, b.newline], special ≠ 0xFFFF → code ≠ special) ∧
      cacheFind s.cache r.runFont code.toNat = some e ∧ e.bad = false ∧ e.glyph = g

/-- The pen after a number of glyphs set one after another from a start (R73). -/
def penAt (tracking : Int) : Nat → List Glyph → Nat → Nat
  | start, g :: gs, k + 1 => penAt tracking (min 65535 (start + ((g.advance : Int) + tracking).toNat)) gs k
  | start, _, _ => start

/-- The left pixel L of a glyph set at a pen (R73). -/
def leftOf (pen : Nat) (g : Glyph) : Int := (((pen + 8) / 16 : Nat) : Int) + g.bearingX

/-- The extent E of a glyph set at a pen: L plus its width, and L for a glyph of height 0 (R73, R83; log entry 27). -/
def pastOf (pen : Nat) (g : Glyph) : Int := leftOf pen g + (if g.height = 0 then 0 else g.width)

/-- A word fits from a start: no extent of its glyphs exceeds the column's right (R74). -/
def fitsFrom (c : Column) (start : Nat) (glyphs : List Glyph) : Prop :=
  ∀ (k : Nat) (g : Glyph), glyphs[k]? = some g → pastOf (penAt c.tracking start glyphs k) g ≤ c.right

/-- A Word Log entry tells of glyphs set from a pen on a baseline, the first of them of an index in the run of a record
(R83). -/
def LogEntry.tells (e : LogEntry) (r : Record) (c : Column) (first start baseline : Nat) (glyphs : List Glyph) : Prop :=
  e.runId = r.runId ∧ e.first = first ∧ e.count = glyphs.length ∧ e.column = r.runColumn ∧ e.baseline = baseline ∧
  e.font = r.runFont ∧
  (∀ (k : Nat) (g : Glyph), glyphs[k]? = some g →
    e.xLeft ≤ leftOf (penAt c.tracking start glyphs k) g ∧ pastOf (penAt c.tracking start glyphs k) g ≤ e.xRight) ∧
  (∃ (k : Nat) (g : Glyph), glyphs[k]? = some g ∧ e.xLeft = leftOf (penAt c.tracking start glyphs k) g) ∧
  (∃ (k : Nat) (g : Glyph), glyphs[k]? = some g ∧ e.xRight = pastOf (penAt c.tracking start glyphs k) g)

/-- The lines that a word broken glyph by glyph gives from the column's left (R77): from the index of its first glyph,
the baseline and the glyphs, to the entries logged, the pen and baseline at the end, and the index at which it overflows.
A line takes its first glyph and all that follow whose extents do not exceed the column's right. -/
inductive Breaks (r : Record) (c : Column) (descent : Nat) :
    Nat → Nat → List Glyph → List LogEntry → Nat → Nat → Option Nat → Prop
  /-- The rest of the word goes on the line. -/
  | last {first baseline : Nat} {row : List Glyph} {e : LogEntry} (nonempty : row ≠ [])
      (fits : ∀ (k : Nat) (g : Glyph), 1 ≤ k → row[k]? = some g →
        pastOf (penAt c.tracking (c.left * 16) row k) g ≤ c.right)
      (logged : e.tells r c first (c.left * 16) baseline row) :
      Breaks r c descent first baseline row [e] (penAt c.tracking (c.left * 16) row row.length)
        baseline none
  /-- A glyph exceeds the right, and the next line fails the vertical check. -/
  | foot {first baseline : Nat} {row rest : List Glyph} {g : Glyph} {e : LogEntry} (nonempty : row ≠ [])
      (fits : ∀ (k : Nat) (g : Glyph), 1 ≤ k → row[k]? = some g →
        pastOf (penAt c.tracking (c.left * 16) row k) g ≤ c.right)
      (exceeds : c.right < pastOf (penAt c.tracking (c.left * 16) row row.length) g)
      (logged : e.tells r c first (c.left * 16) baseline row) (full : c.bottom < baseline + c.pitch + descent) :
      Breaks r c descent first baseline (row ++ g :: rest) [e] (c.left * 16) (baseline + c.pitch)
        (some (first + row.length))
  /-- A glyph exceeds the right, and the word goes on with it on the next line. -/
  | next {first baseline : Nat} {row rest : List Glyph} {g : Glyph} {e : LogEntry} {es : List LogEntry}
      {pen last : Nat} {overflow : Option Nat} (nonempty : row ≠ [])
      (fits : ∀ (k : Nat) (g : Glyph), 1 ≤ k → row[k]? = some g →
        pastOf (penAt c.tracking (c.left * 16) row k) g ≤ c.right)
      (exceeds : c.right < pastOf (penAt c.tracking (c.left * 16) row row.length) g)
      (logged : e.tells r c first (c.left * 16) baseline row) (room : baseline + c.pitch + descent ≤ c.bottom)
      (more : Breaks r c descent (first + row.length) (baseline + c.pitch) (g :: rest) es pen last overflow) :
      Breaks r c descent first baseline (row ++ g :: rest) (e :: es) pen last overflow

/-- The command of a GLYPH_RUN record whose placement code is defined (R68). -/
def Record.runCommand (r : Record) : Instr := if r.runPlacement = 0 then .glyphRunContinue else .glyphRunSet

/-- The cursor that an accepted run prepares: as it stands for CONTINUE, at the point clamped into the column for SET
(R69). -/
def State.preparedCursor (s : State) (r : Record) (c : Column) : Cursor :=
  if r.runPlacement = 0 then s.cursor r.slot r.runColumn
  else
    { pen := min (max r.runX c.left) (c.right - 1) * 16, baseline := min (max r.runY c.top) (c.bottom - 1)
      full := false, lineHolds := false, pendingSpace := 0 }

/-- A GLYPH_RUN record that passes its checks, with the column and the binding it uses (R68). -/
def State.runAccepted (s : State) (r : Record) (c : Column) (b : Font) : Prop :=
  s.executing r .glyphRun ∧ (s.page r.slot).isOpen = true ∧ r.words.length = 3 + (r.runCount + 1) / 2 ∧
  r.runPlacement ≤ 1 ∧ s.columns[r.runColumn] = some c ∧ s.font r.runFont = some b

/-- The run's command leaves its cursor so, with an event raised or none; beside its pages, the Glyph Cache, the Composer
and that event, nothing has changed. -/
def State.runLeaves (s : State) (r : Record) (k : Cursor) (event : Option Event) (t : State) : Prop :=
  exec r.runCommand s = .next t ∧ t.cursor r.slot r.runColumn = k ∧
  t.agrees
    { (match event with | some e => s.raise e | none => s) with
      pages := t.pages, cache := t.cache, composer := t.composer }

/-- The run's one word is set whole from a pen on a baseline, and its one entry appended, or LOG_FULL raised where the log
holds 512 and its full flag is clear; a word without ink ends the run (R75, R76, R80, R83, R84). -/
def State.setsWhole (s : State) (r : Record) (c : Column) (start baseline : Nat) (glyphs : List Glyph) : Prop :=
  let p := s.page r.slot
  ∃ t e, e.tells r c 0 start baseline glyphs ∧
    s.runLeaves r
      { pen := penAt c.tracking start glyphs glyphs.length, baseline := baseline, full := false, lineHolds := true,
        pendingSpace := 0 }
      (if p.log.length < 512 ∨ p.logFull = true then none else some (.logFull r.tag r.runId r.slot 0)) t ∧
    (t.page r.slot).log = (if p.log.length < 512 then p.log ++ [e] else p.log) ∧
    (t.page r.slot).logFull = (p.logFull || decide (512 ≤ p.log.length)) ∧
    ((∀ g ∈ glyphs, g.width = 0 ∨ g.height = 0) → t.composer = .ended)

/-- The run's one word is broken glyph by glyph from a baseline, its segments logged (R77). -/
def State.setsBroken (s : State) (r : Record) (c : Column) (b : Font) (baseline : Nat) (glyphs : List Glyph) : Prop :=
  ∃ t es pen last overflow, Breaks r c b.descent 0 baseline glyphs es pen last overflow ∧
    s.runLeaves r
      { pen := pen, baseline := last, full := overflow.isSome, lineHolds := overflow.isNone, pendingSpace := 0 }
      (overflow.map (fun i => .overflow r.tag r.runId r.slot r.runColumn i)) t ∧
    (t.page r.slot).log = (s.page r.slot).log ++ es

/-- The run overflows at an index with nothing placed or logged, and its execution ends; the cursor is FULL on a line
(R77, R79). -/
def State.runOverflows (s : State) (r : Record) (k : Cursor) (index : Nat) : Prop :=
  ∃ t, s.runLeaves r { k with full := true, pendingSpace := 0 }
      (some (.overflow r.tag r.runId r.slot r.runColumn index)) t ∧
    t.composer = .ended ∧ (t.page r.slot).log = (s.page r.slot).log

/-! ## Notes (R91 to R97) -/

/-- The Composer begins painting rectangles into the draft of a page slot, or ends where there is none to paint (R96 to
R98). -/
def State.drawing (s : State) (i : Fin 4) (paints : List Paint) : Composer :=
  match paints with
  | [] => .ended
  | p :: _ => .painting
      { slot := i, base := s.draftBase i, stride := s.geometry.width / 2, paints := paints, row := p.rect.top,
        col := p.rect.left / 8, held := none }

/-- What is painted for the rectangles of a note, in their order: each rectangle multiplied by the tone for a BAND; for an
UNDERLINE the two rows below each line's baseline, those below the panel height, set to the tone (R96, R97). -/
def State.noteDrawing (s : State) (style : NoteStyle) (tone : Nat) (lines : List LineRect) : List Paint :=
  lines.flatMap (fun l => match style with
    | .band => [{ rect := l.rect, op := .multiply, tone := tone }]
    | .underline => ([l.baseline + 1, l.baseline + 2].filter (fun y => decide (y < s.geometry.height))).map (fun y =>
        { rect := { left := l.rect.left, top := y, right := l.rect.right, bottom := y + 1 }, op := .set, tone := tone }))

/-! ## Laws of the device -/

/-- Memory, the table of Ghost Counters and the table of the panel link's codes are in canonical form. -/
def State.tablesCanonical (s : State) : Prop :=
  s.mem.wf = true ∧ Sparse.wf Config.ghostTop s.updates.ghosts = true ∧ Sparse.wf holdCodes s.scanner.link = true

/-- At most 240 events are outstanding (R153). -/
def State.outstandingBounded (s : State) : Prop := s.reporter.outstanding ≤ 240

/-- The counts that stop at 65535 stay within 16 bits, and N stays an entry number (R15, R153, R155). -/
def State.countsBounded (s : State) : Prop :=
  s.decoder.huntCount ≤ 65535 ∧ s.decoder.stray ≤ 65535 ∧ s.decoder.skipped ≤ 65535 ∧ s.reporter.dropped ≤ 65535 ∧
  s.reporter.faultCount ≤ 65535 ∧ s.reporter.nextIndex < 240

/-- The tunable limits lie in the ranges of the TUNE table, the low mark below the high mark and the latency limit at or
above the settle time (R32). -/
def Tunables.inRange (t : Tunables) : Prop :=
  t.stallTimeout ≤ 255 ∧ t.holdLimit ≤ 255 ∧ 8 ≤ t.highMark ∧ t.highMark ≤ 256 ∧ t.lowMark < t.highMark ∧
  1 ≤ t.settleTime ∧ t.settleTime ≤ t.latencyLimit ∧ t.latencyLimit ≤ 255 ∧ 1 ≤ t.ghostLimit ∧ t.ghostLimit ≤ 63 ∧
  t.panelHold ≤ 255 ∧ t.defaultBand ≤ 7 ∧ 1 ≤ t.dozeDelay ∧ t.dozeDelay ≤ 255

/-- The rectangles of the update slots that are not FREE are pairwise disjoint (R126). -/
def State.slotsDisjoint (s : State) : Prop :=
  ∀ (u v : Fin 15) (x y : Update), u ≠ v → s.update u = some x → s.update v = some y → x.rect.overlaps y.rect = false

/-- The start order lists each slot that is not FREE exactly once, and no other (R122). -/
def State.orderLaw (s : State) : Prop := s.updates.order.Nodup ∧ ∀ u, u ∈ s.updates.order ↔ s.update u ≠ none

/-- An ACTIVE slot needs the panel ON, and the supply enable is raised whenever the panel is ON, HOLDING or SUSPENDED,
and while the rise timer runs in RISING (R145, R146). -/
def State.enableLaw (s : State) : Prop :=
  (s.anySlot .active = true → s.supply.panel = .on) ∧
  (s.supply.panel = .on ∨ s.supply.panel = .holding ∨ s.supply.panel = .suspended → s.supply.enable = true) ∧
  (s.supply.panel = .rising → s.supply.riseTimer.isSome = true → s.supply.enable = true)

/-- The supply enable is raised whenever a slot is ACTIVE (R146). -/
def State.poweredWhileActive (s : State) : Prop := s.anySlot .active = true → s.supply.enable = true

/-- The record under collection is short of its length (table before R15). -/
def Decoder.collecting (d : Decoder) : Prop :=
  ∀ o words, d.state = .body o words → 1 ≤ words.length ∧ words.length < headerLength (words.headD 0)

/-- The Record Queue with its reservation holds at most 32 records and 2048 words (R27). -/
def State.queueBounded (s : State) : Prop :=
  s.usedEntries ≤ 32 ∧ s.usedWords ≤ 2048 ∧ s.decoder.collecting

/-- A commit list holds one to four numbers (R114, R121, R123). -/
def commitListOk (l : List (BitVec 16)) : Prop := 1 ≤ l.length ∧ l.length ≤ 4

/-- The Pending List holds at most 32 entries, and every commit list of the lists and slots holds one to four numbers; a
request that waits for room holds one (R114, R117, R121, R123). -/
def State.requestsBounded (s : State) : Prop :=
  s.commit.pending.length ≤ 32 ∧ (∀ e ∈ s.commit.pending, commitListOk e.commits) ∧
  (∀ e ∈ s.updates.repairs, commitListOk e.commits) ∧
  (∀ (u : Fin 15) (x : Update), s.update u = some x → commitListOk x.commits) ∧
  (∀ c r, s.commit.state = .waiting c r → r.commits.length = 1)

/-- The rectangles of the repairs that wait and of the slots that are not FREE are pairwise disjoint, and repairs and such
slots are together at most 15 (R123, R126). -/
def State.repairsBounded (s : State) : Prop :=
  s.slotsDisjoint ∧ s.updates.repairs.Pairwise (fun p q => p.rect.overlaps q.rect = false) ∧
  (∀ p ∈ s.updates.repairs, ∀ (u : Fin 15) (x : Update), s.update u = some x → x.rect.overlaps p.rect = false) ∧
  s.updates.repairs.length + s.busyUpdates.length ≤ 15

/-- Every Ghost Counter lies in 0..63 (R124). -/
def State.ghostsBounded (s : State) : Prop := ∀ p ∈ s.updates.ghosts, p.2 ≤ 63

/-- While the part is AWAKE the doze timer runs exactly while the idle conditions hold (R159). -/
def State.dozeLaw (s : State) : Prop := s.doze.dozing = false → (s.doze.timer.isSome = true ↔ s.idleConditions = true)


end Sys2Proof.Machine
end

