-- ==== Sys2Proof/Certificates/Slice0/Obligations.lean ====
section
/-! DEFINITION. The statements about the machine that are to be proved. `Yields c s want` says that command c at state s
answers a next state that is `want`, beside the Status Block's change marks and the Doze Controller; those two follow
every command by the rules of MarksFollowChanges and DozeTimerFollowsIdle. An equation of a whole state is also the
frame: every field not named in `want` is as before. -/

open Sys2Proof Sys2Proof.Machine

/-! ## The machine as a whole -/

/-- One step carries out the command at the front of the queue on the state with the queue's rest; an empty queue
idles (the model's choice, log entry 5). -/
def Obligations.StepRunsFrontCommand : Prop :=
  ∀ (c : Instr) (rest : List Instr) (s : State),
    step { s with pending := c :: rest } = exec c { s with pending := rest } ∧
    step { s with pending := [] } = .next { s with pending := [] }

/-- The reset state has the values that the rules give, and RESET puts every piece of state at its reset value,
samples the straps, and leaves memory and the level of the panel-ready line as they are. The model's choices are the
commands that wait outside (log entry 5), and what the last equation alone fixes: the fields of a FULL cursor other
than FULL (log entry 26), the refresh and scanner requests clear (log entry 18), no reading recorded as asked for (log
entry 21), read data 0 and the pins of the reset state (log entry 3), and an empty table of the panel link (log entry
19). -/
def Obligations.ResetLeaves : Prop :=
  (let s := State.reset
  (s.decoder.state = .sync ∧ s.decoder.ep = 0 ∧ s.decoder.gap = [] ∧ s.decoder.huntCount = 0 ∧ s.decoder.stray = 0 ∧
    s.decoder.skipped = 0 ∧ s.decoder.stall = none ∧ s.decoder.lowSpace = false ∧ s.queue = [] ∧ s.composer = .idle) ∧
  (s.tune.stallTimeout = 20 ∧ s.tune.holdLimit = 32 ∧ s.tune.highMark = 192 ∧ s.tune.lowMark = 64 ∧
    s.tune.settleTime = 8 ∧ s.tune.latencyLimit = 40 ∧ s.tune.ghostLimit = 8 ∧ s.tune.panelHold = 50 ∧
    s.tune.defaultBand = 3 ∧ s.tune.pulseMode = false ∧ s.tune.classMask = 255 ∧ s.tune.dozeEnable = false ∧
    s.tune.dozeDelay = 50) ∧
  (∀ e : Fin 8, s.regions[e] = none ∧ s.fonts[e] = none) ∧
  (s.guard.on = false ∧ s.guard.invert = false ∧ s.guard.lower = 0 ∧ s.guard.upper = 0 ∧ s.locked = false) ∧
  (∀ i : Fin 4, (s.page i).isOpen = false ∧ (s.page i).region = none ∧ (s.page i).inCommit = false ∧
    (s.page i).pageId = 0 ∧ (s.page i).live = false ∧ (s.page i).settle = none ∧ (s.page i).latency = none ∧
    (s.page i).autoCommit = false ∧ (s.page i).hasDirty = false ∧ (∀ k : Fin 4, (s.cursor i k).full = true) ∧
    (s.page i).log = [] ∧ (s.page i).logFull = false ∧ s.columns[i] = none) ∧
  (s.cache = [] ∧ s.notes = [] ∧ s.noteCounter = 0) ∧
  (s.commit.state = .idle ∧ s.commit.nextNumber = 1 ∧ s.commit.pending = []) ∧
  (∀ u : Fin 15, s.update u = none) ∧ (s.updates.order = [] ∧ s.updates.repairs = []) ∧
  (∀ tile, s.ghost tile = 63) ∧
  (s.supply.panel = .unconfigured ∧ s.supply.enable = false ∧ s.supply.valid = false ∧ s.supply.geometry = none ∧
    s.supply.framePeriod = 118 ∧ s.supply.riseTimeout = 25 ∧ s.supply.grace = 10 ∧ s.supply.attempt = 0 ∧
    s.supply.reading = none ∧ s.supply.riseTimer = none ∧ s.supply.gapTimer = none ∧ s.supply.holdTimer = none ∧
    s.supply.graceTimer = none ∧ s.supply.fallTimer = none ∧ s.supply.readingTimer = none ∧ s.supply.check = none) ∧
  (s.reporter.produced = 0 ∧ s.reporter.consumed = 0 ∧ s.reporter.nextIndex = 0 ∧ s.reporter.dropped = 0 ∧
    s.reporter.faultCount = 0 ∧ s.reporter.attention = false ∧ s.reporter.marks = 0 ∧ s.interruptLine = false) ∧
  (s.doze.dozing = false ∧ s.doze.timer = none ∧ s.time = 0 ∧ s.port.turn = .composer)) ∧
  (∀ (straps : BitVec 2) (s : State), ∃ t, exec (.reset straps) s = .next t ∧
    t.mem = s.mem ∧ t.straps = straps ∧ t.pending = s.pending ∧ t.supply.readyLine = s.supply.readyLine ∧
    t.memBytes = (if straps = 1 then 0x4000000 else if straps = 2 then 0x8000000 else 0x2000000) ∧
    t.top = t.memBytes - 0x600000 ∧ t.supply.enable = false ∧ t.interruptLine = false ∧ t.time = 0 ∧
    { t with mem := [], straps := 0, pending := [], supply := { (t.supply) with readyLine := false } } = State.reset)

/-- Every law of the device holds in the reset state. -/
def Obligations.LawsHoldAtReset : Prop :=
  State.reset.tablesCanonical ∧ State.reset.outstandingBounded ∧ State.reset.countsBounded ∧ State.reset.tune.inRange ∧
  State.reset.slotsDisjoint ∧ State.reset.orderLaw ∧ State.reset.repairsBounded ∧ State.reset.enableLaw ∧
  State.reset.queueBounded ∧ State.reset.requestsBounded ∧ State.reset.ghostsBounded ∧ State.reset.dozeLaw

/-! ## Laws that every step keeps -/

/-- Memory, the table of Ghost Counters and the table of the panel link's codes keep their canonical form (the
model's, log entries 2 and 19), and every Ghost Counter stays in 0..63. -/
def Obligations.TablesStayCanonical : Prop :=
  (∀ s t : State, s.tablesCanonical → step s = .next t → t.tablesCanonical) ∧
  (∀ s t : State, s.ghostsBounded → step s = .next t → t.ghostsBounded)

/-- The number of outstanding events never exceeds 240, the counts that stop at 65535 stay within it with N below 240,
and the tunable limits stay in their ranges. -/
def Obligations.CountsStayInRange : Prop :=
  (∀ s t : State, s.outstandingBounded → step s = .next t → t.outstandingBounded) ∧
  (∀ s t : State, s.countsBounded → step s = .next t → t.countsBounded) ∧
  (∀ s t : State, s.tune.inRange → step s = .next t → t.tune.inRange)

/-- The rectangles of the update slots that are not FREE stay pairwise disjoint, and the start order goes on listing
each of those slots exactly once. -/
def Obligations.SlotRectanglesStayDisjoint : Prop :=
  (∀ s t : State, s.slotsDisjoint → step s = .next t → t.slotsDisjoint) ∧
  (∀ s t : State, s.orderLaw → step s = .next t → t.orderLaw)

/-- The supply enable stays raised whenever a slot is ACTIVE. -/
def Obligations.EnableRaisedWhileActive : Prop :=
  ∀ s t : State, s.enableLaw → step s = .next t → t.enableLaw ∧ t.poweredWhileActive

/-- The Record Queue, with its reservation, stays within 32 records and 2048 words. -/
def Obligations.RecordQueueStaysBounded : Prop :=
  ∀ s t : State, s.queueBounded → step s = .next t → t.queueBounded

/-- The Pending List stays within 32 entries, and every commit list keeps one to four numbers. The repairs that wait
and the slots that are not FREE stay together within 15, so the Repair List holds at most 15 entries; their rectangles
stay pairwise disjoint. -/
def Obligations.RequestsStayBounded : Prop :=
  (∀ s t : State, s.requestsBounded → step s = .next t → t.requestsBounded) ∧
  (∀ s t : State, s.repairsBounded → step s = .next t → t.repairsBounded ∧ t.updates.repairs.length ≤ 15)

/-- While AWAKE, the doze timer runs exactly while the idle conditions hold. -/
def Obligations.DozeTimerFollowsIdle : Prop :=
  ∀ s t : State, s.dozeLaw → step s = .next t → t.dozeLaw

/-- A Status Block word whose quantities change under a command other than RESET is marked to be written. The model
keeps one mark for each of the words 0 to 17 and does not compare the words 1 and 2, which the host writes (the
model's choice, log entry 15). A panel that a frame end suspends and takes back to ON at once is marked too. -/
def Obligations.MarksFollowChanges : Prop :=
  (∀ (c : Instr) (s t : State), (∀ straps, c ≠ .reset straps) → exec c s = .next t →
    ∀ k ∈ comparedWords, s.statusWord k ≠ t.statusWord k → t.reporter.marks.getLsbD k = true) ∧
  (∀ (s : State) (f : Frame), s.supply.panel = .on → s.scanner.frame = some f → s.scanInHand = none →
    s.supply.lossNoted = true → s.supply.readyLine = true →
    ∃ t, exec .frameEnd s = .next t ∧ t.supply.panel = .on ∧ t.reporter.marks.getLsbD 10 = true)

/-! ## The Downstream Port -/

/-- A grant changes no byte of memory outside the words it writes; a grant that reads changes none. -/
def Obligations.GrantWritesOnlyItsWords : Prop :=
  ∀ (needs : Bool) (pick : Nat) (s t : State) (g : Grant), s.mem.wf = true →
    (s.raiseScan needs).choose pick = some g → exec (.downstreamGrant needs pick) s = .next t →
    (g ≠ .relay → ∀ a,
      (∀ acc, (s.raiseScan needs).grantAccess pick g = some acc → acc.write = true →
        a < acc.addr ∨ acc.addr + 4 * acc.words ≤ a) → t.mem.byte a = s.mem.byte a) ∧
    (g = .relay → ∀ a,
      (∀ w d, s.relay = .writing w d → a / 4 ≠ w.addr.toNat / 4) → t.mem.byte a = s.mem.byte a)

/-- The arbiter's order: a refresh first, then the scanner, then the Relay, then the engines in turn, and the turn
pointer moves past the engine granted. A refresh request is raised by its timer. The scanner's grant reads its word of
the Panel Image, then of the Prior Image, then the drive code of the next pixel that needs the drive table; held
pixels that follow take code 0 with it, and the eighth code delivers the word to the panel link. The engines' circle
is the Composer, the Commit Engine, the Slot Loader, the Reporter, the waveform check. One word a scanner grant is the
model's choice (log entry 9). -/
def Obligations.GrantOrder : Prop :=
  (∀ (needs : Bool) (pick : Nat) (s : State), s.portReady = true →
    (Yields .refreshTimerExpiry s { s with port := { (s.port) with refreshRequest := true } }) ∧
    (s.port.refreshRequest = true →
      ∃ t, exec (.downstreamGrant needs pick) s = .next t ∧
        State.agrees { t with scanner := s.scanner }
          { s with port := { (s.port) with refreshRequest := false } }) ∧
    (s.port.refreshRequest = false → (s.raiseScan needs).scanner.request = true → s.scanAccess.isSome = true →
      (s.raiseScan needs).choose pick = some .scanner) ∧
    (s.port.refreshRequest = false → (s.raiseScan needs).scanner.request = false → s.relayRequests = true →
      Yields (.downstreamGrant needs pick) s s.serveRelay) ∧
    (s.port.refreshRequest = false → (s.raiseScan needs).scanner.request = false → s.relayRequests = false →
      ∀ e, s.engineInTurn pick = some e → s.grantInMemory pick (.engine e) = true →
        Yields (.downstreamGrant needs pick) s
          (State.serveEngine { s with port := { (s.port) with turn := e.after } } pick e))) ∧
  (∀ (needs : Bool) (pick : Nat) (s : State) (f : Frame) (n : Nat) (x : Update), s.portReady = true →
    s.port.refreshRequest = false → (s.raiseScan needs).scanner.request = true → s.scanInHand = some (f, n, x) →
    s.grantInMemory pick .scanner = true →
    let reading (f' : Frame) : State := { s with scanner := { (s.scanner) with request := false, frame := some f' } }
    let found (f' : Frame) (codes : List (BitVec 2)) : State :=
      if codes.length = 8 then
        { s with scanner :=
          { request := false, frame := some { next := n + 1, panel := none, prior := none, codes := [] }
            link := Sparse.put (List.replicate 8 0) n codes s.scanner.link } }
      else reading { f' with codes := codes }
    let held (p q : Word) (k : Nat) : Prop := x.mode ≠ .clean ∧ pixel p k = pixel q k
    let upTo (p q : Word) (k m : Nat) : Prop := k + m ≤ 8 ∧ (∀ j, j < m → held p q (k + j)) ∧ (k + m < 8 → ¬ held p q (k + m))
    (f.panel = none →
      Yields (.downstreamGrant needs pick) s (reading { f with panel := some (s.mem.word (s.panelBase + 4 * n)) })) ∧
    (∀ q m, f.panel = some q → f.prior = none → f.codes = [] →
      let p := s.mem.word (s.priorBase + 4 * n)
      upTo p q 0 m → Yields (.downstreamGrant needs pick) s (found { f with prior := some p } (List.replicate m 0))) ∧
    (∀ q p m, f.panel = some q → f.prior = some p → f.codes.length < 8 → upTo p q (f.codes.length + 1) m →
      Yields (.downstreamGrant needs pick) s
        (found f (f.codes ++ [s.driveCode x (pixel p f.codes.length) (pixel q f.codes.length)] ++ List.replicate m 0)))) ∧
  (∀ (s : State) (pick : Nat) (e : EngineName),
    (s.engineInTurn pick = some e ↔
      (s.engineAccess pick e).isSome = true ∧
      ∀ e', e'.past s.port.turn < e.past s.port.turn → s.engineAccess pick e' = none) ∧
    e.after.place = (e.place + 1) % 5)

/-- An event raised while fewer than 240 are outstanding is appended with its four words, and otherwise dropped and
counted. The Reporter's grant writes the oldest entry at its place in the Event Ring; the grant that writes the
Produced Count, with entries of enabled classes newly counted and events outstanding, sets attention and asserts the
interrupt line. -/
def Obligations.EventsReachTheHost : Prop :=
  (∀ (s : State) (e : Event),
    (s.reporter.outstanding < 240 →
      let n := if s.reporter.nextIndex = 239 then 0 else s.reporter.nextIndex + 1
      s.raise e =
        { s with reporter :=
          { (s.reporter) with
            produced := s.reporter.produced + 1
            nextIndex := n
            unwritten := s.reporter.unwritten ++
              [{ index := s.reporter.nextIndex, words := e.words s.time,
                 enabled := s.tune.classMask.getLsbD e.classOf, producedAfter := s.reporter.produced + 1,
                 nextAfter := n }] } }) ∧
    (240 ≤ s.reporter.outstanding →
      s.raise e = { s with reporter := { (s.reporter) with dropped := min 65535 (s.reporter.dropped + 1) } })) ∧
  (∀ (s : State) (needs : Bool), s.mem.wf = true → s.startup = .running → s.portReady = true →
    s.port.refreshRequest = false → (s.raiseScan needs).scanner.request = false → s.relayRequests = false →
    s.port.turn = .reporter →
    (∀ e rest, s.reporter.unwritten = e :: rest → e.words.length = 4 → e.index < 240 →
      ∃ t, exec (.downstreamGrant needs 0) s = .next t ∧
        t.mem.words (s.memBytes - 0x600000 + 0x544100 + 16 * e.index) 4 = e.words ∧
        t.reporter.unwritten = rest ∧ t.reporter.writtenProduced = e.producedAfter ∧
        t.reporter.marks.getLsbD 0 = true) ∧
    (s.reporter.marks.getLsbD 0 = true → 0 < s.reporter.toSignal → s.reporter.outstanding ≠ 0 →
      ∃ t, exec (.downstreamGrant needs 1) s = .next t ∧
        t.mem.word (s.memBytes - 0x600000 + 0x544000) = s.statusWord 0 ∧ t.reporter.attention = true ∧
        t.interruptLine = true))

/-! ## The Relay -/

/-- The treatment of a host write by the area that its address lies in. -/
def Obligations.TreatmentTable : Prop :=
  ∀ (s : State) (addr : BusAddr),
    let a := addr.toNat
    let T := s.memBytes - 0x600000
    (s.memBytes ≤ a → s.treat addr = .dropped) ∧
    (a < s.memBytes → T ≤ a → a < T + 0x500000 → s.treat addr = .absorbed .reserved) ∧
    (T + 0x500000 ≤ a → a < T + 0x540000 →
      s.treat addr = if s.supply.valid then .absorbed .reserved else .passed .nobody) ∧
    (T + 0x540000 ≤ a → a < T + 0x544000 → s.treat addr = .offered) ∧
    (T + 0x544000 ≤ a → a < T + 0x545000 →
      s.treat addr =
        if T + 0x544004 ≤ a ∧ a < T + 0x544008 then .passed .consumedCount
        else if T + 0x544008 ≤ a ∧ a < T + 0x54400C then .passed .faultClear
        else .absorbed .reserved) ∧
    (T + 0x545000 ≤ a → a < s.memBytes → s.treat addr = .passed .nobody) ∧
    (a < T →
      let guarded := s.guard.on = true ∧
        (if s.guard.invert then a / 4096 < s.guard.lower ∨ s.guard.upper < a / 4096
         else s.guard.lower ≤ a / 4096 ∧ a / 4096 ≤ s.guard.upper)
      (guarded → s.treat addr = .absorbed .guarded) ∧
      (¬ guarded → (∀ (e : Fin 8) (r : Region), s.regions[e] = some r → r.covers a = false) →
        s.treat addr = .passed .nobody) ∧
      (¬ guarded → ∀ (e : Fin 8) (r : Region), s.regions[e] = some r → r.covers a = true →
        (∀ (e' : Fin 8) (r' : Region), s.regions[e'] = some r' → r'.covers a = true → e' = e) →
        s.treat addr =
          if r.absorb then .absorbed .region
          else match r.kind with
            | .page => .passed (.page e (a / 4 * 4 - r.base * 4096))
            | .font => .passed (.font e)
            | .plain => .passed .nobody))

/-- A host read: beyond the memory size it completes at once with zeros and an access fault of cause RANGE; below it,
the word is read when the Relay's grant comes, and nothing in memory changes. That a read completes within its own
command where the port is free for the Relay, and waits where a refresh or the scanner goes ahead, is the model's
choice of a step (log entry 8), in the order of grants that R7 gives. A read that waits is read by the grant that
comes to the Relay. -/
def Obligations.HostReadBeat : Prop :=
  (∀ (addr : BusAddr) (s : State), s.relay = .idle → s.portReady = true →
    (s.memBytes ≤ addr.toNat →
      Yields (.hostReadBeat addr) s (State.accessFault { s with readData := 0 } addr .range)) ∧
    (addr.toNat < s.memBytes → s.portFree →
      Yields (.hostReadBeat addr) s { s with readData := s.mem.word (addr.toNat / 4 * 4) }) ∧
    (addr.toNat < s.memBytes → s.port.refreshRequest = true →
      Yields (.hostReadBeat addr) s { s with relay := .reading addr }) ∧
    (addr.toNat < s.memBytes → s.scanner.request = true → s.scanAccess.isSome = true →
      Yields (.hostReadBeat addr) s { s with relay := .reading addr })) ∧
  (∀ (needs : Bool) (pick : Nat) (addr : BusAddr) (s : State), s.relay = .reading addr → s.portReady = true →
    s.port.refreshRequest = false → (s.raiseScan needs).scanner.request = false →
    Yields (.downstreamGrant needs pick) s { s with readData := s.mem.word (addr.toNat / 4 * 4), relay := .idle })

/-- A host write reaches the head of the Relay: a dropped or absorbed write completes at once with one access fault
and leaves memory as it is; a passed write waits for its grant, and one into the store spoils a waveform check; a
Control Ring write is to be offered to the Ring Decoder. An access fault, of a read too, raises ACCESS_FAULT with its
address and cause only where the fault count is 0; every later one is counted, up to 65535, and nothing else. -/
def Obligations.HostWriteBeat : Prop :=
  (∀ (addr : BusAddr) (data : Word) (enables : BitVec 4) (s : State), s.relay = .idle → s.portReady = true →
    let w : HostWrite := { addr := addr, data := data, enables := enables }
    let c : Instr := .hostWriteBeat addr data enables
    (s.treat addr = .dropped → Yields c s (s.accessFault addr .range)) ∧
    (∀ cause, s.treat addr = .absorbed cause → Yields c s (s.accessFault addr cause)) ∧
    (∀ d, s.treat addr = .passed d → s.supply.check = none → Yields c s { s with relay := .writing w d }) ∧
    (∀ d k, s.treat addr = .passed d → s.supply.check = some k →
      Yields c s { s with
        relay := .writing w d
        supply := { (s.supply) with check :=
          (some { k with spoilt := k.spoilt || decide (s.storeBase ≤ addr.toNat ∧ addr.toNat < s.ringBase) }) } }) ∧
    (s.treat addr = .offered → Yields c s { s with relay := .ringOffer w })) ∧
  (∀ (s : State) (addr : BusAddr) (cause : FaultCause),
    (s.reporter.faultCount = 0 →
      s.accessFault addr cause =
        State.raise
          { s with reporter :=
            { (s.reporter) with faultCount := 1, faultAddr := addr.setWidth 32, faultCause := some cause } }
          (.accessFault (addr.setWidth 32) cause)) ∧
    (s.reporter.faultCount ≠ 0 →
      s.accessFault addr cause =
        { s with reporter := { (s.reporter) with faultCount := min 65535 (s.reporter.faultCount + 1) } }))

/-- A beat that arrives while the SDRAM is being initialized or the part dozes is held; when initialization ends the
clearing begins, and a part that wakes is AWAKE, and in both cases the beat is served as one that arrives then. The
image and Report Area clearings over, the part runs. An idle part whose doze timer expires dozes; while the Relay
serves a beat the expiry has no occasion (the model's choice, log entry 24). A grant of a clearing writes white into
up to eight words of an image, the Prior Image first, or the Status Block and zeros into up to eight words of the
Report Area (the size and order of grants are the model's choice, log entry 11). -/
def Obligations.StartUpAndDoze : Prop :=
  ((∀ (addr : BusAddr) (s : State), s.relay = .idle → s.portReady = false →
    Yields (.hostReadBeat addr) s { s with relay := .held (.read addr) }) ∧
  (∀ (addr : BusAddr) (data : Word) (enables : BitVec 4) (s : State), s.relay = .idle → s.portReady = false →
    Yields (.hostWriteBeat addr data enables) s
      { s with relay := .held (.write { addr := addr, data := data, enables := enables }) }) ∧
  (∀ s : State, s.startup = .initializing → s.relay = .idle →
    Yields .sdramInitializationEnd s
      { s with startup := .clearing 0, loader := { (s.loader) with clear := some { words := 655360, next := 0 } } }) ∧
  (∀ (addr : BusAddr) (s : State), s.doze.dozing = true → s.relay = .held (.read addr) → s.memBytes ≤ addr.toNat →
    ∃ t, exec .dozeWake s = .next t ∧ t.doze.dozing = false ∧
      t.agrees (State.accessFault { s with readData := 0, relay := .idle } addr .range)) ∧
  (∀ (addr : BusAddr) (s : State), s.doze.dozing = true → s.startup = .running → s.relay = .held (.read addr) →
    addr.toNat < s.memBytes → s.port.refreshRequest = false → s.scanner.request = false →
    ∃ t, exec .dozeWake s = .next t ∧ t.doze.dozing = false ∧
      t.agrees { s with readData := s.mem.word (addr.toNat / 4 * 4), relay := .idle }) ∧
  (∀ (w : HostWrite) (s : State), s.doze.dozing = true → s.relay = .held (.write w) → s.supply.check = none →
    ∀ d, s.treat w.addr = .passed d →
    ∃ t, exec .dozeWake s = .next t ∧ t.doze.dozing = false ∧ t.agrees { s with relay := .writing w d }) ∧
  (∀ (b : Beat) (s want : State), s.doze.dozing = true → s.startup ≠ .initializing → s.relay = .held b →
    Yields b.command { s with relay := .idle, doze := { dozing := false, timer := none } } want →
    Yields .dozeWake s want) ∧
  (∀ (b : Beat) (s want : State), s.startup = .initializing → s.doze.dozing = false → s.relay = .held b →
    Yields b.command
      { s with
        relay := .idle, startup := .clearing 0
        loader := { (s.loader) with clear := some { words := 655360, next := 0 } } } want →
    Yields .sdramInitializationEnd s want)) ∧
  ((∀ s : State, s.startup = .clearing 1024 → s.loader.clear = none →
    Yields .startUpClearingEnd s { s with startup := .running }) ∧
  (∀ (s : State) (n : Nat), s.doze = { dozing := false, timer := some n } → s.idleConditions = true → s.relay = .idle →
    ∃ t, exec .dozeTimerExpiry s = .next t ∧ t.doze = { dozing := true, timer := none } ∧ t.agrees s) ∧
  (∀ s : State, s.relay ≠ .idle → exec .dozeTimerExpiry s = .next s)) ∧
  (∀ (needs : Bool) (pick : Nat) (s : State) (c : Clear), s.grantsTo needs pick .slotLoader → s.loader.clear = some c →
    c.next < 2 * c.words →
    let n := if c.next < c.words then min 8 (c.words - c.next) else min 8 (2 * c.words - c.next)
    let a := if c.next < c.words then s.memBytes - 0x600000 + 4 * c.next
      else s.memBytes - 0x600000 + 0x280000 + 4 * (c.next - c.words)
    GrantLeaves needs pick s .slotLoader
      { s with
        mem := s.mem.setWords a (List.replicate n 0xFFFFFFFF)
        loader := { (s.loader) with
          clear := if c.next + n < 2 * c.words then some { c with next := c.next + n } else none } }) ∧
  (∀ (needs : Bool) (pick : Nat) (s : State) (next : Nat), s.grantsTo needs pick .reporter → s.startup = .clearing next →
    next < 1024 →
    let n := min 8 (1024 - next)
    GrantLeaves needs pick s .reporter
      { s with
        mem := s.mem.setWords (s.memBytes - 0x600000 + 0x544000 + 4 * next)
          ((List.range n).map (fun k => if next + k < 64 then s.statusWord (next + k) else 0))
        startup := .clearing (next + n) })

/-- A passed write that is granted lands: each byte of its word whose enable is set takes the data's byte, every other
byte of memory is as before, and ready is released. A write that is handed to no block changes nothing else. Which
byte of the data and which enable belong to which address is the model's choice (log entry 1): byte k of the word, at
the word's address plus k, is bits 8k + 7 to 8k under enable k. A grant that comes to the Relay lands the write that
waits, just as the row of its destination does. -/
def Obligations.PassedWriteLands : Prop :=
  (∀ (s : State) (w : HostWrite) (d : Handoff), s.mem.wf = true → s.relay = .writing w d → s.relayGranted = true →
    ∃ t, exec d.command s = .next t ∧ t.relay = .idle ∧
      (∀ a, t.mem.byte a =
        if a / 4 = w.addr.toNat / 4 ∧ w.enables.getLsbD (a % 4) = true then byteOf w.data (a % 4) else s.mem.byte a) ∧
      (d = .nobody → t.agrees { s with mem := t.mem, relay := .idle })) ∧
  (∀ (needs : Bool) (pick : Nat) (s : State) (w : HostWrite) (d : Handoff), s.relay = .writing w d → s.portReady = true →
    s.port.refreshRequest = false → (s.raiseScan needs).scanner.request = false →
    s.heldWord ≠ some (w.addr.toNat / 4 * 4) →
    s.relayGranted = true ∧ exec (.downstreamGrant needs pick) s = exec d.command s)

/-- A host write below the image size into the draft of an OPEN page marks the tile of its word; on a live page it
restarts the settle timer, and starts the latency timer if the page had no dirty tiles. Beyond the image size it marks
nothing and leaves the timers. -/
def Obligations.DraftWriteMarks : Prop :=
  ∀ (s : State) (w : HostWrite) (e : Fin 8) (o : Nat) (i : Fin 4) (g : Geometry),
    s.relay = .writing w (.page e o) → s.relayGranted = true → s.supply.geometry = some g → g.legal →
    s.pageOfRegion e = some i →
    ∃ t, exec .draftWrite s = .next t ∧
      t.agrees { s with mem := w.into s.mem, relay := .idle, pages := t.pages } ∧
      (∀ j, j ≠ i → t.page j = s.page j) ∧
      (g.width * g.height / 2 ≤ o → t.page i = s.page i) ∧
      (o < g.width * g.height / 2 →
        t.page i =
          { s.page i with
            dirty := (s.page i).dirty ||| 1#5120 <<< (o / (g.width / 2) / 32 * 80 + o % (g.width / 2) / 16)
            settle := if (s.page i).live then some s.tune.settleTime else (s.page i).settle
            latency := if (s.page i).live ∧ (s.page i).dirty = 0 then some s.tune.latencyLimit
              else (s.page i).latency })

/-- A host write into a FONT region invalidates exactly the cached entries of the font slots bound to it. The Consumed
Count takes the value as memory then holds it if that lies within 240 of P, and P otherwise, and attention is cleared
if C then equals P; a zero in Fault Clear resets the fault count alone. -/
def Obligations.WatchedWritesLand : Prop :=
  (∀ (s : State) (w : HostWrite) (e : Fin 8), s.relay = .writing w (.font e) → s.relayGranted = true →
    ∃ t, exec .fontRegionWrite s = .next t ∧
      t.agrees { s with mem := w.into s.mem, relay := .idle, cache := t.cache } ∧
      t.cache.Sublist s.cache ∧
      ∀ x, x ∈ t.cache ↔ x ∈ s.cache ∧ ∀ b, s.font x.font = some b → b.region ≠ e) ∧
  ((∀ (s : State) (w : HostWrite), s.relay = .writing w .consumedCount → s.relayGranted = true →
    ∃ t, exec .consumedCountWrite s = .next t ∧
      let word := (w.into s.mem).word (s.reportBase + 4)
      let v : BitVec 16 := word.setWidth 16
      let c := if (s.reporter.produced - v).toNat ≤ 240 then v else s.reporter.produced
      t.agrees
        { s with
          mem := w.into s.mem, relay := .idle
          reporter :=
            { (s.reporter) with consumed := c, attention := s.reporter.attention && decide (c ≠ s.reporter.produced) } } ∧
      (c.setWidth 32 ≠ word → t.reporter.marks.getLsbD 1 = true)) ∧
  (∀ (s : State) (w : HostWrite), s.relay = .writing w .faultClear → s.relayGranted = true →
    Yields .faultClearWrite s
      { s with
        mem := w.into s.mem, relay := .idle
        reporter :=
          if (w.into s.mem).word (s.reportBase + 8) = 0 then { (s.reporter) with faultCount := 0 } else s.reporter }))

/-! ## The Control Ring -/

/-- A Control Ring write that is not at EP and is no RESTART passes to memory; it is counted as stray unless its
offset lies in the gap, and the decoder is otherwise as it was. -/
def Obligations.StrayRingWrite : Prop :=
  ∀ (s : State) (w : HostWrite), s.relay = .ringOffer w → s.clearFor w → s.offersRestart w = false →
    s.ringWord w ≠ s.decoder.ep →
    Yields .controlRingWrite s
      { s with
        mem := w.into s.mem, relay := .idle
        decoder :=
          if s.ringWord w ∈ s.decoder.gap then s.decoder
          else { (s.decoder) with stray := min 65535 (s.decoder.stray + 1) } }

/-- In SKIP each write at EP, whole or broken, is consumed and discarded: the remainder falls and the skipped count
rises by 1; at remainder 0 the stall timer stops, EP moves to the next boundary and the decoder is in SYNC. The hunt
count is as it was. -/
def Obligations.SkipConsumes : Prop :=
  ∀ (s : State) (w : HostWrite) (remainder length : Nat), s.relay = .ringOffer w → s.clearFor w →
    s.decoder.state = .skip remainder length → 1 ≤ remainder → s.ringWord w = s.decoder.ep →
    ∃ t, exec .controlRingWrite s = .next t ∧
      t.agrees { s with mem := w.into s.mem, relay := .idle, decoder := t.decoder } ∧
      t.decoder.skipped = min 65535 (s.decoder.skipped + 1) ∧ t.decoder.huntCount = s.decoder.huntCount ∧
      t.decoder.stray = s.decoder.stray ∧ t.decoder.lowSpace = s.decoder.lowSpace ∧ t.decoder.hold = s.decoder.hold ∧
      (remainder = 1 →
        t.decoder.state = .sync ∧ t.decoder.stall = none ∧ t.decoder.ep.toNat = (s.decoder.ep.toNat + 4) / 4 * 4 % 4096) ∧
      (1 < remainder →
        t.decoder.state = .skip (remainder - 1) length ∧ t.decoder.ep = s.decoder.ep + 1 ∧ t.decoder.gap = [] ∧
        t.decoder.stall = if s.tune.stallTimeout = 0 then none else some s.tune.stallTimeout)

/-- The last word of a record under collection completes it: the words as offered join the queue, EP moves to the next
boundary with the offsets passed over as the gap, the stall timer stops, and no event is raised. A word before the
last joins the record, EP advances by one, the gap is emptied and the stall timer restarts. A broken write tears the
record: RECORD_TORN with cause PARTIAL and the words consumed, and the broken word, consumed and counted as skipped,
is the first of a hunt. Where the release of its reservation brings SPACE_AGAIN, that event comes before RECORD_TORN
(the model's reading, log entry 12). -/
def Obligations.RecordCompletes : Prop :=
  ∀ (s : State) (w : HostWrite) (o : BitVec 12) (words : List Word), s.relay = .ringOffer w → s.clearFor w →
    s.decoder.state = .body o words → s.ringWord w = s.decoder.ep →
    (w.enables = 15 → headerLength (words.headD 0) = words.length + 1 →
      Yields .controlRingWrite s
        { s with
          mem := w.into s.mem, relay := .idle, queue := s.queue ++ [{ offset := o, words := words ++ [w.data] }]
          decoder := s.decoder.closed } ∧
      ∀ t, exec .controlRingWrite s = .next t → t.usedWords = s.usedWords) ∧
    (w.enables = 15 → words.length + 1 < headerLength (words.headD 0) →
      Yields .controlRingWrite s
        { s with
          mem := w.into s.mem, relay := .idle
          decoder :=
            { (s.decoder) with
              state := .body o (words ++ [w.data]), ep := s.decoder.ep + 1, gap := []
              stall := if s.tune.stallTimeout = 0 then none else some s.tune.stallTimeout } }) ∧
    (w.enables ≠ 15 →
      let dropped := { s with decoder := { (s.decoder) with state := .hunt, huntCount := 0, stall := none } }
      (dropped.spaceQuiet →
      Yields .controlRingWrite s
        { (dropped.raise (.recordTorn .partialWord (words.headD 0) o words.length)) with
          mem := w.into s.mem, relay := .idle
          decoder :=
            { (s.decoder) with
              state := .hunt, huntCount := 1, stall := none, skipped := min 65535 (s.decoder.skipped + 1)
              ep := s.decoder.ep + 1, gap := [] } }) ∧
      (s.decoder.lowSpace = true → dropped.usedWords ≤ 8 * s.tune.lowMark →
      Yields .controlRingWrite s
        { (State.raise
            (State.raise { dropped with decoder := { (dropped.decoder) with lowSpace := false } }
              (.spaceAgain dropped.usedWords))
            (.recordTorn .partialWord (words.headD 0) o words.length)) with
          mem := w.into s.mem, relay := .idle
          decoder :=
            { (s.decoder) with
              state := .hunt, huntCount := 1, stall := none, skipped := min 65535 (s.decoder.skipped + 1)
              ep := s.decoder.ep + 1, gap := [], lowSpace := false } }))

/-- A header at EP, written whole, in SYNC or at a boundary in HUNT, of a kind that is not RESTART. A hunt ends first,
with RESYNC and its count. With room the record is started and its words are reserved, and a record of one word is
complete at once; LOW_SPACE follows when the used words so reach the high mark. Without room the write is held back
with the hold limit in force, and memory is not written; a hold limit of 0 is reached at once, and the record is
overrun, which starts the stall timer in SKIP (the model's choice, log entry 13). In SYNC a broken write, or one that
is no valid header, is consumed and counted as skipped and begins a hunt; in HUNT every write at EP that ends no hunt
is consumed and counted. -/
def Obligations.HeaderStartsOrIsHeld : Prop :=
  ∀ (s : State) (w : HostWrite), s.relay = .ringOffer w → s.clearFor w → s.ringWord w = s.decoder.ep →
    let n := headerLength w.data
    let timer : Timer := if s.tune.stallTimeout = 0 then none else some s.tune.stallTimeout
    (∀ k, w.enables = 15 → validHeader w.data = some k → k ≠ .restart →
      s.decoder.state = .sync ∨ (s.decoder.state = .hunt ∧ s.decoder.ep.toNat % 4 = 0) →
      let s0 : State := match s.decoder.state with
        | .hunt => State.raise { s with decoder := { (s.decoder) with state := .sync, huntCount := 0 } }
            (.resync w.data s.decoder.ep s.decoder.huntCount)
        | _ => s
      let started : State :=
        if n = 1 then
          { s0 with
            queue := s.queue ++ [{ offset := s.decoder.ep, words := [w.data] }], decoder := s0.decoder.closed }
        else
          { s0 with decoder :=
            { (s0.decoder) with state := .body s.decoder.ep [w.data], ep := s.decoder.ep + 1, gap := [], stall := timer } }
      (s.hasRoom n = false → s.tune.holdLimit ≠ 0 →
        Yields .controlRingWrite s
          { s0 with relay := .ringHold w, decoder := { (s0.decoder) with hold := some s.tune.holdLimit } }) ∧
      (s.hasRoom n = false → s.tune.holdLimit = 0 →
        Yields .controlRingWrite s
          { (State.raise
              { s0 with decoder :=
                if n = 1 then { s0.decoder.closed with hold := none, stall := s.decoder.stall }
                else
                  { (s0.decoder) with
                    state := .skip (n - 1) n, ep := s.decoder.ep + 1, gap := [], hold := none, stall := timer } }
              (.recordOverrun w.data s.decoder.ep)) with
            mem := w.into s.mem, relay := .idle }) ∧
      (s.hasRoom n = true →
        started.usedWords = s.usedWords + n ∧
        (started.spaceQuiet →
          Yields .controlRingWrite s { started with mem := w.into s.mem, relay := .idle }) ∧
        (s.decoder.lowSpace = false → 8 * s.tune.highMark ≤ s.usedWords + n →
          Yields .controlRingWrite s
            { (State.raise { started with decoder := { (started.decoder) with lowSpace := true } }
                (.lowSpace (s.usedWords + n))) with
              mem := w.into s.mem, relay := .idle }))) ∧
    (s.decoder.state = .sync → w.enables ≠ 15 ∨ validHeader w.data = none →
      Yields .controlRingWrite s
        { s with
          mem := w.into s.mem, relay := .idle
          decoder :=
            { (s.decoder) with
              state := .hunt, huntCount := 1, stall := none, skipped := min 65535 (s.decoder.skipped + 1)
              ep := s.decoder.ep + 1, gap := [] } }) ∧
    (s.decoder.state = .hunt → w.enables ≠ 15 ∨ validHeader w.data = none ∨ s.decoder.ep.toNat % 4 ≠ 0 →
      Yields .controlRingWrite s
        { s with
          mem := w.into s.mem, relay := .idle
          decoder :=
            { (s.decoder) with
              huntCount := min 65535 (s.decoder.huntCount + 1), skipped := min 65535 (s.decoder.skipped + 1)
              ep := s.decoder.ep + 1, gap := [] } })

/-- A RESTART written whole at offset 0 while EP is not 0 takes effect in any decoder state: EP becomes 4 in SYNC, the
gap is emptied, the hunt count is 0 and the stall timer stopped. Outside BODY its one event is RESTARTED with the
words dropped. In BODY the record under collection is torn first, with RECORD_TORN of cause RESTART (after SPACE_AGAIN
where the release of its reservation brings it: the model's reading, log entry 12). A RESTART header consumed at EP,
in SYNC, where EP may be 0, or at the end of a hunt, does the same with no words dropped, RESYNC before RESTARTED in
the second case. -/
def Obligations.RestartSetsStreamBack : Prop :=
  (∀ (s : State) (w : HostWrite), s.relay = .ringOffer w → s.clearFor w → w.enables = 15 →
    validHeader w.data = some .restart → s.ringWord w = 0 → s.decoder.ep ≠ 0 →
    (∃ t, exec .restart s = .next t ∧ t.relay = .idle ∧ t.mem = w.into s.mem ∧ t.queue = s.queue ∧
      t.decoder.state = .sync ∧ t.decoder.ep = 4 ∧ t.decoder.gap = [] ∧ t.decoder.huntCount = 0 ∧
      t.decoder.stall = none ∧ t.decoder.stray = s.decoder.stray ∧ t.decoder.skipped = s.decoder.skipped ∧
      t.agrees { s with mem := w.into s.mem, relay := .idle, decoder := t.decoder, reporter := t.reporter }) ∧
    ((∀ o words, s.decoder.state ≠ .body o words) →
      Yields .restart s
        { (State.raise
            { s with decoder :=
              { (s.decoder) with state := .sync, ep := 4, gap := [], huntCount := 0, stall := none } }
            (.restarted w.data
              (match s.decoder.state with | .skip remainder length => length - remainder | _ => 0))) with
          mem := w.into s.mem, relay := .idle }) ∧
    (∀ o words, s.decoder.state = .body o words →
      let dropped := { s with decoder := { (s.decoder) with state := .hunt, huntCount := 0, stall := none } }
      let back (torn : State) : State :=
        { (State.raise
            { torn with decoder :=
              { (torn.decoder) with state := .sync, ep := 4, gap := [], huntCount := 0, stall := none } }
            (.restarted w.data words.length)) with
          mem := w.into s.mem, relay := .idle }
      (dropped.spaceQuiet →
        Yields .restart s (back (dropped.raise (.recordTorn .restart (words.headD 0) o words.length)))) ∧
      (s.decoder.lowSpace = true → dropped.usedWords ≤ 8 * s.tune.lowMark →
        Yields .restart s
          (back (State.raise
            (State.raise { dropped with decoder := { (dropped.decoder) with lowSpace := false } }
              (.spaceAgain dropped.usedWords))
            (.recordTorn .restart (words.headD 0) o words.length)))))) ∧
  (∀ (s : State) (w : HostWrite), s.relay = .ringOffer w → s.clearFor w → w.enables = 15 →
    validHeader w.data = some .restart → s.ringWord w = s.decoder.ep →
    s.decoder.state = .sync ∨ (s.decoder.state = .hunt ∧ s.decoder.ep.toNat % 4 = 0) →
    let s0 : State := match s.decoder.state with
      | .hunt => State.raise { s with decoder := { (s.decoder) with state := .sync, huntCount := 0 } }
          (.resync w.data s.decoder.ep s.decoder.huntCount)
      | _ => s
    Yields .restart s
      { (State.raise
          { s0 with decoder :=
            { (s.decoder) with state := .sync, ep := 4, gap := [], huntCount := 0, stall := none } }
          (.restarted w.data 0)) with
        mem := w.into s.mem, relay := .idle })

/-- The end of a hold: with room the record is started and the write released, and a record of one word is complete at
once; LOW_SPACE follows when the used words so reach the high mark. At the hold limit without room the header is
consumed unread, RECORD_OVERRUN is raised, and the rest of the record is to be skipped. That the overrun starts the
stall timer is log entry 13, and that a hold with room is not ended by its limit is log entry 22, both the model's. -/
def Obligations.HoldEnds : Prop :=
  ∀ (s : State) (w : HostWrite), s.relay = .ringHold w → s.clearFor w → s.decoder.state = .sync →
    let n := headerLength w.data
    let timer : Timer := if s.tune.stallTimeout = 0 then none else some s.tune.stallTimeout
    let started : State :=
      if n = 1 then
        { s with
          queue := s.queue ++ [{ offset := s.decoder.ep, words := [w.data] }]
          decoder := { s.decoder.closed with hold := none } }
      else
        { s with decoder :=
          { (s.decoder) with
            state := .body s.decoder.ep [w.data], ep := s.decoder.ep + 1, gap := [], hold := none, stall := timer } }
    (s.hasRoom n = true →
      started.usedWords = s.usedWords + n ∧
      (started.spaceQuiet → Yields .holdReleaseOnRoom s { started with mem := w.into s.mem, relay := .idle }) ∧
      (s.decoder.lowSpace = false → 8 * s.tune.highMark ≤ s.usedWords + n →
        Yields .holdReleaseOnRoom s
          { (State.raise { started with decoder := { (started.decoder) with lowSpace := true } }
              (.lowSpace (s.usedWords + n))) with
            mem := w.into s.mem, relay := .idle })) ∧
    (s.hasRoom n = true → exec .holdTimerExpiry s = .next s) ∧
    (s.hasRoom n = false → s.decoder.hold.isSome = true →
      Yields .holdTimerExpiry s
        { (State.raise
            { s with decoder :=
              if n = 1 then { s.decoder.closed with hold := none, stall := s.decoder.stall }
              else
                { (s.decoder) with
                  state := .skip (n - 1) n, ep := s.decoder.ep + 1, gap := [], hold := none, stall := timer } }
            (.recordOverrun w.data s.decoder.ep)) with
          mem := w.into s.mem, relay := .idle })

/-- The stall timer's expiry: in BODY the record is dropped with RECORD_TORN of cause STALL, in SKIP the skipping ends
without an event; the decoder is in HUNT with the hunt count 0 and EP where it stood. Where the release of the
reservation brings SPACE_AGAIN, that event comes before RECORD_TORN (the model's reading, log entry 12). -/
def Obligations.StallEndsRecord : Prop :=
  ∀ s : State, s.decoder.stall.isSome = true →
    (∀ remainder length, s.decoder.state = .skip remainder length →
      Yields .stallTimerExpiry s
        { s with decoder := { (s.decoder) with state := .hunt, huntCount := 0, stall := none } }) ∧
    (∀ o words, s.decoder.state = .body o words →
      let dropped := { s with decoder := { (s.decoder) with state := .hunt, huntCount := 0, stall := none } }
      (dropped.spaceQuiet →
        Yields .stallTimerExpiry s (dropped.raise (.recordTorn .stall (words.headD 0) o words.length))) ∧
      (s.decoder.lowSpace = true → dropped.usedWords ≤ 8 * s.tune.lowMark →
        Yields .stallTimerExpiry s
          (State.raise
            (State.raise { dropped with decoder := { (dropped.decoder) with lowSpace := false } }
              (.spaceAgain dropped.usedWords))
            (.recordTorn .stall (words.headD 0) o words.length))))

/-! ## Records the Composer executes -/

/-- With no record in execution the oldest record is taken. A NOP, whatever its length, ends its execution at once
with no effect and no event. A record whose execution has ended is removed, and nothing else happens while the used
words bring no space event; when they fall to the low mark with the flag set, SPACE_AGAIN is raised. -/
def Obligations.RecordsTakenAndRemoved : Prop :=
  (∀ (s : State) (r : Record) (rest : List Record), s.startup = .running → s.composer = .idle → s.queue = r :: rest →
    Yields .recordTake s { s with composer := .taken }) ∧
  (∀ (s : State) (r : Record), s.executing r .nop → Yields .nop s { s with composer := .ended }) ∧
  (∀ (s : State) (r : Record) (rest : List Record), s.composer = .ended → s.queue = r :: rest →
    let removed : State := { s with composer := .idle, queue := rest }
    (removed.spaceQuiet → Yields .recordExecutionEnd s removed) ∧
    (s.decoder.lowSpace = true → removed.usedWords ≤ 8 * s.tune.lowMark →
      Yields .recordExecutionEnd s
        (State.raise { removed with decoder := { (s.decoder) with lowSpace := false } } (.spaceAgain removed.usedWords))))

/-- TUNE: a field of all ones leaves its limit, and any other is clamped to its range; the low mark is then brought
below the high mark and the latency limit up to the settle time, so that limits in range stay in range. Nothing else
changes and no event is raised while the used words bring none under the new marks; a mark that comes to or passes the
used words raises LOW_SPACE or SPACE_AGAIN at once. The model's choices: a mode left at LEVEL drops the pulses not yet
begun (log entry 14), and the class mask of the record governs the event it raises (log entry 30). R32 says only `a
fixed order`: that the low mark and the latency limit are clamped against the newly stored high mark and settle time
is the model's choice (log entry 25). -/
def Obligations.TuneClamps : Prop :=
  ∀ (s : State) (r : Record), s.executing r .tune →
    ∃ t, exec .tune s = .next t ∧
      (let stored : State :=
        { s with
          composer := .ended, tune := t.tune
          reporter :=
            { (s.reporter) with pulsesQueued := if t.tune.pulseMode = true then s.reporter.pulsesQueued else 0 } }
      (stored.spaceQuiet → t.agrees stored) ∧
      (s.decoder.lowSpace = false → 8 * t.tune.highMark ≤ s.usedWords →
        t.agrees
          (State.raise { stored with decoder := { (s.decoder) with lowSpace := true } } (.lowSpace s.usedWords))) ∧
      (s.decoder.lowSpace = true → s.usedWords ≤ 8 * t.tune.lowMark →
        t.agrees
          (State.raise { stored with decoder := { (s.decoder) with lowSpace := false } } (.spaceAgain s.usedWords)))) ∧
      (s.tune.inRange → t.tune.inRange) ∧
      t.tune.stallTimeout = (if r.tuneField 87 9 = 511 then s.tune.stallTimeout else min 255 (r.tuneField 87 9)) ∧
      t.tune.holdLimit = (if r.tuneField 78 9 = 511 then s.tune.holdLimit else min 255 (r.tuneField 78 9)) ∧
      t.tune.highMark = (if r.tuneField 69 9 = 511 then s.tune.highMark else min 256 (max 8 (r.tuneField 69 9))) ∧
      t.tune.lowMark =
        min (t.tune.highMark - 1) (if r.tuneField 60 9 = 511 then s.tune.lowMark else r.tuneField 60 9) ∧
      t.tune.settleTime = (if r.tuneField 51 9 = 511 then s.tune.settleTime else min 255 (max 1 (r.tuneField 51 9))) ∧
      t.tune.latencyLimit =
        max t.tune.settleTime (if r.tuneField 42 9 = 511 then s.tune.latencyLimit else min 255 (r.tuneField 42 9)) ∧
      t.tune.ghostLimit = (if r.tuneField 35 7 = 127 then s.tune.ghostLimit else min 63 (max 1 (r.tuneField 35 7))) ∧
      t.tune.panelHold = (if r.tuneField 26 9 = 511 then s.tune.panelHold else min 255 (r.tuneField 26 9)) ∧
      t.tune.defaultBand = (if r.tuneField 22 4 = 15 then s.tune.defaultBand else min 7 (r.tuneField 22 4)) ∧
      t.tune.pulseMode = (if r.tuneField 20 2 = 3 then s.tune.pulseMode else decide (1 ≤ r.tuneField 20 2)) ∧
      t.tune.classMask.toNat = (if r.tuneField 11 9 = 511 then s.tune.classMask.toNat else min 255 (r.tuneField 11 9)) ∧
      t.tune.dozeEnable = (if r.tuneField 9 2 = 3 then s.tune.dozeEnable else decide (1 ≤ r.tuneField 9 2)) ∧
      t.tune.dozeDelay = (if r.tuneField 0 9 = 511 then s.tune.dozeDelay else min 255 (max 1 (r.tuneField 0 9)))

/-- REGION sets or empties one entry; it is refused with LOCKED after LOCK_TIGHT. LOCK_TIGHT itself is always
accepted. A bound entry keeps its base, size and kind (BOUND otherwise), and takes a new host-write attribute; a
region that would share a unit with another entry's is refused with OVERLAP. -/
def Obligations.RegionAndLock : Prop :=
  (∀ (s : State) (r : Record), s.executing r .lockTight → Yields .lockTight s { s with locked := true, composer := .ended }) ∧
  (∀ (s : State) (r : Record), s.executing r .region →
    (s.locked = true → Yields .region s (s.refused r .locked)) ∧
    (s.locked = false → s.entryBound r.regionEntry = false → r.regionSize = 0 →
      Yields .region s { s with regions := s.regions.set r.regionEntry none, composer := .ended }) ∧
    (s.locked = false → s.entryBound r.regionEntry = false → 0 < r.regionSize →
      ∀ k a, regionKindOf r.regionKindCode = some k → absorbOf r.regionAbsorbCode = some a →
      (s.top / 4096 < r.regionBase + r.regionSize → Yields .region s (s.refused r .badField)) ∧
      (r.regionBase + r.regionSize ≤ s.top / 4096 →
        (∀ (e : Fin 8) (old : Region), e ≠ r.regionEntry → s.regions[e] = some old →
          r.regionBase + r.regionSize ≤ old.base ∨ old.base + old.size ≤ r.regionBase) →
        Yields .region s
          { s with
            regions := s.regions.set r.regionEntry
              (some { base := r.regionBase, size := r.regionSize, kind := k, absorb := a })
            composer := .ended })) ∧
    (s.locked = false → 0 < r.regionSize →
      regionKindOf r.regionKindCode = none ∨ absorbOf r.regionAbsorbCode = none →
      Yields .region s (s.refused r .badField)) ∧
    (s.locked = false → s.entryBound r.regionEntry = true → ∀ old, s.regions[r.regionEntry] = some old →
      (r.regionSize = 0 → Yields .region s (s.refused r .bound)) ∧
      (0 < r.regionSize → r.regionBase + r.regionSize ≤ s.top / 4096 →
        ∀ k a, regionKindOf r.regionKindCode = some k → absorbOf r.regionAbsorbCode = some a →
        (old.base ≠ r.regionBase ∨ old.size ≠ r.regionSize ∨ old.kind ≠ k → Yields .region s (s.refused r .bound)) ∧
        (old.base = r.regionBase → old.size = r.regionSize → old.kind = k →
          (∀ (e : Fin 8) (other : Region), e ≠ r.regionEntry → s.regions[e] = some other →
            r.regionBase + r.regionSize ≤ other.base ∨ other.base + other.size ≤ r.regionBase) →
          Yields .region s
            { s with regions := s.regions.set r.regionEntry (some { old with absorb := a }), composer := .ended }))) ∧
    (s.locked = false → s.entryBound r.regionEntry = false → 0 < r.regionSize →
      r.regionBase + r.regionSize ≤ s.top / 4096 → (regionKindOf r.regionKindCode).isSome = true →
      (absorbOf r.regionAbsorbCode).isSome = true →
      ∀ (e : Fin 8) (other : Region), e ≠ r.regionEntry → s.regions[e] = some other → 0 < other.size →
      r.regionBase < other.base + other.size → other.base < r.regionBase + r.regionSize →
      Yields .region s (s.refused r .overlap)))

/-- GUARD replaces all four pieces of the Write Guard at once, is refused with LOCKED after LOCK_TIGHT and with
BAD_FIELD if it turns the guard on with lower above upper; host writes below T decided from then on use the new guard,
and a write already decided keeps its treatment. -/
def Obligations.GuardReplaced : Prop :=
  ∀ (s : State) (r : Record), s.executing r .guard →
    let g := r.guardFields
    (s.locked = true → Yields .guard s (s.refused r .locked)) ∧
    (s.locked = false → g.on = true → g.upper < g.lower → Yields .guard s (s.refused r .badField)) ∧
    (s.locked = false → (g.on = true → g.lower ≤ g.upper) →
      Yields .guard s { s with guard := g, composer := .ended } ∧
      ∀ addr : BusAddr, addr.toNat < s.top →
        (({ s with guard := g } : State).treat addr = .absorbed .guarded ↔
          g.on = true ∧
            (if g.invert then addr.toNat / 4096 < g.lower ∨ g.upper < addr.toNat / 4096
             else g.lower ≤ addr.toNat / 4096 ∧ addr.toNat / 4096 ≤ g.upper)))

/-- FONT_BIND binds its font slot to a FONT region that holds its table, and invalidates the slot's cached entries;
with the unbind flag it is never refused, and unbinds. -/
def Obligations.FontBinding : Prop :=
  ∀ (s : State) (r : Record), s.executing r .fontBind →
    (r.fontUnbind = true →
      Yields .fontUnbind s
        { s with
          fonts := s.fonts.set r.fontSlot none, cache := s.cache.filter (fun x => x.font != r.fontSlot)
          composer := .ended }) ∧
    (r.fontUnbind = false →
      let b := r.fontFields
      (s.regions[b.region] = none → Yields .fontBind s (s.refused r .badField)) ∧
      (∀ g : Region, s.regions[b.region] = some g → g.kind = .font → b.tableOffset % 8 = 0 → b.codesClash = false →
        (g.size * 4096 < b.tableOffset + 8 * b.count → Yields .fontBind s (s.refused r .tooSmall)) ∧
        (b.tableOffset + 8 * b.count ≤ g.size * 4096 →
          Yields .fontBind s
            { s with
              fonts := s.fonts.set r.fontSlot (some b), cache := s.cache.filter (fun x => x.font != r.fontSlot)
              composer := .ended })))

/-- A glyph-table entry is bad exactly when its bitmap has bytes and extends beyond the font region; with width or
height 0 it is never bad. -/
def Obligations.BadGlyph : Prop :=
  ∀ (g : Glyph) (size : Nat),
    (g.isBad size = true ↔
      0 < g.height * ((g.width + 1) / 2) ∧ size * 4096 < g.bitmap + g.height * ((g.width + 1) / 2)) ∧
    (g.width = 0 ∨ g.height = 0 → g.isBad size = false)

/-- COLUMN defines a column, its box clamped to the panel, and resets that column's cursor in every OPEN page slot;
with no geometry it is refused with UNCONFIGURED. -/
def Obligations.ColumnDefined : Prop :=
  ∀ (s : State) (r : Record), s.executing r .column →
    (s.supply.geometry = none → Yields .column s (s.refused r .unconfigured)) ∧
    (∀ g, s.supply.geometry = some g →
      let f := r.columnFields
      let c : Column := { f with left := min f.left g.width, top := min f.top g.height, right := min f.right g.width,
                                 bottom := min f.bottom g.height }
      (c.right ≤ c.left ∨ c.bottom ≤ c.top ∨ c.pitch = 0 → Yields .column s (s.refused r .badField)) ∧
      (c.left < c.right → c.top < c.bottom → 0 < c.pitch →
        ∃ t, exec .column s = .next t ∧
          t.agrees { s with columns := s.columns.set r.columnIndex (some c), composer := .ended, pages := t.pages } ∧
          ∀ i : Fin 4,
            ((s.page i).isOpen = false → t.page i = s.page i) ∧
            ((s.page i).isOpen = true →
              t.page i = { s.page i with cursors := ((s.page i).cursors.set r.columnIndex
                { pen := c.left * 16, baseline := c.top + c.firstBaseline, full := false, lineHolds := false,
                  pendingSpace := 0 }) })))

/-- PAGE_OPEN with each start option opens the slot over its region with its log, notes and timers cleared. FILL and
KEEP_DIRTY mark exactly the tiles of the geometry, and start the latency timer of a live page; KEEP_CLEAN marks none.
FILL goes on to paint the whole image; the other two end. A record is refused, in this order, with UNCONFIGURED,
IN_USE, BAD_FIELD, TOO_SMALL or BOUND. -/
def Obligations.PageOpens : Prop :=
  (∀ (s : State) (r : Record) (g : Geometry) (e : Region), s.executing r .pageOpen → s.supply.geometry = some g → g.legal →
    (s.page r.slot).isOpen = false → s.regions[r.openRegion] = some e → e.kind = .page →
    g.width * g.height / 2 ≤ e.size * 4096 →
    (∀ i : Fin 4, i ≠ r.slot → (s.page i).region ≠ some r.openRegion) → r.openOption ≤ 2 →
    ∃ t, exec (if r.openOption = 0 then .pageOpenFill else if r.openOption = 1 then .pageOpenKeepClean
        else .pageOpenKeepDirty) s = .next t ∧
      t.agrees { s with pages := t.pages, notes := s.notes.filter (fun n => n.slot != r.slot), composer := t.composer } ∧
      (∀ j, j ≠ r.slot → t.page j = s.page j) ∧
      (let p := t.page r.slot
       p.region = some r.openRegion ∧ p.pageId = r.openPageId ∧ p.live = r.openLive ∧ p.inCommit = false ∧
       p.settle = none ∧ p.autoCommit = false ∧ p.log = [] ∧ p.logFull = false ∧
       (∀ k : Fin 4, p.cursors[k] = resetCursor s.columns[k]) ∧
       (r.openOption = 1 → p.dirty = 0 ∧ p.latency = none) ∧
       (r.openOption ≠ 1 →
         (∀ i j, i < 80 → j < 64 → (p.marked (j * 80 + i) = true ↔ i < g.width / 32 ∧ j < g.height / 32)) ∧
         p.latency = if r.openLive then some s.tune.latencyLimit else none)) ∧
      (r.openOption ≠ 0 → t.composer = .ended) ∧
      (r.openOption = 0 →
        t.composer = .painting
          { slot := r.slot, base := e.base * 4096, stride := g.width / 2,
            paints := [{ rect := { left := 0, top := 0, right := g.width, bottom := g.height }, op := .set,
                         tone := r.openTone }],
            row := 0, col := 0, held := none })) ∧
  (∀ (s : State) (r : Record), s.executing r .pageOpen →
    let c : Instr := if r.openOption = 1 then .pageOpenKeepClean else if r.openOption = 2 then .pageOpenKeepDirty
      else .pageOpenFill
    (s.supply.geometry = none → Yields c s (s.refused r .unconfigured)) ∧
    (∀ g, s.supply.geometry = some g →
      ((s.page r.slot).isOpen = true → Yields c s (s.refused r .inUse)) ∧
      ((s.page r.slot).isOpen = false →
        (s.regions[r.openRegion] = none ∨ 2 < r.openOption → Yields c s (s.refused r .badField)) ∧
        (∀ e : Region, s.regions[r.openRegion] = some e →
          (e.kind ≠ .page → Yields c s (s.refused r .badField)) ∧
          (e.kind = .page → r.openOption ≤ 2 →
            (e.size * 4096 < g.width * g.height / 2 → Yields c s (s.refused r .tooSmall)) ∧
            (g.width * g.height / 2 ≤ e.size * 4096 →
              (∃ i : Fin 4, i ≠ r.slot ∧ (s.page i).region = some r.openRegion) →
              Yields c s (s.refused r .bound)))))))

/-- PAGE_DISCARD is refused with NOT_OPEN for a CLOSED slot, waits in execution while the slot is in commit, and
otherwise closes the slot, removes its notes and cancels its Pending List entries, each with its event. The slot's
FULL cursors take the values of the model's choice (log entry 26). -/
def Obligations.PageDiscarded : Prop :=
  ∀ (s : State) (r : Record), s.executing r .pageDiscard →
    ((s.page r.slot).isOpen = false → Yields .pageDiscard s (s.refused r .notOpen)) ∧
    ((s.page r.slot).isOpen = true → (s.page r.slot).inCommit = true → Yields .pageDiscard s s) ∧
    ((s.page r.slot).isOpen = true → (s.page r.slot).inCommit = false →
      let gone := s.commit.pending.filter (fun e => e.source == some r.slot)
      let told := s.raiseAll (gone.map (fun e => .updateCancelled (some r.slot) e.mode e.commits))
      Yields .pageDiscard s
        { told with
          pages := s.pages.set r.slot PageSlot.reset
          notes := s.notes.filter (fun n => n.slot != r.slot)
          commit := { (s.commit) with pending := s.commit.pending.filter (fun e => e.source != some r.slot) }
          updates := { (s.updates) with due := s.updates.due || !gone.isEmpty }
          composer := .ended })

/-- PAGE_COPY copies the source's notes after those of the destination are removed, copies its Word Log, marks every
tile and begins copying the image; the destination keeps its region, page id, live flag, cursors, in-commit condition,
request and settle timer, and a live destination with no dirty tiles starts its latency timer. It is refused for a
CLOSED slot, for a slot copied onto itself, and where the table has too few entries. A grant of the copy reads up to
eight words of the source, and the next writes them to the destination and marks their tiles, until the image is
copied. The size of those grants is the model's choice (log entry 11). The renumbering of the notes at the top of the
creation counter is left out here; HighlightMarks states it. -/
def Obligations.PageCopied : Prop :=
  (∀ (s : State) (r : Record), s.executing r .pageCopy →
    ((s.page r.slot).isOpen = false ∨ (s.page r.copySource).isOpen = false → Yields .pageCopy s (s.refused r .notOpen)) ∧
    ((s.page r.slot).isOpen = true → r.slot = r.copySource → Yields .pageCopy s (s.refused r .badField)) ∧
    ((s.page r.slot).isOpen = true → (s.page r.copySource).isOpen = true → r.slot ≠ r.copySource →
      64 - s.notes.length + (s.notesOf r.slot).length < (s.notesOf r.copySource).length →
      Yields .pageCopy s (s.refused r .notesFull))) ∧
  (∀ (s : State) (r : Record) (g : Geometry), s.executing r .pageCopy → s.supply.geometry = some g → g.legal →
    (s.page r.slot).isOpen = true → (s.page r.copySource).isOpen = true → r.slot ≠ r.copySource →
    (s.notesOf r.copySource).length ≤ 64 - s.notes.length + (s.notesOf r.slot).length →
    s.noteCounter + (s.notesOf r.copySource).length ≤ 0xFFFFFFFF →
    ∃ t, exec .pageCopy s = .next t ∧
      t.agrees
        { s with pages := t.pages, notes := t.notes, noteCounter := s.noteCounter + (s.notesOf r.copySource).length,
                 composer := .copying
                   { dest := r.slot, sourceBase := s.draftBase r.copySource, destBase := s.draftBase r.slot, next := 0,
                     total := g.width * g.height / 2 / 4, buffer := [] } } ∧
      t.notes = s.notes.filter (fun n => n.slot != r.slot) ++
        (s.notesOf r.copySource).zipIdx.map (fun n =>
          { n.1 with slot := r.slot, pageId := (s.page r.slot).pageId, sequence := s.noteCounter + n.2 }) ∧
      (∀ j, j ≠ r.slot → t.page j = s.page j) ∧
      { t.page r.slot with
        log := (s.page r.slot).log, logFull := (s.page r.slot).logFull, dirty := (s.page r.slot).dirty
        latency := (s.page r.slot).latency } = s.page r.slot ∧
      (t.page r.slot).log = (s.page r.copySource).log ∧ (t.page r.slot).logFull = (s.page r.copySource).logFull ∧
      (t.page r.slot).latency =
        (if (s.page r.slot).live = true ∧ (s.page r.slot).dirty = 0 then some s.tune.latencyLimit
         else (s.page r.slot).latency) ∧
      (∀ i j, i < 80 → j < 64 →
        ((t.page r.slot).marked (j * 80 + i) = true ↔
          (s.page r.slot).marked (j * 80 + i) = true ∨ (i < g.width / 32 ∧ j < g.height / 32)))) ∧
  (∀ (needs : Bool) (pick : Nat) (s : State) (c : Copying), s.grantsTo needs pick .composer → s.composer = .copying c →
    (c.buffer = [] →
      GrantLeaves needs pick s .composer
        { s with composer := (.copying
            { c with buffer := s.mem.words (c.sourceBase + 4 * c.next) (min 8 (c.total - c.next)) }) }) ∧
    (c.buffer ≠ [] →
      let n := c.buffer.length
      ∃ t, exec (.downstreamGrant needs pick) s = .next t ∧
        t.agrees
          { s with
            mem := s.mem.setWords (c.destBase + 4 * c.next) c.buffer, pages := t.pages
            composer :=
              if c.next + n < c.total then .copying { c with next := c.next + n, buffer := [] } else .ended
            port := { (s.port) with turn := .commitEngine } } ∧
        MarksWritten s t c.dest ((List.range n).map (fun k => 4 * (c.next + k)))))

/-- FILL with either operation begins painting its rectangle clamped to the panel, and ends at once when that holds no
pixel; for a CLOSED slot it is refused. A grant of the painting writes up to eight words of the tone where SET covers
them whole; any other word is read by one grant and written back by the next with the pixels of the rectangle painted.
Every word written marks its tile. The painting goes on along the row, down the rows, to the next rectangle, and ends
(the size and order of grants are the model's choice, log entry 11). -/
def Obligations.FillBegins : Prop :=
  (∀ (s : State) (r : Record) (g : Geometry) (op : PaintOp) (c : Instr), s.executing r .fill →
    (op = .set ∧ r.fillOp = 0 ∧ c = .fillSet ∨ op = .multiply ∧ r.fillOp = 1 ∧ c = .fillMultiply) →
    s.supply.geometry = some g →
    let f := r.fillRect
    let p : Rect := { left := min f.left g.width, top := min f.top g.height, right := min f.right g.width,
                      bottom := min f.bottom g.height }
    ((s.page r.slot).isOpen = false → Yields c s (s.refused r .notOpen)) ∧
    ((s.page r.slot).isOpen = true → p.right ≤ p.left ∨ p.bottom ≤ p.top → Yields c s { s with composer := .ended }) ∧
    ((s.page r.slot).isOpen = true → p.left < p.right → p.top < p.bottom →
      Yields c s
        { s with composer := (.painting
            { slot := r.slot, base := s.draftBase r.slot, stride := g.width / 2,
              paints := [{ rect := p, op := op, tone := r.fillTone }], row := p.top, col := p.left / 8, held := none }) })) ∧
  (∀ (needs : Bool) (pick : Nat) (s : State) (p : Painting) (j : Paint) (rest : List Paint),
    s.grantsTo needs pick .composer → s.composer = .painting p → p.paints = j :: rest →
    let o := p.row * p.stride + 4 * p.col
    let whole := j.op = .set ∧ j.rect.left ≤ 8 * p.col ∧ 8 * p.col + 8 ≤ j.rect.right
    let goesOn (n : Nat) : Composer :=
      if p.col + n < (j.rect.right + 7) / 8 then .painting { p with col := p.col + n, held := none }
      else if p.row + 1 < j.rect.bottom then .painting { p with row := p.row + 1, col := j.rect.left / 8, held := none }
      else match rest with
        | [] => .ended
        | k :: _ => .painting { p with paints := rest, row := k.rect.top, col := k.rect.left / 8, held := none }
    (p.held = none → ¬ whole →
      GrantLeaves needs pick s .composer
        { s with composer := (.painting { p with held := some (s.mem.word (p.base + o)) }) }) ∧
    (∀ old, p.held = some old →
      ∃ t, exec (.downstreamGrant needs pick) s = .next t ∧
        t.agrees
          { s with
            mem := s.mem.setWord (p.base + o) (j.word p.col old), pages := t.pages, composer := goesOn 1
            port := { (s.port) with turn := .commitEngine } } ∧
        MarksWritten s t p.slot [o]) ∧
    (p.held = none → whole →
      let n := min 8 (j.rect.right / 8 - p.col)
      ∃ t, exec (.downstreamGrant needs pick) s = .next t ∧
        t.agrees
          { s with
            mem := s.mem.setWords (p.base + o) (List.replicate n (wordOfTone j.tone)), pages := t.pages
            composer := goesOn n, port := { (s.port) with turn := .commitEngine } } ∧
        MarksWritten s t p.slot ((List.range n).map (fun k => o + 4 * k))))

/-- The pixels of a painted word, of a word with glyph coverage and of a Prior Image word under GREY, TEXT or PEN:
those covered take the level that the arithmetic gives, and the others keep theirs. The drive code of a pixel: hold
where the mode is not CLEAN and the levels are equal, and otherwise the two bits of its frame in the drive-table entry
of its mode, band and levels. -/
def Obligations.PixelArithmetic : Prop :=
  ((∀ (p : Paint) (col k : Nat) (old : Word), k < 8 → p.tone < 16 →
    pixel (p.word col old) k =
      if p.rect.left ≤ 8 * col + k ∧ 8 * col + k < p.rect.right then
        (match p.op with | .set => p.tone | .multiply => (pixel old k * p.tone + 7) / 15)
      else pixel old k) ∧
  (∀ (t : Touch) (tone k : Nat) (old : Word), k < 8 → tone < 16 → t.coverage.getD k 0 < 16 →
    pixel (t.word tone old) k =
      (pixel old k * (15 - t.coverage.getD k 0) + tone * t.coverage.getD k 0 + 7) / 15) ∧
  (∀ (old new prior : Word) (k : Nat), k < 8 →
    pixel (priorWord old new prior) k = if pixel old k ≠ pixel new k then pixel old k else pixel prior k)) ∧
  (∀ (s : State) (x : Update) (p q : Nat),
    s.driveCode x p q =
      if x.mode ≠ .clean ∧ p = q then 0
      else
        let word := s.mem.word (s.memBytes - 0x600000 + 0x500100 +
          16 * (((x.mode.code * 8 + x.band) * 16 + p) * 16 + q) + 4 * (x.counter / 16))
        BitVec.ofNat 2 (word.toNat / 2 ^ (30 - 2 * (x.counter % 16))))

/-- GLYPH_RUN, CONTINUE or SET, changes no memory before its grants: it leaves everything but its page's cursor of its
column and Word Log, the Glyph Cache, the Reporter and the Composer as it was, and it is then running or ended. A
CONTINUE run that meets a FULL cursor with a code to place overflows at index 0. A SET run with no codes moves its
cursor to the point clamped into the column. A run of one word of up to 64 cached glyphs, CONTINUE or SET, goes on the
line after the pending space where it fits, and else to the next line; on a line without glyphs it is set from the
pen, or, wider than the column, broken glyph by glyph from the column's left. A word or segment set joins the Word Log
with its extremes, or raises LOG_FULL where the log holds 512 and its full flag is clear; a line that fails the
vertical check leaves the cursor FULL and overflows the run. A space joins its step to the pending space, a newline
breaks the line, and a hyphen ends its word. A code whose lookup is substituted or left out is set with the glyph of
code 0 or without ink, and is counted for GLYPHS_MISSING, raised as the run ends. A run that meets a code not in the
cache waits for its glyph-table entry, whose two words one grant reads and installs. A glyph being drawn writes back
each word blended and marks its tile. The model's choices: a glyph of height 0 has its left pixel as its extent (log
entry 27), entries are appended, and LOG_FULL and OVERFLOW raised, before the first grant of the drawing (log entry
29), and a grant writes back one word (log entry 11). -/
def Obligations.GlyphRunBegins : Prop :=
  (∀ (s : State) (r : Record) (c : Column), s.executing r .glyphRun → (s.page r.slot).isOpen = true →
    r.words.length = 3 + (r.runCount + 1) / 2 → s.columns[r.runColumn] = some c → (s.font r.runFont).isSome = true →
    (r.runPlacement ≤ 1 →
      ∃ t, exec (if r.runPlacement = 0 then .glyphRunContinue else .glyphRunSet) s = .next t ∧
        t.agrees { s with pages := t.pages, cache := t.cache, reporter := t.reporter, composer := t.composer } ∧
        (t.composer = .ended ∨ ∃ run, t.composer = .running run) ∧
        (∀ j, j ≠ r.slot → t.page j = s.page j) ∧
        (let p := t.page r.slot
         { p with cursors := (s.page r.slot).cursors, log := (s.page r.slot).log, logFull := (s.page r.slot).logFull } =
           s.page r.slot ∧
         ∀ k : Fin 4, k ≠ r.runColumn → p.cursors[k] = (s.page r.slot).cursors[k])) ∧
    (r.runPlacement = 0 → (s.cursor r.slot r.runColumn).full = true → 0 < r.runCount →
      Yields .glyphRunContinue s
        { (s.raise (.overflow r.tag r.runId r.slot r.runColumn 0)) with composer := .ended }) ∧
    (r.runPlacement = 1 →
      let start := min (max r.runX c.left) (c.right - 1) * 16
      let baseline := min (max r.runY c.top) (c.bottom - 1)
      (r.runCount = 0 →
        Yields .glyphRunSet s
          { (s.setCursor r.slot r.runColumn
              { pen := start, baseline := baseline, full := false, lineHolds := false, pendingSpace := 0 }) with
            composer := .ended }) ∧
      (∀ (b : Font) (code : BitVec 16) (rest : List (BitVec 16)), s.font r.runFont = some b → r.runCodes = code :: rest →
        code.toNat < b.count → (b.newline ≠ 0xFFFF → code ≠ b.newline) →
        cacheFind s.cache r.runFont code.toNat = none →
        ∃ t run l, exec .glyphRunSet s = .next t ∧ t.composer = .running run ∧ run.lookup = some l ∧
          l.code = code.toNat ∧ l.index = 0 ∧ l.fallback = none ∧ run.codes = rest ∧ t.cache = s.cache ∧
          (t.page r.slot).log = (s.page r.slot).log ∧ t.mem = s.mem))) ∧
  (∀ (needs : Bool) (pick : Nat) (s : State) (run : Run) (l : Lookup) (b : Font), s.grantsTo needs pick .composer →
    s.composer = .running run → run.blits = [] → run.codes = [] → run.lookup = some l → l.fallback = none →
    l.space = false → s.font run.font = some b →
    let a := s.fontBase b + b.tableOffset + 8 * l.code
    let g := glyphOf (s.mem.word a) (s.mem.word (a + 4))
    g.isBad (s.fontUnits b) = false →
    ∃ t n old, exec (.downstreamGrant needs pick) s = .next t ∧ t.mem = s.mem ∧
      t.cache = { number := n, font := run.font, code := l.code, glyph := g, bad := false } :: old ∧
      (∀ k, k < 128 → (∀ e ∈ s.cache, e.number ≠ k) → (∀ m, m < k → ∃ e ∈ s.cache, e.number = m) →
        n = k ∧ old = s.cache) ∧
      (∀ e kept, s.cache = kept ++ [e] → (∀ k, k < 128 → ∃ x ∈ s.cache, x.number = k) →
        n = e.number ∧ old = kept)) ∧
  (∀ (needs : Bool) (pick : Nat) (s : State) (run : Run) (b : Blit) (more : List Blit) (w w' : Touch) (ws : List Touch)
      (old : Word), s.grantsTo needs pick .composer → s.composer = .running run → run.blits = b :: more →
    run.drawing = .blend (w :: w' :: ws) (some old) →
    ∃ t, exec (.downstreamGrant needs pick) s = .next t ∧
      t.agrees
        { s with
          mem := s.mem.setWord w.addr (w.word run.tone old), pages := t.pages
          composer := (.running { run with drawing := .blend (w' :: ws) none })
          port := { (s.port) with turn := .commitEngine } } ∧
      MarksWritten s t run.slot [w.addr - s.draftBase run.slot]) ∧
  (∀ (needs : Bool) (pick : Nat) (s : State) (run : Run) (b : Blit) (w : Touch) (old : Word),
    s.grantsTo needs pick .composer → s.composer = .running run → run.blits = [b] → run.drawing = .blend [w] (some old) →
    run.lookup = none → run.acts = [.finish] →
    ∃ t, exec (.downstreamGrant needs pick) s = .next t ∧
      t.agrees
        { (if 0 < run.substituted + run.leftOut then
            s.raise (.glyphsMissing run.tag run.runId run.slot (run.firstBad.getD 0) run.substituted run.leftOut)
          else s) with
          mem := s.mem.setWord w.addr (w.word run.tone old), pages := t.pages, composer := .ended
          port := { (s.port) with turn := .commitEngine } } ∧
      MarksWritten s t run.slot [w.addr - s.draftBase run.slot]) ∧
  (∀ (s : State) (r : Record) (c : Column) (b : Font) (glyphs : List Glyph), s.runAccepted r c b →
    (s.preparedCursor r c).full = false → s.wordReady r b glyphs →
    let k := s.preparedCursor r c
    let left := c.left * 16
    let next := k.baseline + c.pitch
    let start := if k.lineHolds = true then min 65535 (k.pen + k.pendingSpace) else k.pen
    let foot (baseline : Nat) : Prop := c.bottom < baseline + b.descent
    let below : Cursor := { k with pen := left, baseline := next, lineHolds := false }
    (k.lineHolds = false → foot k.baseline → s.runOverflows r k 0) ∧
    (k.lineHolds = true ∨ ¬ foot k.baseline → fitsFrom c start glyphs → s.setsWhole r c start k.baseline glyphs) ∧
    (k.lineHolds = true ∨ (¬ foot k.baseline ∧ left < k.pen) → ¬ fitsFrom c start glyphs →
      (foot next → s.runOverflows r below 0) ∧
      (¬ foot next → fitsFrom c left glyphs → s.setsWhole r c left next glyphs) ∧
      (¬ foot next → ¬ fitsFrom c left glyphs → (s.page r.slot).log.length + 64 ≤ 512 →
        s.setsBroken r c b next glyphs)) ∧
    (k.lineHolds = false → ¬ foot k.baseline → k.pen = left → ¬ fitsFrom c left glyphs →
      (s.page r.slot).log.length + 64 ≤ 512 → s.setsBroken r c b k.baseline glyphs)) ∧
  (∀ (s : State) (r : Record) (c : Column) (b : Font), s.runAccepted r c b → (s.preparedCursor r c).full = false →
    let k := s.preparedCursor r c
    let next := k.baseline + c.pitch
    let broken : Cursor := { k with pen := c.left * 16, baseline := next, lineHolds := false, pendingSpace := 0 }
    let quiet (t : State) : Prop := t.composer = .ended ∧ (t.page r.slot).log = (s.page r.slot).log
    (∀ e : CacheEntry, r.runCodes = [b.space] → b.space ≠ 0xFFFF → b.newline ≠ b.space →
      let spaced : Cursor :=
        { k with pendingSpace := min 65535 (k.pendingSpace + ((e.glyph.advance : Int) + c.tracking).toNat) }
      (b.space.toNat < b.count → cacheFind s.cache r.runFont b.space.toNat = some e →
        ∃ t, s.runLeaves r spaced none t ∧ quiet t) ∧
      (b.count ≤ b.space.toNat → cacheFind s.cache r.runFont 0 = some e →
        ∃ t, s.runLeaves r spaced (some (.glyphsMissing r.tag r.runId r.slot 0 1 0)) t ∧ quiet t)) ∧
    (∀ rest : List (BitVec 16), r.runCodes = b.newline :: rest → b.newline ≠ 0xFFFF →
      (rest = [] →
        ∃ t, s.runLeaves r { broken with full := decide (c.bottom < next + b.descent) } none t ∧ quiet t) ∧
      (rest ≠ [] → c.bottom < next + b.descent → s.runOverflows r broken 1)) ∧
    (∀ (rest : List (BitVec 16)) (e : CacheEntry), r.runCodes = b.hyphen :: rest → b.hyphen ≠ 0xFFFF →
      b.newline ≠ b.hyphen → b.space ≠ b.hyphen → b.hyphen.toNat < b.count →
      cacheFind s.cache r.runFont b.hyphen.toNat = some e → e.bad = false → k.lineHolds = false →
      k.baseline + b.descent ≤ c.bottom → fitsFrom c k.pen [e.glyph] → (s.page r.slot).log.length < 512 →
      ∃ t entry more, exec r.runCommand s = .next t ∧ entry.tells r c 0 k.pen k.baseline [e.glyph] ∧
        (t.page r.slot).log = (s.page r.slot).log ++ entry :: more) ∧
    (∀ (code : BitVec 16) (own : Nat) (zero : CacheEntry), r.runCodes = [code] →
      (∀ special ∈ [b.space, b.hyphen, b.newline], special ≠ 0xFFFF → code ≠ special) →
      (b.count ≤ code.toNat ∧ own = 0) ∨
        (code.toNat < b.count ∧ code ≠ 0 ∧ ∃ e, cacheFind s.cache r.runFont code.toNat = some e ∧ e.bad = true ∧
          own = e.glyph.advance) →
      cacheFind s.cache r.runFont 0 = some zero → k.lineHolds = false → k.baseline + b.descent ≤ c.bottom →
      (s.page r.slot).log.length < 512 →
      let blank : Glyph := { bitmap := 0, width := 0, height := 0, bearingX := 0, bearingY := 0, advance := own }
      let set (g : Glyph) : Cursor := { k with pen := penAt c.tracking k.pen [g] 1, lineHolds := true, pendingSpace := 0 }
      let logged (g : Glyph) (t : State) : Prop :=
        ∃ entry, entry.tells r c 0 k.pen k.baseline [g] ∧ (t.page r.slot).log = (s.page r.slot).log ++ [entry]
      (zero.bad = false → fitsFrom c k.pen [zero.glyph] →
        ∃ t, logged zero.glyph t ∧
          ((t.composer = .ended ∧
              s.runLeaves r (set zero.glyph) (some (.glyphsMissing r.tag r.runId r.slot 0 1 0)) t) ∨
            ∃ run, t.composer = .running run ∧ run.acts = [.finish] ∧ run.lookup = none ∧ run.substituted = 1 ∧
              run.leftOut = 0 ∧ run.firstBad = some 0 ∧ run.blits ≠ [] ∧ s.runLeaves r (set zero.glyph) none t) ∧
          (zero.glyph.width = 0 ∨ zero.glyph.height = 0 → t.composer = .ended)) ∧
      (zero.bad = true → fitsFrom c k.pen [blank] →
        ∃ t, logged blank t ∧ t.composer = .ended ∧
          s.runLeaves r (set blank) (some (.glyphsMissing r.tag r.runId r.slot 0 0 1)) t)))

/-- HIGHLIGHT. The selection is the entries of the run, in log order, whose glyphs meet the range. Its lines, in the
order of their first entries, each give one rectangle, from the smallest x left to the largest x right and from the
largest ascent above the baseline to the largest descent below it, clamped to the panel; one that holds no pixel is
passed over. A selection that gives none is refused with NO_TRACE, and a new note for which the table has no entry
with NOTES_FULL. A new note takes the first 8 rectangles and the counter's value, and at the counter's top the notes
that stand are first numbered anew in the order of the table; a note that stands takes, while it holds fewer than 8,
those it does not hold yet. HIGHLIGHT_CUT is raised where any were dropped. Then the rectangles taken are drawn in the
note's style and tone. -/
def Obligations.HighlightMarks : Prop :=
  (∀ (s : State) (r : Record),
    (∀ e, e ∈ s.selection r ↔
      e ∈ (s.page r.slot).log ∧ e.runId = r.highlightRun ∧
        ∃ n, r.highlightFirst ≤ n ∧ n ≤ r.highlightLast ∧ e.first ≤ n ∧ n < e.first + e.count) ∧
    (s.selection r).Sublist (s.page r.slot).log) ∧
  (∀ (s : State) (sel : List LogEntry),
    let sameLine (a b : LogEntry) : Prop := a.column = b.column ∧ a.baseline = b.baseline
    ∃ heads : List LogEntry, heads.Sublist sel ∧ heads.Pairwise (fun a b => ¬ sameLine a b) ∧
      (∀ e ∈ sel, ∃ h ∈ heads, sameLine h e) ∧
      (∀ h ∈ heads, ∃ before after, sel = before ++ h :: after ∧ ∀ e ∈ before, ¬ sameLine e h) ∧
      s.lineRects sel =
        (heads.map (s.lineRect sel)).filter (fun l => decide (l.rect.left < l.rect.right ∧ l.rect.top < l.rect.bottom)) ∧
      ∀ h ∈ heads, ∃ (left right : Int) (up down : Nat),
        (∀ e ∈ sel, sameLine h e →
          left ≤ e.xLeft ∧ e.xRight ≤ right ∧ s.ascent e.font ≤ up ∧ s.descent e.font ≤ down) ∧
        (∃ e ∈ sel, sameLine h e ∧ e.xLeft = left) ∧ (∃ e ∈ sel, sameLine h e ∧ e.xRight = right) ∧
        (∃ e ∈ sel, sameLine h e ∧ s.ascent e.font = up) ∧ (∃ e ∈ sel, sameLine h e ∧ s.descent e.font = down) ∧
        s.lineRect sel h =
          { baseline := h.baseline
            rect :=
              { left := min left.toNat s.geometry.width, right := min right.toNat s.geometry.width
                top := min (h.baseline - up) s.geometry.height
                bottom := min (h.baseline + down) s.geometry.height } }) ∧
  (∀ (s : State) (r : Record) (style : NoteStyle), s.executing r .highlight → (s.page r.slot).isOpen = true →
    r.highlightNote ≠ 0 → styleOf r.highlightStyle = some style →
    let lines := s.lineRects (s.selection r)
    let cut (dropped held : Nat) : State :=
      if dropped = 0 then s
      else s.raise (.highlightCut r.tag r.highlightNote r.highlightRun r.slot dropped held)
    (lines = [] → Yields .highlight s (s.refused r .noTrace)) ∧
    (lines ≠ [] → s.findNote r.slot r.highlightNote = none → 64 ≤ s.notes.length →
      Yields .highlight s (s.refused r .notesFull)) ∧
    (lines ≠ [] → s.findNote r.slot r.highlightNote = none → s.notes.length < 64 → s.noteCounter < 0xFFFFFFFF →
      let first := lines.take 8
      Yields .highlight s
        { cut (lines.length - first.length) first.length with
          notes := s.notes ++
            [{ slot := r.slot, id := r.highlightNote, pageId := (s.page r.slot).pageId, style := style,
               tone := r.highlightTone, sequence := s.noteCounter, rects := first.map (·.rect) }]
          noteCounter := s.noteCounter + 1
          composer := s.drawing r.slot (s.noteDrawing style r.highlightTone first) }) ∧
    (lines ≠ [] → s.findNote r.slot r.highlightNote = none → s.notes.length < 64 → s.noteCounter = 0xFFFFFFFF →
      let first := lines.take 8
      Yields .highlight s
        { cut (lines.length - first.length) first.length with
          notes := s.notes.zipIdx.map (fun p => { p.1 with sequence := p.2 }) ++
            [{ slot := r.slot, id := r.highlightNote, pageId := (s.page r.slot).pageId, style := style,
               tone := r.highlightTone, sequence := s.notes.length, rects := first.map (·.rect) }]
          noteCounter := s.notes.length + 1
          composer := s.drawing r.slot (s.noteDrawing style r.highlightTone first) }) ∧
    (∀ n : Note, lines ≠ [] → s.findNote r.slot r.highlightNote = some n →
      ∃ fresh : List LineRect, fresh.Sublist lines ∧ (fresh.map (·.rect)).Nodup ∧ (∀ l ∈ fresh, l.rect ∉ n.rects) ∧
        (∀ before l after, lines = before ++ l :: after →
          l.rect ∈ n.rects ∨ l.rect ∈ before.map (·.rect) ∨ l ∈ fresh) ∧
        let more := fresh.take (8 - n.rects.length)
        Yields .highlight s
          { cut (fresh.length - more.length) (n.rects.length + more.length) with
            notes := s.notes.map (fun m =>
              if m.slot = r.slot ∧ m.id = r.highlightNote then { m with rects := m.rects ++ more.map (·.rect) } else m)
            composer := s.drawing r.slot (s.noteDrawing n.style n.tone more) }))

/-- NOTE_CLEAR removes the named note of the slot, or every note of the slot. PROBE is answered by the youngest note
of the slot that contains the point, with the first of its rectangles that does and its page id, and by zeros where
there is none. -/
def Obligations.NotesClearedAndProbed : Prop :=
  (∀ (s : State) (r : Record), s.executing r .noteClear → (s.page r.slot).isOpen = true →
    (r.clearScope = 0 → r.clearNote ≠ 0 →
      Yields .noteClearOne s
        { s with notes := s.notes.filter (fun n => !(n.slot == r.slot && n.id == r.clearNote)), composer := .ended }) ∧
    (r.clearScope = 1 →
      Yields .noteClearAll s { s with notes := s.notes.filter (fun n => n.slot != r.slot), composer := .ended })) ∧
  (∀ (s : State) (r : Record) (g : Geometry), s.executing r .probe → s.supply.geometry = some g →
    r.probeX < g.width → r.probeY < g.height →
    ((∀ n ∈ s.notes, n.slot = r.slot → n.rects.any (·.contains r.probeX r.probeY) = false) →
      Yields .probe s { (s.raise (.probeResult r.tag 0 r.probeTag r.slot 0 0)) with composer := .ended }) ∧
    (∀ n ∈ s.notes, n.slot = r.slot → n.rects.any (·.contains r.probeX r.probeY) = true →
      (∀ m ∈ s.notes, m.slot = r.slot → m.rects.any (·.contains r.probeX r.probeY) = true → m ≠ n →
        m.sequence < n.sequence) →
      ∀ k, (∃ q, n.rects[k]? = some q ∧ q.contains r.probeX r.probeY = true) →
        (∀ j, j < k → ∀ q, n.rects[j]? = some q → q.contains r.probeX r.probeY = false) →
        Yields .probe s
          { (s.raise (.probeResult r.tag n.id r.probeTag r.slot k n.pageId)) with composer := .ended }))

/-! ## Panel records -/

/-- A PANEL LOAD that passes its checks begins the waveform check; in ON it is refused with BUSY, and one that changes
the geometry with BOUND while a page is OPEN. -/
def Obligations.PanelLoadBegins : Prop :=
  ∀ (s : State) (r : Record), s.executing r .panel → r.panelAction = 1 → r.panelGeometry.legal →
    (s.supply.panel = .on → Yields .panelLoad s (s.refused r .busy)) ∧
    (s.supply.panel = .off → s.updates.repairs = [] → (∀ u, s.update u = none) →
      s.supply.geometry ≠ some r.panelGeometry → (∃ i, (s.page i).isOpen = true) →
      Yields .panelLoad s (s.refused r .bound)) ∧
    (s.supply.panel = .off ∨ s.supply.panel = .unconfigured → s.updates.repairs = [] → (∀ u, s.update u = none) →
      (s.supply.geometry = some r.panelGeometry ∨ ∀ i, (s.page i).isOpen = false) →
      Yields .panelLoad s
        { s with
          composer := .atSupply
          supply := { (s.supply) with check := some { next := 0, sum := 0, spoilt := false, clearing := false } } })

/-- The end of a waveform check. A check whose sum is not the record's, whose lengths or thresholds are wrong, or
which is spoilt refuses the LOAD with BAD_WAVEFORM and leaves the store and the panel; one that passes while the
checks of BUSY fail refuses it with BUSY. Otherwise the store becomes VALID with the record's timings: a LOAD that
keeps the geometry takes UNCONFIGURED, OFF or FAILED to OFF with a consideration called for, or to RISING or ON where
a slot is READY; one that changes it, as the first LOAD does, cancels the Pending List with an UPDATE_CANCELLED for
each entry, undefines the columns, sets the Ghost Counters to 63 and begins the clearing. A grant of the check adds up
to eight words (that size is the model's choice, log entry 11). That the attempt number is kept on entering ON is the
model's reading (log entry 22). -/
def Obligations.WaveformCheckEnds : Prop :=
  (∀ (s : State) (r : Record) (rest : List Record) (k : Check), s.queue = r :: rest → s.supply.check = some k →
    k.next = 32832 → k.clearing = false →
    let passes : Prop := k.sum = r.panelCheck ∧ k.spoilt = false ∧
      (∀ i, i < 32 → 1 ≤ (s.storeWord (8 + i)).toNat ∧ (s.storeWord (8 + i)).toNat ≤ 64) ∧
      (∀ i, i < 6 → (s.storeWord i).toInt ≤ (s.storeWord (i + 1)).toInt)
    let keeps : Prop := s.supply.geometry = some r.panelGeometry
    let busy : Prop :=
      (s.supply.panel ≠ .unconfigured ∧ s.supply.panel ≠ .off ∧ s.supply.panel ≠ .failed) ∨ s.updates.repairs ≠ [] ∨
      ∃ u x, s.update u = some x ∧
        (s.supply.panel = .failed ∧ keeps → x.state = .active ∨ x.state = .frozen)
    let refusedWith (reason : Reason) : State :=
      { (State.raise { s with supply := { (s.supply) with check := none } } (.recordRefused reason r)) with
        composer := .ended }
    let loaded : Supply :=
      { (s.supply) with
        valid := true, framePeriod := timing r.panelPeriod 80 250 118, riseTimeout := timing r.panelRise 1 100 25
        grace := timing r.panelGrace 1 100 10 }
    let finished (p : Supply) : State :=
      { s with supply := p, updates := { (s.updates) with due := true }, composer := .ended }
    (¬ passes → Yields .waveformCheckEnd s (refusedWith .badWaveform)) ∧
    (passes → busy → Yields .waveformCheckEnd s (refusedWith .busy)) ∧
    (passes → ¬ busy → keeps →
      (s.anySlot .ready = false →
        Yields .waveformCheckEnd s (finished { loaded with panel := .off, attempt := 0, check := none })) ∧
      (s.anySlot .ready = true → s.supply.readyLine = false →
        Yields .waveformCheckEnd s
          (finished
            { loaded with
              panel := .rising, attempt := 1, check := none, enable := true, gapTimer := none
              riseTimer := some loaded.riseTimeout })) ∧
      (s.anySlot .ready = true → s.supply.readyLine = true →
        Yields .waveformCheckEnd s
          (finished
            { loaded with
              panel := .on, attempt := 1, check := none, enable := true, gapTimer := none, riseTimer := none
              lossNoted := false, readingsAsked := s.supply.readingsAsked + 1, readingTimer := some 30000 }))) ∧
    (passes → ¬ busy → ¬ keeps → r.panelGeometry.legal →
      Yields .waveformCheckEnd s
        { (s.raiseAll (s.commit.pending.map (fun e => .updateCancelled none e.mode e.commits))) with
          commit := { (s.commit) with pending := [] }
          supply := { loaded with geometry := some r.panelGeometry, check := some { k with clearing := true } }
          columns := Vector.replicate 4 none
          updates := { (s.updates) with ghosts := [], due := s.updates.due || !s.commit.pending.isEmpty }
          loader := { (s.loader) with clear := some { words := r.panelWidth * r.panelHeight / 2 / 4, next := 0 } } })) ∧
  (∀ (needs : Bool) (pick : Nat) (s : State) (k : Check), s.grantsTo needs pick .waveformCheck → s.supply.check = some k →
    let n := min 8 (32832 - k.next)
    GrantLeaves needs pick s .waveformCheck
      { s with supply := { (s.supply) with check := (some
          { k with
            next := k.next + n
            sum := (s.mem.words (s.memBytes - 0x600000 + 0x500000 + 4 * k.next) n).foldl (· + ·) k.sum }) } })

/-- The end of the clearing after a geometry change takes an UNCONFIGURED panel to OFF with a consideration called
for; an UNLOAD makes the store INVALID and the panel UNCONFIGURED, and is refused with LOCKED after LOCK_TIGHT. -/
def Obligations.LoadCompletesAndUnloads : Prop :=
  (∀ (s : State) (k : Check), s.supply.check = some k → k.clearing = true → s.loader.clear = none →
    s.supply.panel = .unconfigured → (∀ u, s.update u = none) →
    Yields .geometryClearEnd s
      { s with
        supply := { (s.supply) with panel := .off, attempt := 0, check := none }
        updates := { (s.updates) with due := true }, composer := .ended }) ∧
  (∀ (s : State) (r : Record), s.executing r .panel → r.panelAction = 2 →
    (s.locked = true → Yields .panelUnload s (s.refused r .locked)) ∧
    (s.locked = false → s.supply.panel = .off → s.updates.repairs = [] → (∀ u, s.update u = none) →
      Yields .panelUnload s
        { s with
          supply :=
            { (s.supply) with
              valid := false, panel := .unconfigured, enable := false, riseTimer := none, gapTimer := none
              holdTimer := none, graceTimer := none, fallTimer := none, readingTimer := none }
          composer := .ended }))

/-! ## Commits -/

/-- The grant of a page commit, for a PAGE_COMMIT record or for the lowest-numbered raised auto-commit: it takes the
next commit number, the page is in commit with its timers stopped and its request lowered, and the diff begins. A
hand-over waits while the engine is BUSY or an auto-commit is raised. -/
def Obligations.CommitGranted : Prop :=
  (∀ (s : State) (r : Record), s.executing r .pageCommit →
    (¬ s.engineFree → Yields .pageCommit s s) ∧
    (s.engineFree → (s.page r.slot).isOpen = false → Yields .pageCommit s (s.refused r .notOpen)) ∧
    (s.engineFree → (s.page r.slot).isOpen = true → ∀ mode, commitModeOf r.tag = some mode →
      Yields .pageCommit s
        { s with
          composer := .atCommitEngine
          pages := s.pages.set r.slot
            { s.page r.slot with inCommit := true, settle := none, latency := none, autoCommit := false }
          commit :=
            { (s.commit) with
              nextNumber := s.commit.nextNumber + 1
              state := .diffing { origin := .pageCommit r.slot r.tag, mode := mode, number := s.commit.nextNumber }
                { next := 0, bounds := none, grey := false, visit := none } } })) ∧
  (∀ (s : State) (i : Fin 4), s.commit.state = .idle → (s.page i).autoCommit = true →
    (∀ j, j < i → (s.page j).autoCommit = false) →
    Yields .autoCommitGrant s
      { s with
        pages := s.pages.set i
          { s.page i with inCommit := true, settle := none, latency := none, autoCommit := false }
        commit :=
          { (s.commit) with
            nextNumber := s.commit.nextNumber + 1
            state := .diffing { origin := .auto i, mode := none, number := s.commit.nextNumber }
              { next := 0, bounds := none, grey := false, visit := none } } })

/-- REFRESH takes the next commit number and makes a PANEL request for the whole panel, or for its rectangle clamped
to the panel and snapped outward to tiles: where no PANEL entry takes it, it is appended while the list has room and
waits while it holds 32 entries, and it merges into the youngest candidate when no younger entry overlaps the union.
With no geometry it is refused; an undefined mode, or a rectangle that snaps to no tile (the model's reading, log
entry 16), is BAD_FIELD. -/
def Obligations.RefreshRequests : Prop :=
  ∀ (s : State) (r : Record), s.executing r .refresh → s.engineFree →
    (s.supply.geometry = none → Yields .refresh s (s.refused r .unconfigured)) ∧
    (∀ g, s.supply.geometry = some g →
      let f := r.refreshRect
      let tiles : Rect :=
        if r.refreshWhole = true then { left := 0, top := 0, right := g.width / 32, bottom := g.height / 32 }
        else
          { left := min f.left g.width / 32, top := min f.top g.height / 32
            right := (min f.right g.width + 31) / 32, bottom := (min f.bottom g.height + 31) / 32 }
      (refreshModeOf r.refreshMode = none → Yields .refresh s (s.refused r .badField)) ∧
      (r.refreshWhole = false → tiles.right ≤ tiles.left ∨ tiles.bottom ≤ tiles.top →
        Yields .refresh s (s.refused r .badField)) ∧
      (∀ mode, refreshModeOf r.refreshMode = some mode →
        r.refreshWhole = true ∨ (tiles.left < tiles.right ∧ tiles.top < tiles.bottom) →
        let c : Commit := { origin := .refresh, mode := some mode, number := s.commit.nextNumber }
        let q : Request := { source := none, rect := tiles, mode := mode, commits := [s.commit.nextNumber], repair := false }
        let numbered : State := { s with commit := { (s.commit) with nextNumber := s.commit.nextNumber + 1 } }
        (∀ before p younger, mergesInto s.commit.pending q before p younger →
          Yields .refresh s (numbered.leftBy c (before ++ p.withMerged q :: younger))) ∧
        ((¬ ∃ before p younger, mergesInto s.commit.pending q before p younger) → s.commit.pending.length < 32 →
          Yields .refresh s
            { (numbered.leftBy c (s.commit.pending ++ [q])) with updates := { (s.updates) with due := true } }) ∧
        ((¬ ∃ before p younger, mergesInto s.commit.pending q before p younger) → 32 ≤ s.commit.pending.length →
          Yields .refresh s
            { s with
              composer := .atCommitEngine
              commit := { (s.commit) with nextNumber := s.commit.nextNumber + 1, state := .waiting c q } })))

/-- A diff visits the next marked tile, clearing its mark first; a visit reads the tile's rows, the draft row before
the Panel Image row, and compares them: the tile counts if some pixel differs or the mode is CLEAN, and grey is seen
where an AUTO commit or an auto-commit changes a pixel to a level from 1 to 14. Past the last tile the diff ends, with
COMMIT_EMPTY if no tile counted and otherwise with a request of the bounding rectangle, whose AUTO mode is GREY if
grey was seen, PEN for an auto-commit and TEXT otherwise, and on which the engine decides as on a request that has
waited. When the engine has finished, in commit clears, a live page that still has dirty tiles starts its stopped
latency timer, a record's execution ends, and a PAGE_DISCARD that waits for the page takes effect. The cursors of a
discarded page take the values of the model's choice (log entry 26). -/
def Obligations.DiffVisitsAndEnds : Prop :=
  (∀ (s : State) (c : Commit) (d : Diff) (i : Fin 4), s.commit.state = .diffing c d → d.visit = none →
    c.origin.slot = some i →
    (∀ n, s.nextMarked i d.next = some n →
      Yields .diffTileVisit s
        { s with
          pages := s.pages.set i
            { s.page i with dirty := (s.page i).dirty &&& ~~~(1#5120 <<<
                (n / s.geometry.tileCols * 80 + n % s.geometry.tileCols)) }
          commit :=
            { (s.commit) with state := (.diffing c
                { d with next := n, visit := (some
                    { i := n % s.geometry.tileCols, j := n / s.geometry.tileCols, row := 0, draft := none,
                      changed := false, grey := false }) }) } }) ∧
    (s.nextMarked i d.next = none → d.bounds = none →
      let empty : Event := match c.origin with
        | .pageCommit _ tag => .commitEmpty tag false i c.number
        | _ => .commitEmpty 0 true i c.number
      (s.noDiscardWaits c → Yields .diffEnd s ((s.raise empty).leftBy c s.commit.pending)) ∧
      (c.origin = .auto i → s.awaitsDiscard i →
        Yields .diffEnd s (((s.raise empty).leftBy c s.commit.pending).discarded i))) ∧
    (s.nextMarked i d.next = none → ∀ rect, d.bounds = some rect →
      let q : Request :=
        { source := some i, rect := rect
          mode := (match c.mode with
            | some m => m
            | none => if d.grey then .grey else match c.origin with | .auto _ => .pen | _ => .text)
          commits := [c.number], repair := false }
      (s.commit.pending = [] → s.noDiscardWaits c →
        Yields .diffEnd s { (s.leftBy c [q]) with updates := { (s.updates) with due := true } }) ∧
      (∃ t, exec .diffEnd s = .next t) ∧
      (∀ want, Yields .pendingRetry { s with commit := { (s.commit) with state := .waiting c q } } want →
        Yields .diffEnd s want))) ∧
  (∀ (needs : Bool) (pick : Nat) (s : State) (c : Commit) (d : Diff) (v : Visit) (i : Fin 4),
    s.grantsTo needs pick .commitEngine → s.commit.state = .diffing c d → d.visit = some v → c.origin.slot = some i →
    let o := (32 * v.j + v.row) * (s.geometry.width / 2) + 16 * v.i
    let holding (d' : Diff) : State := { s with commit := { (s.commit) with state := .diffing c d' } }
    let tile : Rect := { left := v.i, top := v.j, right := v.i + 1, bottom := v.j + 1 }
    (v.draft = none →
      GrantLeaves needs pick s .commitEngine
        (holding { d with visit := some { v with draft := some (s.mem.words (s.draftBase i + o) 4) } })) ∧
    (∀ (row : List Word) (changed grey : Bool), v.draft = some row → row.length = 4 →
      let new (k : Nat) : Nat := pixel (row.getD (k / 8) 0) (k % 8)
      let old (k : Nat) : Nat := pixel (s.mem.word (s.panelBase + o + 4 * (k / 8))) (k % 8)
      (changed = true ↔ v.changed = true ∨ ∃ k, k < 32 ∧ new k ≠ old k) →
      (grey = true ↔ v.grey = true ∨ ∃ k, k < 32 ∧ new k ≠ old k ∧ 1 ≤ new k ∧ new k ≤ 14) →
      (v.row + 1 < 32 →
        GrantLeaves needs pick s .commitEngine
          (holding { d with visit := some { v with row := v.row + 1, draft := none, changed := changed, grey := grey } })) ∧
      (32 ≤ v.row + 1 →
        GrantLeaves needs pick s .commitEngine
          (holding
            { next := d.next + 1
              bounds := if changed = true ∨ c.mode = some .clean then
                some (match d.bounds with | some b => b.union tile | none => tile) else d.bounds
              grey := d.grey || (c.mode.isNone && grey), visit := none }))))

/-- A waiting engine that decides anew, whatever the commit's origin: the request merges into the youngest candidate
when no younger entry overlaps the union, is appended where it does not merge and there is room, and otherwise goes on
waiting. When the engine has finished, in commit clears with the latency timer of a live page, a record's execution
ends, and a PAGE_DISCARD that waits for the page takes effect. The cursors of a discarded page take the values of the
model's choice (log entry 26). -/
def Obligations.PendingRetried : Prop :=
  ∀ (s : State) (c : Commit) (q : Request), s.commit.state = .waiting c q →
    (∀ before p younger, mergesInto s.commit.pending q before p younger →
      let merged := s.leftBy c (before ++ p.withMerged q :: younger)
      (s.noDiscardWaits c → Yields .pendingRetry s merged) ∧
      (∀ i, c.origin = .auto i → s.awaitsDiscard i → Yields .pendingRetry s (merged.discarded i))) ∧
    ((¬ ∃ before p younger, mergesInto s.commit.pending q before p younger) →
      let appended : State :=
        { (s.leftBy c (s.commit.pending ++ [q])) with updates := { (s.updates) with due := true } }
      (s.commit.pending.length < 32 → s.noDiscardWaits c → Yields .pendingRetry s appended) ∧
      (∀ i, s.commit.pending.length < 32 → c.origin = .auto i → s.awaitsDiscard i →
        Yields .pendingRetry s (appended.discarded i)) ∧
      (32 ≤ s.commit.pending.length → Yields .pendingRetry s s))

/-- The settle and latency timers of a live page: either expiry stops the timer and raises the auto-commit request
exactly when the page has dirty tiles. -/
def Obligations.LiveTimersExpire : Prop :=
  ∀ (s : State) (i : Fin 4),
    ((s.page i).settle.isSome = true →
      Yields (.settleTimerExpiry i) s
        (s.setPage i { s.page i with
          settle := none, autoCommit := (s.page i).autoCommit || decide ((s.page i).dirty ≠ 0) })) ∧
    ((s.page i).latency.isSome = true →
      Yields (.latencyTimerExpiry i) s
        (s.setPage i { s.page i with
          latency := none, autoCommit := (s.page i).autoCommit || decide ((s.page i).dirty ≠ 0) }))

/-! ## Updates -/

/-- A consideration with one entry waiting: while a slot is FREE under a VALID store and a panel that is neither
FAILED nor UNCONFIGURED, and no slot that is not FREE overlaps it, the entry starts in the lowest-numbered FREE slot
with its band, mode and length, and the Ghost Counters of its tiles change; otherwise it waits. An entry that overlaps
an older one left waiting waits too. A repair starts before an entry of the Pending List, which takes the next slot if
it overlaps the repair nowhere, and else waits for it. The walk over lists of any length goes from the oldest repair
to the youngest entry of the Pending List: an entry starts while a slot is FREE and it overlaps no slot that is not
FREE and no entry before it, those that start take the FREE slots in ascending order and join the start order, the
Ghost Counters change with each, and the others wait in their lists in their order. -/
def Obligations.ConsiderationStarts : Prop :=
  (∀ (s : State) (e : Request), s.updates.due = true → s.updates.repairs = [] → s.commit.pending = [e] →
    ((s.supply.valid = false ∨ s.supply.panel = .failed ∨ s.supply.panel = .unconfigured ∨ (∀ u, s.update u ≠ none) ∨
        ∃ u x, s.update u = some x ∧ x.rect.overlaps e.rect = true) →
      Yields .startConsideration s { s with updates := { (s.updates) with due := false } }) ∧
    (∀ u, s.update u = none → (∀ v, v < u → s.update v ≠ none) →
      (∀ v x, s.update v = some x → x.rect.overlaps e.rect = false) →
      s.supply.valid = true → s.supply.panel ≠ .failed → s.supply.panel ≠ .unconfigured →
      ∃ t x, exec .startConsideration s = .next t ∧
        t.agrees { s with commit := { (s.commit) with pending := [] }, updates := t.updates } ∧
        t.updates.order = s.updates.order ++ [u] ∧ t.updates.repairs = [] ∧ t.updates.due = false ∧
        t.updates.ghosts = ghostsAfter x.mode e.rect.tiles s.updates.ghosts ∧
        t.update u = some x ∧ (∀ v, v ≠ u → t.update v = s.update v) ∧
        x.state = .loading ∧ x.source = e.source ∧ x.rect = e.rect ∧ x.commits = e.commits ∧ x.repair = e.repair ∧
        x.counter = 0 ∧ x.draftBase = e.source.map s.draftBase ∧
        x.band = (match s.supply.reading with
          | some v => ((List.range 7).filter (fun k => decide ((s.storeWord k).toInt ≤ v))).length
          | none => s.tune.defaultBand) ∧
        x.length = (s.storeWord (8 + 8 * x.mode.code + x.band)).toNat ∧
        (e.mode = .clean ∨ e.mode = .pen → x.mode = e.mode) ∧
        (e.mode = .grey ∨ e.mode = .text →
          x.mode = if ∃ tile ∈ e.rect.tiles, s.tune.ghostLimit ≤ s.ghost tile then .clean else e.mode))) ∧
  (∀ (s : State) (e e' : Request) (u : Fin 15) (x : Update), s.updates.due = true → s.updates.repairs = [] →
    s.commit.pending = [e, e'] → s.update u = some x → x.rect.overlaps e.rect = true → e.rect.overlaps e'.rect = true →
    Yields .startConsideration s { s with updates := { (s.updates) with due := false } }) ∧
  (∀ (s : State) (p e : Request), s.updates.due = true → s.updates.repairs = [p] → s.commit.pending = [e] →
    (∀ u, s.update u = none) → s.supply.valid = true → s.supply.panel ≠ .failed → s.supply.panel ≠ .unconfigured →
    ∃ t x, exec .startConsideration s = .next t ∧ t.updates.repairs = [] ∧ t.updates.due = false ∧
      t.update 0 = some x ∧ x.rect = p.rect ∧ x.commits = p.commits ∧ x.source = p.source ∧ x.repair = p.repair ∧
      (p.rect.overlaps e.rect = true →
        t.commit.pending = [e] ∧ t.updates.order = s.updates.order ++ [0] ∧ ∀ u, u ≠ 0 → t.update u = none) ∧
      (p.rect.overlaps e.rect = false →
        t.commit.pending = [] ∧ t.updates.order = s.updates.order ++ [0, 1] ∧ (∀ u, u ≠ 0 → u ≠ 1 → t.update u = none) ∧
        ∃ y, t.update 1 = some y ∧ y.rect = e.rect ∧ y.commits = e.commits ∧ y.source = e.source ∧ y.repair = e.repair ∧
          y.state = .loading ∧ x.state = .loading)) ∧
  (∀ s : State, s.updates.due = true →
    let entries := s.updates.repairs ++ s.commit.pending
    let free := (List.finRange 15).filter (fun u => (s.update u).isNone)
    ∃ (t : State) (starts : Nat → Bool) (ghosts : Nat → List (Nat × Nat)),
      let before (k : Nat) : Nat := ((List.range k).filter starts).length
      exec .startConsideration s = .next t ∧
      t.agrees { s with commit := { (s.commit) with pending := t.commit.pending }, updates := t.updates } ∧
      (∀ (k : Nat) (e : Request), entries[k]? = some e →
        (starts k = true ↔
          s.supply.valid = true ∧ s.supply.panel ≠ .failed ∧ s.supply.panel ≠ .unconfigured ∧ before k < free.length ∧
          (∀ u x, s.update u = some x → x.rect.overlaps e.rect = false) ∧
          ∀ (j : Nat) (e' : Request), j < k → entries[j]? = some e' → e'.rect.overlaps e.rect = false) ∧
        (starts k = false → ghosts (k + 1) = ghosts k) ∧
        (starts k = true → ∃ u x, free[before k]? = some u ∧ t.update u = some x ∧
          x.state = .loading ∧ x.source = e.source ∧ x.draftBase = e.source.map s.draftBase ∧ x.rect = e.rect ∧
          x.commits = e.commits ∧ x.repair = e.repair ∧ x.counter = 0 ∧
          x.length = (s.storeWord (8 + 8 * x.mode.code + x.band)).toNat ∧
          (e.mode = .clean ∨ e.mode = .pen → x.mode = e.mode) ∧
          (e.mode = .grey ∨ e.mode = .text →
            x.mode =
              if ∃ tile ∈ e.rect.tiles, s.tune.ghostLimit ≤ Sparse.get 63 (ghosts k) tile then .clean else e.mode) ∧
          ghosts (k + 1) = ghostsAfter x.mode e.rect.tiles (ghosts k))) ∧
      ghosts 0 = s.updates.ghosts ∧ t.updates.ghosts = ghosts entries.length ∧ t.updates.due = false ∧
      t.updates.repairs = (s.updates.repairs.zipIdx.filter (fun p => !starts p.2)).map (·.1) ∧
      t.commit.pending =
        ((s.commit.pending.zipIdx s.updates.repairs.length).filter (fun p => !starts p.2)).map (·.1) ∧
      t.updates.order = s.updates.order ++ free.take (before entries.length) ∧
      ∀ u, u ∉ free.take (before entries.length) → t.update u = s.update u)

/-- A start leaves the counters of the tiles outside its rectangle, makes those inside 0 under CLEAN, and otherwise
adds 1, stopping at 63. -/
def Obligations.GhostsAfterStart : Prop :=
  ∀ (m : Mode) (rect : Rect) (ghosts : List (Nat × Nat)), Sparse.wf Config.ghostTop ghosts = true → rect.right ≤ 80 →
    ∀ i j, i < 80 →
      Sparse.get 63 (ghostsAfter m rect.tiles ghosts) (j * 80 + i) =
        if rect.left ≤ i ∧ i < rect.right ∧ rect.top ≤ j ∧ j < rect.bottom then
          (match m with | .clean => 0 | _ => min 63 (Sparse.get 63 ghosts (j * 80 + i) + 1))
        else Sparse.get 63 ghosts (j * 80 + i)

/-- A load that has passed its last piece makes its slot READY; a panel OFF rises with attempt 1 and its enable
raised, or goes on to ON at once with a reading asked for where panel-ready is asserted already (the attempt number is
then kept at 1: the model's reading, log entry 22), a panel HOLDING goes back to ON with its hold timer stopped, and a
panel ON stays. The grants of a load, one piece at a time: the Panel Image piece is read, then the draft piece of a
page source; CLEAN writes the old levels into the Prior Image, and the other modes the old levels of the pixels that
change, reading the Prior piece first where a pixel of a piece with changes does not change; the new levels are then
written into the Panel Image where a pixel changes. Pieces go along the tiles of the row and then down the rows. -/
def Obligations.LoadingCompletes : Prop :=
  (∀ (s : State) (u : Fin 15) (x : Update), s.loadingSlot = some u → s.update u = some x → (s.loadOf x).finished x = true →
    let ready : State :=
      { s with
        updates := { (s.updates) with slots := s.updates.slots.set u (some { x with state := .ready }) }
        loader := { (s.loader) with load := none } }
    (s.supply.panel = .on → Yields .loadingComplete s ready) ∧
    (s.supply.panel = .holding →
      Yields .loadingComplete s
        { ready with supply :=
          { (s.supply) with panel := .on, holdTimer := none, graceTimer := none, lossNoted := false } }) ∧
    (s.supply.panel = .off → s.supply.readyLine = false →
      Yields .loadingComplete s
        { ready with supply :=
          { (s.supply) with
            panel := .rising, attempt := 1, enable := true, gapTimer := none, riseTimer := some s.supply.riseTimeout } }) ∧
    (s.supply.panel = .off → s.supply.readyLine = true →
      Yields .loadingComplete s
        { ready with supply :=
          { (s.supply) with
            panel := .on, attempt := 1, enable := true, gapTimer := none, riseTimer := none, lossNoted := false
            readingsAsked := s.supply.readingsAsked + 1, readingTimer := some 30000 } })) ∧
  (∀ (needs : Bool) (pick : Nat) (s : State) (x : Update) (l : Load), s.grantsTo needs pick .slotLoader →
    s.loader.clear = none → s.loadInHand = some (x, l) →
    let o := l.row * (s.geometry.width / 2) + 16 * l.col
    let level (ws : List Word) (k : Nat) : Nat := pixel (ws.getD (k / 8) 0) (k % 8)
    let next : Load :=
      if l.col + 1 < x.rect.right then { row := l.row, col := l.col + 1, phase := .readPanel }
      else { row := l.row + 1, col := x.rect.left, phase := .readPanel }
    let goes (m : Memory) (l' : Load) : Prop :=
      GrantLeaves needs pick s .slotLoader { s with mem := m, loader := { (s.loader) with load := some l' } }
    let panel := s.mem.words (s.panelBase + o) 4
    (l.phase = .readPanel → x.source.isSome = true → goes s.mem { l with phase := .readDraft panel }) ∧
    (l.phase = .readPanel → x.source = none →
      goes s.mem (if x.mode = .clean then { l with phase := .writePrior panel none } else next)) ∧
    (∀ old, l.phase = .readDraft old → old.length = 4 →
      let new := s.mem.words (x.draftBase.getD 0 + o) 4
      let same : Prop := ∀ k, k < 32 → level old k = level new k
      let all : Prop := ∀ k, k < 32 → level old k ≠ level new k
      (same → goes s.mem (if x.mode = .clean then { l with phase := .writePrior old none } else next)) ∧
      (¬ same → x.mode = .clean ∨ all → goes s.mem { l with phase := .writePrior old (some new) }) ∧
      (¬ same → x.mode ≠ .clean → ¬ all → goes s.mem { l with phase := .readPrior old new })) ∧
    (∀ old new, l.phase = .readPrior old new → old.length = 4 → new.length = 4 →
      let prior :=
        (List.range 4).map (fun k => priorWord (old.getD k 0) (new.getD k 0) (s.mem.word (s.priorBase + o + 4 * k)))
      goes s.mem { l with phase := .writePrior prior (some new) }) ∧
    (∀ prior, l.phase = .writePrior prior none → goes (s.mem.setWords (s.priorBase + o) prior) next) ∧
    (∀ prior new, l.phase = .writePrior prior (some new) →
      goes (s.mem.setWords (s.priorBase + o) prior) { l with phase := .writePanel new }) ∧
    (∀ new, l.phase = .writePanel new → goes (s.mem.setWords (s.panelBase + o) new) next))

/-- A frame start makes READY slots ACTIVE with counter 0, thaws FROZEN slots with their counters held, and leaves
every other slot; a frame is then in progress, and no word of it has received a code other than hold (what the link
shows for a word not reached yet is the model's choice, log entry 19). -/
def Obligations.FrameStarts : Prop :=
  ∀ s : State, s.supply.panel = .on → s.scanner.frame = none →
    ∃ t, exec .frameStart s = .next t ∧
      t.agrees
        { s with
          updates := { (s.updates) with slots := t.updates.slots }
          scanner :=
            { (s.scanner) with frame := some { next := 0, panel := none, prior := none, codes := [] }, link := [] } } ∧
      (∀ n, t.linkCodes n = List.replicate 8 0) ∧
      ∀ u,
        (s.update u = none → t.update u = none) ∧
        ∀ x, s.update u = some x →
          t.update u = some
            (match x.state with
             | .ready => { x with state := .active, counter := 0 }
             | .frozen => { x with state := .active }
             | _ => x)

/-- A frame end at which no ACTIVE slot finishes: every ACTIVE counter rises by 1. After a loss the ACTIVE slots
freeze and the panel is SUSPENDED with the grace timer running, or back ON where ready is asserted again; with no slot
READY, ACTIVE or FROZEN the panel holds, or falls at once under a panel hold time of 0. The update that finishes at a
frame end: its slot becomes FREE, it leaves the start order, UPDATE_DONE is raised, and a consideration is called for;
here it is the only slot that is not FREE, so the panel goes to HOLDING. Where several finish at one frame end, they
do so in start order, one event after another. -/
def Obligations.FrameEnds : Prop :=
  (∀ (s : State) (f : Frame), s.supply.panel = .on → s.scanner.frame = some f → s.scanInHand = none →
    (∀ u x, s.update u = some x → x.state = .active → x.counter + 1 ≠ x.length) →
    ∃ t, exec .frameEnd s = .next t ∧
      t.agrees
        { s with
          updates := { (s.updates) with slots := t.updates.slots }
          scanner := { (s.scanner) with frame := none }, supply := t.supply } ∧
      (∀ u, s.update u = none → t.update u = none) ∧
      (∀ u x, s.update u = some x →
        t.update u = some
          (match x.state with
           | .active => { x with counter := x.counter + 1, state := if s.supply.lossNoted then .frozen else .active }
           | _ => x)) ∧
      (s.supply.lossNoted = true → s.supply.readyLine = false →
        t.supply =
          { (s.supply) with panel := .suspended, lossNoted := false, graceTimer := some (10 * s.supply.grace) }) ∧
      (s.supply.lossNoted = true → s.supply.readyLine = true →
        t.supply = { (s.supply) with panel := .on, lossNoted := false, holdTimer := none, graceTimer := none }) ∧
      (s.supply.lossNoted = false → (∃ u x, s.update u = some x ∧ x.state ≠ .loading) → t.supply = s.supply) ∧
      (s.supply.lossNoted = false → (∀ u x, s.update u = some x → x.state = .loading) →
        t.supply =
          if s.tune.panelHold = 0 then
            { (s.supply) with
              panel := .falling, enable := false, holdTimer := none, graceTimer := none, readingTimer := none
              fallTimer := some 10, lossNoted := false }
          else { (s.supply) with panel := .holding, holdTimer := some (10 * s.tune.panelHold) })) ∧
  (∀ (s : State) (f : Frame) (u : Fin 15) (x : Update), s.supply.panel = .on → s.supply.lossNoted = false →
    s.scanner.frame = some f → s.scanInHand = none → s.update u = some x → x.state = .active →
    x.counter + 1 = x.length → (∀ v, v ≠ u → s.update v = none) → s.updates.order = [u] → s.tune.panelHold ≠ 0 →
    Yields .frameEnd s
      { (s.raise (.updateDone x.source x.mode x.repair x.commits)) with
        updates := { (s.updates) with slots := s.updates.slots.set u none, order := [], due := true }
        scanner := { (s.scanner) with frame := none }
        supply := { (s.supply) with panel := .holding, holdTimer := some (10 * s.tune.panelHold) } }) ∧
  (∀ (s : State) (f : Frame), s.supply.panel = .on → s.scanner.frame = some f → s.scanInHand = none →
    s.updates.order.Nodup →
    let finishes (u : Fin 15) : Bool := match s.update u with
      | some x => decide (x.state = .active ∧ x.counter + 1 = x.length)
      | none => false
    let done := s.updates.order.filter finishes
    let told : List Event := done.filterMap (fun u =>
      (s.update u).map (fun x => .updateDone x.source x.mode x.repair x.commits))
    done ≠ [] →
    ∃ t, exec .frameEnd s = .next t ∧
      t.agrees
        { (s.raiseAll told) with
          updates :=
            { (s.updates) with
              slots := t.updates.slots, due := true, order := s.updates.order.filter (fun u => !finishes u) }
          scanner := { (s.scanner) with frame := none }, supply := t.supply } ∧
      (∀ u, s.update u = none ∨ u ∈ done → t.update u = none) ∧
      (∀ u x, u ∉ done → s.update u = some x →
        t.update u = some
          (match x.state with
           | .active => { x with counter := x.counter + 1, state := if s.supply.lossNoted then .frozen else .active }
           | _ => x)) ∧
      (s.supply.lossNoted = true → s.supply.readyLine = false →
        t.supply =
          { (s.supply) with panel := .suspended, lossNoted := false, graceTimer := some (10 * s.supply.grace) }) ∧
      (s.supply.lossNoted = true → s.supply.readyLine = true →
        t.supply = { (s.supply) with panel := .on, lossNoted := false, holdTimer := none, graceTimer := none }) ∧
      (s.supply.lossNoted = false → (∃ u x, u ∉ done ∧ s.update u = some x ∧ x.state ≠ .loading) →
        t.supply = s.supply) ∧
      (s.supply.lossNoted = false → (∀ u x, u ∉ done → s.update u = some x → x.state = .loading) →
        t.supply =
          if s.tune.panelHold = 0 then
            { (s.supply) with
              panel := .falling, enable := false, holdTimer := none, graceTimer := none, readingTimer := none
              fallTimer := some 10, lossNoted := false }
          else { (s.supply) with panel := .holding, holdTimer := some (10 * s.tune.panelHold) }))

/-! ## Panel power -/

/-- The panel-ready line asserted: in RISING with the rise timer running the panel enters ON and a reading is asked
for, in SUSPENDED it returns to ON; elsewhere the change is not taken. Dropped: in ON the loss is noted, in HOLDING
the panel falls with PANEL_FAULT; elsewhere it is not taken. -/
def Obligations.PanelReadyLine : Prop :=
  ∀ s : State,
    (s.supply.readyLine = false →
      (s.supply.panel = .rising → s.supply.riseTimer.isSome = true →
        Yields .panelReadyAsserted s
          { s with supply :=
            { (s.supply) with
              readyLine := true, panel := .on, riseTimer := none, lossNoted := false
              readingsAsked := s.supply.readingsAsked + 1, readingTimer := some 30000 } }) ∧
      (s.supply.panel = .suspended →
        Yields .panelReadyAsserted s
          { s with supply :=
            { (s.supply) with readyLine := true, panel := .on, holdTimer := none, graceTimer := none, lossNoted := false } }) ∧
      (s.supply.panel ≠ .rising → s.supply.panel ≠ .suspended →
        Yields .panelReadyAsserted s { s with supply := { (s.supply) with readyLine := true } })) ∧
    (s.supply.readyLine = true →
      (s.supply.panel = .on →
        Yields .panelReadyDropped s { s with supply := { (s.supply) with readyLine := false, lossNoted := true } }) ∧
      (s.supply.panel = .holding →
        Yields .panelReadyDropped s
          (State.raise
            { s with supply :=
              { (s.supply) with
                readyLine := false, panel := .falling, enable := false, holdTimer := none, graceTimer := none
                readingTimer := none, fallTimer := some 10, lossNoted := false } }
            (.panelFault 0))) ∧
      (s.supply.panel ≠ .on → s.supply.panel ≠ .holding →
        Yields .panelReadyDropped s { s with supply := { (s.supply) with readyLine := false } }))

/-- The rise, gap, hold and fall timers. Where panel-ready is asserted already as the enable is raised, after the gap
or after the fall, the attempt succeeds at once: the panel is ON, with a reading asked for and its timer started (the
attempt number is kept: the model's reading, log entry 22). -/
def Obligations.PanelTimersExpire : Prop :=
  ∀ s : State,
    (s.supply.panel = .rising → s.supply.riseTimer.isSome = true →
      (s.supply.attempt < 3 →
        Yields .riseTimerExpiry s
          { s with supply := { (s.supply) with enable := false, riseTimer := none, gapTimer := some 10 } }) ∧
      (3 ≤ s.supply.attempt →
        Yields .riseTimerExpiry s
          (State.raise
            { s with supply :=
              { (s.supply) with
                panel := .failed, enable := false, riseTimer := none, gapTimer := none, holdTimer := none
                graceTimer := none, fallTimer := none, readingTimer := none } }
            (.panelFailed (s.busyUpdates.filter (fun x => x.state == .ready)).length)))) ∧
    (s.supply.panel = .rising → s.supply.gapTimer.isSome = true → s.supply.readyLine = false →
      Yields .gapTimerExpiry s
        { s with supply :=
          { (s.supply) with
            attempt := s.supply.attempt + 1, enable := true, gapTimer := none
            riseTimer := some s.supply.riseTimeout } }) ∧
    (s.supply.panel = .rising → s.supply.gapTimer.isSome = true → s.supply.readyLine = true →
      Yields .gapTimerExpiry s
        { s with supply :=
          { (s.supply) with
            panel := .on, attempt := s.supply.attempt + 1, enable := true, gapTimer := none, riseTimer := none
            lossNoted := false, readingsAsked := s.supply.readingsAsked + 1, readingTimer := some 30000 } }) ∧
    (s.supply.panel = .holding → s.supply.holdTimer.isSome = true →
      Yields .holdTimeExpiry s
        { s with supply :=
          { (s.supply) with
            panel := .falling, enable := false, holdTimer := none, graceTimer := none, readingTimer := none
            fallTimer := some 10, lossNoted := false } }) ∧
    (s.supply.panel = .falling → s.supply.fallTimer.isSome = true →
      (s.anySlot .ready = false →
        Yields .fallTimerExpiry s { s with supply := { (s.supply) with panel := .off, fallTimer := none } }) ∧
      (s.anySlot .ready = true → s.supply.readyLine = false →
        Yields .fallTimerExpiry s
          { s with supply :=
            { (s.supply) with
              panel := .rising, fallTimer := none, attempt := 1, enable := true, gapTimer := none
              riseTimer := some s.supply.riseTimeout } }) ∧
      (s.anySlot .ready = true → s.supply.readyLine = true →
        Yields .fallTimerExpiry s
          { s with supply :=
            { (s.supply) with
              panel := .on, fallTimer := none, attempt := 1, enable := true, gapTimer := none, riseTimer := none
              lossNoted := false, readingsAsked := s.supply.readingsAsked + 1, readingTimer := some 30000 } }))

/-- The grace timer's expiry: the panel falls, every FROZEN slot of the start order becomes FREE and leaves it, its
repair joins the Repair List in start order, PANEL_FAULT is raised with their number, and a consideration is called
for. That the start order lists no slot twice is part of the law of R122, which SlotRectanglesStayDisjoint states of
every step. -/
def Obligations.GraceAborts : Prop :=
  ∀ s : State, s.supply.panel = .suspended → s.supply.graceTimer.isSome = true → s.updates.order.Nodup →
    let frozen := s.updates.order.filter (fun u => decide (s.slotState u = some .frozen))
    ∃ t, exec .graceTimerExpiry s = .next t ∧
      t.agrees
        { (State.raise s (.panelFault frozen.length)) with
          supply :=
            { (s.supply) with
              panel := .falling, enable := false, holdTimer := none, graceTimer := none, readingTimer := none
              fallTimer := some 10, lossNoted := false }
          updates := t.updates } ∧
      t.updates.due = true ∧ t.updates.ghosts = s.updates.ghosts ∧
      t.updates.order = s.updates.order.filter (fun u => decide (s.slotState u ≠ some .frozen)) ∧
      (∀ u, u ∈ frozen → t.update u = none) ∧ (∀ u, u ∉ frozen → t.update u = s.update u) ∧
      t.updates.repairs = s.updates.repairs ++ frozen.filterMap (fun u =>
        (s.update u).map (fun x =>
          { source := none, rect := x.rect, mode := .clean, commits := x.commits, repair := true }))

/-- The reading timer asks for a temperature reading and restarts; a valid reading becomes the held reading whatever
the panel state, and even where none is recorded as asked for, as after a reset (the model's reading, log entry 21);
an invalid indication keeps the held reading and raises TEMP_INVALID with it. The end of a pulse begins the next one
queued in the same step, so that the line is not seen deasserted between the two (the model's choice, log entry 31); a
tick of the time stamp wraps at 32 bits. -/
def Obligations.ReadingsPulsesAndTicks : Prop :=
  (∀ s : State,
    (s.supply.readingTimer.isSome = true →
      Yields .readingTimerExpiry s
        { s with supply :=
          { (s.supply) with readingsAsked := s.supply.readingsAsked + 1, readingTimer := some 30000 } }) ∧
    (∀ v : Int, -40 ≤ v → v ≤ 85 →
      Yields (.temperatureReading (some v)) s
        { s with supply := { (s.supply) with readingsAsked := s.supply.readingsAsked - 1, reading := some v } }) ∧
    Yields (.temperatureReading none) s
      (State.raise { s with supply := { (s.supply) with readingsAsked := s.supply.readingsAsked - 1 } }
        (.tempInvalid s.supply.reading))) ∧
  (∀ s : State,
    (s.reporter.pulse = true → s.reporter.pulsesQueued = 0 →
      Yields .interruptPulseEnd s { s with reporter := { (s.reporter) with pulse := false } }) ∧
    (∀ n, s.reporter.pulse = true → s.reporter.pulsesQueued = n + 1 →
      Yields .interruptPulseEnd s { s with reporter := { (s.reporter) with pulsesQueued := n } }) ∧
    Yields .timeStampTick s { s with time := BitVec.ofNat 32 (s.time.toNat + 1) })
end

