-- ==== Sys2Proof/Laws/Memory.lean ====
section
/-! SUPPORT. Laws of sparse tables and of memory: a read after a write, and that every write keeps the canonical form. -/

namespace Sys2Proof.Machine

variable {α : Type} [DecidableEq α] {d : α}

/-! ## Sparse tables -/

/-- The lower bound that a key list starts from. -/
def Sparse.above (lo : Option Nat) (k : Nat) : Prop := ∀ b, lo = some b → b < k

theorem Sparse.wfFrom_cons {lo : Option Nat} {a : Nat} {v : α} {l : List (Nat × α)} :
    Sparse.wfFrom d lo ((a, v) :: l) = true ↔ Sparse.above lo a ∧ v ≠ d ∧ Sparse.wfFrom d (some a) l = true := by
  cases lo <;> simp [Sparse.wfFrom, Sparse.above, and_assoc]

theorem Sparse.wfFrom_weaken {lo lo' : Option Nat} {l : List (Nat × α)}
    (h : ∀ k, Sparse.above lo k → Sparse.above lo' k) (hl : Sparse.wfFrom d lo l = true) :
    Sparse.wfFrom d lo' l = true := by
  cases l with
  | nil => simp [Sparse.wfFrom]
  | cons p l => rw [Sparse.wfFrom_cons] at hl ⊢; exact ⟨h _ hl.1, hl.2⟩

theorem Sparse.above_some {a k : Nat} : Sparse.above (some a) k ↔ a < k := by simp [Sparse.above]

/-- A write keeps the canonical form. -/
theorem Sparse.put_wfFrom {lo : Option Nat} {k : Nat} {v : α} (hk : Sparse.above lo k) :
    ∀ {l : List (Nat × α)}, Sparse.wfFrom d lo l = true → Sparse.wfFrom d lo (Sparse.put d k v l) = true := by
  intro l
  induction l generalizing lo with
  | nil =>
    intro _
    by_cases hv : v = d
    · simp [Sparse.put, hv, Sparse.wfFrom]
    · simp only [Sparse.put, if_neg hv]
      exact Sparse.wfFrom_cons.2 ⟨hk, hv, by simp [Sparse.wfFrom]⟩
  | cons p l ih =>
    obtain ⟨a, w⟩ := p
    intro h
    have hc := Sparse.wfFrom_cons.1 h
    unfold Sparse.put
    split_ifs with h1 h2 h3 h4
    · exact h
    · exact Sparse.wfFrom_cons.2 ⟨hk, h2, Sparse.wfFrom_cons.2 ⟨Sparse.above_some.2 h1, hc.2⟩⟩
    · exact Sparse.wfFrom_weaken (fun k hk' b hb => lt_trans (hc.1 b hb) (Sparse.above_some.1 hk')) hc.2.2
    · subst h3
      exact Sparse.wfFrom_cons.2 ⟨hk, h4, hc.2.2⟩
    · exact Sparse.wfFrom_cons.2 ⟨hc.1, hc.2.1, ih (Sparse.above_some.2 (by omega)) hc.2.2⟩

theorem Sparse.put_wf {k : Nat} {v : α} {l : List (Nat × α)} (h : Sparse.wf d l = true) :
    Sparse.wf d (Sparse.put d k v l) = true :=
  Sparse.put_wfFrom (by simp [Sparse.above]) h

/-- Below every key of a canonical table stands the default. -/
theorem Sparse.get_below {a : Nat} {l : List (Nat × α)} (h : Sparse.wfFrom d (some a) l = true) {k : Nat} (hk : k ≤ a) :
    Sparse.get d l k = d := by
  cases l with
  | nil => rfl
  | cons p l =>
    have := Sparse.above_some.1 (Sparse.wfFrom_cons.1 h).1
    unfold Sparse.get
    rw [if_neg (by omega), if_pos (by omega)]

theorem Sparse.get_putFrom {lo : Option Nat} {k k' : Nat} {v : α} :
    ∀ {l : List (Nat × α)}, Sparse.wfFrom d lo l = true →
      Sparse.get d (Sparse.put d k v l) k' = if k' = k then v else Sparse.get d l k' := by
  intro l
  induction l generalizing lo with
  | nil =>
    intro _
    by_cases hv : v = d
    · subst hv; simp [Sparse.put, Sparse.get]
    · simp only [Sparse.put, if_neg hv, Sparse.get]
      split_ifs <;> rfl
  | cons p l ih =>
    obtain ⟨a, w⟩ := p
    intro h
    have hc := Sparse.wfFrom_cons.1 h
    have hb : ∀ k, k ≤ a → Sparse.get d l k = d := fun k hk => Sparse.get_below hc.2.2 hk
    by_cases h1 : k < a
    · by_cases hv : v = d
      · simp only [Sparse.put, if_pos h1, if_pos hv, Sparse.get]
        split_ifs <;> first | rfl | omega | simp_all
      · simp only [Sparse.put, if_pos h1, if_neg hv, Sparse.get]
        split_ifs <;> first | rfl | omega
    · by_cases h2 : k = a
      · by_cases hv : v = d
        · simp only [Sparse.put, if_neg h1, if_pos h2, if_pos hv, Sparse.get]
          subst h2
          split_ifs with h3 h4
          · rw [h3, hb k (le_refl k), hv]
          · exact hb k' (by omega)
          · rfl
        · simp only [Sparse.put, if_neg h1, if_pos h2, if_neg hv, Sparse.get]
          split_ifs <;> first | rfl | omega
      · simp only [Sparse.put, if_neg h1, if_neg h2, Sparse.get]
        rw [ih hc.2.2]
        split_ifs <;> first | rfl | omega

/-- A read after a write: the value written at its own key, and what stood there at every other. -/
theorem Sparse.get_put {k k' : Nat} {v : α} {l : List (Nat × α)} (h : Sparse.wf d l = true) :
    Sparse.get d (Sparse.put d k v l) k' = if k' = k then v else Sparse.get d l k' :=
  Sparse.get_putFrom h

/-! ## Memory -/

@[simp] theorem Memory.setByte_wf {m : Memory} {a : Nat} {b : Byte} (h : m.wf = true) : (m.setByte a b).wf = true :=
  Sparse.put_wf h

/-- A byte read after a byte write. -/
theorem Memory.byte_setByte {m : Memory} {a a' : Nat} {b : Byte} (h : m.wf = true) :
    (m.setByte a b).byte a' = if a' = a then b else m.byte a' :=
  Sparse.get_put h

/-- A masked write as its four byte writes. -/
theorem Memory.writeMasked_eq (m : Memory) (a : Nat) (w : Word) (e : BitVec 4) :
    m.writeMasked a w e =
      (let m0 := if e.getLsbD 0 then m.setByte (a + 0) (byteOf w 0) else m
       let m1 := if e.getLsbD 1 then m0.setByte (a + 1) (byteOf w 1) else m0
       let m2 := if e.getLsbD 2 then m1.setByte (a + 2) (byteOf w 2) else m1
       if e.getLsbD 3 then m2.setByte (a + 3) (byteOf w 3) else m2) := rfl

theorem Memory.setByteIf_wf {m : Memory} {c : Bool} {a : Nat} {b : Byte} (h : m.wf = true) :
    (if c then m.setByte a b else m).wf = true := by
  cases c <;> simp [h]

theorem Memory.byte_setByteIf {m : Memory} {c : Bool} {a a' : Nat} {b : Byte} (h : m.wf = true) :
    (if c then m.setByte a b else m).byte a' = if c ∧ a' = a then b else m.byte a' := by
  cases c <;> simp [Memory.byte_setByte h]

@[simp] theorem Memory.writeMasked_wf {m : Memory} {a : Nat} {w : Word} {e : BitVec 4} (h : m.wf = true) :
    (m.writeMasked a w e).wf = true := by
  rw [Memory.writeMasked_eq]
  exact setByteIf_wf (setByteIf_wf (setByteIf_wf (setByteIf_wf h)))

/-- Every byte outside the word is unchanged by a masked write. -/
theorem Memory.byte_writeMasked_outside {m : Memory} {a a' : Nat} {w : Word} {e : BitVec 4} (h : m.wf = true)
    (ho : a' < a ∨ a + 4 ≤ a') : (m.writeMasked a w e).byte a' = m.byte a' := by
  rw [Memory.writeMasked_eq]
  have h0 := Memory.setByteIf_wf (c := e.getLsbD 0) (a := a + 0) (b := byteOf w 0) h
  have h1 := Memory.setByteIf_wf (c := e.getLsbD 1) (a := a + 1) (b := byteOf w 1) h0
  have h2 := Memory.setByteIf_wf (c := e.getLsbD 2) (a := a + 2) (b := byteOf w 2) h1
  simp only [byte_setByteIf h2, byte_setByteIf h1, byte_setByteIf h0, byte_setByteIf h]
  rw [if_neg (by omega), if_neg (by omega), if_neg (by omega), if_neg (by omega)]

/-- A byte of the word after a masked write: the data's byte where its enable is set, and the old one otherwise. -/
theorem Memory.byte_writeMasked {m : Memory} {a k : Nat} {w : Word} {e : BitVec 4} (h : m.wf = true) (hk : k < 4) :
    (m.writeMasked a w e).byte (a + k) = if e.getLsbD k then byteOf w k else m.byte (a + k) := by
  rw [Memory.writeMasked_eq]
  have h0 := Memory.setByteIf_wf (c := e.getLsbD 0) (a := a + 0) (b := byteOf w 0) h
  have h1 := Memory.setByteIf_wf (c := e.getLsbD 1) (a := a + 1) (b := byteOf w 1) h0
  have h2 := Memory.setByteIf_wf (c := e.getLsbD 2) (a := a + 2) (b := byteOf w 2) h1
  simp only [byte_setByteIf h2, byte_setByteIf h1, byte_setByteIf h0, byte_setByteIf h]
  obtain rfl | rfl | rfl | rfl : k = 0 ∨ k = 1 ∨ k = 2 ∨ k = 3 := by omega
  all_goals simp

@[simp] theorem Memory.setWord_wf {m : Memory} {a : Nat} {w : Word} (h : m.wf = true) : (m.setWord a w).wf = true :=
  Memory.writeMasked_wf h

@[simp] theorem Memory.setWords_wf {ws : List Word} : ∀ {m : Memory} {a : Nat}, m.wf = true →
    (m.setWords a ws).wf = true := by
  induction ws with
  | nil => intro m a h; exact h
  | cons w ws ih => intro m a h; exact ih (Memory.setWord_wf h)

/-- Every byte outside the words is unchanged by a write of words. -/
theorem Memory.byte_setWords_outside {ws : List Word} : ∀ {m : Memory} {a a' : Nat}, m.wf = true →
    (a' < a ∨ a + 4 * ws.length ≤ a') → (m.setWords a ws).byte a' = m.byte a' := by
  induction ws with
  | nil => intro m a a' _ _; rfl
  | cons w ws ih =>
    intro m a a' h ho
    simp only [List.length_cons] at ho
    unfold Memory.setWords
    rw [ih (Memory.setWord_wf h) (by omega)]
    exact Memory.byte_writeMasked_outside h (by omega)

/-- The bytes of a word make the word. -/
theorem wordOfBytes_byteOf (w : Word) : wordOfBytes (byteOf w 0) (byteOf w 1) (byteOf w 2) (byteOf w 3) = w := by
  unfold wordOfBytes byteOf
  ext i hi
  simp only [BitVec.getElem_append, BitVec.getElem_setWidth, BitVec.getLsbD_ushiftRight]
  split_ifs with h1 h2 h3 <;> (rw [← BitVec.getLsbD_eq_getElem]; congr 1; omega)

/-- A word read after a word write. -/
theorem Memory.word_setWord {m : Memory} {a : Nat} {w : Word} (h : m.wf = true) : (m.setWord a w).word a = w := by
  have hk : ∀ k, k < 4 → (m.setWord a w).byte (a + k) = byteOf w k := by
    intro k hk
    unfold Memory.setWord
    rw [Memory.byte_writeMasked h hk]
    obtain rfl | rfl | rfl | rfl : k = 0 ∨ k = 1 ∨ k = 2 ∨ k = 3 := by omega
    all_goals rfl
  have h0 := hk 0 (by omega)
  rw [Nat.add_zero] at h0
  unfold Memory.word
  rw [h0, hk 1 (by omega), hk 2 (by omega), hk 3 (by omega), wordOfBytes_byteOf]

/-- The memory of the reset state is canonical. -/
theorem State.reset_mem_wf : State.reset.mem.wf = true := rfl

end Sys2Proof.Machine
end

