-- ==== Sys2Proof/Laws/State.lean ====
section
/-! SUPPORT. One lemma per field for the operations that replace a part of State, so that no proof unfolds a record
update. -/

namespace Sys2Proof.Machine

variable (s : State)

@[simp] theorem State.setPage_pending (i : Fin 4) (p : PageSlot) : (s.setPage i p).pending = s.pending := rfl
@[simp] theorem State.setPage_straps (i : Fin 4) (p : PageSlot) : (s.setPage i p).straps = s.straps := rfl
@[simp] theorem State.setPage_mem (i : Fin 4) (p : PageSlot) : (s.setPage i p).mem = s.mem := rfl
@[simp] theorem State.setPage_readData (i : Fin 4) (p : PageSlot) : (s.setPage i p).readData = s.readData := rfl
@[simp] theorem State.setPage_relay (i : Fin 4) (p : PageSlot) : (s.setPage i p).relay = s.relay := rfl
@[simp] theorem State.setPage_regions (i : Fin 4) (p : PageSlot) : (s.setPage i p).regions = s.regions := rfl
@[simp] theorem State.setPage_guard (i : Fin 4) (p : PageSlot) : (s.setPage i p).guard = s.guard := rfl
@[simp] theorem State.setPage_locked (i : Fin 4) (p : PageSlot) : (s.setPage i p).locked = s.locked := rfl
@[simp] theorem State.setPage_decoder (i : Fin 4) (p : PageSlot) : (s.setPage i p).decoder = s.decoder := rfl
@[simp] theorem State.setPage_queue (i : Fin 4) (p : PageSlot) : (s.setPage i p).queue = s.queue := rfl
@[simp] theorem State.setPage_composer (i : Fin 4) (p : PageSlot) : (s.setPage i p).composer = s.composer := rfl
@[simp] theorem State.setPage_tune (i : Fin 4) (p : PageSlot) : (s.setPage i p).tune = s.tune := rfl
@[simp] theorem State.setPage_fonts (i : Fin 4) (p : PageSlot) : (s.setPage i p).fonts = s.fonts := rfl
@[simp] theorem State.setPage_cache (i : Fin 4) (p : PageSlot) : (s.setPage i p).cache = s.cache := rfl
@[simp] theorem State.setPage_columns (i : Fin 4) (p : PageSlot) : (s.setPage i p).columns = s.columns := rfl
@[simp] theorem State.setPage_notes (i : Fin 4) (p : PageSlot) : (s.setPage i p).notes = s.notes := rfl
@[simp] theorem State.setPage_noteCounter (i : Fin 4) (p : PageSlot) : (s.setPage i p).noteCounter = s.noteCounter := rfl
@[simp] theorem State.setPage_commit (i : Fin 4) (p : PageSlot) : (s.setPage i p).commit = s.commit := rfl
@[simp] theorem State.setPage_updates (i : Fin 4) (p : PageSlot) : (s.setPage i p).updates = s.updates := rfl
@[simp] theorem State.setPage_loader (i : Fin 4) (p : PageSlot) : (s.setPage i p).loader = s.loader := rfl
@[simp] theorem State.setPage_scanner (i : Fin 4) (p : PageSlot) : (s.setPage i p).scanner = s.scanner := rfl
@[simp] theorem State.setPage_supply (i : Fin 4) (p : PageSlot) : (s.setPage i p).supply = s.supply := rfl
@[simp] theorem State.setPage_reporter (i : Fin 4) (p : PageSlot) : (s.setPage i p).reporter = s.reporter := rfl
@[simp] theorem State.setPage_startup (i : Fin 4) (p : PageSlot) : (s.setPage i p).startup = s.startup := rfl
@[simp] theorem State.setPage_doze (i : Fin 4) (p : PageSlot) : (s.setPage i p).doze = s.doze := rfl
@[simp] theorem State.setPage_time (i : Fin 4) (p : PageSlot) : (s.setPage i p).time = s.time := rfl
@[simp] theorem State.setPage_port (i : Fin 4) (p : PageSlot) : (s.setPage i p).port = s.port := rfl
@[simp] theorem State.setPage_pages (i : Fin 4) (p : PageSlot) : (s.setPage i p).pages = s.pages.set i p := rfl

@[simp] theorem State.setUpdate_pending (u : Fin 15) (x : Option Update) : (s.setUpdate u x).pending = s.pending := rfl
@[simp] theorem State.setUpdate_straps (u : Fin 15) (x : Option Update) : (s.setUpdate u x).straps = s.straps := rfl
@[simp] theorem State.setUpdate_mem (u : Fin 15) (x : Option Update) : (s.setUpdate u x).mem = s.mem := rfl
@[simp] theorem State.setUpdate_readData (u : Fin 15) (x : Option Update) : (s.setUpdate u x).readData = s.readData := rfl
@[simp] theorem State.setUpdate_relay (u : Fin 15) (x : Option Update) : (s.setUpdate u x).relay = s.relay := rfl
@[simp] theorem State.setUpdate_regions (u : Fin 15) (x : Option Update) : (s.setUpdate u x).regions = s.regions := rfl
@[simp] theorem State.setUpdate_guard (u : Fin 15) (x : Option Update) : (s.setUpdate u x).guard = s.guard := rfl
@[simp] theorem State.setUpdate_locked (u : Fin 15) (x : Option Update) : (s.setUpdate u x).locked = s.locked := rfl
@[simp] theorem State.setUpdate_decoder (u : Fin 15) (x : Option Update) : (s.setUpdate u x).decoder = s.decoder := rfl
@[simp] theorem State.setUpdate_queue (u : Fin 15) (x : Option Update) : (s.setUpdate u x).queue = s.queue := rfl
@[simp] theorem State.setUpdate_composer (u : Fin 15) (x : Option Update) : (s.setUpdate u x).composer = s.composer := rfl
@[simp] theorem State.setUpdate_tune (u : Fin 15) (x : Option Update) : (s.setUpdate u x).tune = s.tune := rfl
@[simp] theorem State.setUpdate_pages (u : Fin 15) (x : Option Update) : (s.setUpdate u x).pages = s.pages := rfl
@[simp] theorem State.setUpdate_fonts (u : Fin 15) (x : Option Update) : (s.setUpdate u x).fonts = s.fonts := rfl
@[simp] theorem State.setUpdate_cache (u : Fin 15) (x : Option Update) : (s.setUpdate u x).cache = s.cache := rfl
@[simp] theorem State.setUpdate_columns (u : Fin 15) (x : Option Update) : (s.setUpdate u x).columns = s.columns := rfl
@[simp] theorem State.setUpdate_notes (u : Fin 15) (x : Option Update) : (s.setUpdate u x).notes = s.notes := rfl
@[simp] theorem State.setUpdate_noteCounter (u : Fin 15) (x : Option Update) : (s.setUpdate u x).noteCounter = s.noteCounter := rfl
@[simp] theorem State.setUpdate_commit (u : Fin 15) (x : Option Update) : (s.setUpdate u x).commit = s.commit := rfl
@[simp] theorem State.setUpdate_loader (u : Fin 15) (x : Option Update) : (s.setUpdate u x).loader = s.loader := rfl
@[simp] theorem State.setUpdate_scanner (u : Fin 15) (x : Option Update) : (s.setUpdate u x).scanner = s.scanner := rfl
@[simp] theorem State.setUpdate_supply (u : Fin 15) (x : Option Update) : (s.setUpdate u x).supply = s.supply := rfl
@[simp] theorem State.setUpdate_reporter (u : Fin 15) (x : Option Update) : (s.setUpdate u x).reporter = s.reporter := rfl
@[simp] theorem State.setUpdate_startup (u : Fin 15) (x : Option Update) : (s.setUpdate u x).startup = s.startup := rfl
@[simp] theorem State.setUpdate_doze (u : Fin 15) (x : Option Update) : (s.setUpdate u x).doze = s.doze := rfl
@[simp] theorem State.setUpdate_time (u : Fin 15) (x : Option Update) : (s.setUpdate u x).time = s.time := rfl
@[simp] theorem State.setUpdate_port (u : Fin 15) (x : Option Update) : (s.setUpdate u x).port = s.port := rfl
@[simp] theorem State.setUpdate_updates (u : Fin 15) (x : Option Update) : (s.setUpdate u x).updates = { s.updates with slots := s.updates.slots.set u x } := rfl

@[simp] theorem State.setSupply_pending (p : Supply) : (s.setSupply p).pending = s.pending := rfl
@[simp] theorem State.setSupply_straps (p : Supply) : (s.setSupply p).straps = s.straps := rfl
@[simp] theorem State.setSupply_mem (p : Supply) : (s.setSupply p).mem = s.mem := rfl
@[simp] theorem State.setSupply_readData (p : Supply) : (s.setSupply p).readData = s.readData := rfl
@[simp] theorem State.setSupply_relay (p : Supply) : (s.setSupply p).relay = s.relay := rfl
@[simp] theorem State.setSupply_regions (p : Supply) : (s.setSupply p).regions = s.regions := rfl
@[simp] theorem State.setSupply_guard (p : Supply) : (s.setSupply p).guard = s.guard := rfl
@[simp] theorem State.setSupply_locked (p : Supply) : (s.setSupply p).locked = s.locked := rfl
@[simp] theorem State.setSupply_decoder (p : Supply) : (s.setSupply p).decoder = s.decoder := rfl
@[simp] theorem State.setSupply_queue (p : Supply) : (s.setSupply p).queue = s.queue := rfl
@[simp] theorem State.setSupply_composer (p : Supply) : (s.setSupply p).composer = s.composer := rfl
@[simp] theorem State.setSupply_tune (p : Supply) : (s.setSupply p).tune = s.tune := rfl
@[simp] theorem State.setSupply_pages (p : Supply) : (s.setSupply p).pages = s.pages := rfl
@[simp] theorem State.setSupply_fonts (p : Supply) : (s.setSupply p).fonts = s.fonts := rfl
@[simp] theorem State.setSupply_cache (p : Supply) : (s.setSupply p).cache = s.cache := rfl
@[simp] theorem State.setSupply_columns (p : Supply) : (s.setSupply p).columns = s.columns := rfl
@[simp] theorem State.setSupply_notes (p : Supply) : (s.setSupply p).notes = s.notes := rfl
@[simp] theorem State.setSupply_noteCounter (p : Supply) : (s.setSupply p).noteCounter = s.noteCounter := rfl
@[simp] theorem State.setSupply_commit (p : Supply) : (s.setSupply p).commit = s.commit := rfl
@[simp] theorem State.setSupply_updates (p : Supply) : (s.setSupply p).updates = s.updates := rfl
@[simp] theorem State.setSupply_loader (p : Supply) : (s.setSupply p).loader = s.loader := rfl
@[simp] theorem State.setSupply_scanner (p : Supply) : (s.setSupply p).scanner = s.scanner := rfl
@[simp] theorem State.setSupply_reporter (p : Supply) : (s.setSupply p).reporter = s.reporter := rfl
@[simp] theorem State.setSupply_startup (p : Supply) : (s.setSupply p).startup = s.startup := rfl
@[simp] theorem State.setSupply_doze (p : Supply) : (s.setSupply p).doze = s.doze := rfl
@[simp] theorem State.setSupply_time (p : Supply) : (s.setSupply p).time = s.time := rfl
@[simp] theorem State.setSupply_port (p : Supply) : (s.setSupply p).port = s.port := rfl
@[simp] theorem State.setSupply_supply (p : Supply) : (s.setSupply p).supply = p := rfl

@[simp] theorem State.setLoad_pending (l : Load) : (s.setLoad l).pending = s.pending := rfl
@[simp] theorem State.setLoad_straps (l : Load) : (s.setLoad l).straps = s.straps := rfl
@[simp] theorem State.setLoad_mem (l : Load) : (s.setLoad l).mem = s.mem := rfl
@[simp] theorem State.setLoad_readData (l : Load) : (s.setLoad l).readData = s.readData := rfl
@[simp] theorem State.setLoad_relay (l : Load) : (s.setLoad l).relay = s.relay := rfl
@[simp] theorem State.setLoad_regions (l : Load) : (s.setLoad l).regions = s.regions := rfl
@[simp] theorem State.setLoad_guard (l : Load) : (s.setLoad l).guard = s.guard := rfl
@[simp] theorem State.setLoad_locked (l : Load) : (s.setLoad l).locked = s.locked := rfl
@[simp] theorem State.setLoad_decoder (l : Load) : (s.setLoad l).decoder = s.decoder := rfl
@[simp] theorem State.setLoad_queue (l : Load) : (s.setLoad l).queue = s.queue := rfl
@[simp] theorem State.setLoad_composer (l : Load) : (s.setLoad l).composer = s.composer := rfl
@[simp] theorem State.setLoad_tune (l : Load) : (s.setLoad l).tune = s.tune := rfl
@[simp] theorem State.setLoad_pages (l : Load) : (s.setLoad l).pages = s.pages := rfl
@[simp] theorem State.setLoad_fonts (l : Load) : (s.setLoad l).fonts = s.fonts := rfl
@[simp] theorem State.setLoad_cache (l : Load) : (s.setLoad l).cache = s.cache := rfl
@[simp] theorem State.setLoad_columns (l : Load) : (s.setLoad l).columns = s.columns := rfl
@[simp] theorem State.setLoad_notes (l : Load) : (s.setLoad l).notes = s.notes := rfl
@[simp] theorem State.setLoad_noteCounter (l : Load) : (s.setLoad l).noteCounter = s.noteCounter := rfl
@[simp] theorem State.setLoad_commit (l : Load) : (s.setLoad l).commit = s.commit := rfl
@[simp] theorem State.setLoad_updates (l : Load) : (s.setLoad l).updates = s.updates := rfl
@[simp] theorem State.setLoad_scanner (l : Load) : (s.setLoad l).scanner = s.scanner := rfl
@[simp] theorem State.setLoad_supply (l : Load) : (s.setLoad l).supply = s.supply := rfl
@[simp] theorem State.setLoad_reporter (l : Load) : (s.setLoad l).reporter = s.reporter := rfl
@[simp] theorem State.setLoad_startup (l : Load) : (s.setLoad l).startup = s.startup := rfl
@[simp] theorem State.setLoad_doze (l : Load) : (s.setLoad l).doze = s.doze := rfl
@[simp] theorem State.setLoad_time (l : Load) : (s.setLoad l).time = s.time := rfl
@[simp] theorem State.setLoad_port (l : Load) : (s.setLoad l).port = s.port := rfl
@[simp] theorem State.setLoad_loader (l : Load) : (s.setLoad l).loader = { s.loader with load := some l } := rfl

@[simp] theorem State.endExecution_pending : (s.endExecution).pending = s.pending := rfl
@[simp] theorem State.endExecution_straps : (s.endExecution).straps = s.straps := rfl
@[simp] theorem State.endExecution_mem : (s.endExecution).mem = s.mem := rfl
@[simp] theorem State.endExecution_readData : (s.endExecution).readData = s.readData := rfl
@[simp] theorem State.endExecution_relay : (s.endExecution).relay = s.relay := rfl
@[simp] theorem State.endExecution_regions : (s.endExecution).regions = s.regions := rfl
@[simp] theorem State.endExecution_guard : (s.endExecution).guard = s.guard := rfl
@[simp] theorem State.endExecution_locked : (s.endExecution).locked = s.locked := rfl
@[simp] theorem State.endExecution_decoder : (s.endExecution).decoder = s.decoder := rfl
@[simp] theorem State.endExecution_queue : (s.endExecution).queue = s.queue := rfl
@[simp] theorem State.endExecution_tune : (s.endExecution).tune = s.tune := rfl
@[simp] theorem State.endExecution_pages : (s.endExecution).pages = s.pages := rfl
@[simp] theorem State.endExecution_fonts : (s.endExecution).fonts = s.fonts := rfl
@[simp] theorem State.endExecution_cache : (s.endExecution).cache = s.cache := rfl
@[simp] theorem State.endExecution_columns : (s.endExecution).columns = s.columns := rfl
@[simp] theorem State.endExecution_notes : (s.endExecution).notes = s.notes := rfl
@[simp] theorem State.endExecution_noteCounter : (s.endExecution).noteCounter = s.noteCounter := rfl
@[simp] theorem State.endExecution_commit : (s.endExecution).commit = s.commit := rfl
@[simp] theorem State.endExecution_updates : (s.endExecution).updates = s.updates := rfl
@[simp] theorem State.endExecution_loader : (s.endExecution).loader = s.loader := rfl
@[simp] theorem State.endExecution_scanner : (s.endExecution).scanner = s.scanner := rfl
@[simp] theorem State.endExecution_supply : (s.endExecution).supply = s.supply := rfl
@[simp] theorem State.endExecution_reporter : (s.endExecution).reporter = s.reporter := rfl
@[simp] theorem State.endExecution_startup : (s.endExecution).startup = s.startup := rfl
@[simp] theorem State.endExecution_doze : (s.endExecution).doze = s.doze := rfl
@[simp] theorem State.endExecution_time : (s.endExecution).time = s.time := rfl
@[simp] theorem State.endExecution_port : (s.endExecution).port = s.port := rfl
@[simp] theorem State.endExecution_composer : (s.endExecution).composer = .ended := rfl

@[simp] theorem State.callConsideration_pending : (s.callConsideration).pending = s.pending := rfl
@[simp] theorem State.callConsideration_straps : (s.callConsideration).straps = s.straps := rfl
@[simp] theorem State.callConsideration_mem : (s.callConsideration).mem = s.mem := rfl
@[simp] theorem State.callConsideration_readData : (s.callConsideration).readData = s.readData := rfl
@[simp] theorem State.callConsideration_relay : (s.callConsideration).relay = s.relay := rfl
@[simp] theorem State.callConsideration_regions : (s.callConsideration).regions = s.regions := rfl
@[simp] theorem State.callConsideration_guard : (s.callConsideration).guard = s.guard := rfl
@[simp] theorem State.callConsideration_locked : (s.callConsideration).locked = s.locked := rfl
@[simp] theorem State.callConsideration_decoder : (s.callConsideration).decoder = s.decoder := rfl
@[simp] theorem State.callConsideration_queue : (s.callConsideration).queue = s.queue := rfl
@[simp] theorem State.callConsideration_composer : (s.callConsideration).composer = s.composer := rfl
@[simp] theorem State.callConsideration_tune : (s.callConsideration).tune = s.tune := rfl
@[simp] theorem State.callConsideration_pages : (s.callConsideration).pages = s.pages := rfl
@[simp] theorem State.callConsideration_fonts : (s.callConsideration).fonts = s.fonts := rfl
@[simp] theorem State.callConsideration_cache : (s.callConsideration).cache = s.cache := rfl
@[simp] theorem State.callConsideration_columns : (s.callConsideration).columns = s.columns := rfl
@[simp] theorem State.callConsideration_notes : (s.callConsideration).notes = s.notes := rfl
@[simp] theorem State.callConsideration_noteCounter : (s.callConsideration).noteCounter = s.noteCounter := rfl
@[simp] theorem State.callConsideration_commit : (s.callConsideration).commit = s.commit := rfl
@[simp] theorem State.callConsideration_loader : (s.callConsideration).loader = s.loader := rfl
@[simp] theorem State.callConsideration_scanner : (s.callConsideration).scanner = s.scanner := rfl
@[simp] theorem State.callConsideration_supply : (s.callConsideration).supply = s.supply := rfl
@[simp] theorem State.callConsideration_reporter : (s.callConsideration).reporter = s.reporter := rfl
@[simp] theorem State.callConsideration_startup : (s.callConsideration).startup = s.startup := rfl
@[simp] theorem State.callConsideration_doze : (s.callConsideration).doze = s.doze := rfl
@[simp] theorem State.callConsideration_time : (s.callConsideration).time = s.time := rfl
@[simp] theorem State.callConsideration_port : (s.callConsideration).port = s.port := rfl
@[simp] theorem State.callConsideration_updates : (s.callConsideration).updates = { s.updates with due := true } := rfl

@[simp] theorem State.addMarks_pending (m : BitVec 18) : (s.addMarks m).pending = s.pending := rfl
@[simp] theorem State.addMarks_straps (m : BitVec 18) : (s.addMarks m).straps = s.straps := rfl
@[simp] theorem State.addMarks_mem (m : BitVec 18) : (s.addMarks m).mem = s.mem := rfl
@[simp] theorem State.addMarks_readData (m : BitVec 18) : (s.addMarks m).readData = s.readData := rfl
@[simp] theorem State.addMarks_relay (m : BitVec 18) : (s.addMarks m).relay = s.relay := rfl
@[simp] theorem State.addMarks_regions (m : BitVec 18) : (s.addMarks m).regions = s.regions := rfl
@[simp] theorem State.addMarks_guard (m : BitVec 18) : (s.addMarks m).guard = s.guard := rfl
@[simp] theorem State.addMarks_locked (m : BitVec 18) : (s.addMarks m).locked = s.locked := rfl
@[simp] theorem State.addMarks_decoder (m : BitVec 18) : (s.addMarks m).decoder = s.decoder := rfl
@[simp] theorem State.addMarks_queue (m : BitVec 18) : (s.addMarks m).queue = s.queue := rfl
@[simp] theorem State.addMarks_composer (m : BitVec 18) : (s.addMarks m).composer = s.composer := rfl
@[simp] theorem State.addMarks_tune (m : BitVec 18) : (s.addMarks m).tune = s.tune := rfl
@[simp] theorem State.addMarks_pages (m : BitVec 18) : (s.addMarks m).pages = s.pages := rfl
@[simp] theorem State.addMarks_fonts (m : BitVec 18) : (s.addMarks m).fonts = s.fonts := rfl
@[simp] theorem State.addMarks_cache (m : BitVec 18) : (s.addMarks m).cache = s.cache := rfl
@[simp] theorem State.addMarks_columns (m : BitVec 18) : (s.addMarks m).columns = s.columns := rfl
@[simp] theorem State.addMarks_notes (m : BitVec 18) : (s.addMarks m).notes = s.notes := rfl
@[simp] theorem State.addMarks_noteCounter (m : BitVec 18) : (s.addMarks m).noteCounter = s.noteCounter := rfl
@[simp] theorem State.addMarks_commit (m : BitVec 18) : (s.addMarks m).commit = s.commit := rfl
@[simp] theorem State.addMarks_updates (m : BitVec 18) : (s.addMarks m).updates = s.updates := rfl
@[simp] theorem State.addMarks_loader (m : BitVec 18) : (s.addMarks m).loader = s.loader := rfl
@[simp] theorem State.addMarks_scanner (m : BitVec 18) : (s.addMarks m).scanner = s.scanner := rfl
@[simp] theorem State.addMarks_supply (m : BitVec 18) : (s.addMarks m).supply = s.supply := rfl
@[simp] theorem State.addMarks_startup (m : BitVec 18) : (s.addMarks m).startup = s.startup := rfl
@[simp] theorem State.addMarks_doze (m : BitVec 18) : (s.addMarks m).doze = s.doze := rfl
@[simp] theorem State.addMarks_time (m : BitVec 18) : (s.addMarks m).time = s.time := rfl
@[simp] theorem State.addMarks_port (m : BitVec 18) : (s.addMarks m).port = s.port := rfl
@[simp] theorem State.addMarks_reporter (m : BitVec 18) : (s.addMarks m).reporter = { s.reporter with marks := s.reporter.marks ||| m } := rfl

@[simp] theorem State.touchStatus_pending (k : Nat) : (s.touchStatus k).pending = s.pending := rfl
@[simp] theorem State.touchStatus_straps (k : Nat) : (s.touchStatus k).straps = s.straps := rfl
@[simp] theorem State.touchStatus_mem (k : Nat) : (s.touchStatus k).mem = s.mem := rfl
@[simp] theorem State.touchStatus_readData (k : Nat) : (s.touchStatus k).readData = s.readData := rfl
@[simp] theorem State.touchStatus_relay (k : Nat) : (s.touchStatus k).relay = s.relay := rfl
@[simp] theorem State.touchStatus_regions (k : Nat) : (s.touchStatus k).regions = s.regions := rfl
@[simp] theorem State.touchStatus_guard (k : Nat) : (s.touchStatus k).guard = s.guard := rfl
@[simp] theorem State.touchStatus_locked (k : Nat) : (s.touchStatus k).locked = s.locked := rfl
@[simp] theorem State.touchStatus_decoder (k : Nat) : (s.touchStatus k).decoder = s.decoder := rfl
@[simp] theorem State.touchStatus_queue (k : Nat) : (s.touchStatus k).queue = s.queue := rfl
@[simp] theorem State.touchStatus_composer (k : Nat) : (s.touchStatus k).composer = s.composer := rfl
@[simp] theorem State.touchStatus_tune (k : Nat) : (s.touchStatus k).tune = s.tune := rfl
@[simp] theorem State.touchStatus_pages (k : Nat) : (s.touchStatus k).pages = s.pages := rfl
@[simp] theorem State.touchStatus_fonts (k : Nat) : (s.touchStatus k).fonts = s.fonts := rfl
@[simp] theorem State.touchStatus_cache (k : Nat) : (s.touchStatus k).cache = s.cache := rfl
@[simp] theorem State.touchStatus_columns (k : Nat) : (s.touchStatus k).columns = s.columns := rfl
@[simp] theorem State.touchStatus_notes (k : Nat) : (s.touchStatus k).notes = s.notes := rfl
@[simp] theorem State.touchStatus_noteCounter (k : Nat) : (s.touchStatus k).noteCounter = s.noteCounter := rfl
@[simp] theorem State.touchStatus_commit (k : Nat) : (s.touchStatus k).commit = s.commit := rfl
@[simp] theorem State.touchStatus_updates (k : Nat) : (s.touchStatus k).updates = s.updates := rfl
@[simp] theorem State.touchStatus_loader (k : Nat) : (s.touchStatus k).loader = s.loader := rfl
@[simp] theorem State.touchStatus_scanner (k : Nat) : (s.touchStatus k).scanner = s.scanner := rfl
@[simp] theorem State.touchStatus_supply (k : Nat) : (s.touchStatus k).supply = s.supply := rfl
@[simp] theorem State.touchStatus_startup (k : Nat) : (s.touchStatus k).startup = s.startup := rfl
@[simp] theorem State.touchStatus_doze (k : Nat) : (s.touchStatus k).doze = s.doze := rfl
@[simp] theorem State.touchStatus_time (k : Nat) : (s.touchStatus k).time = s.time := rfl
@[simp] theorem State.touchStatus_port (k : Nat) : (s.touchStatus k).port = s.port := rfl
@[simp] theorem State.touchStatus_reporter (k : Nat) : (s.touchStatus k).reporter = { s.reporter with marks := s.reporter.marks ||| statusMark k } := rfl

@[simp] theorem State.append_pending (r : Request) : (s.append r).pending = s.pending := rfl
@[simp] theorem State.append_straps (r : Request) : (s.append r).straps = s.straps := rfl
@[simp] theorem State.append_mem (r : Request) : (s.append r).mem = s.mem := rfl
@[simp] theorem State.append_readData (r : Request) : (s.append r).readData = s.readData := rfl
@[simp] theorem State.append_relay (r : Request) : (s.append r).relay = s.relay := rfl
@[simp] theorem State.append_regions (r : Request) : (s.append r).regions = s.regions := rfl
@[simp] theorem State.append_guard (r : Request) : (s.append r).guard = s.guard := rfl
@[simp] theorem State.append_locked (r : Request) : (s.append r).locked = s.locked := rfl
@[simp] theorem State.append_decoder (r : Request) : (s.append r).decoder = s.decoder := rfl
@[simp] theorem State.append_queue (r : Request) : (s.append r).queue = s.queue := rfl
@[simp] theorem State.append_composer (r : Request) : (s.append r).composer = s.composer := rfl
@[simp] theorem State.append_tune (r : Request) : (s.append r).tune = s.tune := rfl
@[simp] theorem State.append_pages (r : Request) : (s.append r).pages = s.pages := rfl
@[simp] theorem State.append_fonts (r : Request) : (s.append r).fonts = s.fonts := rfl
@[simp] theorem State.append_cache (r : Request) : (s.append r).cache = s.cache := rfl
@[simp] theorem State.append_columns (r : Request) : (s.append r).columns = s.columns := rfl
@[simp] theorem State.append_notes (r : Request) : (s.append r).notes = s.notes := rfl
@[simp] theorem State.append_noteCounter (r : Request) : (s.append r).noteCounter = s.noteCounter := rfl
@[simp] theorem State.append_loader (r : Request) : (s.append r).loader = s.loader := rfl
@[simp] theorem State.append_scanner (r : Request) : (s.append r).scanner = s.scanner := rfl
@[simp] theorem State.append_supply (r : Request) : (s.append r).supply = s.supply := rfl
@[simp] theorem State.append_startup (r : Request) : (s.append r).startup = s.startup := rfl
@[simp] theorem State.append_doze (r : Request) : (s.append r).doze = s.doze := rfl
@[simp] theorem State.append_time (r : Request) : (s.append r).time = s.time := rfl
@[simp] theorem State.append_port (r : Request) : (s.append r).port = s.port := rfl
@[simp] theorem State.append_commit (r : Request) : (s.append r).commit = { s.commit with pending := s.commit.pending ++ [r] } := rfl
@[simp] theorem State.append_updates (r : Request) : (s.append r).updates = { s.updates with due := true } := rfl
@[simp] theorem State.append_reporter (r : Request) : (s.append r).reporter = { s.reporter with marks := s.reporter.marks ||| statusMark 9 } := rfl

@[simp] theorem State.markTiles_pending (i : Fin 4) (m : BitVec 5120) : (s.markTiles i m).pending = s.pending := rfl
@[simp] theorem State.markTiles_straps (i : Fin 4) (m : BitVec 5120) : (s.markTiles i m).straps = s.straps := rfl
@[simp] theorem State.markTiles_mem (i : Fin 4) (m : BitVec 5120) : (s.markTiles i m).mem = s.mem := rfl
@[simp] theorem State.markTiles_readData (i : Fin 4) (m : BitVec 5120) : (s.markTiles i m).readData = s.readData := rfl
@[simp] theorem State.markTiles_relay (i : Fin 4) (m : BitVec 5120) : (s.markTiles i m).relay = s.relay := rfl
@[simp] theorem State.markTiles_regions (i : Fin 4) (m : BitVec 5120) : (s.markTiles i m).regions = s.regions := rfl
@[simp] theorem State.markTiles_guard (i : Fin 4) (m : BitVec 5120) : (s.markTiles i m).guard = s.guard := rfl
@[simp] theorem State.markTiles_locked (i : Fin 4) (m : BitVec 5120) : (s.markTiles i m).locked = s.locked := rfl
@[simp] theorem State.markTiles_decoder (i : Fin 4) (m : BitVec 5120) : (s.markTiles i m).decoder = s.decoder := rfl
@[simp] theorem State.markTiles_queue (i : Fin 4) (m : BitVec 5120) : (s.markTiles i m).queue = s.queue := rfl
@[simp] theorem State.markTiles_composer (i : Fin 4) (m : BitVec 5120) : (s.markTiles i m).composer = s.composer := rfl
@[simp] theorem State.markTiles_tune (i : Fin 4) (m : BitVec 5120) : (s.markTiles i m).tune = s.tune := rfl
@[simp] theorem State.markTiles_fonts (i : Fin 4) (m : BitVec 5120) : (s.markTiles i m).fonts = s.fonts := rfl
@[simp] theorem State.markTiles_cache (i : Fin 4) (m : BitVec 5120) : (s.markTiles i m).cache = s.cache := rfl
@[simp] theorem State.markTiles_columns (i : Fin 4) (m : BitVec 5120) : (s.markTiles i m).columns = s.columns := rfl
@[simp] theorem State.markTiles_notes (i : Fin 4) (m : BitVec 5120) : (s.markTiles i m).notes = s.notes := rfl
@[simp] theorem State.markTiles_noteCounter (i : Fin 4) (m : BitVec 5120) : (s.markTiles i m).noteCounter = s.noteCounter := rfl
@[simp] theorem State.markTiles_commit (i : Fin 4) (m : BitVec 5120) : (s.markTiles i m).commit = s.commit := rfl
@[simp] theorem State.markTiles_updates (i : Fin 4) (m : BitVec 5120) : (s.markTiles i m).updates = s.updates := rfl
@[simp] theorem State.markTiles_loader (i : Fin 4) (m : BitVec 5120) : (s.markTiles i m).loader = s.loader := rfl
@[simp] theorem State.markTiles_scanner (i : Fin 4) (m : BitVec 5120) : (s.markTiles i m).scanner = s.scanner := rfl
@[simp] theorem State.markTiles_supply (i : Fin 4) (m : BitVec 5120) : (s.markTiles i m).supply = s.supply := rfl
@[simp] theorem State.markTiles_reporter (i : Fin 4) (m : BitVec 5120) : (s.markTiles i m).reporter = s.reporter := rfl
@[simp] theorem State.markTiles_startup (i : Fin 4) (m : BitVec 5120) : (s.markTiles i m).startup = s.startup := rfl
@[simp] theorem State.markTiles_doze (i : Fin 4) (m : BitVec 5120) : (s.markTiles i m).doze = s.doze := rfl
@[simp] theorem State.markTiles_time (i : Fin 4) (m : BitVec 5120) : (s.markTiles i m).time = s.time := rfl
@[simp] theorem State.markTiles_port (i : Fin 4) (m : BitVec 5120) : (s.markTiles i m).port = s.port := rfl

@[simp] theorem State.setCursor_pending (i c : Fin 4) (x : Cursor) : (s.setCursor i c x).pending = s.pending := rfl
@[simp] theorem State.setCursor_straps (i c : Fin 4) (x : Cursor) : (s.setCursor i c x).straps = s.straps := rfl
@[simp] theorem State.setCursor_mem (i c : Fin 4) (x : Cursor) : (s.setCursor i c x).mem = s.mem := rfl
@[simp] theorem State.setCursor_readData (i c : Fin 4) (x : Cursor) : (s.setCursor i c x).readData = s.readData := rfl
@[simp] theorem State.setCursor_relay (i c : Fin 4) (x : Cursor) : (s.setCursor i c x).relay = s.relay := rfl
@[simp] theorem State.setCursor_regions (i c : Fin 4) (x : Cursor) : (s.setCursor i c x).regions = s.regions := rfl
@[simp] theorem State.setCursor_guard (i c : Fin 4) (x : Cursor) : (s.setCursor i c x).guard = s.guard := rfl
@[simp] theorem State.setCursor_locked (i c : Fin 4) (x : Cursor) : (s.setCursor i c x).locked = s.locked := rfl
@[simp] theorem State.setCursor_decoder (i c : Fin 4) (x : Cursor) : (s.setCursor i c x).decoder = s.decoder := rfl
@[simp] theorem State.setCursor_queue (i c : Fin 4) (x : Cursor) : (s.setCursor i c x).queue = s.queue := rfl
@[simp] theorem State.setCursor_composer (i c : Fin 4) (x : Cursor) : (s.setCursor i c x).composer = s.composer := rfl
@[simp] theorem State.setCursor_tune (i c : Fin 4) (x : Cursor) : (s.setCursor i c x).tune = s.tune := rfl
@[simp] theorem State.setCursor_fonts (i c : Fin 4) (x : Cursor) : (s.setCursor i c x).fonts = s.fonts := rfl
@[simp] theorem State.setCursor_cache (i c : Fin 4) (x : Cursor) : (s.setCursor i c x).cache = s.cache := rfl
@[simp] theorem State.setCursor_columns (i c : Fin 4) (x : Cursor) : (s.setCursor i c x).columns = s.columns := rfl
@[simp] theorem State.setCursor_notes (i c : Fin 4) (x : Cursor) : (s.setCursor i c x).notes = s.notes := rfl
@[simp] theorem State.setCursor_noteCounter (i c : Fin 4) (x : Cursor) : (s.setCursor i c x).noteCounter = s.noteCounter := rfl
@[simp] theorem State.setCursor_commit (i c : Fin 4) (x : Cursor) : (s.setCursor i c x).commit = s.commit := rfl
@[simp] theorem State.setCursor_updates (i c : Fin 4) (x : Cursor) : (s.setCursor i c x).updates = s.updates := rfl
@[simp] theorem State.setCursor_loader (i c : Fin 4) (x : Cursor) : (s.setCursor i c x).loader = s.loader := rfl
@[simp] theorem State.setCursor_scanner (i c : Fin 4) (x : Cursor) : (s.setCursor i c x).scanner = s.scanner := rfl
@[simp] theorem State.setCursor_supply (i c : Fin 4) (x : Cursor) : (s.setCursor i c x).supply = s.supply := rfl
@[simp] theorem State.setCursor_reporter (i c : Fin 4) (x : Cursor) : (s.setCursor i c x).reporter = s.reporter := rfl
@[simp] theorem State.setCursor_startup (i c : Fin 4) (x : Cursor) : (s.setCursor i c x).startup = s.startup := rfl
@[simp] theorem State.setCursor_doze (i c : Fin 4) (x : Cursor) : (s.setCursor i c x).doze = s.doze := rfl
@[simp] theorem State.setCursor_time (i c : Fin 4) (x : Cursor) : (s.setCursor i c x).time = s.time := rfl
@[simp] theorem State.setCursor_port (i c : Fin 4) (x : Cursor) : (s.setCursor i c x).port = s.port := rfl

@[simp] theorem State.takeNumber_pending : (s.takeNumber).pending = s.pending := rfl
@[simp] theorem State.takeNumber_straps : (s.takeNumber).straps = s.straps := rfl
@[simp] theorem State.takeNumber_mem : (s.takeNumber).mem = s.mem := rfl
@[simp] theorem State.takeNumber_readData : (s.takeNumber).readData = s.readData := rfl
@[simp] theorem State.takeNumber_relay : (s.takeNumber).relay = s.relay := rfl
@[simp] theorem State.takeNumber_regions : (s.takeNumber).regions = s.regions := rfl
@[simp] theorem State.takeNumber_guard : (s.takeNumber).guard = s.guard := rfl
@[simp] theorem State.takeNumber_locked : (s.takeNumber).locked = s.locked := rfl
@[simp] theorem State.takeNumber_decoder : (s.takeNumber).decoder = s.decoder := rfl
@[simp] theorem State.takeNumber_queue : (s.takeNumber).queue = s.queue := rfl
@[simp] theorem State.takeNumber_composer : (s.takeNumber).composer = s.composer := rfl
@[simp] theorem State.takeNumber_tune : (s.takeNumber).tune = s.tune := rfl
@[simp] theorem State.takeNumber_pages : (s.takeNumber).pages = s.pages := rfl
@[simp] theorem State.takeNumber_fonts : (s.takeNumber).fonts = s.fonts := rfl
@[simp] theorem State.takeNumber_cache : (s.takeNumber).cache = s.cache := rfl
@[simp] theorem State.takeNumber_columns : (s.takeNumber).columns = s.columns := rfl
@[simp] theorem State.takeNumber_notes : (s.takeNumber).notes = s.notes := rfl
@[simp] theorem State.takeNumber_noteCounter : (s.takeNumber).noteCounter = s.noteCounter := rfl
@[simp] theorem State.takeNumber_updates : (s.takeNumber).updates = s.updates := rfl
@[simp] theorem State.takeNumber_loader : (s.takeNumber).loader = s.loader := rfl
@[simp] theorem State.takeNumber_scanner : (s.takeNumber).scanner = s.scanner := rfl
@[simp] theorem State.takeNumber_supply : (s.takeNumber).supply = s.supply := rfl
@[simp] theorem State.takeNumber_reporter : (s.takeNumber).reporter = s.reporter := rfl
@[simp] theorem State.takeNumber_startup : (s.takeNumber).startup = s.startup := rfl
@[simp] theorem State.takeNumber_doze : (s.takeNumber).doze = s.doze := rfl
@[simp] theorem State.takeNumber_time : (s.takeNumber).time = s.time := rfl
@[simp] theorem State.takeNumber_port : (s.takeNumber).port = s.port := rfl
@[simp] theorem State.takeNumber_commit : (s.takeNumber).commit = { s.commit with nextNumber := s.commit.nextNumber + 1 } := rfl

@[simp] theorem State.keepRun_pending (r : Run) : (s.keepRun r).pending = s.pending := rfl
@[simp] theorem State.keepRun_straps (r : Run) : (s.keepRun r).straps = s.straps := rfl
@[simp] theorem State.keepRun_mem (r : Run) : (s.keepRun r).mem = s.mem := rfl
@[simp] theorem State.keepRun_readData (r : Run) : (s.keepRun r).readData = s.readData := rfl
@[simp] theorem State.keepRun_relay (r : Run) : (s.keepRun r).relay = s.relay := rfl
@[simp] theorem State.keepRun_regions (r : Run) : (s.keepRun r).regions = s.regions := rfl
@[simp] theorem State.keepRun_guard (r : Run) : (s.keepRun r).guard = s.guard := rfl
@[simp] theorem State.keepRun_locked (r : Run) : (s.keepRun r).locked = s.locked := rfl
@[simp] theorem State.keepRun_decoder (r : Run) : (s.keepRun r).decoder = s.decoder := rfl
@[simp] theorem State.keepRun_queue (r : Run) : (s.keepRun r).queue = s.queue := rfl
@[simp] theorem State.keepRun_tune (r : Run) : (s.keepRun r).tune = s.tune := rfl
@[simp] theorem State.keepRun_pages (r : Run) : (s.keepRun r).pages = s.pages := rfl
@[simp] theorem State.keepRun_fonts (r : Run) : (s.keepRun r).fonts = s.fonts := rfl
@[simp] theorem State.keepRun_cache (r : Run) : (s.keepRun r).cache = s.cache := rfl
@[simp] theorem State.keepRun_columns (r : Run) : (s.keepRun r).columns = s.columns := rfl
@[simp] theorem State.keepRun_notes (r : Run) : (s.keepRun r).notes = s.notes := rfl
@[simp] theorem State.keepRun_noteCounter (r : Run) : (s.keepRun r).noteCounter = s.noteCounter := rfl
@[simp] theorem State.keepRun_commit (r : Run) : (s.keepRun r).commit = s.commit := rfl
@[simp] theorem State.keepRun_updates (r : Run) : (s.keepRun r).updates = s.updates := rfl
@[simp] theorem State.keepRun_loader (r : Run) : (s.keepRun r).loader = s.loader := rfl
@[simp] theorem State.keepRun_scanner (r : Run) : (s.keepRun r).scanner = s.scanner := rfl
@[simp] theorem State.keepRun_supply (r : Run) : (s.keepRun r).supply = s.supply := rfl
@[simp] theorem State.keepRun_reporter (r : Run) : (s.keepRun r).reporter = s.reporter := rfl
@[simp] theorem State.keepRun_startup (r : Run) : (s.keepRun r).startup = s.startup := rfl
@[simp] theorem State.keepRun_doze (r : Run) : (s.keepRun r).doze = s.doze := rfl
@[simp] theorem State.keepRun_time (r : Run) : (s.keepRun r).time = s.time := rfl
@[simp] theorem State.keepRun_port (r : Run) : (s.keepRun r).port = s.port := rfl
@[simp] theorem State.keepRun_composer (r : Run) : (s.keepRun r).composer = .running r := rfl

@[simp] theorem State.dropNotes_pending (i : Fin 4) : (s.dropNotes i).pending = s.pending := rfl
@[simp] theorem State.dropNotes_straps (i : Fin 4) : (s.dropNotes i).straps = s.straps := rfl
@[simp] theorem State.dropNotes_mem (i : Fin 4) : (s.dropNotes i).mem = s.mem := rfl
@[simp] theorem State.dropNotes_readData (i : Fin 4) : (s.dropNotes i).readData = s.readData := rfl
@[simp] theorem State.dropNotes_relay (i : Fin 4) : (s.dropNotes i).relay = s.relay := rfl
@[simp] theorem State.dropNotes_regions (i : Fin 4) : (s.dropNotes i).regions = s.regions := rfl
@[simp] theorem State.dropNotes_guard (i : Fin 4) : (s.dropNotes i).guard = s.guard := rfl
@[simp] theorem State.dropNotes_locked (i : Fin 4) : (s.dropNotes i).locked = s.locked := rfl
@[simp] theorem State.dropNotes_decoder (i : Fin 4) : (s.dropNotes i).decoder = s.decoder := rfl
@[simp] theorem State.dropNotes_queue (i : Fin 4) : (s.dropNotes i).queue = s.queue := rfl
@[simp] theorem State.dropNotes_composer (i : Fin 4) : (s.dropNotes i).composer = s.composer := rfl
@[simp] theorem State.dropNotes_tune (i : Fin 4) : (s.dropNotes i).tune = s.tune := rfl
@[simp] theorem State.dropNotes_pages (i : Fin 4) : (s.dropNotes i).pages = s.pages := rfl
@[simp] theorem State.dropNotes_fonts (i : Fin 4) : (s.dropNotes i).fonts = s.fonts := rfl
@[simp] theorem State.dropNotes_cache (i : Fin 4) : (s.dropNotes i).cache = s.cache := rfl
@[simp] theorem State.dropNotes_columns (i : Fin 4) : (s.dropNotes i).columns = s.columns := rfl
@[simp] theorem State.dropNotes_noteCounter (i : Fin 4) : (s.dropNotes i).noteCounter = s.noteCounter := rfl
@[simp] theorem State.dropNotes_commit (i : Fin 4) : (s.dropNotes i).commit = s.commit := rfl
@[simp] theorem State.dropNotes_updates (i : Fin 4) : (s.dropNotes i).updates = s.updates := rfl
@[simp] theorem State.dropNotes_loader (i : Fin 4) : (s.dropNotes i).loader = s.loader := rfl
@[simp] theorem State.dropNotes_scanner (i : Fin 4) : (s.dropNotes i).scanner = s.scanner := rfl
@[simp] theorem State.dropNotes_supply (i : Fin 4) : (s.dropNotes i).supply = s.supply := rfl
@[simp] theorem State.dropNotes_reporter (i : Fin 4) : (s.dropNotes i).reporter = s.reporter := rfl
@[simp] theorem State.dropNotes_startup (i : Fin 4) : (s.dropNotes i).startup = s.startup := rfl
@[simp] theorem State.dropNotes_doze (i : Fin 4) : (s.dropNotes i).doze = s.doze := rfl
@[simp] theorem State.dropNotes_time (i : Fin 4) : (s.dropNotes i).time = s.time := rfl
@[simp] theorem State.dropNotes_port (i : Fin 4) : (s.dropNotes i).port = s.port := rfl

@[simp] theorem State.touchDoze_pending : (s.touchDoze).pending = s.pending := rfl
@[simp] theorem State.touchDoze_straps : (s.touchDoze).straps = s.straps := rfl
@[simp] theorem State.touchDoze_mem : (s.touchDoze).mem = s.mem := rfl
@[simp] theorem State.touchDoze_readData : (s.touchDoze).readData = s.readData := rfl
@[simp] theorem State.touchDoze_relay : (s.touchDoze).relay = s.relay := rfl
@[simp] theorem State.touchDoze_regions : (s.touchDoze).regions = s.regions := rfl
@[simp] theorem State.touchDoze_guard : (s.touchDoze).guard = s.guard := rfl
@[simp] theorem State.touchDoze_locked : (s.touchDoze).locked = s.locked := rfl
@[simp] theorem State.touchDoze_decoder : (s.touchDoze).decoder = s.decoder := rfl
@[simp] theorem State.touchDoze_queue : (s.touchDoze).queue = s.queue := rfl
@[simp] theorem State.touchDoze_composer : (s.touchDoze).composer = s.composer := rfl
@[simp] theorem State.touchDoze_tune : (s.touchDoze).tune = s.tune := rfl
@[simp] theorem State.touchDoze_pages : (s.touchDoze).pages = s.pages := rfl
@[simp] theorem State.touchDoze_fonts : (s.touchDoze).fonts = s.fonts := rfl
@[simp] theorem State.touchDoze_cache : (s.touchDoze).cache = s.cache := rfl
@[simp] theorem State.touchDoze_columns : (s.touchDoze).columns = s.columns := rfl
@[simp] theorem State.touchDoze_notes : (s.touchDoze).notes = s.notes := rfl
@[simp] theorem State.touchDoze_noteCounter : (s.touchDoze).noteCounter = s.noteCounter := rfl
@[simp] theorem State.touchDoze_commit : (s.touchDoze).commit = s.commit := rfl
@[simp] theorem State.touchDoze_updates : (s.touchDoze).updates = s.updates := rfl
@[simp] theorem State.touchDoze_loader : (s.touchDoze).loader = s.loader := rfl
@[simp] theorem State.touchDoze_scanner : (s.touchDoze).scanner = s.scanner := rfl
@[simp] theorem State.touchDoze_supply : (s.touchDoze).supply = s.supply := rfl
@[simp] theorem State.touchDoze_reporter : (s.touchDoze).reporter = s.reporter := rfl
@[simp] theorem State.touchDoze_startup : (s.touchDoze).startup = s.startup := rfl
@[simp] theorem State.touchDoze_time : (s.touchDoze).time = s.time := rfl
@[simp] theorem State.touchDoze_port : (s.touchDoze).port = s.port := rfl

@[simp] theorem State.raiseScan_pending (b : Bool) : (s.raiseScan b).pending = s.pending := rfl
@[simp] theorem State.raiseScan_straps (b : Bool) : (s.raiseScan b).straps = s.straps := rfl
@[simp] theorem State.raiseScan_mem (b : Bool) : (s.raiseScan b).mem = s.mem := rfl
@[simp] theorem State.raiseScan_readData (b : Bool) : (s.raiseScan b).readData = s.readData := rfl
@[simp] theorem State.raiseScan_relay (b : Bool) : (s.raiseScan b).relay = s.relay := rfl
@[simp] theorem State.raiseScan_regions (b : Bool) : (s.raiseScan b).regions = s.regions := rfl
@[simp] theorem State.raiseScan_guard (b : Bool) : (s.raiseScan b).guard = s.guard := rfl
@[simp] theorem State.raiseScan_locked (b : Bool) : (s.raiseScan b).locked = s.locked := rfl
@[simp] theorem State.raiseScan_decoder (b : Bool) : (s.raiseScan b).decoder = s.decoder := rfl
@[simp] theorem State.raiseScan_queue (b : Bool) : (s.raiseScan b).queue = s.queue := rfl
@[simp] theorem State.raiseScan_composer (b : Bool) : (s.raiseScan b).composer = s.composer := rfl
@[simp] theorem State.raiseScan_tune (b : Bool) : (s.raiseScan b).tune = s.tune := rfl
@[simp] theorem State.raiseScan_pages (b : Bool) : (s.raiseScan b).pages = s.pages := rfl
@[simp] theorem State.raiseScan_fonts (b : Bool) : (s.raiseScan b).fonts = s.fonts := rfl
@[simp] theorem State.raiseScan_cache (b : Bool) : (s.raiseScan b).cache = s.cache := rfl
@[simp] theorem State.raiseScan_columns (b : Bool) : (s.raiseScan b).columns = s.columns := rfl
@[simp] theorem State.raiseScan_notes (b : Bool) : (s.raiseScan b).notes = s.notes := rfl
@[simp] theorem State.raiseScan_noteCounter (b : Bool) : (s.raiseScan b).noteCounter = s.noteCounter := rfl
@[simp] theorem State.raiseScan_commit (b : Bool) : (s.raiseScan b).commit = s.commit := rfl
@[simp] theorem State.raiseScan_updates (b : Bool) : (s.raiseScan b).updates = s.updates := rfl
@[simp] theorem State.raiseScan_loader (b : Bool) : (s.raiseScan b).loader = s.loader := rfl
@[simp] theorem State.raiseScan_supply (b : Bool) : (s.raiseScan b).supply = s.supply := rfl
@[simp] theorem State.raiseScan_reporter (b : Bool) : (s.raiseScan b).reporter = s.reporter := rfl
@[simp] theorem State.raiseScan_startup (b : Bool) : (s.raiseScan b).startup = s.startup := rfl
@[simp] theorem State.raiseScan_doze (b : Bool) : (s.raiseScan b).doze = s.doze := rfl
@[simp] theorem State.raiseScan_time (b : Bool) : (s.raiseScan b).time = s.time := rfl
@[simp] theorem State.raiseScan_port (b : Bool) : (s.raiseScan b).port = s.port := rfl

@[simp] theorem State.mapUpdates_pending (f : Update → Update) : (s.mapUpdates f).pending = s.pending := rfl
@[simp] theorem State.mapUpdates_straps (f : Update → Update) : (s.mapUpdates f).straps = s.straps := rfl
@[simp] theorem State.mapUpdates_mem (f : Update → Update) : (s.mapUpdates f).mem = s.mem := rfl
@[simp] theorem State.mapUpdates_readData (f : Update → Update) : (s.mapUpdates f).readData = s.readData := rfl
@[simp] theorem State.mapUpdates_relay (f : Update → Update) : (s.mapUpdates f).relay = s.relay := rfl
@[simp] theorem State.mapUpdates_regions (f : Update → Update) : (s.mapUpdates f).regions = s.regions := rfl
@[simp] theorem State.mapUpdates_guard (f : Update → Update) : (s.mapUpdates f).guard = s.guard := rfl
@[simp] theorem State.mapUpdates_locked (f : Update → Update) : (s.mapUpdates f).locked = s.locked := rfl
@[simp] theorem State.mapUpdates_decoder (f : Update → Update) : (s.mapUpdates f).decoder = s.decoder := rfl
@[simp] theorem State.mapUpdates_queue (f : Update → Update) : (s.mapUpdates f).queue = s.queue := rfl
@[simp] theorem State.mapUpdates_composer (f : Update → Update) : (s.mapUpdates f).composer = s.composer := rfl
@[simp] theorem State.mapUpdates_tune (f : Update → Update) : (s.mapUpdates f).tune = s.tune := rfl
@[simp] theorem State.mapUpdates_pages (f : Update → Update) : (s.mapUpdates f).pages = s.pages := rfl
@[simp] theorem State.mapUpdates_fonts (f : Update → Update) : (s.mapUpdates f).fonts = s.fonts := rfl
@[simp] theorem State.mapUpdates_cache (f : Update → Update) : (s.mapUpdates f).cache = s.cache := rfl
@[simp] theorem State.mapUpdates_columns (f : Update → Update) : (s.mapUpdates f).columns = s.columns := rfl
@[simp] theorem State.mapUpdates_notes (f : Update → Update) : (s.mapUpdates f).notes = s.notes := rfl
@[simp] theorem State.mapUpdates_noteCounter (f : Update → Update) : (s.mapUpdates f).noteCounter = s.noteCounter := rfl
@[simp] theorem State.mapUpdates_commit (f : Update → Update) : (s.mapUpdates f).commit = s.commit := rfl
@[simp] theorem State.mapUpdates_loader (f : Update → Update) : (s.mapUpdates f).loader = s.loader := rfl
@[simp] theorem State.mapUpdates_scanner (f : Update → Update) : (s.mapUpdates f).scanner = s.scanner := rfl
@[simp] theorem State.mapUpdates_supply (f : Update → Update) : (s.mapUpdates f).supply = s.supply := rfl
@[simp] theorem State.mapUpdates_reporter (f : Update → Update) : (s.mapUpdates f).reporter = s.reporter := rfl
@[simp] theorem State.mapUpdates_startup (f : Update → Update) : (s.mapUpdates f).startup = s.startup := rfl
@[simp] theorem State.mapUpdates_doze (f : Update → Update) : (s.mapUpdates f).doze = s.doze := rfl
@[simp] theorem State.mapUpdates_time (f : Update → Update) : (s.mapUpdates f).time = s.time := rfl
@[simp] theorem State.mapUpdates_port (f : Update → Update) : (s.mapUpdates f).port = s.port := rfl

/-! ## Operations that branch -/

@[simp] theorem State.raise_pending (e : Event) : (s.raise e).pending = s.pending := by
  unfold State.raise; simp only; split <;> rfl
@[simp] theorem State.raise_straps (e : Event) : (s.raise e).straps = s.straps := by
  unfold State.raise; simp only; split <;> rfl
@[simp] theorem State.raise_mem (e : Event) : (s.raise e).mem = s.mem := by
  unfold State.raise; simp only; split <;> rfl
@[simp] theorem State.raise_readData (e : Event) : (s.raise e).readData = s.readData := by
  unfold State.raise; simp only; split <;> rfl
@[simp] theorem State.raise_relay (e : Event) : (s.raise e).relay = s.relay := by
  unfold State.raise; simp only; split <;> rfl
@[simp] theorem State.raise_regions (e : Event) : (s.raise e).regions = s.regions := by
  unfold State.raise; simp only; split <;> rfl
@[simp] theorem State.raise_guard (e : Event) : (s.raise e).guard = s.guard := by
  unfold State.raise; simp only; split <;> rfl
@[simp] theorem State.raise_locked (e : Event) : (s.raise e).locked = s.locked := by
  unfold State.raise; simp only; split <;> rfl
@[simp] theorem State.raise_decoder (e : Event) : (s.raise e).decoder = s.decoder := by
  unfold State.raise; simp only; split <;> rfl
@[simp] theorem State.raise_queue (e : Event) : (s.raise e).queue = s.queue := by
  unfold State.raise; simp only; split <;> rfl
@[simp] theorem State.raise_composer (e : Event) : (s.raise e).composer = s.composer := by
  unfold State.raise; simp only; split <;> rfl
@[simp] theorem State.raise_tune (e : Event) : (s.raise e).tune = s.tune := by
  unfold State.raise; simp only; split <;> rfl
@[simp] theorem State.raise_pages (e : Event) : (s.raise e).pages = s.pages := by
  unfold State.raise; simp only; split <;> rfl
@[simp] theorem State.raise_fonts (e : Event) : (s.raise e).fonts = s.fonts := by
  unfold State.raise; simp only; split <;> rfl
@[simp] theorem State.raise_cache (e : Event) : (s.raise e).cache = s.cache := by
  unfold State.raise; simp only; split <;> rfl
@[simp] theorem State.raise_columns (e : Event) : (s.raise e).columns = s.columns := by
  unfold State.raise; simp only; split <;> rfl
@[simp] theorem State.raise_notes (e : Event) : (s.raise e).notes = s.notes := by
  unfold State.raise; simp only; split <;> rfl
@[simp] theorem State.raise_noteCounter (e : Event) : (s.raise e).noteCounter = s.noteCounter := by
  unfold State.raise; simp only; split <;> rfl
@[simp] theorem State.raise_commit (e : Event) : (s.raise e).commit = s.commit := by
  unfold State.raise; simp only; split <;> rfl
@[simp] theorem State.raise_updates (e : Event) : (s.raise e).updates = s.updates := by
  unfold State.raise; simp only; split <;> rfl
@[simp] theorem State.raise_loader (e : Event) : (s.raise e).loader = s.loader := by
  unfold State.raise; simp only; split <;> rfl
@[simp] theorem State.raise_scanner (e : Event) : (s.raise e).scanner = s.scanner := by
  unfold State.raise; simp only; split <;> rfl
@[simp] theorem State.raise_supply (e : Event) : (s.raise e).supply = s.supply := by
  unfold State.raise; simp only; split <;> rfl
@[simp] theorem State.raise_startup (e : Event) : (s.raise e).startup = s.startup := by
  unfold State.raise; simp only; split <;> rfl
@[simp] theorem State.raise_doze (e : Event) : (s.raise e).doze = s.doze := by
  unfold State.raise; simp only; split <;> rfl
@[simp] theorem State.raise_time (e : Event) : (s.raise e).time = s.time := by
  unfold State.raise; simp only; split <;> rfl
@[simp] theorem State.raise_port (e : Event) : (s.raise e).port = s.port := by
  unfold State.raise; simp only; split <;> rfl

@[simp] theorem State.watchDoze_pending : (s.watchDoze).pending = s.pending := by
  unfold State.watchDoze; split
  · rfl
  · split
    · split <;> rfl
    · rfl
@[simp] theorem State.watchDoze_straps : (s.watchDoze).straps = s.straps := by
  unfold State.watchDoze; split
  · rfl
  · split
    · split <;> rfl
    · rfl
@[simp] theorem State.watchDoze_mem : (s.watchDoze).mem = s.mem := by
  unfold State.watchDoze; split
  · rfl
  · split
    · split <;> rfl
    · rfl
@[simp] theorem State.watchDoze_readData : (s.watchDoze).readData = s.readData := by
  unfold State.watchDoze; split
  · rfl
  · split
    · split <;> rfl
    · rfl
@[simp] theorem State.watchDoze_relay : (s.watchDoze).relay = s.relay := by
  unfold State.watchDoze; split
  · rfl
  · split
    · split <;> rfl
    · rfl
@[simp] theorem State.watchDoze_regions : (s.watchDoze).regions = s.regions := by
  unfold State.watchDoze; split
  · rfl
  · split
    · split <;> rfl
    · rfl
@[simp] theorem State.watchDoze_guard : (s.watchDoze).guard = s.guard := by
  unfold State.watchDoze; split
  · rfl
  · split
    · split <;> rfl
    · rfl
@[simp] theorem State.watchDoze_locked : (s.watchDoze).locked = s.locked := by
  unfold State.watchDoze; split
  · rfl
  · split
    · split <;> rfl
    · rfl
@[simp] theorem State.watchDoze_decoder : (s.watchDoze).decoder = s.decoder := by
  unfold State.watchDoze; split
  · rfl
  · split
    · split <;> rfl
    · rfl
@[simp] theorem State.watchDoze_queue : (s.watchDoze).queue = s.queue := by
  unfold State.watchDoze; split
  · rfl
  · split
    · split <;> rfl
    · rfl
@[simp] theorem State.watchDoze_composer : (s.watchDoze).composer = s.composer := by
  unfold State.watchDoze; split
  · rfl
  · split
    · split <;> rfl
    · rfl
@[simp] theorem State.watchDoze_tune : (s.watchDoze).tune = s.tune := by
  unfold State.watchDoze; split
  · rfl
  · split
    · split <;> rfl
    · rfl
@[simp] theorem State.watchDoze_pages : (s.watchDoze).pages = s.pages := by
  unfold State.watchDoze; split
  · rfl
  · split
    · split <;> rfl
    · rfl
@[simp] theorem State.watchDoze_fonts : (s.watchDoze).fonts = s.fonts := by
  unfold State.watchDoze; split
  · rfl
  · split
    · split <;> rfl
    · rfl
@[simp] theorem State.watchDoze_cache : (s.watchDoze).cache = s.cache := by
  unfold State.watchDoze; split
  · rfl
  · split
    · split <;> rfl
    · rfl
@[simp] theorem State.watchDoze_columns : (s.watchDoze).columns = s.columns := by
  unfold State.watchDoze; split
  · rfl
  · split
    · split <;> rfl
    · rfl
@[simp] theorem State.watchDoze_notes : (s.watchDoze).notes = s.notes := by
  unfold State.watchDoze; split
  · rfl
  · split
    · split <;> rfl
    · rfl
@[simp] theorem State.watchDoze_noteCounter : (s.watchDoze).noteCounter = s.noteCounter := by
  unfold State.watchDoze; split
  · rfl
  · split
    · split <;> rfl
    · rfl
@[simp] theorem State.watchDoze_commit : (s.watchDoze).commit = s.commit := by
  unfold State.watchDoze; split
  · rfl
  · split
    · split <;> rfl
    · rfl
@[simp] theorem State.watchDoze_updates : (s.watchDoze).updates = s.updates := by
  unfold State.watchDoze; split
  · rfl
  · split
    · split <;> rfl
    · rfl
@[simp] theorem State.watchDoze_loader : (s.watchDoze).loader = s.loader := by
  unfold State.watchDoze; split
  · rfl
  · split
    · split <;> rfl
    · rfl
@[simp] theorem State.watchDoze_scanner : (s.watchDoze).scanner = s.scanner := by
  unfold State.watchDoze; split
  · rfl
  · split
    · split <;> rfl
    · rfl
@[simp] theorem State.watchDoze_supply : (s.watchDoze).supply = s.supply := by
  unfold State.watchDoze; split
  · rfl
  · split
    · split <;> rfl
    · rfl
@[simp] theorem State.watchDoze_reporter : (s.watchDoze).reporter = s.reporter := by
  unfold State.watchDoze; split
  · rfl
  · split
    · split <;> rfl
    · rfl
@[simp] theorem State.watchDoze_startup : (s.watchDoze).startup = s.startup := by
  unfold State.watchDoze; split
  · rfl
  · split
    · split <;> rfl
    · rfl
@[simp] theorem State.watchDoze_time : (s.watchDoze).time = s.time := by
  unfold State.watchDoze; split
  · rfl
  · split
    · split <;> rfl
    · rfl
@[simp] theorem State.watchDoze_port : (s.watchDoze).port = s.port := by
  unfold State.watchDoze; split
  · rfl
  · split
    · split <;> rfl
    · rfl

@[simp] theorem State.accessFault_pending (a : BusAddr) (c : FaultCause) : (s.accessFault a c).pending = s.pending := by
  unfold State.accessFault; simp only; split <;> simp
@[simp] theorem State.accessFault_straps (a : BusAddr) (c : FaultCause) : (s.accessFault a c).straps = s.straps := by
  unfold State.accessFault; simp only; split <;> simp
@[simp] theorem State.accessFault_mem (a : BusAddr) (c : FaultCause) : (s.accessFault a c).mem = s.mem := by
  unfold State.accessFault; simp only; split <;> simp
@[simp] theorem State.accessFault_readData (a : BusAddr) (c : FaultCause) : (s.accessFault a c).readData = s.readData := by
  unfold State.accessFault; simp only; split <;> simp
@[simp] theorem State.accessFault_relay (a : BusAddr) (c : FaultCause) : (s.accessFault a c).relay = s.relay := by
  unfold State.accessFault; simp only; split <;> simp
@[simp] theorem State.accessFault_regions (a : BusAddr) (c : FaultCause) : (s.accessFault a c).regions = s.regions := by
  unfold State.accessFault; simp only; split <;> simp
@[simp] theorem State.accessFault_guard (a : BusAddr) (c : FaultCause) : (s.accessFault a c).guard = s.guard := by
  unfold State.accessFault; simp only; split <;> simp
@[simp] theorem State.accessFault_locked (a : BusAddr) (c : FaultCause) : (s.accessFault a c).locked = s.locked := by
  unfold State.accessFault; simp only; split <;> simp
@[simp] theorem State.accessFault_decoder (a : BusAddr) (c : FaultCause) : (s.accessFault a c).decoder = s.decoder := by
  unfold State.accessFault; simp only; split <;> simp
@[simp] theorem State.accessFault_queue (a : BusAddr) (c : FaultCause) : (s.accessFault a c).queue = s.queue := by
  unfold State.accessFault; simp only; split <;> simp
@[simp] theorem State.accessFault_composer (a : BusAddr) (c : FaultCause) : (s.accessFault a c).composer = s.composer := by
  unfold State.accessFault; simp only; split <;> simp
@[simp] theorem State.accessFault_tune (a : BusAddr) (c : FaultCause) : (s.accessFault a c).tune = s.tune := by
  unfold State.accessFault; simp only; split <;> simp
@[simp] theorem State.accessFault_pages (a : BusAddr) (c : FaultCause) : (s.accessFault a c).pages = s.pages := by
  unfold State.accessFault; simp only; split <;> simp
@[simp] theorem State.accessFault_fonts (a : BusAddr) (c : FaultCause) : (s.accessFault a c).fonts = s.fonts := by
  unfold State.accessFault; simp only; split <;> simp
@[simp] theorem State.accessFault_cache (a : BusAddr) (c : FaultCause) : (s.accessFault a c).cache = s.cache := by
  unfold State.accessFault; simp only; split <;> simp
@[simp] theorem State.accessFault_columns (a : BusAddr) (c : FaultCause) : (s.accessFault a c).columns = s.columns := by
  unfold State.accessFault; simp only; split <;> simp
@[simp] theorem State.accessFault_notes (a : BusAddr) (c : FaultCause) : (s.accessFault a c).notes = s.notes := by
  unfold State.accessFault; simp only; split <;> simp
@[simp] theorem State.accessFault_noteCounter (a : BusAddr) (c : FaultCause) : (s.accessFault a c).noteCounter = s.noteCounter := by
  unfold State.accessFault; simp only; split <;> simp
@[simp] theorem State.accessFault_commit (a : BusAddr) (c : FaultCause) : (s.accessFault a c).commit = s.commit := by
  unfold State.accessFault; simp only; split <;> simp
@[simp] theorem State.accessFault_updates (a : BusAddr) (c : FaultCause) : (s.accessFault a c).updates = s.updates := by
  unfold State.accessFault; simp only; split <;> simp
@[simp] theorem State.accessFault_loader (a : BusAddr) (c : FaultCause) : (s.accessFault a c).loader = s.loader := by
  unfold State.accessFault; simp only; split <;> simp
@[simp] theorem State.accessFault_scanner (a : BusAddr) (c : FaultCause) : (s.accessFault a c).scanner = s.scanner := by
  unfold State.accessFault; simp only; split <;> simp
@[simp] theorem State.accessFault_supply (a : BusAddr) (c : FaultCause) : (s.accessFault a c).supply = s.supply := by
  unfold State.accessFault; simp only; split <;> simp
@[simp] theorem State.accessFault_startup (a : BusAddr) (c : FaultCause) : (s.accessFault a c).startup = s.startup := by
  unfold State.accessFault; simp only; split <;> simp
@[simp] theorem State.accessFault_doze (a : BusAddr) (c : FaultCause) : (s.accessFault a c).doze = s.doze := by
  unfold State.accessFault; simp only; split <;> simp
@[simp] theorem State.accessFault_time (a : BusAddr) (c : FaultCause) : (s.accessFault a c).time = s.time := by
  unfold State.accessFault; simp only; split <;> simp
@[simp] theorem State.accessFault_port (a : BusAddr) (c : FaultCause) : (s.accessFault a c).port = s.port := by
  unfold State.accessFault; simp only; split <;> simp

@[simp] theorem State.checkSpace_pending : (s.checkSpace).pending = s.pending := by
  unfold State.checkSpace; split <;> split <;> simp
@[simp] theorem State.checkSpace_straps : (s.checkSpace).straps = s.straps := by
  unfold State.checkSpace; split <;> split <;> simp
@[simp] theorem State.checkSpace_mem : (s.checkSpace).mem = s.mem := by
  unfold State.checkSpace; split <;> split <;> simp
@[simp] theorem State.checkSpace_readData : (s.checkSpace).readData = s.readData := by
  unfold State.checkSpace; split <;> split <;> simp
@[simp] theorem State.checkSpace_relay : (s.checkSpace).relay = s.relay := by
  unfold State.checkSpace; split <;> split <;> simp
@[simp] theorem State.checkSpace_regions : (s.checkSpace).regions = s.regions := by
  unfold State.checkSpace; split <;> split <;> simp
@[simp] theorem State.checkSpace_guard : (s.checkSpace).guard = s.guard := by
  unfold State.checkSpace; split <;> split <;> simp
@[simp] theorem State.checkSpace_locked : (s.checkSpace).locked = s.locked := by
  unfold State.checkSpace; split <;> split <;> simp
@[simp] theorem State.checkSpace_queue : (s.checkSpace).queue = s.queue := by
  unfold State.checkSpace; split <;> split <;> simp
@[simp] theorem State.checkSpace_composer : (s.checkSpace).composer = s.composer := by
  unfold State.checkSpace; split <;> split <;> simp
@[simp] theorem State.checkSpace_tune : (s.checkSpace).tune = s.tune := by
  unfold State.checkSpace; split <;> split <;> simp
@[simp] theorem State.checkSpace_pages : (s.checkSpace).pages = s.pages := by
  unfold State.checkSpace; split <;> split <;> simp
@[simp] theorem State.checkSpace_fonts : (s.checkSpace).fonts = s.fonts := by
  unfold State.checkSpace; split <;> split <;> simp
@[simp] theorem State.checkSpace_cache : (s.checkSpace).cache = s.cache := by
  unfold State.checkSpace; split <;> split <;> simp
@[simp] theorem State.checkSpace_columns : (s.checkSpace).columns = s.columns := by
  unfold State.checkSpace; split <;> split <;> simp
@[simp] theorem State.checkSpace_notes : (s.checkSpace).notes = s.notes := by
  unfold State.checkSpace; split <;> split <;> simp
@[simp] theorem State.checkSpace_noteCounter : (s.checkSpace).noteCounter = s.noteCounter := by
  unfold State.checkSpace; split <;> split <;> simp
@[simp] theorem State.checkSpace_commit : (s.checkSpace).commit = s.commit := by
  unfold State.checkSpace; split <;> split <;> simp
@[simp] theorem State.checkSpace_updates : (s.checkSpace).updates = s.updates := by
  unfold State.checkSpace; split <;> split <;> simp
@[simp] theorem State.checkSpace_loader : (s.checkSpace).loader = s.loader := by
  unfold State.checkSpace; split <;> split <;> simp
@[simp] theorem State.checkSpace_scanner : (s.checkSpace).scanner = s.scanner := by
  unfold State.checkSpace; split <;> split <;> simp
@[simp] theorem State.checkSpace_supply : (s.checkSpace).supply = s.supply := by
  unfold State.checkSpace; split <;> split <;> simp
@[simp] theorem State.checkSpace_startup : (s.checkSpace).startup = s.startup := by
  unfold State.checkSpace; split <;> split <;> simp
@[simp] theorem State.checkSpace_doze : (s.checkSpace).doze = s.doze := by
  unfold State.checkSpace; split <;> split <;> simp
@[simp] theorem State.checkSpace_time : (s.checkSpace).time = s.time := by
  unfold State.checkSpace; split <;> split <;> simp
@[simp] theorem State.checkSpace_port : (s.checkSpace).port = s.port := by
  unfold State.checkSpace; split <;> split <;> simp

@[simp] theorem State.spoilCheck_pending (a : Nat) : (s.spoilCheck a).pending = s.pending := by
  unfold State.spoilCheck; split
  · split <;> simp
  · rfl
@[simp] theorem State.spoilCheck_straps (a : Nat) : (s.spoilCheck a).straps = s.straps := by
  unfold State.spoilCheck; split
  · split <;> simp
  · rfl
@[simp] theorem State.spoilCheck_mem (a : Nat) : (s.spoilCheck a).mem = s.mem := by
  unfold State.spoilCheck; split
  · split <;> simp
  · rfl
@[simp] theorem State.spoilCheck_readData (a : Nat) : (s.spoilCheck a).readData = s.readData := by
  unfold State.spoilCheck; split
  · split <;> simp
  · rfl
@[simp] theorem State.spoilCheck_relay (a : Nat) : (s.spoilCheck a).relay = s.relay := by
  unfold State.spoilCheck; split
  · split <;> simp
  · rfl
@[simp] theorem State.spoilCheck_regions (a : Nat) : (s.spoilCheck a).regions = s.regions := by
  unfold State.spoilCheck; split
  · split <;> simp
  · rfl
@[simp] theorem State.spoilCheck_guard (a : Nat) : (s.spoilCheck a).guard = s.guard := by
  unfold State.spoilCheck; split
  · split <;> simp
  · rfl
@[simp] theorem State.spoilCheck_locked (a : Nat) : (s.spoilCheck a).locked = s.locked := by
  unfold State.spoilCheck; split
  · split <;> simp
  · rfl
@[simp] theorem State.spoilCheck_decoder (a : Nat) : (s.spoilCheck a).decoder = s.decoder := by
  unfold State.spoilCheck; split
  · split <;> simp
  · rfl
@[simp] theorem State.spoilCheck_queue (a : Nat) : (s.spoilCheck a).queue = s.queue := by
  unfold State.spoilCheck; split
  · split <;> simp
  · rfl
@[simp] theorem State.spoilCheck_composer (a : Nat) : (s.spoilCheck a).composer = s.composer := by
  unfold State.spoilCheck; split
  · split <;> simp
  · rfl
@[simp] theorem State.spoilCheck_tune (a : Nat) : (s.spoilCheck a).tune = s.tune := by
  unfold State.spoilCheck; split
  · split <;> simp
  · rfl
@[simp] theorem State.spoilCheck_pages (a : Nat) : (s.spoilCheck a).pages = s.pages := by
  unfold State.spoilCheck; split
  · split <;> simp
  · rfl
@[simp] theorem State.spoilCheck_fonts (a : Nat) : (s.spoilCheck a).fonts = s.fonts := by
  unfold State.spoilCheck; split
  · split <;> simp
  · rfl
@[simp] theorem State.spoilCheck_cache (a : Nat) : (s.spoilCheck a).cache = s.cache := by
  unfold State.spoilCheck; split
  · split <;> simp
  · rfl
@[simp] theorem State.spoilCheck_columns (a : Nat) : (s.spoilCheck a).columns = s.columns := by
  unfold State.spoilCheck; split
  · split <;> simp
  · rfl
@[simp] theorem State.spoilCheck_notes (a : Nat) : (s.spoilCheck a).notes = s.notes := by
  unfold State.spoilCheck; split
  · split <;> simp
  · rfl
@[simp] theorem State.spoilCheck_noteCounter (a : Nat) : (s.spoilCheck a).noteCounter = s.noteCounter := by
  unfold State.spoilCheck; split
  · split <;> simp
  · rfl
@[simp] theorem State.spoilCheck_commit (a : Nat) : (s.spoilCheck a).commit = s.commit := by
  unfold State.spoilCheck; split
  · split <;> simp
  · rfl
@[simp] theorem State.spoilCheck_updates (a : Nat) : (s.spoilCheck a).updates = s.updates := by
  unfold State.spoilCheck; split
  · split <;> simp
  · rfl
@[simp] theorem State.spoilCheck_loader (a : Nat) : (s.spoilCheck a).loader = s.loader := by
  unfold State.spoilCheck; split
  · split <;> simp
  · rfl
@[simp] theorem State.spoilCheck_scanner (a : Nat) : (s.spoilCheck a).scanner = s.scanner := by
  unfold State.spoilCheck; split
  · split <;> simp
  · rfl
@[simp] theorem State.spoilCheck_reporter (a : Nat) : (s.spoilCheck a).reporter = s.reporter := by
  unfold State.spoilCheck; split
  · split <;> simp
  · rfl
@[simp] theorem State.spoilCheck_startup (a : Nat) : (s.spoilCheck a).startup = s.startup := by
  unfold State.spoilCheck; split
  · split <;> simp
  · rfl
@[simp] theorem State.spoilCheck_doze (a : Nat) : (s.spoilCheck a).doze = s.doze := by
  unfold State.spoilCheck; split
  · split <;> simp
  · rfl
@[simp] theorem State.spoilCheck_time (a : Nat) : (s.spoilCheck a).time = s.time := by
  unfold State.spoilCheck; split
  · split <;> simp
  · rfl
@[simp] theorem State.spoilCheck_port (a : Nat) : (s.spoilCheck a).port = s.port := by
  unfold State.spoilCheck; split
  · split <;> simp
  · rfl

/-- The page slot that was replaced. -/
@[simp] theorem State.setPage_page (i j : Fin 4) (p : PageSlot) :
    (s.setPage i p).page j = if i = j then p else s.page j := by
  unfold State.setPage State.page
  simp [Vector.getElem_set, Fin.ext_iff]

/-- The update slot that was replaced. -/
@[simp] theorem State.setUpdate_update (u v : Fin 15) (x : Option Update) :
    (s.setUpdate u x).update v = if u = v then x else s.update v := by
  unfold State.setUpdate State.update
  simp [Vector.getElem_set, Fin.ext_iff]

/-- A page slot replaced by itself. -/
theorem State.setPage_self (s : State) (i : Fin 4) : s.setPage i (s.page i) = s := by
  unfold State.setPage State.page
  have h : s.pages.set i s.pages[i] = s.pages := by simp
  rw [h]

@[simp] theorem State.setPage_setPage (s : State) (i : Fin 4) (p q : PageSlot) :
    (s.setPage i p).setPage i q = s.setPage i q := by
  unfold State.setPage; simp

end Sys2Proof.Machine
end

