-- ==== Sys2Proof/Laws/Ops.lean ====
section
/-! SUPPORT. What the shared operations can do, said once for each: answers, records and their checks, events, access
faults, the space check and memory's part in them. -/

namespace Sys2Proof.Machine

/-! ## Answers -/

theorem State.agrees_refl (s : State) : s.agrees s := rfl

/-- What follows every command touches only the change marks and the Doze Controller. -/
theorem conclude_agrees (before after : State) : (conclude before after).agrees after := by
  have h : (conclude before after).reporter = { after.reporter with marks := after.reporter.marks ||| changedMarks before after } := by
    unfold conclude; simp
  unfold State.agrees
  rw [h]
  have hd : conclude before after = { after with
      reporter := { after.reporter with marks := after.reporter.marks ||| changedMarks before after }
      doze := (conclude before after).doze } := by
    unfold conclude State.watchDoze State.addMarks
    dsimp only
    split
    · rfl
    · split
      · split <;> rfl
      · rfl
  rw [hd]

/-- Every field but the reporter's marks and the Doze Controller is the command's own. -/
theorem conclude_eq (before after : State) :
    conclude before after = { after with
      reporter := { after.reporter with marks := after.reporter.marks ||| changedMarks before after }
      doze := (conclude before after).doze } := by
  unfold conclude State.watchDoze State.addMarks
  dsimp only
  split
  · rfl
  · split
    · split <;> rfl
    · rfl

/-- A command that proceeds yields the state it proceeds to. -/
theorem yields_of_proceed {c : Instr} {s want : State} (h : exec c s = proceed s want) : Yields c s want :=
  ⟨conclude s want, h, conclude_agrees s want⟩

/-- Two states agree exactly where they differ in the change marks and the Doze Controller alone. -/
theorem State.agrees_iff {t want : State} : t.agrees want ↔
    ∃ m d, t = { want with reporter := { (want.reporter) with marks := m }, doze := d } := by
  unfold State.agrees
  constructor
  · intro h
    exact ⟨t.reporter.marks, t.doze, by rw [← h]⟩
  · rintro ⟨m, d, rfl⟩; rfl

theorem State.agrees_symm {a b : State} (h : a.agrees b) : b.agrees a := by
  rw [State.agrees_iff] at *
  obtain ⟨m, d, rfl⟩ := h
  exact ⟨b.reporter.marks, b.doze, rfl⟩

theorem State.agrees_trans {a b c : State} (h : a.agrees b) (h' : b.agrees c) : a.agrees c := by
  rw [State.agrees_iff] at *
  obtain ⟨m, d, rfl⟩ := h
  obtain ⟨m', d', rfl⟩ := h'
  exact ⟨m, d, rfl⟩

/-- A command that proceeds to a state that agrees with what is wanted yields it. -/
theorem yields_of_agrees {c : Instr} {s x want : State} (h : exec c s = proceed s x) (ha : x.agrees want) :
    Yields c s want :=
  ⟨conclude s x, h, State.agrees_trans (conclude_agrees s x) ha⟩

/-- A command that finds no occasion yields the state as it was. -/
theorem yields_of_noOccasion {c : Instr} {s : State} (h : exec c s = noOccasion s) : Yields c s s :=
  ⟨s, h, s.agrees_refl⟩

/-- One step carries out the command at the front of the queue. -/
theorem step_cons {s : State} {c : Instr} {rest : List Instr} (h : s.pending = c :: rest) :
    step s = exec c { s with pending := rest } := by
  unfold step; rw [h]

/-! ## Records -/

/-- The record taken is the one in hand. -/
theorem State.recordInHand_eq {s : State} {r : Record} (hc : s.composer = .taken) (hq : s.queue.head? = some r) :
    s.recordInHand = some r := by
  unfold State.recordInHand; rw [hc]; exact hq

/-- A record command proceeds to its work on a record that fits it. -/
theorem onRecord_eq {s : State} {r : Record} {k : RecordKind} (h : s.executing r k) {fits : Record → Bool}
    {run : Record → State} (hf : fits r = true) : onRecord s fits run = proceed s (run r) := by
  unfold onRecord
  rw [State.recordInHand_eq h.1 h.2.1]
  simp [hf]

/-- The record in execution is of its kind. -/
theorem State.executing.isKind {s : State} {r : Record} {k : RecordKind} (h : s.executing r k) : r.isKind k = true := by
  unfold Record.isKind; simp [h.2.2]

theorem State.refuse_eq (s : State) (r : Record) (reason : Reason) : s.refuse r reason = s.refused r reason := rfl

theorem State.endExecution_eq (s : State) : s.endExecution = s.ended := rfl

/-- Checks that all pass let the record be carried out. -/
theorem State.checked_pass {s carryOut : State} {r : Record} {checks : List (Bool × Reason)}
    (h : firstFailing checks = none) : s.checked r checks carryOut = carryOut := by
  unfold State.checked; rw [h]

/-- The first check that fails refuses the record. -/
theorem State.checked_fail {s carryOut : State} {r : Record} {checks : List (Bool × Reason)} {reason : Reason}
    (h : firstFailing checks = some reason) : s.checked r checks carryOut = s.refused r reason := by
  unfold State.checked; rw [h]; rfl

@[simp] theorem firstFailing_nil : firstFailing [] = none := rfl

@[simp] theorem firstFailing_cons (b : Bool) (reason : Reason) (rest : List (Bool × Reason)) :
    firstFailing ((b, reason) :: rest) = if b then some reason else firstFailing rest := rfl

/-! ## Events -/

/-- The entry index after one (R153). -/
def nextEntry (n : Nat) : Nat := if n + 1 = Config.eventEntries then 0 else n + 1

/-- The entry that an append fixes (R153). -/
def State.entryOf (s : State) (e : Event) : Entry :=
  { index := s.reporter.nextIndex, words := e.words s.time, enabled := s.tune.classMask.getLsbD e.classOf,
    producedAfter := s.reporter.produced + 1, nextAfter := nextEntry s.reporter.nextIndex }

/-- An event raised while fewer than 240 are outstanding is appended. -/
theorem State.raise_append {s : State} {e : Event} (h : s.reporter.outstanding < Config.eventEntries) :
    s.raise e = { s with reporter :=
      { (s.reporter) with
        produced := s.reporter.produced + 1, nextIndex := nextEntry s.reporter.nextIndex,
        unwritten := s.reporter.unwritten ++ [s.entryOf e] } } := by
  unfold State.raise; simp only [h, if_true]; rfl

/-- An event raised otherwise is dropped and counted. -/
theorem State.raise_drop {s : State} {e : Event} (h : ¬ s.reporter.outstanding < Config.eventEntries) :
    s.raise e = { s with reporter := { (s.reporter) with dropped := sat16 (s.reporter.dropped + 1) } } := by
  unfold State.raise; simp only [h, if_false]

/-- The counts that no event changes. -/
theorem State.raise_kept (s : State) (e : Event) :
    (s.raise e).reporter.consumed = s.reporter.consumed ∧ (s.raise e).reporter.marks = s.reporter.marks ∧
    (s.raise e).reporter.faultCount = s.reporter.faultCount ∧ (s.raise e).reporter.attention = s.reporter.attention := by
  by_cases h : s.reporter.outstanding < Config.eventEntries
  · rw [State.raise_append h]; exact ⟨rfl, rfl, rfl, rfl⟩
  · rw [State.raise_drop h]; exact ⟨rfl, rfl, rfl, rfl⟩

/-- Events raised one after another change nothing but the Reporter. -/
theorem State.raiseAll_eq (es : List Event) : ∀ s : State,
    s.raiseAll es = { s with reporter := (s.raiseAll es).reporter } := by
  induction es with
  | nil => intro s; rfl
  | cons e es ih =>
    intro s
    have h : s.raiseAll (e :: es) = (s.raise e).raiseAll es := rfl
    rw [h, ih]
    by_cases hs : s.reporter.outstanding < Config.eventEntries
    · rw [State.raise_append hs]
    · rw [State.raise_drop hs]

/-- The first access fault since Fault Clear is kept and raised. -/
theorem State.accessFault_first {s : State} {a : BusAddr} {c : FaultCause} (h : s.reporter.faultCount = 0) :
    s.accessFault a c =
      State.raise
        { s with reporter :=
          { (s.reporter) with faultCount := 1, faultAddr := a.setWidth 32, faultCause := some c } }
        (.accessFault (a.setWidth 32) c) := by
  unfold State.accessFault; simp only [h, if_true]

/-- A later access fault is counted. -/
theorem State.accessFault_later {s : State} {a : BusAddr} {c : FaultCause} (h : s.reporter.faultCount ≠ 0) :
    s.accessFault a c =
      { s with reporter := { (s.reporter) with faultCount := sat16 (s.reporter.faultCount + 1) } } := by
  unfold State.accessFault; simp only [h, if_false]

/-! ## The space check -/

/-- The space check raises at most one of its two events, and otherwise changes nothing (R27). -/
theorem State.checkSpace_cases (s : State) :
    s.checkSpace = s ∨
    (s.decoder.lowSpace = true ∧ s.checkSpace =
      State.raise { s with decoder := { (s.decoder) with lowSpace := false } } (.spaceAgain s.usedWords)) ∨
    (s.decoder.lowSpace = false ∧ s.checkSpace =
      State.raise { s with decoder := { (s.decoder) with lowSpace := true } } (.lowSpace s.usedWords)) := by
  unfold State.checkSpace
  cases h : s.decoder.lowSpace <;> simp only [if_true, if_false, Bool.false_eq_true] <;> split_ifs <;> simp

end Sys2Proof.Machine
end

