-- ==== Sys2Proof/Laws/Lists.lean ====
section
/-! SUPPORT. What the walks over lists do, said once: the last candidate of the Pending List, a decision on a request, and
a consideration's walk over entries. -/

namespace Sys2Proof.Machine

/-- A list cut at the last element with a property is that list, and no element after the cut has the property. -/
theorem cutAtLast_some {α : Type} {p : α → Bool} : ∀ {l before : List α} {x : α} {after : List α},
    cutAtLast p l = some (before, x, after) → l = before ++ x :: after ∧ p x = true ∧ ∀ y ∈ after, p y = false := by
  intro l
  induction l with
  | nil => intro _ _ _ h; simp [cutAtLast] at h
  | cons a l ih =>
    intro before x after h
    unfold cutAtLast at h
    split at h
    · rename_i b y c hc
      simp only [Option.some.injEq, Prod.mk.injEq] at h
      obtain ⟨rfl, rfl, rfl⟩ := h
      obtain ⟨h1, h2, h3⟩ := ih hc
      exact ⟨by rw [h1]; rfl, h2, h3⟩
    · rename_i hn
      split at h
      · rename_i ha
        simp only [Option.some.injEq, Prod.mk.injEq] at h
        obtain ⟨rfl, rfl, rfl⟩ := h
        refine ⟨rfl, ha, ?_⟩
        clear ih ha
        induction l with
        | nil => intro y hy; cases hy
        | cons b l ih2 =>
          unfold cutAtLast at hn
          split at hn
          · cases hn
          · rename_i hn2
            split at hn
            · cases hn
            · rename_i hb
              intro y hy
              rcases List.mem_cons.1 hy with rfl | hy
              · simpa using hb
              · exact ih2 hn2 y hy
      · cases h

/-- No element of a list that cannot be cut has the property. -/
theorem cutAtLast_none {α : Type} {p : α → Bool} : ∀ {l : List α}, cutAtLast p l = none ↔ ∀ y ∈ l, p y = false := by
  intro l
  induction l with
  | nil => simp [cutAtLast]
  | cons a l ih =>
    unfold cutAtLast
    split
    · rename_i b y c hc
      constructor
      · intro h; cases h
      · intro h
        have := (cutAtLast_some hc).2.1
        have hy : y ∈ l := by rw [(cutAtLast_some hc).1]; simp
        rw [h y (List.mem_cons_of_mem _ hy)] at this; cases this
    · rename_i hn
      rw [ih] at hn
      cases ha : p a with
      | true =>
        simp only [if_true]
        constructor
        · intro h; cases h
        · intro h; rw [h a (List.mem_cons_self ..)] at ha; cases ha
      | false =>
        simp only [Bool.false_eq_true, if_false, true_iff]
        intro y hy
        rcases List.mem_cons.1 hy with rfl | hy
        · exact ha
        · exact hn y hy

/-- A list whose element has the property, and none after it, is cut there. -/
theorem cutAtLast_eq {α : Type} {p : α → Bool} {x : α} {after : List α} (hx : p x = true)
    (ha : ∀ y ∈ after, p y = false) : ∀ before : List α,
    cutAtLast p (before ++ x :: after) = some (before, x, after) := by
  intro before
  induction before with
  | nil =>
    show cutAtLast p (x :: after) = _
    unfold cutAtLast
    rw [cutAtLast_none.2 ha]
    simp [hx]
  | cons b before ih =>
    show cutAtLast p (b :: (before ++ x :: after)) = _
    unfold cutAtLast
    rw [ih]

/-- A merge keeps the number of entries (R115, R116). -/
theorem mergePending_length {pending merged : List Request} {r : Request} (h : mergePending pending r = some merged) :
    merged.length = pending.length := by
  unfold mergePending at h
  split at h
  · rename_i before p younger hc
    split at h
    · simp only [Option.some.injEq] at h
      subst h
      rw [(cutAtLast_some hc).1]
      simp
    · cases h
  · cases h

/-- A decision on a request ends the commit with a merged or a longer list, or leaves the engine waiting (R115 to
R117). -/
theorem State.decideRequest_cases (s : State) (c : Commit) (r : Request) :
    (∃ pending, mergePending s.commit.pending r = some pending ∧
      s.decideRequest c r = State.endCommit { s with commit := { (s.commit) with pending := pending } } c) ∨
    (mergePending s.commit.pending r = none ∧ s.commit.pending.length < Config.pendingEntries ∧
      s.decideRequest c r = (s.append r).endCommit c) ∨
    (mergePending s.commit.pending r = none ∧ Config.pendingEntries ≤ s.commit.pending.length ∧
      s.decideRequest c r = { s with commit := { (s.commit) with state := .waiting c r } }) := by
  unfold State.decideRequest
  split
  · rename_i pending h; exact .inl ⟨pending, h, rfl⟩
  · rename_i h
    split_ifs with hl
    · exact .inr (.inl ⟨h, hl, rfl⟩)
    · exact .inr (.inr ⟨h, Nat.le_of_not_lt hl, rfl⟩)

/-- What every start keeps, a walk keeps (R126). -/
theorem State.walkEntries_keeps {P : State → Prop}
    (start : ∀ (s : State) (waiting : List Request) (e : Request), P s → s.canStart waiting e = true → P (s.startUpdate e)) :
    ∀ (es : List Request) (s : State) (waiting : List Request), P s → P (s.walkEntries waiting es).1 := by
  intro es
  induction es with
  | nil => intro s waiting h; exact h
  | cons e es ih =>
    intro s waiting h
    unfold State.walkEntries
    split
    · rename_i hc; exact ih _ _ (start s waiting e h hc)
    · exact ih _ _ h

/-- A walk leaves waiting the entries that waited before it, and then some of the entries walked, in their order
(R126). -/
theorem State.walkEntries_waiting : ∀ (es : List Request) (s : State) (waiting : List Request),
    ∃ left, (s.walkEntries waiting es).2 = waiting ++ left ∧ left.Sublist es := by
  intro es
  induction es with
  | nil => intro s waiting; exact ⟨[], by simp [State.walkEntries], List.Sublist.refl _⟩
  | cons e es ih =>
    intro s waiting
    unfold State.walkEntries
    split
    · obtain ⟨left, h1, h2⟩ := ih (s.startUpdate e) waiting
      exact ⟨left, h1, h2.cons e⟩
    · obtain ⟨left, h1, h2⟩ := ih s (waiting ++ [e])
      exact ⟨e :: left, by rw [h1]; simp, h2.cons_cons e⟩

end Sys2Proof.Machine
end

