-- ==== Sys2Proof/Laws/Commits.lean ====
section
/-! SUPPORT. What the ends of commits and discards do, said once: the entry a request merges into, the state in which the
engine has finished with a commit, and the discard that waited for it. -/

namespace Sys2Proof.Machine

/-! ## Merging (R115, R116) -/

/-- The candidates for a request. -/
theorem Request.isCandidate_iff {p r : Request} : p.isCandidate r = true ↔ p.touches r := by
  unfold Request.isCandidate Request.touches Config.commitsPerEntry
  simp [and_assoc]

/-- A list merges a request exactly where it has a youngest candidate that no younger entry keeps from merging. -/
theorem mergePending_eq_some {pending merged : List Request} {r : Request} :
    mergePending pending r = some merged ↔
      ∃ before p younger, mergesInto pending r before p younger ∧ merged = before ++ p.withMerged r :: younger := by
  have no {y : Request} : ¬ y.touches r ↔ y.isCandidate r = false := by
    rw [← Request.isCandidate_iff]; simp
  unfold mergePending
  constructor
  · intro h
    split at h
    · rename_i before p younger hc
      obtain ⟨hl, hp, hy⟩ := cutAtLast_some hc
      split at h
      · rename_i ha
        cases h
        refine ⟨before, p, younger, ⟨hl, Request.isCandidate_iff.1 hp, fun y m => no.2 (hy y m), ?_⟩, rfl⟩
        simpa using ha
      · cases h
    · cases h
  · rintro ⟨before, p, younger, ⟨rfl, hp, hy, ho⟩, rfl⟩
    rw [cutAtLast_eq (p := fun p => p.isCandidate r) (Request.isCandidate_iff.2 hp) (fun y m => no.1 (hy y m))]
    have : younger.all (fun q => !(q.rect.overlaps (p.rect.union r.rect))) = true := by simpa using ho
    simp only [this, if_true]; rfl

/-- A list merges no request that it has no such entry for. -/
theorem mergePending_eq_none {pending : List Request} {r : Request} :
    mergePending pending r = none ↔ ¬ ∃ before p younger, mergesInto pending r before p younger := by
  constructor
  · rintro h ⟨before, p, younger, hm⟩
    have := mergePending_eq_some.2 ⟨before, p, younger, hm, rfl⟩
    rw [h] at this; cases this
  · intro h
    cases hm : mergePending pending r with
    | none => rfl
    | some merged =>
      obtain ⟨before, p, younger, h', _⟩ := mergePending_eq_some.1 hm
      exact absurd ⟨before, p, younger, h'⟩ h

/-! ## Discards (R43, R44) -/

/-- The record in hand is the one in execution. -/
theorem State.discardWaits_iff {s : State} {i : Fin 4} : s.discardWaits i = true ↔ s.awaitsDiscard i := by
  unfold State.discardWaits State.awaitsDiscard State.executing State.recordInHand
  constructor
  · intro h
    split at h
    · rename_i r hr
      split at hr
      · rename_i hc
        simp only [Record.isKind, Bool.and_eq_true, beq_iff_eq, decide_eq_true_eq] at h
        exact ⟨h.2, r, ⟨hc, hr, h.1.1⟩, h.1.2⟩
      · cases hr
    · cases h
  · rintro ⟨ho, r, ⟨hc, hq, hk⟩, hs⟩
    simp [hc, hq, hk, hs, ho, Record.isKind]

/-- An event is raised alike in states that agree in the Reporter, the tunable limits and the time. -/
theorem State.raise_reporter {s t : State} {e : Event} (hr : t.reporter = s.reporter) (ht : t.tune = s.tune)
    (hw : t.time = s.time) : (t.raise e).reporter = (s.raise e).reporter := by
  unfold State.raise
  simp only [hr, ht, hw]
  split <;> rfl

/-- So are events raised one after another. -/
theorem State.raiseAll_reporter {es : List Event} : ∀ {s t : State}, t.reporter = s.reporter → t.tune = s.tune →
    t.time = s.time → (t.raiseAll es).reporter = (s.raiseAll es).reporter := by
  induction es with
  | nil => intro s t h _ _; exact h
  | cons e es ih =>
    intro s t hr ht hw
    exact ih (State.raise_reporter hr ht hw) (by simpa using ht) (by simpa using hw)

/-- What a discard that takes effect leaves (R44, R119). -/
theorem State.discardPage_eq (s : State) (i : Fin 4) : (s.discardPage i).endExecution = s.discarded i := by
  have hg : ∀ e : Request, decide (e.source = some i) = (e.source == some i) := fun e => by
    by_cases h : e.source = some i <;> simp [h]
  unfold State.discardPage State.cancelPage State.discarded cancelEvents
  simp only [hg]
  rw [State.raiseAll_eq, State.raiseAll_eq (s := s)]
  split
  · rename_i h
    simp [h, State.endExecution, State.setPage, State.dropNotes]
    exact ⟨rfl, rfl, State.raiseAll_reporter rfl rfl rfl⟩
  · rename_i h
    simp [h, State.endExecution, State.setPage, State.dropNotes, State.callConsideration]
    exact ⟨rfl, rfl, State.raiseAll_reporter rfl rfl rfl⟩

/-! ## The end of a commit (R118) -/

/-- The engine has finished with the commit before a waiting discard is looked at. -/
theorem State.endCommit_eq (s : State) (c : Commit) :
    s.endCommit c =
      match c.origin.slot with
      | some i => (s.leftBy c s.commit.pending).takeWaitingDiscard i
      | none => s.leftBy c s.commit.pending := by
  unfold State.endCommit State.leftBy Origin.slot
  split
  · rename_i i hi
    have hp : ((s.page i).leaveCommit s.tune.latencyLimit) =
        { s.page i with
          inCommit := false
          latency := if (s.page i).live = true ∧ (s.page i).dirty ≠ 0 ∧ (s.page i).latency = none then
            some s.tune.latencyLimit else (s.page i).latency } := by
      unfold PageSlot.leaveCommit PageSlot.hasDirty
      simp [Bool.and_eq_true, and_assoc]
    rw [hp]
    cases ho : c.origin with
    | pageCommit j tag => simp only [ho] at hi; cases hi; rfl
    | auto j => simp only [ho] at hi; cases hi; rfl
    | refresh => simp [ho] at hi
  · rename_i hi
    cases ho : c.origin with
    | pageCommit j tag => simp [ho] at hi
    | auto j => simp [ho] at hi
    | refresh => rfl

/-- With no discard waiting, that is all. -/
theorem State.endCommit_left {s : State} {c : Commit} (h : s.noDiscardWaits c) :
    s.endCommit c = s.leftBy c s.commit.pending := by
  rw [State.endCommit_eq]
  split
  · rename_i i hi
    unfold State.takeWaitingDiscard
    rw [if_neg]
    intro hw
    obtain ⟨ho, r, ⟨hc, hq, hk⟩, hs⟩ := State.discardWaits_iff.1 hw
    refine h i hi ⟨?_, r, ⟨?_, hq, hk⟩, hs⟩
    · simpa [State.leftBy, hi, State.page, PageSlot.isOpen] using ho
    · unfold State.leftBy at hc
      cases hor : c.origin <;> simp [hor] at hc
      exact hc
  · rfl

/-- A discard that waits for an auto-commit takes effect at its end (R43). -/
theorem State.endCommit_discard {s : State} {c : Commit} {i : Fin 4} (ho : c.origin = .auto i) (h : s.awaitsDiscard i) :
    s.endCommit c = (s.leftBy c s.commit.pending).discarded i := by
  rw [State.endCommit_eq]
  have hi : c.origin.slot = some i := by rw [ho]; rfl
  simp only [hi]
  unfold State.takeWaitingDiscard
  rw [if_pos, State.discardPage_eq]
  rw [State.discardWaits_iff]
  obtain ⟨hop, r, ⟨hc, hq, hk⟩, hs⟩ := h
  refine ⟨?_, r, ⟨?_, hq, hk⟩, hs⟩
  · simpa [State.leftBy, hi, State.page, PageSlot.isOpen] using hop
  · simp [State.leftBy, ho, hc]

/-! ## The decision on a request in hand (R115 to R117) -/

/-- A request that merges ends the commit with the list it is merged into. -/
theorem State.decideRequest_merge {s : State} {c : Commit} {r : Request} {merged : List Request}
    (h : mergePending s.commit.pending r = some merged) :
    s.decideRequest c r = State.endCommit { s with commit := { (s.commit) with pending := merged } } c := by
  unfold State.decideRequest; rw [h]

/-- A request that does not merge is appended where the list has room. -/
theorem State.decideRequest_append {s : State} {c : Commit} {r : Request} (h : mergePending s.commit.pending r = none)
    (hl : s.commit.pending.length < 32) : s.decideRequest c r = (s.append r).endCommit c := by
  unfold State.decideRequest; rw [h]; exact if_pos hl

/-- A request that does not merge waits where the list is full. -/
theorem State.decideRequest_wait {s : State} {c : Commit} {r : Request} (h : mergePending s.commit.pending r = none)
    (hl : 32 ≤ s.commit.pending.length) :
    s.decideRequest c r = { s with commit := { (s.commit) with state := .waiting c r } } := by
  unfold State.decideRequest; rw [h]; exact if_neg (Nat.not_lt.2 hl)

/-- The engine that has appended a request leaves it at the end of the list and calls for a consideration. -/
theorem State.append_left (s : State) (c : Commit) (r : Request) :
    ((s.append r).leftBy c (s.append r).commit.pending).agrees
      { (s.leftBy c (s.commit.pending ++ [r])) with updates := { (s.updates) with due := true } } :=
  State.agrees_iff.2 ⟨_, _, rfl⟩

end Sys2Proof.Machine
end

