-- ==== Sys2Proof/Laws/Layout.lean ====
section
/-! SUPPORT. What the Layout Engine's shared operations do: the walk of a word's glyphs, its fit, its log entry, a word
broken glyph by glyph, and the placing of a word (R73 to R84). -/

namespace Sys2Proof.Machine

/-! ## The walk of a word -/

/-- Glyphs in the word buffer, looked up and drawn, with their indices from a first one on. -/
def bufferFrom : Nat → List Glyph → List BufGlyph
  | _, [] => []
  | n, g :: gs => { index := n, glyph := g, drawn := true } :: bufferFrom (n + 1) gs

@[simp] theorem bufferFrom_glyphs (gs : List Glyph) : ∀ n, (bufferFrom n gs).map (·.glyph) = gs := by
  induction gs with
  | nil => intro n; rfl
  | cons g gs ih => intro n; simp [bufferFrom, ih]

theorem bufferFrom_append (gs hs : List Glyph) : ∀ n,
    bufferFrom n (gs ++ hs) = bufferFrom n gs ++ bufferFrom (n + gs.length) hs := by
  induction gs with
  | nil => intro n; rfl
  | cons g gs ih => intro n; simp [bufferFrom, ih, Nat.add_comm, Nat.add_left_comm]

theorem penAfter_eq (pen : Nat) (g : Glyph) (tracking : Int) :
    penAfter pen g tracking = min 65535 (pen + ((g.advance : Int) + tracking).toNat) := by
  show min _ 65535 = _
  rw [Nat.min_comm]; rfl

@[simp] theorem penAt_zero (t : Int) (start : Nat) (gs : List Glyph) : penAt t start gs 0 = start := by
  cases gs <;> rfl

@[simp] theorem penAt_cons (t : Int) (start k : Nat) (g : Glyph) (gs : List Glyph) :
    penAt t start (g :: gs) (k + 1) = penAt t (penAfter start g t) gs k := by
  rw [penAfter_eq]; rfl

/-- The pen after some glyphs and one more. -/
theorem penAt_append (t : Int) (g : Glyph) (rest : List Glyph) : ∀ (gs : List Glyph) (start : Nat),
    penAt t start (gs ++ g :: rest) (gs.length + 1) = penAfter (penAt t start gs gs.length) g t := by
  intro gs
  induction gs with
  | nil => intro start; simp
  | cons h gs ih => intro start; simp [ih]

/-- The pen at a glyph rests on the glyphs before it. -/
theorem penAt_prefix (t : Int) (rest : List Glyph) : ∀ (gs : List Glyph) (start k : Nat), k ≤ gs.length →
    penAt t start (gs ++ rest) k = penAt t start gs k := by
  intro gs
  induction gs with
  | nil => intro start k h; have : k = 0 := by simpa using h
           subst this; simp
  | cons g gs ih =>
    intro start k h
    cases k with
    | zero => simp
    | succ k => simp only [List.cons_append, penAt_cons]; exact ih _ _ (by simpa using h)

theorem penAfterWord_eq (t : Int) (gs : List BufGlyph) : ∀ start,
    penAfterWord t start gs = penAt t start (gs.map (·.glyph)) gs.length := by
  induction gs with
  | nil => intro start; rfl
  | cons g gs ih => intro start; simp only [List.map_cons, List.length_cons, penAt_cons]; exact ih _

/-- The walk pairs each glyph with the pen at it. -/
theorem walkWord_get (t : Int) (gs : List BufGlyph) : ∀ (start k : Nat),
    (walkWord t start gs)[k]? =
      gs[k]?.map (fun g => { g := g, pen := penAt t start (gs.map (·.glyph)) k }) := by
  induction gs with
  | nil => intro start k; simp [walkWord]
  | cons g gs ih =>
    intro start k
    cases k with
    | zero => simp [walkWord]
    | succ k => simp only [walkWord, List.getElem?_cons_succ, ih, List.map_cons, penAt_cons]

theorem walkWord_length (t : Int) (gs : List BufGlyph) : ∀ start, (walkWord t start gs).length = gs.length := by
  induction gs with
  | nil => intro start; rfl
  | cons g gs ih => intro start; simp [walkWord, ih]

theorem walkWord_append (t : Int) (g : BufGlyph) : ∀ (gs : List BufGlyph) (start : Nat),
    walkWord t start (gs ++ [g]) =
      walkWord t start gs ++ [{ g := g, pen := penAt t start (gs.map (·.glyph)) gs.length }] := by
  intro gs
  induction gs with
  | nil => intro start; simp [walkWord]
  | cons h gs ih => intro start; simp [walkWord, ih]

theorem pastOf_eq (pen : Nat) (g : Glyph) : pastOf pen g = extent pen g := rfl
theorem leftOf_eq (pen : Nat) (g : Glyph) : leftOf pen g = leftPixel pen g := rfl

/-- A word fits exactly where no extent exceeds the column's right (R74). -/
theorem wordFits_iff (c : Column) (start : Nat) (gs : List BufGlyph) :
    wordFits c start gs = true ↔ fitsFrom c start (gs.map (·.glyph)) := by
  unfold wordFits fitsFrom
  simp only [List.all_eq_true, decide_eq_true_eq, pastOf_eq]
  constructor
  · intro h k g hg
    rw [List.getElem?_map, Option.map_eq_some_iff] at hg
    obtain ⟨x, hx, rfl⟩ := hg
    exact h { g := x, pen := penAt c.tracking start (gs.map (·.glyph)) k }
      (List.mem_of_getElem? (by rw [walkWord_get, hx]; rfl))
  · intro h x hx
    obtain ⟨k, hk⟩ := List.mem_iff_getElem?.1 hx
    rw [walkWord_get, Option.map_eq_some_iff] at hk
    obtain ⟨g, hg, rfl⟩ := hk
    exact h k g.glyph (by rw [List.getElem?_map, hg]; rfl)

/-! ## The log entry of a word -/

theorem smallest_spec (xs : List Int) : ∀ x, (smallest x xs ≤ x ∧ ∀ y ∈ xs, smallest x xs ≤ y) ∧
    (smallest x xs = x ∨ smallest x xs ∈ xs) := by
  unfold smallest
  induction xs with
  | nil => intro x; simp
  | cons a xs ih =>
    intro x
    simp only [List.foldl_cons]
    obtain ⟨⟨h1, h2⟩, h3⟩ := ih (min x a)
    refine ⟨⟨by omega, ?_⟩, ?_⟩
    · intro y hy
      rcases List.mem_cons.1 hy with rfl | hy
      · omega
      · exact h2 y hy
    · rcases h3 with h3 | h3
      · rcases le_total x a with h | h
        · exact .inl (h3.trans (min_eq_left h))
        · exact .inr (by rw [h3, min_eq_right h]; simp)
      · exact .inr (List.mem_cons_of_mem _ h3)

theorem largest_spec (xs : List Int) : ∀ x, (x ≤ largest x xs ∧ ∀ y ∈ xs, y ≤ largest x xs) ∧
    (largest x xs = x ∨ largest x xs ∈ xs) := by
  unfold largest
  induction xs with
  | nil => intro x; simp
  | cons a xs ih =>
    intro x
    simp only [List.foldl_cons]
    obtain ⟨⟨h1, h2⟩, h3⟩ := ih (max x a)
    refine ⟨⟨by omega, ?_⟩, ?_⟩
    · intro y hy
      rcases List.mem_cons.1 hy with rfl | hy
      · omega
      · exact h2 y hy
    · rcases h3 with h3 | h3
      · rcases le_total x a with h | h
        · exact .inr (by rw [h3, max_eq_right h]; simp)
        · exact .inl (h3.trans (max_eq_left h))
      · exact .inr (List.mem_cons_of_mem _ h3)

/-- The entry of a word or segment walked from a pen tells of its glyphs (R83). -/
theorem logEntryOf_tells {run : Run} {r : Record} {c : Column} {start baseline first : Nat} {glyphs : List Glyph}
    (h1 : run.runId = r.runId) (h2 : run.column = r.runColumn) (h3 : run.font = r.runFont) (hne : glyphs ≠ []) :
    (logEntryOf run (walkWord c.tracking start (bufferFrom first glyphs)) baseline).tells r c first start baseline
      glyphs := by
  obtain ⟨g, gs, rfl⟩ := List.exists_cons_of_ne_nil hne
  have hmem : ∀ (k : Nat) (x : Glyph), (g :: gs)[k]? = some x →
      { g := { index := first + k, glyph := x, drawn := true }, pen := penAt c.tracking start (g :: gs) k } ∈
        walkWord c.tracking start (bufferFrom first (g :: gs)) := by
    intro k x hx
    have hb : ∀ (l : List Glyph) (n k : Nat) (x : Glyph), l[k]? = some x →
        (bufferFrom n l)[k]? = some { index := n + k, glyph := x, drawn := true } := by
      intro l
      induction l with
      | nil => intro n k x h; simp at h
      | cons a l ih =>
        intro n k x h
        cases k with
        | zero => simp at h; simp [bufferFrom, h]
        | succ k => simp only [List.getElem?_cons_succ] at h; simp [bufferFrom, ih _ _ _ h, Nat.add_comm, Nat.add_left_comm]
    refine List.mem_of_getElem? (i := k) ?_
    rw [walkWord_get, hb _ _ _ _ hx, bufferFrom_glyphs]; rfl
  have hmem' : ∀ x ∈ walkWord c.tracking start (bufferFrom first (g :: gs)), ∃ (k : Nat) (y : Glyph),
      (g :: gs)[k]? = some y ∧ x.g.glyph = y ∧ x.pen = penAt c.tracking start (g :: gs) k := by
    intro x hx
    obtain ⟨k, hk⟩ := List.mem_iff_getElem?.1 hx
    rw [walkWord_get, Option.map_eq_some_iff] at hk
    obtain ⟨y, hy, rfl⟩ := hk
    rw [bufferFrom_glyphs]
    refine ⟨k, y.glyph, ?_, rfl, rfl⟩
    have := congrArg (fun l => l[k]?) (bufferFrom_glyphs (g :: gs) first)
    simp only [List.getElem?_map, hy] at this
    exact this.symm
  have hl := smallest_spec ((walkWord c.tracking start (bufferFrom first (g :: gs))).map (fun x => leftPixel x.pen x.g.glyph))
    (((walkWord c.tracking start (bufferFrom first (g :: gs))).map (fun x => leftPixel x.pen x.g.glyph)).headD 0)
  have hr := largest_spec ((walkWord c.tracking start (bufferFrom first (g :: gs))).map (fun x => extent x.pen x.g.glyph))
    (((walkWord c.tracking start (bufferFrom first (g :: gs))).map (fun x => extent x.pen x.g.glyph)).headD 0)
  refine ⟨h1, rfl, ?_, h2, rfl, h3, ?_, ?_, ?_⟩
  · show (walkWord _ _ _).length = _
    rw [walkWord_length, ← List.length_map (f := (·.glyph)), bufferFrom_glyphs]
  · intro k x hx
    exact ⟨hl.1.2 _ (List.mem_map_of_mem (f := fun x : SetGlyph => leftPixel x.pen x.g.glyph) (hmem k x hx)),
      hr.1.2 _ (List.mem_map_of_mem (f := fun x : SetGlyph => extent x.pen x.g.glyph) (hmem k x hx))⟩
  · have : ∃ x ∈ walkWord c.tracking start (bufferFrom first (g :: gs)),
        leftPixel x.pen x.g.glyph =
          (logEntryOf run (walkWord c.tracking start (bufferFrom first (g :: gs))) baseline).xLeft := by
      rcases hl.2 with h | h
      · exact ⟨_, List.mem_cons_self, h.symm⟩
      · exact List.mem_map.1 h
    obtain ⟨x, hx, he⟩ := this
    obtain ⟨k, y, hy, rfl, hp⟩ := hmem' x hx
    exact ⟨k, _, hy, by rw [← he, hp]; rfl⟩
  · have : ∃ x ∈ walkWord c.tracking start (bufferFrom first (g :: gs)),
        extent x.pen x.g.glyph =
          (logEntryOf run (walkWord c.tracking start (bufferFrom first (g :: gs))) baseline).xRight := by
      rcases hr.2 with h | h
      · exact ⟨_, List.mem_cons_self, h.symm⟩
      · exact List.mem_map.1 h
    obtain ⟨x, hx, he⟩ := this
    obtain ⟨k, y, hy, rfl, hp⟩ := hmem' x hx
    exact ⟨k, _, hy, by rw [← he, hp]; rfl⟩

/-! ## Breaking a word -/

/-- What breaking a word does from a line that holds a row of its glyphs on (R77): the segments logged are those of
`Breaks`, and the cursor and the overflow are its ends. -/
theorem breakWord_breaks {run : Run} {r : Record} {c : Column} {descent : Nat} (h1 : run.runId = r.runId)
    (h2 : run.column = r.runColumn) (h3 : run.font = r.runFont) (gs : List Glyph) :
    ∀ (k : Cursor) (row : List Glyph) (first : Nat), row ≠ [] → k.full = false → k.lineHolds = true →
      k.pendingSpace = 0 → k.pen = penAt c.tracking (c.left * 16) row row.length →
      (∀ (n : Nat) (g : Glyph), 1 ≤ n → row[n]? = some g →
        pastOf (penAt c.tracking (c.left * 16) row n) g ≤ c.right) →
      let p := breakWord c descent k (walkWord c.tracking (c.left * 16) (bufferFrom first row))
        (bufferFrom (first + row.length) gs)
      ∃ pen last, Breaks r c descent first k.baseline (row ++ gs) (p.segments.map (fun x => logEntryOf run x.1 x.2)) pen
          last p.overflow ∧
        p.cursor = { pen := pen, baseline := last, full := p.overflow.isSome, lineHolds := p.overflow.isNone,
                     pendingSpace := 0 } := by
  induction gs with
  | nil =>
    intro k row first hne hf hl hs hp hfit
    refine ⟨penAt c.tracking (c.left * 16) row row.length, k.baseline, ?_, ?_⟩
    · have he : (walkWord c.tracking (c.left * 16) (bufferFrom first row)).isEmpty = false := by
        obtain ⟨g, gs, rfl⟩ := List.exists_cons_of_ne_nil hne
        rfl
      simp only [bufferFrom, breakWord, he, Bool.false_eq_true, if_false, List.map_cons, List.map_nil, List.append_nil]
      exact .last hne hfit (logEntryOf_tells h1 h2 h3 hne)
    · cases k; simp only [bufferFrom, breakWord] at *; simp_all
  | cons g gs ih =>
    intro k row first hne hf hl hs hp hfit
    have he : (walkWord c.tracking (c.left * 16) (bufferFrom first row)).isEmpty = false := by
      obtain ⟨g, gs, rfl⟩ := List.exists_cons_of_ne_nil hne
      rfl
    simp only [bufferFrom, breakWord, he, Bool.not_false, Bool.true_and]
    by_cases hx : (c.right : Int) < extent k.pen g
    · simp only [hx, decide_true, if_true]
      by_cases hfoot : c.bottom < k.baseline + c.pitch + descent
      · have hk : lineBreak c descent k =
            { pen := c.left * 16, baseline := k.baseline + c.pitch, full := true, lineHolds := false, pendingSpace := 0 } := by
          unfold lineBreak verticalCheck; rw [if_pos hfoot]
        rw [hk]
        refine ⟨c.left * 16, k.baseline + c.pitch, ?_, rfl⟩
        exact .foot hne hfit (by rw [← hp]; exact hx) (logEntryOf_tells h1 h2 h3 hne) hfoot
      · have hk : lineBreak c descent k =
            { pen := c.left * 16, baseline := k.baseline + c.pitch, full := false, lineHolds := false, pendingSpace := 0 } := by
          unfold lineBreak verticalCheck; rw [if_neg hfoot, hf]
        rw [hk]
        simp only [Bool.false_eq_true, if_false]
        obtain ⟨pen, last, hb, hc⟩ := ih
          { pen := penAfter (c.left * 16) g c.tracking, baseline := k.baseline + c.pitch, full := false,
            lineHolds := true, pendingSpace := 0 } [g] (first + row.length) (by simp) rfl rfl rfl (by simp)
          (by intro n x hn hx; cases n with
              | zero => omega
              | succ n => simp at hx)
        exact ⟨pen, last, .next hne hfit (by rw [← hp]; exact hx) (logEntryOf_tells h1 h2 h3 hne) (by omega) hb, hc⟩
    · simp only [hx, decide_false, Bool.false_eq_true, if_false]
      have := ih
          { pen := penAfter k.pen g c.tracking, baseline := k.baseline, full := k.full,
            lineHolds := true, pendingSpace := k.pendingSpace } (row ++ [g]) first (by simp) hf rfl hs
          (by
            simp only [List.length_append, List.length_singleton]
            rw [penAt_append, hp])
          (by
            intro n x hn hx'
            rcases Nat.lt_or_ge n row.length with h | h
            · rw [List.getElem?_append_left h] at hx'
              rw [penAt_prefix _ _ _ _ _ (by omega)]
              exact hfit n x hn hx'
            · rw [List.getElem?_append_right h] at hx'
              have h0 : n - row.length = 0 := by
                by_contra hne'
                rw [List.getElem?_eq_none (by simp; omega)] at hx'; cases hx'
              rw [h0] at hx'
              simp at hx'; subst hx'
              have : n = row.length := by omega
              subst this
              rw [penAt_prefix _ _ _ _ _ (by omega), ← hp]
              exact not_lt.1 hx)
      obtain ⟨pen, last, hb, hc⟩ := this
      have hone : bufferFrom (first + row.length) [g] = [{ index := first + row.length, glyph := g, drawn := true }] :=
        rfl
      rw [bufferFrom_append, hone, walkWord_append, bufferFrom_glyphs] at hb hc
      have hlen : (bufferFrom first row).length = row.length := by
        rw [← List.length_map (f := (·.glyph)), bufferFrom_glyphs]
      rw [hlen, ← hp] at hb hc
      simp only [List.length_append, List.length_singleton, ← Nat.add_assoc] at hb hc
      rw [List.append_assoc] at hb
      exact ⟨pen, last, hb, hc⟩

/-- A word broken from the column's left, on a line without glyphs (R77). -/
theorem breakWord_start {run : Run} {r : Record} {c : Column} {descent : Nat} (h1 : run.runId = r.runId)
    (h2 : run.column = r.runColumn) (h3 : run.font = r.runFont) {glyphs : List Glyph} {k : Cursor}
    (hne : glyphs ≠ []) (hf : k.full = false) (hs : k.pendingSpace = 0) (hp : k.pen = c.left * 16) :
    let p := breakWord c descent k [] (bufferFrom 0 glyphs)
    ∃ pen last, Breaks r c descent 0 k.baseline glyphs (p.segments.map (fun x => logEntryOf run x.1 x.2)) pen last
        p.overflow ∧
      p.cursor = { pen := pen, baseline := last, full := p.overflow.isSome, lineHolds := p.overflow.isNone,
                   pendingSpace := 0 } := by
  obtain ⟨g, gs, rfl⟩ := List.exists_cons_of_ne_nil hne
  obtain ⟨pen, last, hb, hc⟩ := breakWord_breaks h1 h2 h3 gs (descent := descent) (c := c)
    { pen := penAfter k.pen g c.tracking, baseline := k.baseline, full := k.full, lineHolds := true,
      pendingSpace := k.pendingSpace } [g] 0 (by simp) hf rfl hs (by simp [hp])
    (by intro n x hn hx; cases n with
        | zero => omega
        | succ n => simp at hx)
  rw [show walkWord c.tracking (c.left * 16) (bufferFrom 0 [g]) =
    [{ g := { index := 0, glyph := g, drawn := true }, pen := k.pen }] from by rw [hp]; rfl] at hb hc
  exact ⟨pen, last, hb, hc⟩

/-! ## Placing a word (R75 to R77) -/

/-- A word that fits is set whole: its cursor and its one segment. -/
theorem setWhole_eq (c : Column) (k : Cursor) (start : Nat) (glyphs : List Glyph) :
    setWhole c k start (bufferFrom 0 glyphs) =
      { cursor := { k with pen := penAt c.tracking start glyphs glyphs.length, pendingSpace := 0, lineHolds := true }
        glyphs := (walkWord c.tracking start (bufferFrom 0 glyphs)).map (fun x => (x, k.baseline))
        segments := [(walkWord c.tracking start (bufferFrom 0 glyphs), k.baseline)], overflow := none } := by
  unfold setWhole
  rw [penAfterWord_eq, bufferFrom_glyphs]
  have : (bufferFrom 0 glyphs).length = glyphs.length := by
    rw [← List.length_map (f := (·.glyph)), bufferFrom_glyphs]
  rw [this]

/-- The lines of placeWord: the first that can take the word, from the cursor (R75, R76). -/
theorem placeWord_eq {c : Column} {descent : Nat} {k : Cursor} {glyphs : List Glyph} (hne : glyphs ≠ [])
    (hf : k.full = false) :
    let word := bufferFrom 0 glyphs
    let left := c.left * 16
    let next := k.baseline + c.pitch
    let start := if k.lineHolds = true then min 65535 (k.pen + k.pendingSpace) else k.pen
    let foot (baseline : Nat) : Prop := c.bottom < baseline + descent
    let fresh : Cursor := { pen := left, baseline := next, full := false, lineHolds := false, pendingSpace := 0 }
    (k.lineHolds = false → foot k.baseline →
      placeWord c descent k word = overflowAt { k with full := true, pendingSpace := 0 } 0) ∧
    (k.lineHolds = true ∨ ¬ foot k.baseline → fitsFrom c start glyphs →
      placeWord c descent k word = setWhole c { k with pendingSpace := 0 } start word) ∧
    (k.lineHolds = true ∨ (¬ foot k.baseline ∧ left < k.pen) → ¬ fitsFrom c start glyphs →
      (foot next → placeWord c descent k word = overflowAt { fresh with full := true } 0) ∧
      (¬ foot next → fitsFrom c left glyphs → placeWord c descent k word = setWhole c fresh left word) ∧
      (¬ foot next → ¬ fitsFrom c left glyphs → placeWord c descent k word = breakWord c descent fresh [] word)) ∧
    (k.lineHolds = false → ¬ foot k.baseline → k.pen = left → ¬ fitsFrom c left glyphs →
      placeWord c descent k word = breakWord c descent { k with pendingSpace := 0 } [] word) := by
  intro word left next start foot fresh
  have hpw : placeWord c descent k word =
      if k.lineHolds = true then
        (if wordFits c (sat16 (k.pen + k.pendingSpace)) word = true then
          setWhole c k (sat16 (k.pen + k.pendingSpace)) word
         else if (lineBreak c descent k).full = true then overflowAt (lineBreak c descent k) 0
         else placeOnEmpty c descent (lineBreak c descent k) word 0)
      else placeOnEmpty c descent k word 0 := by
    obtain ⟨g, gs, rfl⟩ := List.exists_cons_of_ne_nil hne; rfl
  have hw : ∀ x, wordFits c x word = true ↔ fitsFrom c x glyphs := by
    intro x; rw [wordFits_iff, bufferFrom_glyphs]
  have hw' : ∀ x, ¬ fitsFrom c x glyphs → wordFits c x word = false := by
    intro x h; rw [Bool.eq_false_iff]; exact fun hh => h ((hw x).1 hh)
  have hbreak : lineBreak c descent k =
      if c.bottom < next + descent then { fresh with full := true } else fresh := by
    unfold lineBreak verticalCheck; simp only [hf]; split <;> simp_all [next, fresh, left]
  have hempty : ∀ x, ¬ foot next → placeOnEmpty c descent fresh word x =
      if wordFits c left word then setWhole c fresh left word else breakWord c descent fresh [] word := by
    intro x hx
    have hv : verticalCheck c descent { fresh with pendingSpace := 0 } = fresh := by
      unfold verticalCheck; rw [if_neg hx]
    unfold placeOnEmpty
    simp only [hv, fresh, Bool.false_eq_true, if_false, left, Nat.lt_irrefl]
  have hleft : ∀ x, ¬ foot next → placeAtLeft c descent fresh word x =
      if wordFits c left word then setWhole c fresh left word else breakWord c descent fresh [] word := by
    intro x hx
    have hv : verticalCheck c descent { fresh with pendingSpace := 0 } = fresh := by
      unfold verticalCheck; rw [if_neg hx]
    unfold placeAtLeft
    simp only [hv, fresh, Bool.false_eq_true, if_false, left]
  have hok : ¬ foot k.baseline → verticalCheck c descent { k with pendingSpace := 0 } = { k with pendingSpace := 0 } := by
    intro h; unfold verticalCheck; rw [if_neg h]
  refine ⟨?_, ?_, ?_, ?_⟩
  · intro hl hfo
    have hv : verticalCheck c descent { k with pendingSpace := 0 } = { k with full := true, pendingSpace := 0 } := by
      unfold verticalCheck; rw [if_pos hfo]
    rw [hpw, hl]
    unfold placeOnEmpty
    rw [hv]
    simp [overflowAt, hl]
  · intro hor hfit
    rw [hpw]
    by_cases hl : k.lineHolds = true
    · have hs : start = sat16 (k.pen + k.pendingSpace) := by
        simp only [start, hl, if_true]; rw [Nat.min_comm]; rfl
      rw [if_pos hl, ← hs, if_pos ((hw _).2 hfit)]
      unfold setWhole; rfl
    · have hs : start = k.pen := by simp only [start, hl, if_false, Bool.false_eq_true]
      rw [if_neg hl]
      unfold placeOnEmpty
      rw [hok (hor.resolve_left hl)]
      simp only [hf, Bool.false_eq_true, if_false]
      rw [← hs, if_pos ((hw _).2 hfit)]
  · intro hor hno
    have key : placeWord c descent k word =
        if c.bottom < next + descent then overflowAt { fresh with full := true } 0
        else if wordFits c left word then setWhole c fresh left word else breakWord c descent fresh [] word := by
      rw [hpw]
      by_cases hl : k.lineHolds = true
      · have hs : start = sat16 (k.pen + k.pendingSpace) := by
          simp only [start, hl, if_true]; rw [Nat.min_comm]; rfl
        rw [if_pos hl, ← hs, hw' _ hno]
        simp only [Bool.false_eq_true, if_false, hbreak]
        split
        · rfl
        · rename_i h; exact hempty 0 h
      · have hs : start = k.pen := by simp only [start, hl, if_false, Bool.false_eq_true]
        obtain ⟨ho, hlt⟩ := hor.resolve_left hl
        rw [if_neg hl]
        unfold placeOnEmpty
        rw [hok ho]
        simp only [hf, Bool.false_eq_true, if_false]
        rw [← hs, hw' _ hno]
        simp only [Bool.false_eq_true, if_false]
        rw [if_pos (by rw [hs]; exact hlt)]
        have hb : lineBreak c descent
            { pen := start, baseline := k.baseline, full := false, lineHolds := k.lineHolds, pendingSpace := 0 } =
              lineBreak c descent k := by
          unfold lineBreak; simp only [hf]
        rw [hb, hbreak]
        split
        · rfl
        · rename_i h; exact hleft 0 h
    refine ⟨fun h => by rw [key, if_pos h], fun h h' => by rw [key, if_neg h, if_pos ((hw _).2 h')], fun h h' => ?_⟩
    rw [key, if_neg h, hw' _ h']; simp
  · intro hl ho hp hno
    rw [hpw, hl]
    simp only [Bool.false_eq_true, if_false]
    unfold placeOnEmpty
    rw [hok ho]
    simp only [hf, hl, Bool.false_eq_true, if_false, hp]
    rw [hw' _ hno]
    simp [left]

/-! ## Reading a word's codes -/

/-- A search that hits moves its entry to the most recent place and changes no other search (R61). -/
theorem cacheFind_touch {cache : List CacheEntry} {f : Fin 8} {code : Nat} {e : CacheEntry}
    (h : cacheFind cache f code = some e) (f' : Fin 8) (code' : Nat) :
    cacheFind (cacheTouch cache e) f' code' = cacheFind cache f' code' := by
  have hk : e.font = f ∧ e.code = code := by
    have := List.find?_some h
    simpa using this
  unfold cacheFind cacheTouch at *
  by_cases hm : e.font = f' ∧ e.code = code'
  · obtain ⟨rfl, rfl⟩ := hm
    rw [List.find?_cons_of_pos (by simp), hk.1, hk.2, h]
  · rw [List.find?_cons_of_neg (by simpa using hm), List.find?_filter]
    congr 1
    funext x
    by_cases hx : x.font = f' ∧ x.code = code'
    · have h1 : (x.font == e.font && x.code == e.code) = false := by
        by_contra h1
        simp only [Bool.not_eq_false, Bool.and_eq_true, beq_iff_eq] at h1
        exact hm ⟨h1.1.symm.trans hx.1, h1.2.symm.trans hx.2⟩
      rw [h1]; simp [hx]
    · have h1 : (x.font == f' && x.code == code') = false := by
        by_contra h1
        exact hx (by simpa using h1)
      simp [h1]

/-- An ordinary code that hits in the cache with a good entry is read, and its glyph joins the buffer (R58, R70). -/
theorem State.runOn_glyph {s : State} {run : Run} {b : Font} {code : BitVec 16} {rest : List (BitVec 16)}
    {e : CacheEntry} (n : Nat) (hf : s.font run.font = some b) (hb : run.blits = []) (hl : run.lookup = none)
    (ha : run.acts = []) (hc : run.codes = code :: rest) (hlt : code.toNat < b.count)
    (hs : ∀ special ∈ [b.space, b.hyphen, b.newline], special ≠ 0xFFFF → code ≠ special)
    (he : cacheFind s.cache run.font code.toNat = some e) (hg : e.bad = false) (hroom : run.buffer.length < 64) :
    State.runOn (n + 2) s run =
      State.runOn n { s with cache := cacheTouch s.cache e }
        { run with
          codes := rest, index := run.index + 1
          buffer := run.buffer ++ [{ index := run.index, glyph := e.glyph, drawn := true }] } := by
  have hn : ¬ (b.newline ≠ 0xFFFF ∧ code = b.newline) := fun h => hs _ (by simp) h.1 h.2
  have hsp : (b.space != 0xFFFF && code == b.space) = false := by
    by_contra h
    simp only [Bool.not_eq_false, Bool.and_eq_true, bne_iff_ne, beq_iff_eq] at h
    exact hs _ (by simp) h.1 h.2
  have hhy : b.isHyphen code.toNat = false := by
    unfold Font.isHyphen
    by_contra h
    simp only [Bool.not_eq_false, Bool.and_eq_true, bne_iff_ne, decide_eq_true_eq] at h
    exact hs b.hyphen (by simp) h.1 (BitVec.eq_of_toNat_eq h.2.symm)
  have hread : s.readCode run code rest =
      ({ s with cache := cacheTouch s.cache e },
        { run with codes := rest, index := run.index + 1,
                   acts := [.push { index := run.index, glyph := e.glyph, drawn := true }] }) := by
    unfold State.readCode
    simp only [hf, if_neg hn]
    unfold State.beginLookup
    simp only [hlt, if_true, he]
    unfold State.resolveOwn
    simp only [hsp, hg, Bool.false_eq_true, if_false, Bool.not_false, if_true, hhy]
    unfold Run.takeGlyph
    have hr : run.buffer.length < Config.bufferGlyphs := hroom
    simp [hr]
  rw [State.runOn]
  simp only [hb, hl, ha, hc, hread, List.isEmpty_nil, Bool.not_true, Option.isSome_none, Bool.or_self,
    Bool.false_eq_true, if_false]
  rw [State.runOn]
  simp only [List.isEmpty_nil, Bool.not_true, Option.isSome_none, Bool.or_self, Bool.false_eq_true, if_false]

/-- The codes of a word that all hit in the cache are read into the buffer, with no change but the order of the cache
(R61, R70). -/
theorem State.runOn_word {s0 : State} {b : Font} (f : Fin 8) (glyphs : List Glyph) :
    ∀ (s : State) (run : Run) (n : Nat), run.font = f → s.font f = some b → run.blits = [] → run.lookup = none →
      run.acts = [] → run.codes.length = glyphs.length → run.buffer.length + glyphs.length ≤ 64 →
      (∀ code, cacheFind s.cache f code = cacheFind s0.cache f code) →
      (∀ (k : Nat) (g : Glyph), glyphs[k]? = some g →
        ∃ code e, run.codes[k]? = some code ∧ code.toNat < b.count ∧
          (∀ special ∈ [b.space, b.hyphen, b.newline], special ≠ 0xFFFF → code ≠ special) ∧
          cacheFind s0.cache f code.toNat = some e ∧ e.bad = false ∧ e.glyph = g) →
      ∃ cache, State.runOn (n + 2 * glyphs.length) s run =
          State.runOn n { s with cache := cache }
            { run with
              codes := [], index := run.index + glyphs.length
              buffer := run.buffer ++ bufferFrom run.index glyphs } ∧
        ∀ code, cacheFind cache f code = cacheFind s0.cache f code := by
  induction glyphs with
  | nil =>
    intro s run n hf hb hbl hl ha hc hroom hcache hcodes
    have : run.codes = [] := List.eq_nil_of_length_eq_zero hc
    refine ⟨s.cache, ?_, hcache⟩
    simp only [bufferFrom, List.append_nil, List.length_nil, Nat.add_zero, Nat.mul_zero, ← this]
  | cons g gs ih =>
    intro s run n hf hb hbl hl ha hc hroom hcache hcodes
    obtain ⟨code, e, h1, h2, h3, h4, h5, rfl⟩ := hcodes 0 g (by simp)
    obtain ⟨code', rest, hcr⟩ := List.exists_cons_of_length_eq_add_one hc
    rw [hcr] at h1
    simp only [List.getElem?_cons_zero, Option.some.injEq] at h1
    subst h1
    have hone := State.runOn_glyph (n + 2 * gs.length) (by rw [hf]; exact hb) hbl hl ha hcr h2 h3
      (by rw [hf, hcache]; exact h4) h5 (by simp at hroom; omega)
    have h4' : cacheFind s.cache f code'.toNat = some e := by rw [hcache]; exact h4
    obtain ⟨cache, hrec, hkeep⟩ := ih { s with cache := cacheTouch s.cache e }
      { run with
        codes := rest, index := run.index + 1
        buffer := run.buffer ++ [{ index := run.index, glyph := e.glyph, drawn := true }] } n hf hb hbl hl ha
      (by rw [hcr] at hc; simpa using hc) (by simp at hroom ⊢; omega)
      (by intro c; rw [cacheFind_touch h4']; exact hcache c)
      (by intro k x hx; obtain ⟨c, e', g1, g2⟩ := hcodes (k + 1) x (by simpa using hx)
          rw [hcr] at g1
          exact ⟨c, e', by simpa using g1, g2⟩)
    refine ⟨cache, ?_, hkeep⟩
    rw [show n + 2 * (e.glyph :: gs).length = (n + 2 * gs.length) + 2 by simp; omega, hone, hrec]
    simp [bufferFrom, Nat.add_comm, Nat.add_left_comm]

/-! ## Cursors and the Word Log -/

theorem State.setCursor_page (s : State) (i k : Fin 4) (x : Cursor) :
    (s.setCursor i k x).page i = { s.page i with cursors := (s.page i).cursors.set k x } := by
  unfold State.setCursor; simp

@[simp] theorem State.setCursor_cursor (s : State) (i k : Fin 4) (x : Cursor) :
    (s.setCursor i k x).cursor i k = x := by
  unfold State.cursor; rw [State.setCursor_page]; simp

/-- An entry is appended while the log holds fewer than 512 (R84). -/
theorem State.appendLog_free {s : State} {run : Run} {e : LogEntry} (h : (s.page run.slot).log.length < 512) :
    s.appendLog run e = s.setPage run.slot { s.page run.slot with log := (s.page run.slot).log ++ [e] } := by
  unfold State.appendLog; exact if_pos h

/-- Entries are appended in their order while the log has room for them all. -/
theorem State.appendLog_all (run : Run) (es : List LogEntry) : ∀ s : State,
    (s.page run.slot).log.length + es.length ≤ 512 →
    es.foldl (fun s e => s.appendLog run e) s =
      s.setPage run.slot { s.page run.slot with log := (s.page run.slot).log ++ es } := by
  induction es with
  | nil => intro s h; rw [List.append_nil]; exact (State.setPage_self s _).symm
  | cons e es ih =>
    intro s h
    simp only [List.length_cons] at h
    have hp : ∀ p, (s.setPage run.slot p).page run.slot = p := by intro p; simp
    rw [List.foldl_cons, State.appendLog_free (by omega), ih]
    · rw [State.setPage_setPage, hp]; simp
    · rw [hp]; simp; omega

/-- A broken word has at most one line for each of its glyphs. -/
theorem Breaks.length_le {r : Record} {c : Column} {descent first baseline : Nat} {row : List Glyph}
    {es : List LogEntry} {pen last : Nat} {overflow : Option Nat}
    (h : Breaks r c descent first baseline row es pen last overflow) : es.length ≤ row.length := by
  induction h with
  | last hne => simp; exact List.length_pos_iff.2 hne
  | foot hne => simp; omega
  | next hne _ _ _ _ _ ih => simp at ih ⊢; have := List.length_pos_iff.2 hne; omega

/-! ## The end of a word and of a run -/

/-- The end of a word in the buffer: its placement's cursor, its entries, its drawing and its overflow. -/
theorem State.endWord_eq {s : State} {run : Run} {c : Column} {b : Font} (hc : s.columns[run.column] = some c)
    (hb : s.font run.font = some b) (hne : run.buffer ≠ []) :
    s.endWord run =
      let p := placeWord c b.descent (s.cursor run.slot run.column) run.buffer
      let s2 := (p.segments.map (fun x => logEntryOf run x.1 x.2)).foldl (fun s e => s.appendLog run e)
        (s.setCursor run.slot run.column p.cursor)
      let r1 := { run with buffer := [], blits := run.blits ++ s.blitsOf run p.glyphs }
      match p.overflow with
      | some i => s2.overflowRun r1 i
      | none => (s2, r1) := by
  unfold State.endWord
  have h1 : s.runColumn run = c := by unfold State.runColumn; rw [hc]
  have h2 : s.descent run.font = b.descent := by unfold State.descent; rw [hb]
  have he : run.buffer.isEmpty = false := by simpa using hne
  rw [he]
  simp only [Bool.false_eq_true, if_false, h1, h2, List.foldl_map] <;> rfl

/-- A run without a lookup to report ends quietly (R85, R86). -/
theorem State.finishRun_quiet {s : State} {run : Run} (h : run.substituted + run.leftOut = 0) :
    s.finishRun run = s.ended := by
  unfold State.finishRun; rw [if_neg (by omega)]; rfl

/-- A run whose codes have all been read ends its word, and then itself unless glyphs are left to draw. -/
theorem State.runOn_end {s : State} {run : Run} (n : Nat) (hb : run.blits = []) (hl : run.lookup = none)
    (ha : run.acts = []) (hc : run.codes = []) {s2 : State} {r2 : Run}
    (he : s.endWord { run with acts := [.finish] } = (s2, r2)) (hl2 : r2.lookup = none) (ha2 : r2.acts = [.finish]) :
    State.runOn (n + 3) s run = if r2.blits.isEmpty then s2.finishRun r2 else s2.keepRun r2 := by
  obtain ⟨f1, f2, f3, f4, f5, f6, codes, f7, f8, acts, lookup, blits, f9, f10, f11, f12⟩ := run
  simp only at hb hl ha hc
  subst hb hl ha hc
  rw [State.runOn]
  simp only [List.isEmpty_nil, Bool.not_true, Option.isSome_none, Bool.or_self, Bool.false_eq_true, if_false]
  rw [State.runOn]
  simp only [List.isEmpty_nil, Bool.not_true, Option.isSome_none, Bool.or_self, Bool.false_eq_true, if_false]
  simp only at he
  rw [he]
  simp only
  rw [State.runOn]
  simp only [hl2, ha2, Option.isSome_none, Bool.or_false]
  cases r2.blits <;> simp

/-- An accepted run whose cursor is not FULL prepares the cursor and goes on (R69). -/
theorem State.runAccepted.exec_eq {s : State} {r : Record} {c : Column} {b : Font} (h : s.runAccepted r c b)
    (hf : (s.preparedCursor r c).full = false) :
    exec r.runCommand s =
      proceed s (State.resumeRun (s.setCursor r.slot r.runColumn (s.preparedCursor r c)) r.run) := by
  obtain ⟨hx, ho, hw, hp, hc, hb⟩ := h
  have hchk : firstFailing (s.runChecks r) = none := by
    simp [State.runChecks, ho, hw, hc, hb]; omega
  unfold Record.runCommand
  by_cases h0 : r.runPlacement = 0
  · rw [if_pos h0]
    show execGlyphRunContinue s = _
    unfold execGlyphRunContinue
    rw [onRecord_eq hx (by simp [hx.isKind, h0]), State.checked_pass hchk]
    unfold State.preparedCursor at hf ⊢
    rw [if_pos h0] at hf ⊢
    have : s.setCursor r.slot r.runColumn (s.cursor r.slot r.runColumn) = s := by
      have h1 : (s.page r.slot).cursors.set r.runColumn (s.cursor r.slot r.runColumn) = (s.page r.slot).cursors := by
        unfold State.cursor; simp
      unfold State.setCursor
      rw [h1]
      exact State.setPage_self s r.slot
    rw [this]
    congr 1
    unfold State.beginRun
    rw [if_neg (by show ¬ (s.cursor r.slot r.runColumn).full = true; rw [hf]; simp)]
  · rw [if_neg h0]
    show execGlyphRunSet s = _
    unfold execGlyphRunSet
    rw [onRecord_eq hx (by simp [hx.isKind, h0]), State.checked_pass hchk]
    unfold State.preparedCursor at hf ⊢
    rw [if_neg h0] at hf ⊢
    have : s.runColumn r.run = c := by
      unfold State.runColumn
      show (match s.columns[r.runColumn] with | some c => c | none => _) = c
      rw [hc]
    rw [this]
    congr 1
    unfold State.beginRun
    rw [if_neg]
    · rfl
    · show ¬ ((s.setCursor r.slot r.runColumn (setCursorAt c r.runX r.runY)).cursor r.slot r.runColumn).full = true
      rw [State.setCursor_cursor]; simp [setCursorAt]

end Sys2Proof.Machine
end

