-- ==== Sys2Proof/Laws/Notes.lean ====
section
/-! SUPPORT. What the Highlight Unit's shared operations do: the selection, the heads of its lines and their rectangles, the
rectangles a note takes, and the painting begun (R91 to R97). -/

namespace Sys2Proof.Machine

/-- An entry is selected where some glyph of it lies in the range of the run (R91). -/
theorem LogEntry.selected_iff (e : LogEntry) (runId first last : Nat) :
    e.selected runId first last = true ↔
      e.runId = runId ∧ ∃ n, first ≤ n ∧ n ≤ last ∧ e.first ≤ n ∧ n < e.first + e.count := by
  unfold LogEntry.selected
  simp only [Bool.and_eq_true, decide_eq_true_eq]
  constructor
  · rintro ⟨⟨h1, h2⟩, h3⟩
    exact ⟨h1, max first e.first, by omega, by omega, by omega, by omega⟩
  · rintro ⟨h1, n, h2, h3, h4, h5⟩
    exact ⟨⟨h1, by omega⟩, by omega⟩

theorem LogEntry.sameLine_iff (a b : LogEntry):
   a.sameLine b = true ↔ a.column = b.column ∧ a.baseline = b.baseline := by
  unfold LogEntry.sameLine; simp

/-- The heads of the lines of a selection: in log order, one for each line, each the first of its line (R92). -/
theorem lineHeads_spec (sel : List LogEntry) : ∀ seen : List LogEntry,
   (lineHeads seen sel).Sublist sel ∧ (lineHeads seen sel).Pairwise (fun a b => ¬ a.sameLine b = true) ∧
   (∀ e ∈ sel, (∃ h ∈ seen, h.sameLine e = true) ∨ ∃ h ∈ lineHeads seen sel, h.sameLine e = true) ∧
   (∀ h ∈ lineHeads seen sel,
      (∀ x ∈ seen, ¬ x.sameLine h = true) ∧
        ∃ before after, sel = before ++ h :: after ∧ ∀ e ∈ before, ¬ e.sameLine h = true) := by
  induction sel with
  | nil => intro seen; simp [lineHeads]
  | cons e es ih =>
    intro seen
    unfold lineHeads
    split
    · rename_i hs
      rw [List.any_eq_true] at hs
      obtain ⟨x, hx, hxe⟩ := hs
      obtain ⟨a, b, c, d⟩ := ih seen
      refine ⟨a.cons _, b, ?_, ?_⟩
      · intro y hy
        rcases List.mem_cons.1 hy with rfl | hy
        · exact .inl ⟨x, hx, hxe⟩
        · exact c y hy
      · intro h hh
        obtain ⟨h1, before, after, h2, h3⟩ := d h hh
        refine ⟨h1, e :: before, after, by rw [h2]; rfl, ?_⟩
        intro y hy
        rcases List.mem_cons.1 hy with rfl | hy
        · intro hyh
          apply h1 x hx
          rw [LogEntry.sameLine_iff] at *
          exact ⟨hxe.1.trans hyh.1, hxe.2.trans hyh.2⟩
        · exact h3 y hy
    · rename_i hs
      rw [List.any_eq_true] at hs
      have hs' : ∀ x ∈ seen, ¬ x.sameLine e = true := fun x hx hh => hs ⟨x, hx, hh⟩
      obtain ⟨a, b, c, d⟩ := ih (e :: seen)
      refine ⟨a.cons_cons _, ?_, ?_, ?_⟩
      · rw [List.pairwise_cons]
        exact ⟨fun y hy => (d y hy).1 e (by simp), b⟩
      · intro y hy
        rcases List.mem_cons.1 hy with rfl | hy
        · exact .inr ⟨_, List.mem_cons_self, by rw [LogEntry.sameLine_iff]; exact ⟨rfl, rfl⟩⟩
        · rcases c y hy with ⟨h, hh, hy'⟩ | ⟨h, hh, hy'⟩
          · rcases List.mem_cons.1 hh with rfl | hh
            · exact .inr ⟨_, List.mem_cons_self, hy'⟩
            · exact .inl ⟨h, hh, hy'⟩
          · exact .inr ⟨h, List.mem_cons_of_mem _ hh, hy'⟩
      · intro h hh
        rcases List.mem_cons.1 hh with rfl | hh
        · exact ⟨hs', [], es, rfl, by simp⟩
        · obtain ⟨h1, before, after, h2, h3⟩ := d h hh
          refine ⟨fun x hx => h1 x (List.mem_cons_of_mem _ hx), e :: before, after, by rw [h2]; rfl, ?_⟩
          intro y hy
          rcases List.mem_cons.1 hy with rfl | hy
          · exact h1 _ List.mem_cons_self
          · exact h3 y hy

/-- The largest of some counts. -/
theorem largestNat_spec {xs : List Nat} (hx : xs ≠ []) : (∀ y ∈ xs, y ≤ largestNat xs) ∧ largestNat xs ∈ xs := by
  have fold : ∀ (xs : List Nat) (x : Nat), (x ≤ xs.foldl max x ∧ ∀ y ∈ xs, y ≤ xs.foldl max x) ∧
      (xs.foldl max x = x ∨ xs.foldl max x ∈ xs) := by
    intro xs
    induction xs with
    | nil => intro x; simp
    | cons a xs ih =>
      intro x
      simp only [List.foldl_cons]
      obtain ⟨⟨h1, h2⟩, h3⟩ := ih (max x a)
      refine ⟨⟨by omega, ?_⟩, ?_⟩
      · intro y hy
        rcases List.mem_cons.1 hy with rfl | hy
        · omega
        · exact h2 y hy
      · rcases h3 with h3 | h3
        · rcases le_total x a with h | h
          · exact .inr (by rw [h3, max_eq_right h]; simp)
          · exact .inl (h3.trans (max_eq_left h))
        · exact .inr (List.mem_cons_of_mem _ h3)
  unfold largestNat
  obtain ⟨⟨h1, h2⟩, h3⟩ := fold xs 0
  refine ⟨h2, ?_⟩
  rcases h3 with h3 | h3
  · rw [h3]
    obtain ⟨a, l, rfl⟩ := List.exists_cons_of_ne_nil hx
    have := h2 a (by simp)
    rw [h3] at this
    have : a = 0 := by omega
    simp [this]
  · exact h3

/-- The rectangles a note takes: those it does not hold, each once, in their order (R94). -/
theorem freshRects_spec (lines : List LineRect) : ∀ seen : List Rect,
   (freshRects seen lines).Sublist lines ∧ ((freshRects seen lines).map (·.rect)).Nodup ∧
   (∀ l ∈ freshRects seen lines, l.rect ∉ seen) ∧
   (∀ before l after, lines = before ++ l :: after →
      l.rect ∈ seen ∨ l.rect ∈ before.map (·.rect) ∨ l ∈ freshRects seen lines) := by
  induction lines with
  | nil => intro seen; simp [freshRects]
  | cons a as ih =>
    intro seen
    unfold freshRects
    split
    · rename_i hs
      have hs : a.rect ∈ seen := by simpa using hs
      obtain ⟨h1, h2, h3, h4⟩ := ih seen
      refine ⟨h1.cons _, h2, h3, ?_⟩
      intro before l after h
      cases before with
      | nil => simp at h; rw [← h.1]; exact .inl hs
      | cons b before =>
        simp at h
        rcases h4 before l after h.2 with h | h | h
        · exact .inl h
        · exact .inr (.inl (by simp at h ⊢; exact .inr h))
        · exact .inr (.inr h)
    · rename_i hs
      have hs : a.rect ∉ seen := by simpa using hs
      obtain ⟨h1, h2, h3, h4⟩ := ih (a.rect :: seen)
      refine ⟨h1.cons_cons _, ?_, ?_, ?_⟩
      · simp only [List.map_cons, List.nodup_cons]
        refine ⟨?_, h2⟩
        intro h
        obtain ⟨l, hl, hr⟩ := List.mem_map.1 h
        exact h3 l hl (by rw [hr]; simp)
      · intro l hl
        rcases List.mem_cons.1 hl with rfl | hl
        · exact hs
        · intro hh; exact h3 l hl (List.mem_cons_of_mem _ hh)
      · intro before l after h
        cases before with
        | nil => simp at h; rw [← h.1]; exact .inr (.inr (by simp))
        | cons b before =>
          simp at h
          rcases h4 before l after h.2 with h' | h' | h'
          · rcases List.mem_cons.1 h' with h' | h'
            · exact .inr (.inl (by simp [h', h.1]))
            · exact .inl h'
          · exact .inr (.inl (by simp at h' ⊢; exact .inr h'))
          · exact .inr (.inr (List.mem_cons_of_mem _ h'))

/-- Painting begins with the first of some rectangles that all hold a pixel. -/
theorem State.beginPainting_eq (s : State) (i : Fin 4) (ps : List Paint) (h : ∀ p ∈ ps, p.rect.nonempty = true) :
   s.beginPainting i ps = { s with composer := s.drawing i ps } := by
  unfold State.beginPainting State.resumePainting Painting.start
  rw [List.filter_eq_self.2 h]
  unfold State.drawing
  cases ps with
  | nil => rfl
  | cons p ps => rfl

/-- What is painted for a note's rectangles (R96, R97). -/
theorem notePaints_eq (s : State) (style tone) (ls : List LineRect) :
    notePaints style tone s.geometry.height ls = s.noteDrawing style tone ls := by
  unfold notePaints State.noteDrawing underlineRows
  cases style with
  | band => induction ls <;> simp_all
  | underline => rfl

/-- Every rectangle of a selection's lines holds a pixel (R92). -/
theorem State.lineRects_nonempty (s : State) (sel) (l : LineRect) (h : l ∈ s.lineRects sel) :
    l.rect.nonempty = true := by
  unfold State.lineRects at h; exact (List.mem_filter.1 h).2

/-- Every rectangle painted for a note holds a pixel. -/
theorem State.noteDrawing_nonempty (s : State) (style tone) (ls : List LineRect) (h : ∀ l ∈ ls, l.rect.nonempty = true) :
    ∀ p ∈ s.noteDrawing style tone ls, p.rect.nonempty = true := by
  intro p hp
  unfold State.noteDrawing at hp
  obtain ⟨l, hl, hp⟩ := List.mem_flatMap.1 hp
  have := h l hl
  cases style with
  | band => simp at hp; subst hp; exact this
  | underline =>
    simp only [List.mem_map, List.mem_filter] at hp
    obtain ⟨y, -, rfl⟩ := hp
    unfold Rect.nonempty at this ⊢
    simp at this ⊢; omega

end Sys2Proof.Machine
end

