-- ==== Sys2Proof/Laws/Relay.lean ====
section
/-! SUPPORT. What the Relay's shared operations do: the arbiter's choice of the Relay, a released write, a landed write,
and an offered Control Ring write. -/

namespace Sys2Proof.Machine

/-- With the port free for it, the Relay's request is the one chosen (R7). -/
theorem State.choose_relay {s : State} (hp : s.portReady = true) (hr : s.port.refreshRequest = false)
    (hs : s.scanner.request = false) (hq : s.relayRequests = true) (pick : Nat) : s.choose pick = some .relay := by
  unfold State.choose; simp [hp, hr, hs, hq]

/-- The conditions for a write to land at once rest on five parts of the state. -/
theorem State.clearFor_congr {s t : State} {w : HostWrite} (h : s.clearFor w) (h1 : t.startup = s.startup)
    (h2 : t.doze = s.doze) (h3 : t.port = s.port) (h4 : t.scanner = s.scanner) (h5 : t.composer = s.composer) :
    t.clearFor w := by
  obtain ⟨⟨hp, hr, hs⟩, hw⟩ := h
  refine ⟨⟨?_, ?_, ?_⟩, ?_⟩
  · unfold State.portReady at *; rw [h1, h2]; exact hp
  · rw [h3]; exact hr
  · rw [h4]; exact hs
  · unfold State.heldWord at *; rw [h5]; exact hw

/-- A released Control Ring write lands at once where the port is free for it, and changes nothing else (R6). -/
theorem State.release_eq {s : State} {w : HostWrite} (h : s.clearFor w) :
    s.release w = { s with mem := w.into s.mem, relay := .idle } := by
  obtain ⟨⟨hp, hr, hs⟩, hw⟩ := h
  have hg : ({ s with relay := .writing w .nobody } : State).relayGranted = true := by
    unfold State.relayGranted
    rw [State.choose_relay]
    · rfl
    · exact hp
    · exact hr
    · exact hs
    · show decide (s.heldWord ≠ some (wordAddr w.addr.toNat)) = true
      simpa using hw
  unfold State.release State.landIfGranted
  rw [if_pos hg]
  rfl

/-- The block that watches a landed write changes no byte of memory (R5). -/
theorem State.handOff_mem (s : State) (d : Handoff) : (s.handOff d).mem = s.mem := by
  cases d with
  | nobody => rfl
  | page e o => simp only [State.handOff, State.draftWritten]; split <;> (try split) <;> rfl
  | font e => rfl
  | consumedCount => rfl
  | faultClear => simp only [State.handOff, State.faultClearWritten]; split <;> rfl

/-- A landed write's memory (R1). -/
theorem State.landWrite_mem (s : State) (w : HostWrite) (d : Handoff) : (s.landWrite w d).mem = w.into s.mem := by
  unfold State.landWrite; rw [State.handOff_mem]; rfl

/-- A write at EP is never a RESTART set back from elsewhere (R25). -/
theorem restartsAtZero_at_ep {s : State} {o : BitVec 12} {whole : Bool} {w : Word} (h : o = s.decoder.ep) :
    restartsAtZero s o whole w = false := by
  unfold restartsAtZero
  subst h
  by_cases h : s.decoder.ep = 0 <;> simp [h]

/-- A write at EP is dealt with by the decoder's state (R17 to R23). -/
theorem State.offer_at_ep {s : State} {o : BitVec 12} {whole : Bool} {w : Word} (h : o = s.decoder.ep) :
    s.offer o whole w = s.offerAtEp whole w := by
  unfold State.offer
  rw [restartsAtZero_at_ep h]
  simp [h]

/-- An offered write that is no RESTART is carried out by CONTROL_RING_WRITE. -/
theorem exec_controlRingWrite {s : State} {w : HostWrite} (hw : s.relay = .ringOffer w) (hr : s.offersRestart w = false) :
    exec .controlRingWrite s = proceed s (s.offerWrite w) := by
  show execControlRingWrite s = _
  unfold execControlRingWrite; rw [hw]; simp [hr]

/-- An offered write that takes effect as a RESTART is carried out by RESTART. -/
theorem exec_restart {s : State} {w : HostWrite} (hw : s.relay = .ringOffer w) (hr : s.offersRestart w = true) :
    exec .restart s = proceed s (s.offerWrite w) := by
  show execRestart s = _
  unfold execRestart; rw [hw]; simp [hr]

/-- A write that the decoder releases lands beside the decoder's effect where the port is free for it. -/
theorem State.offerWrite_released {s t : State} {w : HostWrite} (h : s.clearFor w)
    (ho : s.offer (s.ringWord w) w.whole w.data = { state := t, held := false })
    (h1 : t.startup = s.startup) (h2 : t.doze = s.doze) (h3 : t.port = s.port) (h4 : t.scanner = s.scanner)
    (h5 : t.composer = s.composer) : s.offerWrite w = { t with mem := w.into t.mem, relay := .idle } := by
  unfold State.offerWrite
  rw [ho]
  simp only [Bool.false_eq_true, if_false]
  exact State.release_eq (State.clearFor_congr h h1 h2 h3 h4 h5)

/-- A write that the decoder holds back waits in the Relay. -/
theorem State.offerWrite_held {s t : State} {w : HostWrite}
    (ho : s.offer (s.ringWord w) w.whole w.data = { state := t, held := true }) :
    s.offerWrite w = { t with relay := .ringHold w } := by
  unfold State.offerWrite
  rw [ho]; rfl

/-- The grant made to an engine runs that engine's work with the turn pointer past it (R7, R8). -/
theorem State.grantsTo.exec_eq {needs : Bool} {pick : Nat} {s : State} {e : EngineName} (h : s.grantsTo needs pick e) :
    exec (.downstreamGrant needs pick) s =
      proceed s (State.serveEngine { s with port := { (s.port) with turn := e.after } } pick e) := by
  obtain ⟨hp, hr, hs, hq, he, hm⟩ := h
  have hrs : s.raiseScan needs = s := by
    unfold State.raiseScan at hs ⊢
    have h : (s.scanner.request || (needs && s.scanAccess.isSome)) = false := hs
    have h0 : s.scanner.request = false := (Bool.or_eq_false_iff.1 h).1
    rw [h, ← h0]
  rw [hrs] at hs
  have hc : s.choose pick = some (.engine e) := by
    unfold State.choose; simp [hp, hr, hs, hq, he]
  show execDownstreamGrant needs pick s = _
  unfold execDownstreamGrant
  simp only [hrs, hc, hm, if_true]
  rfl

end Sys2Proof.Machine
end

