-- ==== Sys2Proof/WellFormed.lean ====
section
/-! DEFINITION. Which commands can be sent: the checks on a command's operands that its Lean type does not already
make. -/

namespace Sys2Proof

/-- A temperature reading is a signed whole °C in −40..+85, or an invalid indication (R147, pin summary). -/
def readingInRange : Option Int → Bool
  | some t => decide (-40 ≤ t) && decide (t ≤ 85)
  | none => true

/-- The Reporter picks an appended entry (0) or one of the eighteen Status Block words it writes (1 to 18). -/
def pickInRange (pick : Nat) : Bool := decide (pick ≤ 18)

/-- The check on each command. Every other operand's type holds exactly the values the pin or bus can carry. -/
def Instr.wellFormed : Instr → Bool
  | .temperatureReading r => readingInRange r
  | .downstreamGrant _ pick => pickInRange pick
  | _ => true

end Sys2Proof
end

