-- ==== Sys2Proof/Tests/Slice0.lean ====
section
/-! SUPPORT. Small tests: the checks on operands, single commands with results taken from the manual's rules and worked
examples, and, for every statement with hypotheses, a state and operands that meet them (theorems named
test_witness_<statement>, each clause at a boundary value where the clauses have ranges). -/

namespace Sys2Proof.Tests

open Sys2Proof Sys2Proof.Machine

set_option Elab.async false

/-! ## Helpers -/

/-- The command answers a next state that is the one wanted, beside the change marks and the Doze Controller. -/
def yields (c : Instr) (s want : State) : Bool :=
  match exec c s with
  | .next t => decide ({ t with reporter := { (t.reporter) with marks := want.reporter.marks }, doze := want.doze } = want)
  | _ => false

/-- The next state, or the same state where there is none. -/
def after (c : Instr) (s : State) : State := match exec c s with | .next t => t | _ => s

/-- The state after one step, or the same state where there is none. -/
def stepped (s : State) : State := match step s with | .next t => t | _ => s

/-- A record header: kind value, length, page slot, tag (R16). -/
def hdr (kind len slot tag : Nat) : Nat := 0xB6000000 + kind * 65536 + slot * 16384 + tag * 1024 + (len - 1)

/-- A record with its header at offset 0 of the ring. -/
def recOf (ws : List Nat) : Record := { offset := 0, words := ws.map (BitVec.ofNat 32) }

/-- The record in execution. -/
def taken (s : State) (ws : List Nat) : State := { s with composer := .taken, queue := [recOf ws] }

/-- A part that runs, everything else as after reset. -/
def run0 : State := { State.reset with startup := .running }

/-- A panel of 128 × 64 that is OFF under a VALID store, a PAGE region of one unit at 0 and a FONT region of one unit at
512. -/
def panel0 : State :=
  { run0 with
    supply := { Supply.reset with panel := .off, valid := true, geometry := some { width := 128, height := 64 } }
    regions := (run0.regions.set 0 (some { base := 0, size := 1, kind := .page, absorb := false })).set 1
      (some { base := 512, size := 1, kind := .font, absorb := false }) }

/-- The same with page slot 0 OPEN over the PAGE region. -/
def page0 : State := panel0.setPage 0 { PageSlot.reset with region := some 0, pageId := 77 }

/-- The same with page slot 0 live. -/
def live0 : State := panel0.setPage 0 { PageSlot.reset with region := some 0, live := true }

/-- A whole write beat of the Control Ring at a word offset, offered. -/
def ringWrite (s : State) (o : Nat) (w : Nat) (enables : BitVec 4 := 15) : State :=
  { s with relay :=
    (.ringOffer { addr := BitVec.ofNat 27 (s.ringBase + 4 * o), data := BitVec.ofNat 32 w, enables := enables }) }

/-- The write that the Relay holds. -/
def writeAt (a w : Nat) (enables : BitVec 4 := 15) : HostWrite :=
  { addr := BitVec.ofNat 27 a, data := BitVec.ofNat 32 w, enables := enables }

/-- An update slot of a tile rectangle. -/
def slotOf (st : UpdateState) (left right : Nat) : Update :=
  { state := st, source := none, draftBase := none, rect := { left := left, top := 0, right := right, bottom := 1 },
    mode := .text, band := 3, length := 8, counter := 0, commits := [5], repair := false }

/-- A panel in a state with one update slot filled. -/
def driving (p : PanelState) (x : Update) : State :=
  { (panel0.setUpdate 0 (some x)) with
    updates := { (panel0.updates) with slots := panel0.updates.slots.set 0 (some x), order := [0] }
    supply := { (panel0.supply) with panel := p, enable := true } }

/-- A request for a tile rectangle. -/
def ask (source : Option (Fin 4)) (left right : Nat) : Request :=
  { source := source, rect := { left := left, top := 0, right := right, bottom := 1 }, mode := .text, commits := [7],
    repair := false }

/-! ## Operands -/

theorem test_reading_too_high_ill_formed : (Instr.temperatureReading (some 200)).wellFormed = false := by decide
theorem test_reading_too_low_ill_formed : (Instr.temperatureReading (some (-41))).wellFormed = false := by decide
theorem test_reading_edges_well_formed :
    (Instr.temperatureReading (some (-40))).wellFormed = true ∧ (Instr.temperatureReading (some 85)).wellFormed = true ∧
    (Instr.temperatureReading none).wellFormed = true := by decide
theorem test_pick_too_high_ill_formed : (Instr.downstreamGrant true 19).wellFormed = false := by decide
theorem test_pick_edge_well_formed : (Instr.downstreamGrant true 18).wellFormed = true := by decide
/-- No row of the table gives bits, so no word spells a command. -/
theorem test_no_word_decodes : decodeTableWord 32 0xB6000000 = none ∧ decodeTableWord 0 0 = none := by decide

/-! ## The machine as a whole, start-up, doze, the port -/

/-- A step takes the front command, and an empty queue idles. -/
theorem test_witness_StepRunsFrontCommand :
    (stepped { run0 with pending := [.timeStampTick, .recordTake] }).time = 1 ∧
    (stepped { run0 with pending := [.timeStampTick, .recordTake] }).pending = [.recordTake] ∧
    stepped run0 = run0 := by decide +kernel

/-- Strap code 3 is taken as 32 MiB, code 2 selects 128 MiB, and T lies 6 MiB below the top (R157). -/
theorem test_reset_straps :
    (after (.reset 3) page0).memBytes = 0x2000000 ∧ (after (.reset 2) page0).top = 0x7A00000 := by decide +kernel

theorem test_witness_TablesStayCanonical : State.reset.tablesCanonical ∧ State.reset.ghostsBounded := by
  refine ⟨by unfold State.tablesCanonical; decide +kernel, ?_⟩
  intro p h; cases h

theorem test_witness_CountsStayInRange :
    State.reset.outstandingBounded ∧ State.reset.countsBounded ∧ State.reset.tune.inRange := by
  unfold State.outstandingBounded State.countsBounded Tunables.inRange; decide +kernel

/-- Two slots that are not FREE, side by side. -/
def twoSlots : State := (panel0.setUpdate 0 (some (slotOf .active 0 2))).setUpdate 1 (some (slotOf .ready 2 4))

theorem test_witness_SlotRectanglesStayDisjoint : twoSlots.slotsDisjoint ∧ twoSlots.update 0 ≠ none := by
  refine ⟨?_, by decide +kernel⟩
  have h : ∀ u v : Fin 15, u ≠ v →
      (match twoSlots.update u, twoSlots.update v with
       | some x, some y => x.rect.overlaps y.rect | _, _ => false) = false := by decide +kernel
  intro u v x y huv hx hy
  have := h u v huv
  simpa [hx, hy] using this

theorem test_witness_EnableRaisedWhileActive :
    (driving .on (slotOf .active 0 2)).enableLaw ∧ (driving .on (slotOf .active 0 2)).anySlot .active = true := by
  unfold State.enableLaw; decide +kernel

/-- A record of length 3 under collection, behind one queued record. -/
def collecting0 : State :=
  { run0 with
    queue := [recOf [hdr 0x21 1 0 0]]
    decoder := { (run0.decoder) with state := .body 4 [BitVec.ofNat 32 (hdr 0x23 3 0 0)], ep := 5, stall := some 20 } }

theorem test_witness_RecordQueueStaysBounded : collecting0.queueBounded := by
  refine ⟨by decide +kernel, by decide +kernel, ?_⟩
  intro o words h
  have e : collecting0.decoder.state = .body 4 [BitVec.ofNat 32 (hdr 0x23 3 0 0)] := rfl
  rw [e] at h; cases h; decide +kernel

theorem test_witness_RequestsStayBounded :
    ({ panel0 with commit := { (panel0.commit) with pending := [ask none 0 2] } } : State).requestsBounded := by
  refine ⟨by decide +kernel, ?_, ?_, ?_, ?_⟩
  · intro e h
    have : e = ask none 0 2 := by simpa using h
    subst this; unfold commitListOk; decide +kernel
  · intro e h; cases h
  · intro u x h
    have free : ∀ u : Fin 15, panel0.update u = none := by decide +kernel
    have taken : panel0.update u = some x := h
    rw [free u] at taken; cases taken
  · intro c r h; cases h

/-- The idle conditions hold, and the doze timer runs. -/
def idle0 : State :=
  { run0 with tune := { (run0.tune) with dozeEnable := true }, doze := { dozing := false, timer := some 50 } }

theorem test_witness_DozeTimerFollowsIdle : idle0.dozeLaw ∧ idle0.idleConditions = true := by
  unfold State.dozeLaw; decide +kernel

/-- A page opened changes words 11 and 12 of the Status Block, which are marked. -/
theorem test_witness_MarksFollowChanges :
    let s := taken panel0 [hdr 0x20 3 0 4, 0x10010, 77]
    (after .pageOpenKeepClean s).reporter.marks = 0b1100000000000 ∧
    s.statusWord 12 ≠ (after .pageOpenKeepClean s).statusWord 12 := by decide +kernel

/-- A passed write in the Relay. -/
def landing (d : Handoff) (w : HostWrite) (s : State := page0) : State := { s with relay := .writing w d }

theorem test_witness_GrantWritesOnlyItsWords :
    let s := landing .nobody (writeAt 0x2003 0x11223344 8)
    s.mem.wf = true ∧ (s.raiseScan true).choose 0 = some .relay ∧
    (after (.downstreamGrant true 0) s).mem.byte 0x2003 = 0x11 ∧
    (after (.downstreamGrant true 0) s).mem.byte 0x2002 = 0xFF := by decide +kernel

/-- The Reporter's entry grant: four words, and the turn passes to the waveform check (R8). -/
theorem test_witness_GrantWritesOnlyItsWords_engine :
    let s := run0.raise (.panelFault 3)
    s.mem.wf = true ∧ (s.raiseScan true).choose 0 = some (.engine .reporter) ∧
    s.grantAccess 0 (.engine .reporter) = some { addr := 0x1A00000 + 0x544100, words := 4, write := true } ∧
    (after (.downstreamGrant true 0) s).mem.word (0x1A00000 + 0x544100) = 0x70000000 ∧
    (after (.downstreamGrant true 0) s).port.turn = .waveformCheck := by decide +kernel

/-- A frame in progress over an ACTIVE slot. -/
def scanning : State :=
  { (driving .on (slotOf .active 0 2)) with
    scanner := { frame := some { next := 0, panel := none, prior := none, codes := [] }, request := false, link := [] } }

theorem test_witness_GrantOrder :
    scanning.portReady = true ∧ scanning.port.refreshRequest = false ∧
    (scanning.raiseScan true).scanner.request = true ∧ scanning.scanAccess.isSome = true ∧
    (scanning.raiseScan true).choose 0 = some .scanner ∧
    ({ scanning with port := { (scanning.port) with refreshRequest := true } } : State).choose 0 = some .refresh := by
  decide +kernel

theorem test_witness_GrantOrder_relay_and_engine :
    (let s := landing .nobody (writeAt 0x2000 1)
     s.portReady = true ∧ (s.raiseScan true).scanner.request = false ∧ s.relayRequests = true) ∧
    (let s := run0.raise (.panelFault 3)
     s.relayRequests = false ∧ s.engineInTurn 0 = some .reporter ∧ s.grantInMemory 0 (.engine .reporter) = true) := by
  decide +kernel

/-- An event at the last place of the ring, with the Reporter's turn. -/
def lastPlace : State :=
  State.raise
    { run0 with reporter := { (run0.reporter) with nextIndex := 239 }, port := { (run0.port) with turn := .reporter } }
    (.panelFault 3)

/-- The same once the entry is written. -/
def lastWritten : State := after (.downstreamGrant true 0) lastPlace

/-- As many events outstanding as the ring holds. -/
def ringFull : State := { run0 with reporter := { (run0.reporter) with produced := 240 } }

/-- The entry of the last place of the ring, and one event beyond 240 outstanding (R153). -/
theorem test_witness_EventsReachTheHost :
    lastPlace.reporter.nextIndex = 0 ∧ (lastPlace.raiseScan true).scanner.request = false ∧
    lastPlace.relayRequests = false ∧ lastWritten.mem.words 0x1F44FF0 4 = [0x70000000, 0, 3, 0] ∧
    lastWritten.reporter.unwritten = [] ∧ lastWritten.reporter.marks.getLsbD 0 = true ∧
    lastWritten.reporter.toSignal = 1 ∧ lastWritten.reporter.outstanding = 1 ∧
    (ringFull.raise (.panelFault 3)).reporter.dropped = 1 ∧ (ringFull.raise (.panelFault 3)).reporter.unwritten = [] := by
  decide +kernel

/-! ## The Relay -/

/-- The memory path's worked example: 64 MiB, a PAGE region at 0x1000, a FONT region at 0x1400, an ABSORB region at 0x800
and a guard over units 0 to 255. -/
def path0 : State :=
  { run0 with
    straps := 1
    regions := ((run0.regions.set 0 (some { base := 0x1000, size := 640, kind := .page, absorb := false })).set 1
      (some { base := 0x1400, size := 64, kind := .font, absorb := false })).set 2
      (some { base := 0x800, size := 16, kind := .plain, absorb := true })
    guard := { on := true, invert := false, lower := 0, upper := 255 }
    supply := { (run0.supply) with valid := true } }

theorem test_witness_TreatmentTable_regions :
    path0.treat 0x01017924 = .passed (.page 0 0x17924) ∧ path0.treat 0x4000 = .absorbed .guarded ∧
    path0.treat 0x00800010 = .absorbed .region ∧ path0.treat 0x01400000 = .passed (.font 1) ∧
    path0.treat 0x00100000 = .passed .nobody := by decide +kernel

/-- The first and last addresses of each area of the reserved top, T = 0x03A00000. -/
theorem test_witness_TreatmentTable_reserved :
    path0.treat 0x04000000 = .dropped ∧ path0.treat 0x03A00000 = .absorbed .reserved ∧
    path0.treat 0x03EFFFFF = .absorbed .reserved ∧ path0.treat 0x03F00000 = .absorbed .reserved ∧
    panel0.treat 0x01F3FFFF = .absorbed .reserved ∧ run0.treat 0x01F3FFFF = .passed .nobody ∧
    path0.treat 0x03F40000 = .offered ∧ path0.treat 0x03F43FFF = .offered ∧
    path0.treat 0x03F44003 = .absorbed .reserved ∧ path0.treat 0x03F44004 = .passed .consumedCount ∧
    path0.treat 0x03F4400B = .passed .faultClear ∧ path0.treat 0x03F4400C = .absorbed .reserved ∧
    path0.treat 0x03F45000 = .passed .nobody ∧ path0.treat 0x03FFFFFF = .passed .nobody := by decide +kernel

/-- The first address beyond the memory size reads as zeros; the last word below it is read. -/
theorem test_witness_HostReadBeat :
    run0.relay = .idle ∧ run0.portReady = true ∧ run0.port.refreshRequest = false ∧ run0.scanner.request = false ∧
    (after (.hostReadBeat 0x2000000) run0).readData = 0 ∧ (after (.hostReadBeat 0x2000000) run0).reporter.faultCount = 1 ∧
    (after (.hostReadBeat 0x1FFFFFF) run0).readData = 0xFFFFFFFF := by decide +kernel

theorem test_witness_HostWriteBeat :
    path0.relay = .idle ∧ path0.portReady = true ∧ path0.supply.check = none ∧
    path0.treat 0x04000000 = .dropped ∧ path0.treat 0x4000 = .absorbed .guarded ∧ path0.treat 0x03F40000 = .offered ∧
    (after (.hostWriteBeat 0x4000 5 15) path0).reporter.faultCause = some .guarded ∧
    (after (.hostWriteBeat 0x01017924 5 15) path0).relay = .writing (writeAt 0x01017924 5) (.page 0 0x17924) := by
  decide +kernel

/-- A write at the last byte of the INVALID store spoils a running check; one below the store does not. -/
theorem test_witness_HostWriteBeat_spoils :
    let k : Check := { next := 8, sum := 0, spoilt := false, clearing := false }
    let s : State := { run0 with supply := { (run0.supply) with check := some k } }
    s.treat 0x01F3FFFF = .passed .nobody ∧
    (after (.hostWriteBeat 0x01F3FFFF 5 8) s).supply.check = some { k with spoilt := true } ∧
    (after (.hostWriteBeat 0x1000 5 8) s).supply.check = some k := by decide +kernel

theorem test_witness_StartUpAndDoze :
    (State.reset.relay = .idle ∧ State.reset.portReady = false ∧ State.reset.startup = .initializing ∧
      (after (.hostReadBeat 0x10) State.reset).relay = .held (.read 0x10)) ∧
    (let s : State := { run0 with relay := .held (.read 0x2000000), doze := { dozing := true, timer := none } }
     (after .dozeWake s).doze.dozing = false ∧ (after .dozeWake s).relay = .idle) ∧
    (let s : State := { run0 with startup := .clearing 1024 }
     s.loader.clear = none ∧ yields .startUpClearingEnd s run0 = true) ∧
    (after .dozeTimerExpiry idle0).doze = { dozing := true, timer := none } := by decide +kernel

theorem test_witness_PassedWriteLands :
    (let s := landing .nobody (writeAt 0x2000 0x11223344 5)
     s.mem.wf = true ∧ s.relayGranted = true ∧ (after .hostWriteLands s).mem.word 0x2000 = 0xFF22FF44) ∧
    (landing (.page 0 0) (writeAt 0 1)).relayGranted = true ∧ (landing (.font 1) (writeAt 0x200000 1)).relayGranted = true ∧
    (landing .consumedCount (writeAt 0x1F44004 0)).relayGranted = true ∧
    (landing .faultClear (writeAt 0x1F44008 0)).relayGranted = true := by decide +kernel

/-- The last word below the image size marks tile (3, 1); the first beyond it marks nothing. -/
theorem test_witness_DraftWriteMarks :
    let s := landing (.page 0 4092) (writeAt 4092 0) live0
    s.relayGranted = true ∧ s.pageOfRegion 0 = some 0 ∧
    ((after .draftWrite s).page 0).dirty = 1#5120 <<< 83 ∧ ((after .draftWrite s).page 0).settle = some 8 ∧
    ((after .draftWrite s).page 0).latency = some 40 ∧
    ((after .draftWrite (landing (.page 0 4096) (writeAt 4096 0) live0)).page 0).dirty = 0 := by decide +kernel

/-- The worked example of the Consumed Count: with P = 300 and C = 290 a proposed 10 lies beyond 240 of P, so C becomes
P and attention clears (R154). -/
theorem test_witness_WatchedWritesLand :
    let s : State := { run0 with reporter := { (run0.reporter) with produced := 300, consumed := 290, attention := true } }
    let t := after .consumedCountWrite (landing .consumedCount (writeAt 0x1F44004 10) s)
    t.reporter.consumed = 300 ∧ t.reporter.attention = false ∧ t.reporter.marks = 2 ∧
    (after .consumedCountWrite (landing .consumedCount (writeAt 0x1F44004 60) s)).reporter.consumed = 60 ∧
    (after .consumedCountWrite (landing .consumedCount (writeAt 0x1F44004 59) s)).reporter.consumed = 300 := by
  decide +kernel

/-- Fault Clear takes a whole zero only; a font region write drops the cached entries of the slots bound to it. -/
theorem test_witness_WatchedWritesLand_other :
    (let s : State := { run0 with reporter := { (run0.reporter) with faultCount := 9 } }
     (after .faultClearWrite (landing .faultClear (writeAt 0x1F44008 0) s)).reporter.faultCount = 0 ∧
     (after .faultClearWrite (landing .faultClear (writeAt 0x1F44008 0 7) s)).reporter.faultCount = 9) ∧
    (let g : Glyph := { bitmap := 0, width := 8, height := 16, bearingX := 0, bearingY := 12, advance := 160 }
     let s : State :=
      { panel0 with
        fonts := panel0.fonts.set 2 (some
          { region := 1, tableOffset := 0, count := 1, ascent := 1, descent := 1, space := 32, hyphen := 45, newline := 10 })
        cache := [{ number := 0, font := 2, code := 0, glyph := g, bad := false },
                  { number := 1, font := 3, code := 0, glyph := g, bad := false }] }
     (after .fontRegionWrite (landing (.font 1) (writeAt 0x200000 1) s)).cache.map (·.number) = [1]) := by decide +kernel

/-! ## The Control Ring -/

/-- The stream example: a word beside EP is stray, one in the gap passes uncounted (R24). -/
theorem test_witness_StrayRingWrite :
    let s : State := { run0 with decoder := { (run0.decoder) with ep := 8, gap := [6, 7] } }
    let stray := ringWrite s 40 7
    let inGap := ringWrite s 7 7
    stray.portReady = true ∧ stray.heldWord = none ∧ stray.offersRestart (writeAt 0x1F400A0 7) = false ∧
    (after .controlRingWrite stray).decoder.stray = 1 ∧ (after .controlRingWrite stray).relay = .idle ∧
    inGap.offersRestart (writeAt 0x1F4001C 7) = false ∧ (after .controlRingWrite inGap).decoder = s.decoder := by
  decide +kernel

/-- One word left to skip at the end of the ring, and two. -/
theorem test_witness_SkipConsumes :
    let s (n : Nat) : State := { run0 with decoder := { (run0.decoder) with state := .skip n 6, ep := 4093, stall := some 20 } }
    (ringWrite (s 1) 4093 7 3).heldWord = none ∧ (ringWrite (s 1) 4093 7).ringWord (writeAt 0x1F43FF4 7) = 4093 ∧
    (after .controlRingWrite (ringWrite (s 1) 4093 7 3)).decoder =
      { (run0.decoder) with state := .sync, ep := 0, gap := [4094, 4095], skipped := 1 } ∧
    (after .controlRingWrite (ringWrite (s 2) 4093 7)).decoder =
      { (run0.decoder) with state := .skip 1 6, ep := 4094, skipped := 1, stall := some 20 } := by decide +kernel

/-- The last word of a two-word NOTE_CLEAR: the record is queued and EP passes over the gap at 6 and 7 (R20). -/
theorem test_witness_RecordCompletes :
    let h := BitVec.ofNat 32 (hdr 0x29 2 0 0)
    let s := ringWrite { run0 with decoder := { (run0.decoder) with state := .body 4 [h], ep := 5, stall := some 20 } } 5 9
    headerLength h = 2 ∧ s.ringWord (writeAt 0x1F40014 9) = 5 ∧
    (after .controlRingWrite s).queue = [{ offset := 4, words := [h, 9] }] ∧
    (after .controlRingWrite s).decoder = { (run0.decoder) with ep := 8, gap := [6, 7] } := by decide +kernel

/-- A NOP of 1024 words and one of 1023 leave room for one word, but not for a FILL of three. -/
def nearlyFull : State :=
  { run0 with
    queue := [{ offset := 0, words := List.replicate 1024 0 }, { offset := 0, words := List.replicate 1023 0 }]
    decoder := { (run0.decoder) with lowSpace := true } }

theorem test_witness_HeaderStartsOrIsHeld :
    (let s := ringWrite run0 0 (hdr 0x23 3 0 0)
     validHeader (BitVec.ofNat 32 (hdr 0x23 3 0 0)) = some .fill ∧ s.hasRoom 3 = true ∧ s.decoder.lowSpace = false ∧
     s.usedWords + 3 < 8 * s.tune.highMark ∧
     (after .controlRingWrite s).decoder.state = .body 0 [BitVec.ofNat 32 (hdr 0x23 3 0 0)] ∧
     (after .controlRingWrite s).decoder.stall = some 20) ∧
    (let s := ringWrite nearlyFull 0 (hdr 0x23 3 0 0)
     s.hasRoom 3 = false ∧ s.hasRoom 1 = true ∧ (after .controlRingWrite s).decoder.hold = some 32 ∧
     (after .controlRingWrite s).mem = []) ∧
    (let s := ringWrite { nearlyFull with tune := { (nearlyFull.tune) with holdLimit := 0 } } 0 (hdr 0x23 3 0 5)
     (after .controlRingWrite s).decoder.state = .skip 2 3 ∧ (after .controlRingWrite s).relay = .idle ∧
     (after .controlRingWrite s).reporter.unwritten.map (·.words) = [[0x03000500, 0, 0x23000000, 3]]) := by decide +kernel

/-- A header that no kind takes is skipped into HUNT with the hunt count 1 (R18, R22). -/
theorem test_ring_bad_header :
    let t := after .controlRingWrite (ringWrite run0 0 0x12345678)
    t.decoder.state = .hunt ∧ t.decoder.huntCount = 1 ∧ t.decoder.skipped = 1 ∧ t.decoder.ep = 1 := by decide +kernel

/-- RESTART in the middle of a record's body: RECORD_TORN, then RESTARTED with the one word dropped (R25). -/
theorem test_witness_RestartSetsStreamBack :
    let s := ringWrite { collecting0 with queue := [] } 0 (hdr 0x01 1 0 3)
    validHeader (BitVec.ofNat 32 (hdr 0x01 1 0 3)) = some .restart ∧ s.ringWord (writeAt 0x1F40000 0) = 0 ∧
    (after .restart s).decoder = { (run0.decoder) with ep := 4 } ∧
    (after .restart s).reporter.unwritten.map (·.words) =
      [[0x02030000, 0, 0x23000004, 1], [0x05000300, 0, 0, 1]] := by decide +kernel

/-- The same from SKIP with four of six words gone. -/
theorem test_witness_RestartSetsStreamBack_skip :
    let s := ringWrite { run0 with decoder := { (run0.decoder) with state := .skip 2 6, ep := 8 } } 0 (hdr 0x01 1 0 3)
    (after .restart s).reporter.unwritten.map (·.words) = [[0x05000300, 0, 0, 4]] := by decide +kernel

theorem test_witness_HoldEnds :
    (let s : State := { run0 with
      relay := (.ringHold (writeAt 0x1F40000 (hdr 0x23 3 0 0))), decoder := { (run0.decoder) with hold := some 32 } }
     s.hasRoom 3 = true ∧ (after .holdReleaseOnRoom s).decoder.state = .body 0 [BitVec.ofNat 32 (hdr 0x23 3 0 0)] ∧
     (after .holdReleaseOnRoom s).mem.word 0x1F40000 = BitVec.ofNat 32 (hdr 0x23 3 0 0)) ∧
    (let s : State := { nearlyFull with
      relay := (.ringHold (writeAt 0x1F40000 (hdr 0x23 3 0 5))), decoder := { (nearlyFull.decoder) with hold := some 32 } }
     s.hasRoom 3 = false ∧ (after .holdTimerExpiry s).decoder.state = .skip 2 3 ∧
     (after .holdTimerExpiry s).reporter.unwritten.map (·.words) = [[0x03000500, 0, 0x23000000, 3]]) := by decide +kernel

theorem test_witness_StallEndsRecord :
    collecting0.decoder.stall.isSome = true ∧ collecting0.decoder.lowSpace = false ∧
    (after .stallTimerExpiry collecting0).decoder.state = .hunt ∧ (after .stallTimerExpiry collecting0).decoder.ep = 5 ∧
    (after .stallTimerExpiry collecting0).reporter.unwritten.map (·.words) = [[0x02020000, 0, 0x23000004, 1]] ∧
    (let s : State := { run0 with decoder := { (run0.decoder) with state := .skip 2 6, ep := 8, stall := some 20 } }
     yields .stallTimerExpiry s { run0 with decoder := { (run0.decoder) with state := .hunt, ep := 8 } }) = true := by
  decide +kernel

/-! ## Records -/

theorem test_witness_RecordsTakenAndRemoved :
    (let s : State := { run0 with queue := [recOf [hdr 0x00 1 0 0]] }
     s.startup = .running ∧ yields .recordTake s { s with composer := .taken } = true) ∧
    (let s : State :=
      { run0 with
        composer := .ended, queue := [{ offset := 0, words := List.replicate 8 0 }, { offset := 0, words := List.replicate 512 0 }]
        decoder := { (run0.decoder) with lowSpace := true } }
     (after .recordExecutionEnd s).decoder.lowSpace = false ∧
     (after .recordExecutionEnd s).reporter.unwritten.map (·.words) = [[0x07000000, 0, 512, 0]]) := by decide +kernel

theorem test_witness_RecordsTakenAndRemoved_nop :
    (recOf [hdr 0x00 2 3 15, 9]).kind = some .nop ∧
    yields .nop (taken run0 [hdr 0x00 2 3 15, 9]) (taken run0 [hdr 0x00 2 3 15, 9]).ended = true := by decide +kernel

/-- All fields 0 but the interrupt mode, whose 2 becomes PULSE: every limit at the bottom of its range. -/
theorem test_witness_TuneClamps :
    let s := taken run0 [hdr 0x02 4 0 0, 0, 0, 0x00200000]
    (recOf [hdr 0x02 4 0 0, 0, 0, 0x00200000]).kind = some .tune ∧
    (after .tune s).tune =
      { stallTimeout := 0, holdLimit := 0, highMark := 8, lowMark := 0, settleTime := 1, latencyLimit := 1,
        ghostLimit := 1, panelHold := 0, defaultBand := 0, pulseMode := true, classMask := 0, dozeEnable := false,
        dozeDelay := 1 } := by decide +kernel

/-- All ones leaves every limit (R32). -/
theorem test_tune_unchanged :
    yields .tune (taken run0 [hdr 0x02 4 0 0, 0xFFFFFFFF, 0xFFFFFFFF, 0xFFFFFFFF])
      (taken run0 [hdr 0x02 4 0 0, 0xFFFFFFFF, 0xFFFFFFFF, 0xFFFFFFFF]).ended = true := by decide +kernel

/-- A PLAIN region whose last unit is the last below T = 0x1A00000, one unit more refused, and size 0. -/
theorem test_witness_RegionAndLock :
    let fits := [hdr 0x08 3 0 0, 0x1203, 0x19FF0001]
    let tooFar := [hdr 0x08 3 0 0, 0x1203, 0x19FF0002]
    (recOf fits).kind = some .region ∧ panel0.entryBound 3 = false ∧ panel0.top / 4096 = 0x1A00 ∧
    (after .region (taken panel0 fits)).regions[3] = some { base := 0x19FF, size := 1, kind := .plain, absorb := true } ∧
    yields .region (taken panel0 tooFar) ((taken panel0 tooFar).refused (recOf tooFar) .badField) = true ∧
    (after .region (taken panel0 [hdr 0x08 3 0 0, 0x0001, 0])).regions[1] = none ∧
    (let s := { taken panel0 fits with locked := true }
     yields .region s (s.refused (recOf fits) .locked)) = true ∧
    (after .lockTight (taken panel0 [hdr 0x0A 1 0 0])).locked = true := by decide +kernel

/-- A bound region may change nothing but its host-write field (R11). -/
theorem test_region_bound :
    let r := [hdr 0x08 3 0 0, 0x1000, 0x00000001]
    let moved := [hdr 0x08 3 0 0, 0x0000, 0x00010001]
    (after .region (taken page0 r)).regions[0] = some { base := 0, size := 1, kind := .page, absorb := true } ∧
    yields .region (taken page0 moved) ((taken page0 moved).refused (recOf moved) .bound) = true := by decide +kernel

theorem test_witness_GuardReplaced :
    let r := [hdr 0x09 2 0 0, 0x80000000 + 5 * 32768 + 5]
    let bad := [hdr 0x09 2 0 0, 0x80000000 + 6 * 32768 + 5]
    (recOf r).kind = some .guard ∧
    (after .guard (taken run0 r)).guard = { on := true, invert := false, lower := 5, upper := 5 } ∧
    (after .guard (taken run0 r)).treat 0x5FFF = .absorbed .guarded ∧
    (after .guard (taken run0 r)).treat 0x6000 = .passed .nobody ∧
    yields .guard (taken run0 bad) ((taken run0 bad).refused (recOf bad) .badField) = true ∧
    (let s := { taken run0 r with locked := true }
     yields .guard s (s.refused (recOf r) .locked)) = true := by decide +kernel

/-- A table of 512 entries fills a region of one unit; one entry more is TOO_SMALL. -/
theorem test_witness_FontBinding :
    let r (n : Nat) := [hdr 0x10 5 0 0, (n - 1) * 65536 + 0x102, 0, 0x000A0E04, 0x0020002D]
    (recOf (r 512)).kind = some .fontBind ∧ (recOf (r 512)).fontFields.codesClash = false ∧
    (after .fontBind (taken panel0 (r 512))).fonts[2] = some
      { region := 1, tableOffset := 0, count := 512, ascent := 14, descent := 4, space := 32, hyphen := 45, newline := 10 } ∧
    yields .fontBind (taken panel0 (r 513)) ((taken panel0 (r 513)).refused (recOf (r 513)) .tooSmall) = true ∧
    yields .fontBind (taken run0 (r 1)) ((taken run0 (r 1)).refused (recOf (r 1)) .badField) = true := by decide +kernel

theorem test_witness_FontBinding_unbind :
    let r := [hdr 0x10 5 0 0, 0x182, 0, 0, 0]
    (recOf r).kind = some .fontBind ∧ (recOf r).fontUnbind = true ∧
    (after .fontUnbind (after .fontBind (taken panel0 r))).fonts[2] = none ∧
    yields .fontUnbind (taken panel0 r) (taken panel0 r).ended = true := by decide +kernel

/-- The last byte of a bitmap at the last byte of the region, and one beyond (R57). -/
theorem test_glyph_bad_edge :
    let g : Glyph := { bitmap := 4086, width := 9, height := 2, bearingX := 0, bearingY := 0, advance := 0 }
    g.isBad 1 = false ∧ ({ g with bitmap := 4087 } : Glyph).isBad 1 = true ∧
    ({ g with bitmap := 9999, width := 0 } : Glyph).isBad 1 = false := by decide +kernel

/-- COLUMN 1 with its right edge beyond the panel width of 128. -/
theorem test_witness_ColumnDefined :
    let r := [hdr 0x11 4 0 0, 0x40000000 + 10 * 65536 + 4, 200 * 65536 + 60, 24 * 65536 + 16 * 256 + 0xFF]
    let c : Column := { left := 10, right := 128, top := 4, bottom := 60, pitch := 24, firstBaseline := 16, tracking := -1 }
    (recOf r).kind = some .column ∧ (after .column (taken page0 r)).columns[1] = some c ∧
    ((after .column (taken page0 r)).page 0).cursors[1] =
      { pen := 160, baseline := 20, full := false, lineHolds := false, pendingSpace := 0 } ∧
    yields .column (taken run0 r) ((taken run0 r).refused (recOf r) .unconfigured) = true ∧
    (let z := [hdr 0x11 4 0 0, 128 * 65536, 200 * 65536 + 60, 24 * 65536]
     yields .column (taken page0 z) ((taken page0 z).refused (recOf z) .badField)) = true := by decide +kernel

/-! ## Pages and painting -/

/-- A region of one unit just holds the image of 4096 bytes; all three options. -/
theorem test_witness_PageOpens :
    let r (o : Nat) := [hdr 0x20 3 2 4, 0x10F00 + 16 * o, 77]
    let fill := after .pageOpenFill (taken panel0 (r 0))
    (recOf (r 0)).kind = some .pageOpen ∧ (recOf (r 0)).slot = 2 ∧ (panel0.page 2).isOpen = false ∧
    (fill.page 2).dirty = panel0.geometry.allTiles ∧ (fill.page 2).latency = some 40 ∧ (fill.page 2).marked 83 = true ∧
    (fill.page 2).marked 84 = false ∧
    fill.composer = .painting
      { slot := 2, base := 0, stride := 64,
        paints := [{ rect := { left := 0, top := 0, right := 128, bottom := 64 }, op := .set, tone := 15 }],
        row := 0, col := 0, held := none } ∧
    ((after .pageOpenKeepClean (taken panel0 (r 1))).page 2).dirty = 0 ∧
    ((after .pageOpenKeepDirty (taken panel0 (r 2))).page 2).dirty = panel0.geometry.allTiles ∧
    (after .pageOpenKeepDirty (taken panel0 (r 2))).composer = .ended := by decide +kernel

/-- An undefined start option is BAD_FIELD, and a region bound to another page BOUND (R35). -/
theorem test_page_open_refused :
    let undefined := [hdr 0x20 3 2 4, 0x30, 77]
    let bound := [hdr 0x20 3 2 4, 0, 77]
    yields .pageOpenFill (taken panel0 undefined) ((taken panel0 undefined).refused (recOf undefined) .badField) = true ∧
    yields .pageOpenFill (taken page0 bound) ((taken page0 bound).refused (recOf bound) .bound) = true := by decide +kernel

/-- A page with one entry waiting, and one of another source. -/
def waiting0 : State := { page0 with commit := { (page0.commit) with pending := [ask (some 0) 0 2, ask (some 1) 0 2] } }

theorem test_witness_PageDiscarded :
    let r := [hdr 0x21 1 0 0]
    (recOf r).kind = some .pageDiscard ∧
    yields .pageDiscard (taken panel0 r) ((taken panel0 r).refused (recOf r) .notOpen) = true ∧
    (let s := taken (page0.setPage 0 { page0.page 0 with inCommit := true }) r
     yields .pageDiscard s s) = true ∧
    (after .pageDiscard (taken waiting0 r)).commit.pending = [ask (some 1) 0 2] ∧
    (after .pageDiscard (taken waiting0 r)).updates.due = true ∧
    (after .pageDiscard (taken waiting0 r)).page 0 = PageSlot.reset ∧
    (after .pageDiscard (taken waiting0 r)).reporter.unwritten.map (·.words) = [[0x61220000, 0, 0x00070000, 0]] := by
  decide +kernel

/-- A note of page slot 0. -/
def note0 : Note :=
  { slot := 0, id := 3, pageId := 77, style := .band, tone := 10, sequence := 5,
    rects := [{ left := 0, top := 0, right := 8, bottom := 8 }, { left := 4, top := 4, right := 20, bottom := 8 }] }

theorem test_witness_PageCopied :
    let s0 : State := { (page0.setPage 1 { PageSlot.reset with region := some 1, pageId := 5 }) with
      notes := [note0], noteCounter := 6 }
    let r := [hdr 0x22 2 1 0, 0]
    (recOf r).kind = some .pageCopy ∧ (s0.page 1).isOpen = true ∧ (s0.page 0).isOpen = true ∧
    (s0.notesOf 0).length ≤ 64 - s0.notes.length + (s0.notesOf 1).length ∧
    (after .pageCopy (taken s0 r)).notes = [note0, { note0 with slot := 1, pageId := 5, sequence := 6 }] ∧
    (after .pageCopy (taken s0 r)).composer =
      .copying { dest := 1, sourceBase := 0, destBase := 0x200000, next := 0, total := 1024, buffer := [] } ∧
    ((after .pageCopy (taken s0 r)).page 1).dirty = s0.geometry.allTiles := by decide +kernel

theorem test_witness_FillBegins :
    let r (o right : Nat) := [hdr 0x23 3 0 4, 3 * 65536 + 1, 0x40000000 + o * 4096 + right * 65536 + 40]
    (recOf (r 0 4)).kind = some .fill ∧
    (after .fillSet (taken page0 (r 0 4))).composer = .painting
      { slot := 0, base := 0, stride := 64,
        paints := [{ rect := { left := 3, top := 1, right := 4, bottom := 40 }, op := .set, tone := 4 }],
        row := 1, col := 0, held := none } ∧
    (after .fillMultiply (taken page0 (r 1 4))).composer ≠ .ended ∧
    yields .fillSet (taken page0 (r 0 3)) (taken page0 (r 0 3)).ended = true ∧
    yields .fillMultiply (taken panel0 (r 1 4)) ((taken panel0 (r 1 4)).refused (recOf (r 1 4)) .notOpen) = true := by
  decide +kernel

/-- Multiply of 9 by 10 is 6, and the glyph blend of 10 over 15 under coverage 8 is 12 (R47, R81). -/
theorem test_witness_PixelArithmetic :
    let p : Paint := { rect := { left := 1, top := 0, right := 2, bottom := 1 }, op := .multiply, tone := 10 }
    pixel (p.word 0 (wordOfTone 9)) 1 = 6 ∧ pixel (p.word 0 (wordOfTone 9)) 0 = 9 ∧
    pixel (Touch.word { addr := 0, coverage := [8, 0, 0, 0, 0, 0, 0, 0] } 10 (wordOfTone 15)) 0 = 12 := by decide +kernel

/-! ## Text and notes -/

/-- The worked layout: a column of 100 to 260, a glyph of advance 160 and a space of 80, both cached. -/
def text0 : State :=
  let col : Column := { left := 100, right := 260, top := 200, bottom := 290, pitch := 24, firstBaseline := 16, tracking := 0 }
  let gl : Glyph := { bitmap := 0, width := 8, height := 16, bearingX := 0, bearingY := 12, advance := 160 }
  let sp : Glyph := { bitmap := 0, width := 0, height := 0, bearingX := 0, bearingY := 0, advance := 80 }
  { panel0 with
    supply := { (panel0.supply) with geometry := some { width := 1600, height := 1280 } }
    columns := panel0.columns.set 0 (some col)
    fonts := panel0.fonts.set 1 (some
      { region := 1, tableOffset := 0, count := 100, ascent := 14, descent := 4, space := 32, hyphen := 45, newline := 10 })
    cache := [{ number := 0, font := 1, code := 97, glyph := gl, bad := false },
              { number := 1, font := 1, code := 32, glyph := sp, bad := false }]
    pages := panel0.pages.set 0
      { PageSlot.reset with region := some 0, cursors := PageSlot.reset.cursors.set 0 (resetCursor (some col)) } }

/-- The first of two words of two glyphs is placed before its glyphs are drawn: the pen at 100 + 10 + 10 pixels. -/
theorem test_witness_GlyphRunBegins :
    let r := [hdr 0x24 6 0 9, 7 * 65536 + 5, 0x10000000, 0x00610061, 0x00200061, 0x00610000]
    let t := after .glyphRunContinue (taken text0 r)
    (recOf r).kind = some .glyphRun ∧ (recOf r).words.length = 3 + ((recOf r).runCount + 1) / 2 ∧
    (recOf r).runCount = 5 ∧ (text0.font (recOf r).runFont).isSome = true ∧
    ((t.page 0).cursors[0]).pen = 120 * 16 ∧ (t.page 0).log.map (fun e => (e.first, e.count, e.xLeft, e.xRight)) =
      [(0, 2, 100, 118)] := by decide +kernel

/-- A FULL cursor overflows at index 0 (R79). -/
theorem test_witness_GlyphRunBegins_full :
    let s := text0.setPage 0 { text0.page 0 with cursors := Vector.replicate 4 Cursor.fullCursor }
    let r := [hdr 0x24 4 0 9, 7 * 65536 + 1, 0x10000000, 0x00610000]
    (s.cursor 0 0).full = true ∧
    yields .glyphRunContinue (taken s r) ((taken s r).raise (.overflow 9 7 0 0 0)).ended = true := by decide +kernel

/-- A page whose Word Log holds one line of two words, over 12 and 8 pixels of a font of ascent 14 and descent 4. -/
def logged0 : State :=
  text0.setPage 0 { text0.page 0 with log :=
    [{ runId := 7, first := 0, count := 2, column := 0, baseline := 216, xLeft := 100, xRight := 118, font := 1 },
     { runId := 7, first := 3, count := 2, column := 0, baseline := 216, xLeft := 125, xRight := 143, font := 1 }] }

theorem test_witness_HighlightMarks :
    let r := [hdr 0x28 3 0 2, 3 * 65536 + 7, 10 * 4096 + 3]
    let none_ := [hdr 0x28 3 0 2, 3 * 65536 + 8, 10 * 4096 + 3]
    (recOf r).kind = some .highlight ∧ logged0.findNote 0 3 = none ∧
    (after .highlight (taken logged0 r)).notes =
      [{ slot := 0, id := 3, pageId := 0, style := .band, tone := 10, sequence := 0,
         rects := [{ left := 100, top := 202, right := 143, bottom := 220 }] }] ∧
    yields .highlight (taken logged0 none_) ((taken logged0 none_).refused (recOf none_) .noTrace) = true := by
  decide +kernel

theorem test_witness_NotesClearedAndProbed :
    let s : State := { page0 with notes := [note0] }
    (after .noteClearOne (taken s [hdr 0x29 2 0 0, 3])).notes = [] ∧
    (after .noteClearOne (taken s [hdr 0x29 2 0 0, 4])).notes = [note0] ∧
    (after .noteClearAll (taken s [hdr 0x29 2 0 0, 0x10000])).notes = [] ∧
    (let r := [hdr 0x2A 2 0 6, 19 * 1048576 + 7 * 256 + 0x55]
     yields .probe (taken s r) ((taken s r).raise (.probeResult 6 3 0x55 0 1 77)).ended) = true ∧
    (let r := [hdr 0x2A 2 0 6, 20 * 1048576 + 7 * 256 + 0x55]
     yields .probe (taken s r) ((taken s r).raise (.probeResult 6 0 0x55 0 0 0)).ended) = true := by decide +kernel

/-! ## Panel records -/

/-- A LOAD of 128 × 64 with every timing 0 and a check value. -/
def loadRec (check : Nat) : List Nat := [hdr 0x0C 5 0 3, 128 * 65536 + 64, 0, check, 1]

theorem test_witness_PanelLoadBegins :
    (recOf (loadRec 0)).kind = some .panel ∧ (recOf (loadRec 0)).panelAction = 1 ∧
    (recOf (loadRec 0)).panelGeometry = { width := 128, height := 64 } ∧
    (after .panelLoad (taken page0 (loadRec 0))).composer = .atSupply ∧
    (after .panelLoad (taken page0 (loadRec 0))).supply.check = some { next := 0, sum := 0, spoilt := false, clearing := false } ∧
    (let s := taken { page0 with supply := { (page0.supply) with geometry := none, panel := .off } } (loadRec 0)
     yields .panelLoad s (s.refused (recOf (loadRec 0)) .bound)) = true ∧
    (let s := taken { panel0 with supply := { (panel0.supply) with panel := .on } } (loadRec 0)
     yields .panelLoad s (s.refused (recOf (loadRec 0)) .busy)) = true := by decide +kernel

/-- A width that is no multiple of 32 is BAD_FIELD (R138, R139). -/
theorem test_panel_load_bad_width :
    let r := [hdr 0x0C 5 0 3, 130 * 65536 + 64, 0, 0, 1]
    yields .panelLoad (taken panel0 r) ((taken panel0 r).refused (recOf r) .badField) = true := by decide +kernel

/-- A store of thresholds 0, 5 … 30 and lengths 64, with a check that has summed it. -/
def checked0 (g : Option Geometry) (spoilt : Bool) : State :=
  let store : Memory :=
    ((List.range 7).map (fun k => BitVec.ofNat 32 (5 * k)) ++ [0] ++ List.replicate 32 64).zipIdx.foldl
      (fun (m : Memory) (w : Word × Nat) => m.setWord (0x1F00000 + 4 * w.2) w.1) []
  { run0 with
    mem := store, composer := .atSupply, queue := [recOf (loadRec 99)]
    supply := { (run0.supply) with
      panel := .off, geometry := g, check := some { next := 32832, sum := 99, spoilt := spoilt, clearing := false } } }

theorem test_witness_WaveformCheckEnd :
    let same := checked0 (some { width := 128, height := 64 }) false
    let first := checked0 none false
    let bad := checked0 none true
    same.checkPasses { next := 32832, sum := 99, spoilt := false, clearing := false } (recOf (loadRec 99)) = true ∧
    (after .waveformCheckEnd same).supply.valid = true ∧ (after .waveformCheckEnd same).composer = .ended ∧
    (after .waveformCheckEnd same).supply.framePeriod = 118 ∧ (after .waveformCheckEnd same).updates.due = true ∧
    (after .waveformCheckEnd first).supply.geometry = some { width := 128, height := 64 } ∧
    (after .waveformCheckEnd first).loader.clear = some { words := 1024, next := 0 } ∧
    (after .waveformCheckEnd first).composer = .atSupply ∧
    (after .waveformCheckEnd bad).reporter.unwritten.map (·.words) = [[0x010B0300, 0, 0x0C000000, 0]] ∧
    (after .waveformCheckEnd bad).supply.valid = false := by decide +kernel

theorem test_witness_LoadCompletesAndUnloads :
    (let s : State := { run0 with
       composer := .atSupply, queue := [recOf (loadRec 99)]
       supply := { (run0.supply) with
         valid := true, geometry := some { width := 128, height := 64 }
         check := some { next := 32832, sum := 99, spoilt := false, clearing := true } } }
     s.supply.panel = .unconfigured ∧ (after .geometryClearEnd s).supply.panel = .off ∧
     (after .geometryClearEnd s).updates.due = true ∧ (after .geometryClearEnd s).supply.check = none) ∧
    (let r := [hdr 0x0C 5 0 3, 0, 0, 0, 2]
     (recOf r).panelAction = 2 ∧ (after .panelUnload (taken panel0 r)).supply.panel = .unconfigured ∧
     (after .panelUnload (taken panel0 r)).supply.valid = false ∧
     (let s := { taken panel0 r with locked := true }
      yields .panelUnload s (s.refused (recOf r) .locked)) = true) := by decide +kernel

/-! ## Commits -/

theorem test_witness_CommitGranted :
    let r := [hdr 0x30 1 0 4]
    let raised := live0.setPage 0 { live0.page 0 with autoCommit := true }
    commitModeOf (recOf r).tag = some none ∧
    (after .pageCommit (taken page0 r)).commit.nextNumber = 2 ∧
    (after .pageCommit (taken page0 r)).composer = .atCommitEngine ∧
    ((after .pageCommit (taken page0 r)).page 0).inCommit = true ∧
    yields .pageCommit (taken raised r) (taken raised r) = true ∧
    yields .pageCommit (taken panel0 r) ((taken panel0 r).refused (recOf r) .notOpen) = true ∧
    (after .autoCommitGrant raised).commit.state =
      .diffing { origin := .auto 0, mode := none, number := 1 } { next := 0, bounds := none, grey := false, visit := none } ∧
    ((after .autoCommitGrant raised).page 0).autoCommit = false := by decide +kernel

/-- An undefined mode is BAD_FIELD (R106, R160). -/
theorem test_commit_bad_mode :
    let r := [hdr 0x30 1 0 5]
    yields .pageCommit (taken page0 r) ((taken page0 r).refused (recOf r) .badField) = true := by decide +kernel

theorem test_witness_RefreshRequests :
    let r := [hdr 0x31 3 0 0, 0x90000000, 0]
    (recOf r).kind = some .refresh ∧ (recOf r).refreshWhole = true ∧ refreshModeOf (recOf r).refreshMode = some .grey ∧
    (after .refresh (taken page0 r)).commit.pending =
      [{ source := none, rect := { left := 0, top := 0, right := 4, bottom := 2 }, mode := .grey, commits := [1],
         repair := false }] ∧
    (after .refresh (taken page0 r)).updates.due = true ∧ (after .refresh (taken page0 r)).composer = .ended ∧
    yields .refresh (taken run0 r) ((taken run0 r).refused (recOf r) .unconfigured) = true := by decide +kernel

/-- A rectangle is snapped outward to tiles; one that holds no pixel within the panel is BAD_FIELD (R112, R113). -/
theorem test_refresh_rectangle :
    let r := [hdr 0x31 3 0 0, 31 * 65536 + 32, 33 * 65536 + 64]
    let empty := [hdr 0x31 3 0 0, 128 * 65536, 200 * 65536 + 64]
    (after .refresh (taken page0 r)).commit.pending.map (·.rect) = [{ left := 0, top := 1, right := 2, bottom := 2 }] ∧
    yields .refresh (taken page0 empty) ((taken page0 empty).refused (recOf empty) .badField) = true := by decide +kernel

/-- A commit of page slot 0 in a diff. -/
def diffing0 (mode : Option Mode) (bounds : Option Rect) (dirty : BitVec 5120) : State :=
  { (page0.setPage 0 { page0.page 0 with dirty := dirty, inCommit := true }) with
    composer := .atCommitEngine, queue := [recOf [hdr 0x30 1 0 4]]
    commit := { state := (.diffing { origin := .pageCommit 0 4, mode := mode, number := 9 }
      { next := 2, bounds := bounds, grey := false, visit := none }), nextNumber := 10, pending := [] } }

/-- The last tile of the panel, (3, 1), is raster number 7 and mark 83. -/
theorem test_witness_DiffVisitsAndEnds :
    let s := diffing0 none none (1#5120 <<< 83)
    s.nextMarked 0 2 = some 7 ∧ ((after .diffTileVisit s).page 0).dirty = 0 ∧
    (after .diffTileVisit s).commitAccess = some { addr := 32 * 64 + 48, words := 4, write := false } ∧
    (diffing0 none none 0).nextMarked 0 2 = none ∧
    (after .diffEnd (diffing0 none none 0)).reporter.unwritten.map (·.words) = [[0x50000400, 0, 9, 0]] ∧
    (after .diffEnd (diffing0 none none 0)).composer = .ended ∧
    (after .diffEnd (diffing0 none (some { left := 0, top := 0, right := 1, bottom := 1 }) 0)).commit.pending =
      [{ source := some 0, rect := { left := 0, top := 0, right := 1, bottom := 1 }, mode := .text, commits := [9],
         repair := false }] := by decide +kernel

/-- An engine that waits with a request of auto-commit 0, in front of some entries. -/
def retry0 (pending : List Request) : State :=
  { (page0.setPage 0 { page0.page 0 with inCommit := true }) with
    commit := { state := (.waiting { origin := .auto 0, mode := none, number := 7 } (ask (some 0) 0 2)),
                nextNumber := 8, pending := pending } }

theorem test_witness_PendingRetried :
    let old := { ask (some 0) 1 3 with commits := [1, 2, 3], mode := .grey }
    let far := ask (some 0) 3 4
    let full := List.replicate 32 (ask none 0 4)
    far.isCandidate (ask (some 0) 0 2) = false ∧
    (after .pendingRetry (retry0 [old, far])).commit.pending =
      [{ old with rect := { left := 0, top := 0, right := 3, bottom := 1 }, commits := [1, 2, 3, 7] }, far] ∧
    (after .pendingRetry (retry0 (full.take 31))).commit.pending.length = 32 ∧
    ((after .pendingRetry (retry0 (full.take 31))).page 0).inCommit = false ∧
    yields .pendingRetry (retry0 full) (retry0 full) = true := by decide +kernel

theorem test_witness_LiveTimersExpire :
    let s := live0.setPage 0 { live0.page 0 with dirty := 1, settle := some 8, latency := some 40 }
    ((after (.settleTimerExpiry 0) s).page 0).autoCommit = true ∧ ((after (.settleTimerExpiry 0) s).page 0).settle = none ∧
    ((after (.latencyTimerExpiry 0) s).page 0).autoCommit = true ∧
    ((after (.latencyTimerExpiry 0) (s.setPage 0 { s.page 0 with dirty := 0 })).page 0).autoCommit = false := by
  decide +kernel

/-! ## Updates and panel power -/

theorem test_witness_ConsiderationStarts :
    let s : State := { panel0 with
      updates := { (panel0.updates) with due := true }, commit := { (panel0.commit) with pending := [ask none 0 2] }
      supply := { (panel0.supply) with reading := some (-1) } }
    let x := (after .startConsideration s).update 0
    (∀ u, s.update u = none) ∧ s.updates.repairs = [] ∧ x.map (·.mode) = some .clean ∧ x.map (·.band) = some 7 ∧
    (after .startConsideration s).updates.order = [0] ∧ (after .startConsideration s).ghost 0 = 0 ∧
    (after .startConsideration s).ghost 2 = 63 ∧ (after .startConsideration s).commit.pending = [] ∧
    (let f : State := { s with supply := { (s.supply) with panel := .failed } }
     yields .startConsideration f { f with updates := { (f.updates) with due := false } }) = true := by decide +kernel

/-- The last tile column of the widest panel, under PEN: a counter of 62 becomes 63, and one of 63 stays. -/
theorem test_witness_GhostsAfterStart :
    let r : Rect := { left := 78, top := 0, right := 80, bottom := 1 }
    Sparse.wf Config.ghostTop [(79, 62)] = true ∧ r.right ≤ 80 ∧ ghostsAfter .pen r.tiles [(79, 62)] = [] ∧
    ghostsAfter .clean r.tiles [(79, 62)] = [(78, 0), (79, 0)] := by decide +kernel

/-- A load past its last piece. -/
def loaded0 (p : PanelState) : State :=
  { (driving p (slotOf .loading 0 2)) with
    loader := { load := some { row := 32, col := 0, phase := .readPanel }, clear := none } }

theorem test_witness_LoadingCompletes :
    (loaded0 .off).loadingSlot = some 0 ∧ ((loaded0 .off).loadOf (slotOf .loading 0 2)).finished (slotOf .loading 0 2) = true ∧
    (after .loadingComplete (loaded0 .on)).update 0 = some (slotOf .ready 0 2) ∧
    (after .loadingComplete (loaded0 .on)).supply = (loaded0 .on).supply ∧
    (after .loadingComplete (loaded0 .holding)).supply.panel = .on ∧
    (after .loadingComplete (loaded0 .off)).supply.panel = .rising ∧
    (after .loadingComplete (loaded0 .off)).supply.riseTimer = some 25 ∧
    (after .loadingComplete (loaded0 .off)).supply.attempt = 1 := by decide +kernel

theorem test_witness_FrameStarts :
    let s := driving .on { slotOf .frozen 0 2 with counter := 5 }
    s.supply.panel = .on ∧ s.scanner.frame = none ∧
    (after .frameStart s).update 0 = some { slotOf .active 0 2 with counter := 5 } ∧
    (after .frameStart (driving .on { slotOf .ready 0 2 with counter := 5 })).update 0 = some (slotOf .active 0 2) := by
  decide +kernel

/-- A frame that has delivered all its codes. -/
def frameDone (x : Update) (lost : Bool) : State :=
  let s := driving .on x
  { s with
    supply := { (s.supply) with lossNoted := lost }
    scanner := { frame := some { next := 1024, panel := none, prior := none, codes := [] }, request := false, link := [] } }

theorem test_witness_FrameEnds :
    let going := frameDone { slotOf .active 0 2 with counter := 6 } false
    let lost := frameDone { slotOf .active 0 2 with counter := 6 } true
    let idle := frameDone (slotOf .loading 0 2) false
    going.scanInHand = none ∧ (after .frameEnd going).update 0 = some { slotOf .active 0 2 with counter := 7 } ∧
    (after .frameEnd lost).update 0 = some { slotOf .frozen 0 2 with counter := 7 } ∧
    (after .frameEnd lost).supply.panel = .suspended ∧ (after .frameEnd lost).supply.graceTimer = some 100 ∧
    (after .frameEnd idle).supply.panel = .holding ∧ (after .frameEnd idle).supply.holdTimer = some 500 ∧
    (after .frameEnd { idle with tune := { (idle.tune) with panelHold := 0 } }).supply.panel = .falling := by decide +kernel

/-- The last frame of an update of eight: UPDATE_DONE with source PANEL, TEXT, one commit number 5 (R136). -/
theorem test_witness_FrameEnds_finishes :
    let s := frameDone { slotOf .active 0 2 with counter := 7 } false
    (after .frameEnd s).update 0 = none ∧ (after .frameEnd s).updates.order = [] ∧
    (after .frameEnd s).reporter.unwritten.map (·.words) = [[0x6022FF00, 0, 0x00050000, 0]] ∧
    (after .frameEnd s).supply.panel = .holding := by decide +kernel

/-- A panel in a state with its timers running and its ready line at a level. -/
def panelIn (p : PanelState) (line : Bool) (attempt : Nat) : State :=
  { panel0 with supply := { (panel0.supply) with
      panel := p, enable := true, readyLine := line, attempt := attempt, riseTimer := some 25, gapTimer := some 10
      holdTimer := some 500, fallTimer := some 10, graceTimer := some 100, readingTimer := some 30000 } }

theorem test_witness_PanelReadyLine :
    (after .panelReadyAsserted (panelIn .rising false 1)).supply.panel = .on ∧
    (after .panelReadyAsserted (panelIn .rising false 1)).supply.readingsAsked = 1 ∧
    (after .panelReadyAsserted (panelIn .suspended false 1)).supply.panel = .on ∧
    (after .panelReadyAsserted (panelIn .falling false 1)).supply = { (panelIn .falling true 1).supply with readyLine := true } ∧
    (after .panelReadyDropped (panelIn .on true 1)).supply.lossNoted = true ∧
    (after .panelReadyDropped (panelIn .holding true 1)).supply.panel = .falling ∧
    (after .panelReadyDropped (panelIn .holding true 1)).reporter.unwritten.map (·.words) = [[0x70000000, 0, 0, 0]] ∧
    (after .panelReadyDropped (panelIn .off true 1)).supply.panel = .off := by decide +kernel

/-- The second attempt fails into a gap, and the third into FAILED with PANEL_FAILED (R145, R151). -/
theorem test_witness_PanelTimersExpire :
    (after .riseTimerExpiry (panelIn .rising false 2)).supply.gapTimer = some 10 ∧
    (after .riseTimerExpiry (panelIn .rising false 3)).supply.panel = .failed ∧
    (after .riseTimerExpiry (panelIn .rising false 3)).reporter.unwritten.map (·.words) = [[0x71000000, 0, 0, 0]] ∧
    (after .gapTimerExpiry (panelIn .rising false 2)).supply.attempt = 3 ∧
    (after .gapTimerExpiry (panelIn .rising false 2)).supply.enable = true ∧
    (after .holdTimeExpiry (panelIn .holding true 1)).supply.panel = .falling ∧
    (after .holdTimeExpiry (panelIn .holding true 1)).supply.enable = false ∧
    (after .fallTimerExpiry (panelIn .falling false 1)).supply.panel = .off ∧
    (after .fallTimerExpiry (driving .falling (slotOf .ready 0 2))).supply.panel = .falling ∧
    (let s := driving .falling (slotOf .ready 0 2)
     (after .fallTimerExpiry { s with supply := { (s.supply) with fallTimer := some 10 } }).supply.panel) = .rising := by
  decide +kernel

theorem test_witness_GraceAborts :
    let s0 := driving .suspended (slotOf .frozen 0 2)
    let s : State := { s0 with supply := { (s0.supply) with graceTimer := some 100 } }
    s.updates.order.Nodup ∧ (after .graceTimerExpiry s).supply.panel = .falling ∧
    (after .graceTimerExpiry s).update 0 = none ∧ (after .graceTimerExpiry s).updates.order = [] ∧
    (after .graceTimerExpiry s).updates.repairs =
      [{ source := none, rect := { left := 0, top := 0, right := 2, bottom := 1 }, mode := .clean, commits := [5],
         repair := true }] ∧
    (after .graceTimerExpiry s).reporter.unwritten.map (·.words) = [[0x70000000, 0, 1, 0]] := by decide +kernel

/-- The lowest and the highest reading, and an invalid indication with +85 held. -/
theorem test_witness_ReadingsPulsesAndTicks :
    let s : State := { panel0 with supply := { (panel0.supply) with readingsAsked := 1, reading := some 85, readingTimer := some 30000 } }
    (after (.temperatureReading (some (-40))) s).supply.reading = some (-40) ∧
    (after (.temperatureReading (some 85)) s).supply.readingsAsked = 0 ∧
    (after (.temperatureReading none) s).reporter.unwritten.map (·.words) = [[0x72000000, 0, 0x00000155, 0]] ∧
    (after .readingTimerExpiry s).supply.readingsAsked = 2 ∧
    (let q : State := { panel0 with reporter := { (panel0.reporter) with pulse := true, pulsesQueued := 1 } }
     (after .interruptPulseEnd q).interruptLine = true ∧ (after .interruptPulseEnd (after .interruptPulseEnd q)).interruptLine = false) ∧
    (after .timeStampTick { panel0 with time := 0xFFFFFFFF }).time = 0 := by decide +kernel

/-- A counted entry asserts the line when the Produced Count is written: LEVEL sets attention (R156). -/
theorem test_interrupt_level :
    let s := run0.raise (.panelFault 3)
    let t := after (.downstreamGrant false 1) (after (.downstreamGrant false 0) s)
    t.reporter.attention = true ∧ t.interruptLine = true ∧ t.mem.word 0x1F44000 = 0x00010001 := by decide +kernel

/-! ## Further clauses of the statements, each on a state that meets its hypotheses -/

/-- The free port grants an engine, as `State.grantsTo` says it. -/
def grants (s : State) (needs : Bool) (pick : Nat) (e : EngineName) : Bool :=
  s.portReady && !s.port.refreshRequest && !(s.raiseScan needs).scanner.request && !s.relayRequests &&
  decide (s.engineInTurn pick = some e) && s.grantInMemory pick (.engine e)

/-- The grant made to an engine leaves a state with the turn pointer past the engine. -/
def leaves (s : State) (pick : Nat) (e : EngineName) (want : State) : Bool :=
  grants s false pick e && yields (.downstreamGrant false pick) s { want with port := { (want.port) with turn := e.after } }

/-- A slot and a repair side by side. -/
theorem test_witness_RequestsStayBounded_repairs :
    let s0 := driving .on (slotOf .active 0 2)
    let s : State := { s0 with updates := { (s0.updates) with repairs := [{ ask none 2 4 with mode := .clean, repair := true }] } }
    s.repairsBounded := by
  refine ⟨?_, ?_, ?_, by decide +kernel⟩
  · have h : ∀ u v : Fin 15, u ≠ v →
        (match (driving .on (slotOf .active 0 2)).update u, (driving .on (slotOf .active 0 2)).update v with
         | some x, some y => x.rect.overlaps y.rect | _, _ => false) = false := by decide +kernel
    intro u v x y huv (hx : (driving .on (slotOf .active 0 2)).update u = some x)
      (hy : (driving .on (slotOf .active 0 2)).update v = some y)
    have := h u v huv
    simpa [hx, hy] using this
  · decide +kernel
  · have h : ∀ u : Fin 15, (match (driving .on (slotOf .active 0 2)).update u with
        | some x => x.rect.overlaps (ask none 2 4).rect | _ => false) = false := by decide +kernel
    intro p hp u x (hx : (driving .on (slotOf .active 0 2)).update u = some x)
    have : p = { ask none 2 4 with mode := .clean, repair := true } := by simpa using hp
    subst this
    have := h u
    simpa [hx] using this

/-- A loss with ready back by the frame end: ON again, and word 10 is marked (R138, R148, R152). -/
theorem test_witness_MarksFollowChanges_bounce :
    let s0 := frameDone { slotOf .active 0 2 with counter := 3 } true
    let s : State := { s0 with supply := { (s0.supply) with readyLine := true } }
    s.scanInHand = none ∧ (after .frameEnd s).supply.panel = .on ∧ (after .frameEnd s).reporter.marks.getLsbD 10 = true ∧
    (after .frameEnd s).update 0 = some { slotOf .frozen 0 2 with counter := 4 } := by decide +kernel

/-- A frame over a word whose pixel 3 goes from 0 to 15: the Panel word, the Prior word, one drive code of an empty store,
3; the word is delivered, and the words that no slot covers have hold codes (R144). -/
theorem test_witness_GrantOrder_scanner :
    let s : State := { scanning with mem := (Memory.setByte [] 0x1A00001 0xF0) }
    let g := after (.downstreamGrant true 0)
    s.scanInHand.isSome = true ∧ s.grantInMemory 0 .scanner = true ∧
    (g (g s)).scanner.frame = some { next := 0, panel := some 0xFFFFFFFF, prior := some 0xFFFFF0FF, codes := [0, 0, 0] } ∧
    (g (g (g s))).linkCodes 0 = [0, 0, 0, 3, 0, 0, 0, 0] ∧ (g (g (g s))).linkCodes 8 = List.replicate 8 0 ∧
    (g (g (g s))).scanner.frame = some { next := 1, panel := none, prior := none, codes := [] } ∧
    (g (g (g s))).scanner.request = false := by decide +kernel

theorem test_witness_GrantOrder_circle :
    EngineName.past .composer .reporter = 2 ∧ EngineName.past .reporter .reporter = 0 ∧
    EngineName.past .slotLoader .reporter = 4 ∧ EngineName.after .waveformCheck = .composer := by decide +kernel

/-- The scanner's raised request goes ahead of a read (R7). -/
theorem test_witness_HostReadBeat_scanner :
    (after (.hostReadBeat 0x10) (scanning.raiseScan true)).relay = .reading 0x10 := by decide +kernel

/-- Faults after the first are counted alone, up to 65535 (R155). -/
theorem test_witness_HostWriteBeat_faults :
    let s : State := { path0 with reporter := { (path0.reporter) with faultCount := 65535, faultAddr := 7 } }
    yields (.hostWriteBeat 0x4000 5 15) s s = true ∧
    (after (.hostWriteBeat 0x4000 5 15) path0).reporter.unwritten.map (·.words) = [[0x10030000, 0, 0x4000, 0]] := by
  decide +kernel

/-- A part that wakes serves a read below the memory size and a write; one that is initialized serves the held beat. -/
theorem test_witness_StartUpAndDoze_served :
    let asleep (b : Beat) : State := { run0 with relay := .held b, doze := { dozing := true, timer := none } }
    yields .dozeWake (asleep (.read 0x10)) { run0 with readData := 0xFFFFFFFF } = true ∧
    yields .dozeWake (asleep (.write (writeAt 0x2000 5))) { run0 with relay := .writing (writeAt 0x2000 5) .nobody } = true ∧
    (after .sdramInitializationEnd { State.reset with relay := .held (.read 0x10) }).readData = 0xFFFFFFFF ∧
    (after .sdramInitializationEnd { State.reset with relay := .held (.read 0x10) }).startup = .clearing 0 ∧
    yields .dozeTimerExpiry (landing .nobody (writeAt 0x2000 5) idle0) (landing .nobody (writeAt 0x2000 5) idle0) = true := by
  decide +kernel

/-- The last grants of a clearing: the last word of each image of 9 words, and the last words of the Report Area. -/
theorem test_witness_StartUpAndDoze_clearing :
    let clearing (n : Nat) : State := { run0 with loader := { load := none, clear := some { words := 9, next := n } } }
    leaves (clearing 8) 0 .slotLoader
      { clearing 9 with mem := Memory.setWords [] 0x1A00020 [0xFFFFFFFF] } = true ∧
    leaves (clearing 17) 0 .slotLoader
      { run0 with mem := Memory.setWords [] (0x1A00000 + 0x280020) [0xFFFFFFFF] } = true ∧
    leaves { run0 with startup := .clearing 60 } 0 .reporter
      { run0 with startup := .clearing 68, mem := Memory.setWords [] (0x1F44000 + 240) (List.replicate 8 0) } = true ∧
    leaves { run0 with startup := .clearing 1020 } 0 .reporter
      { run0 with startup := .clearing 1024, mem := Memory.setWords [] (0x1F44000 + 4080) (List.replicate 4 0) } = true := by
  decide +kernel

/-- A word before the last, and a broken write in BODY (R20, R23). -/
theorem test_witness_RecordCompletes_other :
    let t := after .controlRingWrite (ringWrite collecting0 5 9)
    let b := after .controlRingWrite (ringWrite collecting0 5 9 7)
    t.decoder.state = .body 4 [BitVec.ofNat 32 (hdr 0x23 3 0 0), 9] ∧ t.decoder.ep = 6 ∧ t.decoder.stall = some 20 ∧
    b.decoder.state = .hunt ∧ b.decoder.huntCount = 1 ∧ b.decoder.skipped = 1 ∧ b.decoder.ep = 6 ∧
    b.reporter.unwritten.map (·.words) = [[0x02010000, 0, 0x23000004, 1]] := by decide +kernel

/-- Records of one word, in SYNC at the end of the ring and at the end of a hunt of five words, with LOW_SPACE (R18, R22,
R27), and an overrun one. -/
theorem test_witness_HeaderStartsOrIsHeld_one :
    let at_ (st : DecoderState) (ep : BitVec 12) : State :=
      { run0 with decoder := { (run0.decoder) with state := st, ep := ep, huntCount := 5 } }
    (after .controlRingWrite (ringWrite (at_ .sync 4092) 4092 (hdr 0x21 1 0 0))).decoder =
      { (run0.decoder) with ep := 0, gap := [4093, 4094, 4095], huntCount := 5 } ∧
    (let s : State := { at_ .hunt 8 with tune := { (run0.tune) with highMark := 0 } }
     let t := after .controlRingWrite (ringWrite s 8 (hdr 0x21 1 0 0))
     t.queue.length = 1 ∧ t.decoder.huntCount = 0 ∧ t.decoder.lowSpace = true ∧
     t.reporter.unwritten.map (·.words) = [[0x04000000, 0, 8, 5], [0x06000000, 0, 1, 0]]) ∧
    (let s : State := { nearlyFull with
       queue := { offset := 0, words := [0] } :: nearlyFull.queue, tune := { (run0.tune) with holdLimit := 0 } }
     let t := after .controlRingWrite (ringWrite s 0 (hdr 0x21 1 0 0))
     s.hasRoom 1 = false ∧ t.decoder.state = .sync ∧ t.decoder.ep = 4 ∧
     t.reporter.unwritten.map (·.words) = [[0x03000000, 0, 0x21000000, 1]]) := by decide +kernel

/-- A valid header of NOP away from a boundary is skipped in HUNT, and the counts stop at 65535 (R22). -/
theorem test_witness_HeaderStartsOrIsHeld_hunt :
    let s : State := { run0 with decoder :=
      { (run0.decoder) with state := .hunt, ep := 9, huntCount := 65535, skipped := 65535 } }
    yields .controlRingWrite (ringWrite s 9 (hdr 0 1 0 0))
      { s with decoder := { (s.decoder) with ep := 10 }, mem := Memory.setWord [] 0x1F40024 (BitVec.ofNat 32 (hdr 0 1 0 0)) } =
    true := by decide +kernel

theorem test_witness_HoldEnds_one :
    (let s : State := { run0 with
      relay := (.ringHold (writeAt 0x1F40000 (hdr 0x21 1 0 0))), decoder := { (run0.decoder) with hold := some 32 } }
     let t := after .holdReleaseOnRoom s
     t.queue.length = 1 ∧ t.decoder = { (run0.decoder) with ep := 4, gap := [1, 2, 3] } ∧
     yields .holdTimerExpiry s s = true) ∧
    (let s : State := { nearlyFull with
      queue := { offset := 0, words := [0] } :: nearlyFull.queue
      relay := (.ringHold (writeAt 0x1F40000 (hdr 0x21 1 0 0))), decoder := { (nearlyFull.decoder) with hold := some 32 } }
     let t := after .holdTimerExpiry s
     t.decoder.state = .sync ∧ t.decoder.ep = 4 ∧ t.decoder.hold = none) := by decide +kernel

/-- A copy of the last three words of an image, and the refusals (R40, R45, R46). -/
theorem test_witness_PageCopied_grants :
    let c : Copying := { dest := 0, sourceBase := 0x3000, destBase := 0, next := 1021, total := 1024, buffer := [] }
    let s : State := { live0 with composer := .copying c }
    let t := after (.downstreamGrant false 0) { s with composer := .copying { c with buffer := [1, 2, 3] } }
    leaves s 0 .composer { s with composer := .copying { c with buffer := List.replicate 3 0xFFFFFFFF } } = true ∧
    t.composer = .ended ∧ t.mem = Memory.setWords [] 4084 [1, 2, 3] ∧ (t.page 0).dirty = 1#5120 <<< 83 ∧
    (t.page 0).latency = some 40 := by decide +kernel

theorem test_witness_PageCopied_refused :
    let s : State := { (page0.setPage 1 { PageSlot.reset with region := some 1 }) with
      notes := List.replicate 33 note0 ++ List.replicate 30 { note0 with slot := 2 } }
    let r (src : Nat) := [hdr 0x22 2 1 0, src]
    yields .pageCopy (taken s (r 3)) ((taken s (r 3)).refused (recOf (r 3)) .notOpen) = true ∧
    yields .pageCopy (taken s (r 1)) ((taken s (r 1)).refused (recOf (r 1)) .badField) = true ∧
    yields .pageCopy (taken s (r 0)) ((taken s (r 0)).refused (recOf (r 0)) .notesFull) = true := by decide +kernel

/-- Painting pixels 3 to 19 of two rows: a word read and written back, a word written whole, and the next row. -/
theorem test_witness_FillBegins_grants :
    let p : Painting := {
      slot := 0, base := 0, stride := 64, row := 31, col := 0, held := none
      paints := [{ rect := { left := 3, top := 31, right := 19, bottom := 33 }, op := .set, tone := 4 }] }
    let s (q : Painting) : State := { page0 with composer := .painting q }
    let t := after (.downstreamGrant false 0) (s { p with held := some 0xFFFFFFFF })
    leaves (s p) 0 .composer (s { p with held := some 0xFFFFFFFF }) = true ∧
    t.composer = .painting { p with col := 1 } ∧ t.mem = Memory.setWord [] (31 * 64) 0x4444F4FF ∧ (t.page 0).dirty = 1 ∧
    (after (.downstreamGrant false 0) (s { p with col := 1 })).composer = .painting { p with col := 2 } ∧
    (after (.downstreamGrant false 0) (s { p with col := 1 })).mem = Memory.setWord [] (31 * 64 + 4) 0x44444444 ∧
    (after (.downstreamGrant false 0) (s { p with col := 2, held := some 0 })).composer = .painting { p with row := 32 } ∧
    (after (.downstreamGrant false 0) (s { p with row := 32, col := 2, held := some 0 })).composer = .ended := by
  decide +kernel

/-- SET at a point left of and below the column: clamped to its left and to its last row; no codes, and one glyph there
overflows, as 289 + 4 exceeds 290 (R69, R77, R79). -/
theorem test_witness_GlyphRunBegins_set :
    let none_ := [hdr 0x24 3 0 9, 7 * 65536 + 0x1000, 0x10000000 + 20 * 4096 + 400]
    let one := [hdr 0x24 4 0 9, 7 * 65536 + 0x1001, 0x10000000 + 20 * 4096 + 400, 0x00610000]
    let k : Cursor := { pen := 1600, baseline := 289, full := false, lineHolds := false, pendingSpace := 0 }
    (recOf none_).runPlacement = 1 ∧ (recOf none_).runCount = 0 ∧
    yields .glyphRunSet (taken text0 none_) ((taken text0 none_).setCursor 0 0 k).ended = true ∧
    yields .glyphRunSet (taken text0 one)
      (((taken text0 one).setCursor 0 0 { k with full := true }).raise (.overflow 9 7 0 0 0)).ended = true := by decide +kernel

/-- Two cached glyphs of no ink whose second extent is the column's right: 251 and 260, 1600 + 16 × 151 and ten more. -/
theorem test_witness_GlyphRunBegins_word :
    let r := [hdr 0x24 4 0 9, 7 * 65536 + 0x1002, 0x10000000 + 250 * 4096 + 220, 0x00610061]
    let s := { text0 with cache := text0.cache.map (fun e => { e with glyph := { e.glyph with height := 0 } }) }
    let t := after .glyphRunSet (taken s r)
    (t.page 0).log =
      [{ runId := 7, first := 0, count := 2, column := 0, baseline := 220, xLeft := 250, xRight := 260, font := 1 }] ∧
    t.cursor 0 0 = { pen := 270 * 16, baseline := 220, full := false, lineHolds := true, pendingSpace := 0 } ∧
    t.composer = .ended := by decide +kernel

/-- A code that is not cached waits for its entry, which is installed in the lowest free cache entry (R61, R62). -/
theorem test_witness_GlyphRunBegins_miss :
    let r := [hdr 0x24 4 0 9, 7 * 65536 + 0x1001, 0x10000000 + 120 * 4096 + 220, 0x00620000]
    let s : State := { text0 with mem := Memory.setWords [] (0x200000 + 8 * 98) [160, 0] }
    let t := after .glyphRunSet (taken s r)
    let u := after (.downstreamGrant false 0) t
    grants t false 0 .composer = true ∧ t.cache = text0.cache ∧
    u.cache =
      { number := 2, font := 1, code := 98, bad := false
        glyph := { bitmap := 0, width := 0, height := 0, bearingX := 0, bearingY := 0, advance := 160 } } :: text0.cache ∧
    (u.page 0).log.map (fun e => (e.xLeft, e.xRight)) = [(120, 120)] ∧ u.composer = .ended := by decide +kernel

/-- A blended word is written back and marks its tile. -/
theorem test_witness_GlyphRunBegins_blend :
    let w : Touch := { addr := 64 * 31 + 16, coverage := [15, 0, 0, 0, 0, 0, 0, 0] }
    let run : Run :=
      { (recOf [hdr 0x24 3 0 0, 0, 0]).run with
        tone := 0, blits := [{ left := 32, top := 31, width := 1, height := 2, bitmap := 0x200000 }]
        drawing := .blend [w, { w with addr := 64 * 32 + 16 }] (some 0xFFFFFFFF) }
    let s : State := { page0 with composer := .running run }
    let t := after (.downstreamGrant false 0) s
    grants s false 0 .composer = true ∧ t.mem = Memory.setWord [] (64 * 31 + 16) 0xFFFFFF0F ∧ (t.page 0).dirty = 2 ∧
    t.composer = .running { run with drawing := .blend [{ w with addr := 64 * 32 + 16 }] none } := by decide +kernel

/-- A check that passes in FAILED with a slot READY goes to RISING, or to ON with ready asserted; with the slot ACTIVE, or
with a changed geometry, it is BUSY (R140, R141). -/
theorem test_witness_WaveformCheckEnds_failed :
    let s (st : UpdateState) (line : Bool) (g : Nat) : State :=
      let c := checked0 (some { width := g, height := 64 }) false
      { c with
        supply := { (c.supply) with panel := .failed, readyLine := line }
        updates := { (c.updates) with slots := c.updates.slots.set 3 (some (slotOf st 0 2)), order := [3] } }
    (after .waveformCheckEnd (s .ready false 128)).supply.panel = .rising ∧
    (after .waveformCheckEnd (s .ready false 128)).supply.riseTimer = some 25 ∧
    (after .waveformCheckEnd (s .ready true 128)).supply.panel = .on ∧
    (after .waveformCheckEnd (s .ready true 128)).supply.readingsAsked = 1 ∧
    (after .waveformCheckEnd (s .active false 128)).reporter.unwritten.map (·.words) = [[0x01080300, 0, 0x0C000000, 0]] ∧
    (after .waveformCheckEnd (s .ready false 64)).composer = .ended ∧
    (after .waveformCheckEnd (s .ready false 64)).supply.valid = false := by decide +kernel

/-- The first LOAD from UNCONFIGURED with an entry waiting: UPDATE_CANCELLED of source PANEL (R120, R141). -/
theorem test_witness_WaveformCheckEnds_first :
    let c := checked0 none false
    let s : State := { c with
      supply := { (c.supply) with panel := .unconfigured }, commit := { (c.commit) with pending := [ask none 0 2] } }
    let t := after .waveformCheckEnd s
    t.commit.pending = [] ∧ t.updates.due = true ∧ t.supply.panel = .unconfigured ∧
    t.supply.check = some { next := 32832, sum := 99, spoilt := false, clearing := true } ∧
    t.reporter.unwritten.map (·.words) = [[0x6122FF00, 0, 0x00070000, 0]] := by decide +kernel

/-- The last grant of a check sums the last eight words of the store. -/
theorem test_witness_WaveformCheckEnds_grant :
    let s (n : Nat) (sum : Word) : State := { run0 with
      composer := .atSupply
      supply := { (run0.supply) with check := some { next := n, sum := sum, spoilt := false, clearing := false } } }
    leaves (s 32824 99) 0 .waveformCheck (s 32832 91) = true := by decide +kernel

/-- REFRESH merges into a PANEL entry and keeps CLEAN; on a full list of other sources it waits with its number. -/
theorem test_witness_RefreshRequests_merge :
    let r := [hdr 0x31 3 0 0, 0x10000000 + 64 * 65536, 128 * 65536 + 32]
    let old := { ask none 0 2 with mode := .clean }
    let s (p : List Request) : State := { taken page0 r with commit := { (page0.commit) with pending := p } }
    let full := List.replicate 32 (ask (some 1) 0 4)
    (after .refresh (s [old])).commit.pending =
      [{ old with rect := { left := 0, top := 0, right := 4, bottom := 1 }, commits := [7, 1] }] ∧
    (after .refresh (s [old])).composer = .ended ∧ (after .refresh (s full)).composer = .atCommitEngine ∧
    (after .refresh (s full)).commit.state =
      .waiting { origin := .refresh, mode := some .grey, number := 1 }
        { ask none 2 4 with mode := .grey, commits := [1] } := by decide +kernel

/-- A diff of a live page's auto-commit that finds nothing, with tiles marked behind the walk (R49, R111, R118). -/
def autoDiff (bounds : Option Rect) : State :=
  { (live0.setPage 0 { live0.page 0 with inCommit := true, dirty := 1 }) with
    commit := { state := (.diffing { origin := .auto 0, mode := none, number := 9 }
      { next := 2, bounds := bounds, grey := false, visit := none }), nextNumber := 10, pending := [] } }

/-- The same while a PAGE_DISCARD of the page waits (R43). -/
def autoDiffDiscard (bounds : Option Rect) : State := taken (autoDiff bounds) [hdr 0x21 1 0 5]

theorem test_witness_DiffVisitsAndEnds_live :
    let rect : Rect := { left := 0, top := 0, right := 1, bottom := 1 }
    (autoDiff none).nextMarked 0 2 = none ∧
    (after .diffEnd (autoDiff none)).reporter.unwritten.map (·.words) = [[0x50000000, 0, 0x01000009, 0]] ∧
    (after .diffEnd (autoDiff none)).page 0 = { live0.page 0 with dirty := 1, latency := some 40 } ∧
    (after .diffEnd (autoDiff (some rect))).commit.pending.map (·.mode) = [.pen] ∧
    (after .diffEnd (autoDiff (some rect))).composer = .idle := by decide +kernel

/-- A waiting discard takes effect at the end of the commit: the page is CLOSED, the request appended and cancelled, and
word 9 is marked though the number of entries is as before (R43, R44, R119, R152). -/
theorem test_witness_DiffVisitsAndEnds_discard :
    let t := after .diffEnd (autoDiffDiscard (some { left := 0, top := 0, right := 1, bottom := 1 }))
    t.page 0 = PageSlot.reset ∧ t.commit.pending = [] ∧ t.composer = .ended ∧ t.updates.due = true ∧
    t.commit.state = .idle ∧ t.reporter.marks.getLsbD 9 = true ∧
    t.reporter.unwritten.map (·.words) = [[0x61230000, 0, 0x00090000, 0]] ∧
    (after .diffEnd (autoDiffDiscard none)).reporter.unwritten.map (·.words) = [[0x50000000, 0, 0x01000009, 0]] ∧
    (after .diffEnd (autoDiffDiscard none)).page 0 = PageSlot.reset := by decide +kernel

/-- The last row of a visit: pixel 9 of the row goes from 15 to 14, which an auto-commit sees as grey (R108). -/
theorem test_witness_DiffVisitsAndEnds_compare :
    let s (v : Option Visit) (next : Nat) (b : Option Rect) (grey : Bool) : State := { autoDiff none with
      commit := { (autoDiff none).commit with state := (.diffing { origin := .auto 0, mode := none, number := 9 }
        { next := next, bounds := b, grey := grey, visit := v }) } }
    let v : Visit := { i := 3, j := 1, row := 31, draft := none, changed := false, grey := false }
    leaves (s (some v) 7 none false) 0 .commitEngine
      (s (some { v with draft := some (List.replicate 4 0xFFFFFFFF) }) 7 none false) = true ∧
    leaves (s (some { v with draft := some [0xFFFFFFFF, 0xFFFFFFFE, 0xFFFFFFFF, 0xFFFFFFFF] }) 7 none false) 0 .commitEngine
      (s none 8 (some { left := 3, top := 1, right := 4, bottom := 2 }) true) = true := by decide +kernel

/-- PENDING_RETRY of a live page's auto-commit with a waiting discard; and of a REFRESH. -/
theorem test_witness_PendingRetried_other :
    let s : State := { (live0.setPage 0 { live0.page 0 with inCommit := true, dirty := 1 }) with
      composer := .taken, queue := [recOf [hdr 0x21 1 0 5]]
      commit := { state := (.waiting { origin := .auto 0, mode := none, number := 7 } (ask (some 0) 0 2)), nextNumber := 8,
                  pending := [ask (some 1) 0 2] } }
    let r : State := { page0 with
      composer := .atCommitEngine
      commit := { state := (.waiting { origin := .refresh, mode := some .clean, number := 7 } (ask none 0 2)), nextNumber := 8,
                  pending := [ask none 2 4, ask (some 1) 2 3] } }
    (after .pendingRetry s).commit.pending = [ask (some 1) 0 2] ∧ (after .pendingRetry s).page 0 = PageSlot.reset ∧
    (after .pendingRetry { s with composer := .idle }).page 0 = { live0.page 0 with dirty := 1, latency := some 40 } ∧
    (after .pendingRetry r).commit.pending = [ask none 2 4, ask (some 1) 2 3, ask none 0 2] ∧
    (after .pendingRetry r).composer = .ended := by decide +kernel

/-- Slot 0 taken: the entry takes slot 1; one that overlaps slot 0 waits, and so does one that overlaps that one (R126). -/
theorem test_witness_ConsiderationStarts_waits :
    let s0 := driving .on (slotOf .active 0 2)
    let s (p : List Request) : State :=
      { s0 with updates := { (s0.updates) with due := true }, commit := { (s0.commit) with pending := p } }
    (after .startConsideration (s [ask none 2 4])).updates.order = [0, 1] ∧
    ((after .startConsideration (s [ask none 2 4])).update 1).isSome = true ∧
    (after .startConsideration (s [ask none 1 3])).commit.pending = [ask none 1 3] ∧
    (after .startConsideration (s [ask none 1 3, ask none 2 4])).commit.pending = [ask none 1 3, ask none 2 4] := by
  decide +kernel

/-- A repair and an entry: side by side both start, the repair first; over a shared tile the entry waits. -/
theorem test_witness_ConsiderationStarts_repair :
    let s (p e : Request) : State := { panel0 with
      updates := { (panel0.updates) with due := true, repairs := [p] }, commit := { (panel0.commit) with pending := [e] } }
    let both := after .startConsideration (s { ask none 0 2 with mode := .clean } (ask none 2 4))
    let one := after .startConsideration (s { ask none 0 2 with mode := .clean } (ask none 1 4))
    both.updates.order = [0, 1] ∧ (both.update 0).map (·.rect.left) = some 0 ∧ (both.update 1).map (·.rect.left) = some 2 ∧
    both.updates.repairs = [] ∧ both.commit.pending = [] ∧
    one.updates.order = [0] ∧ one.commit.pending = [ask none 1 4] := by decide +kernel

/-- The pieces of a load: a TEXT piece of a page source whose first pixel alone changes reads the Prior piece and writes
both; a CLEAN piece of a PANEL source writes the Prior piece; an unchanged one is passed (R130, R131). -/
theorem test_witness_LoadingCompletes_pieces :
    let x : Update := { slotOf .loading 0 2 with source := some 0, draftBase := some 0 }
    let s (x : Update) (l : Load) : State := { driving .on x with loader := { load := some l, clear := none } }
    let l (p : LoadPhase) : Load := { row := 31, col := 1, phase := p }
    let w := List.replicate 4 (0xFFFFFFFF : Word)
    let old := (0xFFFFFF0F : Word) :: List.replicate 3 0xFFFFFFFF
    let next : Load := { row := 32, col := 0, phase := .readPanel }
    leaves (s x (l .readPanel)) 0 .slotLoader (s x (l (.readDraft w))) = true ∧
    leaves (s x (l (.readDraft old))) 0 .slotLoader (s x (l (.readPrior old w))) = true ∧
    leaves (s x (l (.readPrior old w))) 0 .slotLoader (s x (l (.writePrior old (some w)))) = true ∧
    leaves (s x (l (.writePrior old (some w)))) 0 .slotLoader
      { s x (l (.writePanel w)) with mem := Memory.setWords [] (0x1A00000 + 31 * 64 + 16) old } = true ∧
    leaves (s x (l (.writePanel w))) 0 .slotLoader (s x next) = true ∧
    leaves (s (slotOf .loading 0 2) (l .readPanel)) 0 .slotLoader (s (slotOf .loading 0 2) next) = true ∧
    leaves (s { slotOf .loading 0 2 with mode := .clean } (l .readPanel)) 0 .slotLoader
      (s { slotOf .loading 0 2 with mode := .clean } (l (.writePrior w none))) = true := by decide +kernel

/-- A reading that arrives after a reset has forgotten that it was asked for is taken (R147). -/
theorem test_witness_ReadingsPulsesAndTicks_after_reset :
    (after (.temperatureReading (some 23)) (after (.reset 0) panel0)).supply.reading = some 23 := by decide +kernel

/-- At eight rectangles, one dropped and its equal passed over: one is dropped in all (R94). -/
theorem test_highlight_dropped_once :
    let r (n : Nat) : Rect := { left := n, top := 0, right := n + 1, bottom := 1 }
    let held := (List.range 8).map r
    let l (n : Nat) : LineRect := { rect := r n, baseline := 0 }
    takeRects held [l 3, l 9, l 9] = ([], 1) ∧ takeRects (held.take 7) [l 9, l 9, l 10, l 3, l 10] = ([l 9], 1) := by
  decide +kernel

/-! ## Clauses on the port, the ring, TUNE, regions and pages -/

/-- The start order of one slot, and of none (R122). -/
theorem test_witness_SlotRectanglesStayDisjoint_order :
    (driving .on (slotOf .active 0 2)).orderLaw ∧ State.reset.orderLaw := by
  unfold State.orderLaw; decide +kernel

/-- A read that waits, of the last word below the memory size, and writes that wait, to nobody and into a page. -/
theorem test_witness_HostReadBeat_granted :
    (let s : State := { run0 with relay := .reading 0x1FFFFFF }
     (s.raiseScan true).scanner.request = false ∧
     yields (.downstreamGrant true 0) s { run0 with readData := 0xFFFFFFFF } = true) ∧
    (let s := landing .nobody (writeAt 0x2000 0x11223344 5)
     s.heldWord = none ∧ yields (.downstreamGrant true 0) s (after .hostWriteLands s) = true ∧
     (after .hostWriteLands s).relay = .idle) ∧
    (let s := landing (.page 0 4092) (writeAt 4092 0) live0
     yields (.downstreamGrant false 0) s (after .draftWrite s) = true ∧ ((after .draftWrite s).page 0).settle = some 8) := by
  decide +kernel

/-- A record torn where its release brings the used words to the low mark, 8 (R27; log entry 12). -/
def collectingLow : State :=
  { collecting0 with
    queue := [{ offset := 0, words := List.replicate 8 0 }], tune := { (run0.tune) with lowMark := 1 }
    decoder := { (collecting0.decoder) with lowSpace := true } }

theorem test_witness_StallEndsRecord_space_again :
    let again : List Word := [0x07000000, 0, 8, 0]
    let told (s : State) := s.reporter.unwritten.map (·.words)
    ({ collectingLow with decoder := { (collectingLow.decoder) with state := .hunt } } : State).usedWords = 8 ∧
    told (after .stallTimerExpiry collectingLow) = [again, [0x02020000, 0, 0x23000004, 1]] ∧
    told (after .controlRingWrite (ringWrite collectingLow 5 9 7)) = [again, [0x02010000, 0, 0x23000004, 1]] ∧
    told (after .restart (ringWrite collectingLow 0 (hdr 0x01 1 0 3))) =
      [again, [0x02030000, 0, 0x23000004, 1], [0x05000300, 0, 0, 1]] ∧
    (after .restart (ringWrite collectingLow 0 (hdr 0x01 1 0 3))).decoder = { (run0.decoder) with ep := 4 } := by
  decide +kernel

/-- RESTART consumed at EP: at offset 0 in SYNC, and at a boundary at the end of a hunt of five words (R25). -/
theorem test_witness_RestartSetsStreamBack_at_EP :
    (let s := ringWrite { run0 with decoder := { (run0.decoder) with gap := [1, 2] } } 0 (hdr 0x01 1 0 3)
     s.decoder.ep = 0 ∧ (after .restart s).decoder = { (run0.decoder) with ep := 4 } ∧
     (after .restart s).reporter.unwritten.map (·.words) = [[0x05000300, 0, 0, 0]]) ∧
    (let s := ringWrite
       { run0 with decoder := { (run0.decoder) with state := .hunt, ep := 4092, huntCount := 5 } } 4092 (hdr 0x01 1 0 3)
     (after .restart s).decoder = { (run0.decoder) with ep := 4 } ∧
     (after .restart s).reporter.unwritten.map (·.words) = [[0x04000300, 0, 4092, 5], [0x05000300, 0, 0, 0]]) := by
  decide +kernel

/-- A TUNE of the fields given by their lowest bits, widths and values, all others unchanged. -/
def tuneRec (fields : List (Nat × Nat × Nat)) : List Nat :=
  let n := fields.foldl (fun n f => n - (2 ^ f.2.1 - 1 - f.2.2) * 2 ^ f.1) (2 ^ 96 - 1)
  [hdr 0x02 4 0 0, n / 2 ^ 64, n / 2 ^ 32 % 2 ^ 32, n % 2 ^ 32]

/-- A TUNE back to LEVEL drops the queued pulses; one that brings a mark to the 64 used words raises LOW_SPACE, of a
disabled class, or SPACE_AGAIN (R32, R33, R156; log entries 14 and 30). -/
theorem test_witness_TuneClamps_events :
    (let s0 := taken run0 (tuneRec [(20, 2, 0)])
     let s : State :=
       { s0 with tune := { (run0.tune) with pulseMode := true }, reporter := { (run0.reporter) with pulsesQueued := 3 } }
     yields .tune s { s0 with composer := .ended } = true) ∧
    (let more : Record := { offset := 4, words := List.replicate 60 0 }
     let low := taken run0 (tuneRec [(69, 9, 8), (60, 9, 0), (11, 9, 0xFE)])
     let s : State := { low with queue := low.queue ++ [more] }
     let tuned : State := { s with
       tune := { (run0.tune) with highMark := 8, lowMark := 0, classMask := 0xFE }
       decoder := { (run0.decoder) with lowSpace := true } }
     s.usedWords = 64 ∧ yields .tune s (tuned.raise (.lowSpace 64)).ended = true ∧
     (after .tune s).reporter.unwritten.map (·.enabled) = [false]) ∧
    (let more : Record := { offset := 4, words := List.replicate 60 0 }
     let again := taken run0 (tuneRec [(69, 9, 9), (60, 9, 8)])
     let s : State := { again with
       queue := again.queue ++ [more], decoder := { (run0.decoder) with lowSpace := true }
       tune := { (run0.tune) with lowMark := 7 } }
     let tuned : State := { s with
       tune := { (run0.tune) with highMark := 9, lowMark := 8 }, decoder := run0.decoder }
     yields .tune s (tuned.raise (.spaceAgain 64)).ended = true) := by decide +kernel

/-- A bound region emptied; a region that ends where another begins, and one unit further; undefined codes (R11). -/
theorem test_witness_RegionAndLock_refused :
    let refusedWith (s : State) (r : List Nat) (why : Reason) : Bool :=
      yields .region (taken s r) ((taken s r).refused (recOf r) why)
    page0.entryBound 0 = true ∧ refusedWith page0 [hdr 0x08 3 0 0, 0, 0] .bound = true ∧
    refusedWith page0 [hdr 0x08 3 0 0, 0x100, 1] .bound = true ∧
    (after .region (taken panel0 [hdr 0x08 3 0 0, 0x203, 0x01FF0001])).regions[3] =
      some { base := 511, size := 1, kind := .plain, absorb := false } ∧
    refusedWith panel0 [hdr 0x08 3 0 0, 0x203, 0x01FF0002] .overlap = true ∧
    refusedWith panel0 [hdr 0x08 3 0 0, 0x303, 0x01FF0001] .badField = true ∧
    refusedWith panel0 [hdr 0x08 3 0 0, 0x2203, 0x01FF0001] .badField = true := by decide +kernel

/-- The refusals of PAGE_OPEN in their order; a region of one unit is one byte short for 128 × 65 (R35). -/
theorem test_witness_PageOpens_refused :
    let refusedWith (s : State) (r : List Nat) (why : Reason) : Bool :=
      yields .pageOpenKeepClean (taken s r) ((taken s r).refused (recOf r) why)
    let r (slot region : Nat) := [hdr 0x20 3 slot 4, 0x10 + region, 77]
    refusedWith run0 (r 0 0) .unconfigured = true ∧ refusedWith page0 (r 0 5) .inUse = true ∧
    refusedWith page0 (r 1 5) .badField = true ∧ refusedWith page0 (r 1 1) .badField = true ∧
    refusedWith { panel0 with supply := { (panel0.supply) with geometry := some { width := 128, height := 65 } } } (r 1 0)
      .tooSmall = true ∧
    refusedWith page0 (r 1 0) .bound = true := by decide +kernel

/-! ## Text, clause by clause -/

/-- Two codes of a GLYPH_RUN record to a word. -/
def codeWords : List Nat → List Nat
  | a :: b :: rest => (a * 65536 + b) :: codeWords rest
  | [a] => [a * 65536]
  | [] => []

/-- A GLYPH_RUN of run 7 and tag 9 in font slot 1 and column 0, with CONTINUE. -/
def runRec (codes : List Nat) : List Nat :=
  [hdr 0x24 (3 + (codes.length + 1) / 2) 0 9, 7 * 65536 + codes.length, 0x10000000] ++ codeWords codes

/-- A cursor on a line that holds a glyph, or holds none. -/
def cursorAt (pen baseline : Nat) (lineHolds : Bool := false) (pendingSpace : Nat := 0) : Cursor :=
  { pen := pen, baseline := baseline, full := false, lineHolds := lineHolds, pendingSpace := pendingSpace }

/-- The page of the worked layout with its cursor, its log and further cached entries of its font. -/
def textAt (k : Cursor) (log : List LogEntry := []) (more : List CacheEntry := []) : State :=
  let s := text0.setPage 0 { text0.page 0 with cursors := (text0.page 0).cursors.set 0 k, log := log }
  { s with cache := s.cache ++ more }

/-- What the log of page slot 0 says: first index, count, baseline, x left, x right. -/
def logOf (s : State) : List (Nat × Nat × Nat × Int × Int) :=
  (s.page 0).log.map (fun e => (e.first, e.count, e.baseline, e.xLeft, e.xRight))

/-- The state after a CONTINUE run of the codes, before its first grant. -/
def ranOn (s : State) (codes : List Nat) : State := after .glyphRunContinue (taken s (runRec codes))

/-- A cached entry of font slot 1 without ink. -/
def blankEntry (number code advance : Nat) (bad : Bool := false) : CacheEntry :=
  { number := number, font := 1, code := code, bad := bad
    glyph := { bitmap := 0, width := 0, height := 0, bearingX := 0, bearingY := 0, advance := advance } }

/-- The word of twenty letters of the manual's worked layout: broken at the line below, sixteen letters and four. -/
theorem test_witness_GlyphRunBegins_broken :
    let t := ranOn (textAt (cursorAt 2640 216 true 80)) (List.replicate 20 97)
    logOf t = [(0, 16, 240, 100, 258), (16, 4, 264, 100, 138)] ∧ t.cursor 0 0 = cursorAt 2240 264 true := by decide +kernel

/-- Forty letters broken from the column's left on an empty line: the third line has no room, and index 32 overflows. -/
theorem test_witness_GlyphRunBegins_broken_overflow :
    let t := ranOn (textAt (cursorAt 1600 240)) (List.replicate 40 97)
    logOf t = [(0, 16, 240, 100, 258), (16, 16, 264, 100, 258)] ∧
    t.cursor 0 0 = { cursorAt 1600 288 with full := true } ∧
    t.reporter.unwritten.map (·.words) = [[0x20000900, 0, 0x00070000, 32]] := by decide +kernel

/-- A word of four letters moved whole to the next line; the lowest baseline the line below may have is 286, and with
287 the word overflows at index 0 (R75, R76, R79). -/
theorem test_witness_GlyphRunBegins_moved :
    let t := ranOn (textAt (cursorAt 3520 262 true 80)) (List.replicate 4 97)
    let u := ranOn (textAt (cursorAt 3520 263 true 80)) (List.replicate 4 97)
    logOf t = [(0, 4, 286, 100, 138)] ∧ t.cursor 0 0 = cursorAt 2240 286 true ∧
    logOf u = [] ∧ u.cursor 0 0 = { cursorAt 1600 287 with full := true } ∧ u.composer = .ended ∧
    u.reporter.unwritten.map (·.words) = [[0x20000900, 0, 0x00070000, 0]] := by decide +kernel

/-- On a line without glyphs whose pen is past its left, four letters fit and five go to the next line (R76). -/
theorem test_witness_GlyphRunBegins_moved_from_empty :
    logOf (ranOn (textAt (cursorAt 3520 216)) (List.replicate 4 97)) = [(0, 4, 216, 220, 258)] ∧
    logOf (ranOn (textAt (cursorAt 3520 216)) (List.replicate 5 97)) = [(0, 5, 240, 100, 148)] := by decide +kernel

/-- The column, the binding and the letter of the worked layout. -/
def column0 : Column :=
  { left := 100, right := 260, top := 200, bottom := 290, pitch := 24, firstBaseline := 16, tracking := 0 }
def font0 : Font :=
  { region := 1, tableOffset := 0, count := 100, ascent := 14, descent := 4, space := 32, hyphen := 45, newline := 10 }
def letter0 : Glyph := { bitmap := 0, width := 8, height := 16, bearingX := 0, bearingY := 12, advance := 160 }

/-- Three letters after a pending space on a line. -/
def threeLetters : State := taken (textAt (cursorAt 3520 216 true 80)) (runRec [97, 97, 97])

/-- They meet the hypotheses of a word on its line, and just fit there: 220 + 5, and 225 + 20 + 8 is 253 of 260. -/
theorem test_witness_GlyphRunBegins_hypotheses :
    threeLetters.runAccepted (recOf (runRec [97, 97, 97])) column0 font0 ∧
    (threeLetters.preparedCursor (recOf (runRec [97, 97, 97])) column0).full = false ∧
    fitsFrom column0 3600 [letter0, letter0, letter0] ∧
    logOf (after .glyphRunContinue threeLetters) = [(0, 3, 216, 225, 253)] := by
  refine ⟨?_, by decide +kernel, (wordFits_iff column0 3600 (bufferFrom 0 [letter0, letter0, letter0])).1 (by decide +kernel),
    by decide +kernel⟩
  unfold State.runAccepted State.executing; decide +kernel

/-- A word of one cached glyph several times over is ready. -/
theorem wordReady_of {s : State} {r : Record} {b : Font} {f : Fin 8} {n : Nat} {code : BitVec 16} {e : CacheEntry}
    (hf : r.runFont = f) (hb : s.font f = some b) (hn : r.runCount = n) (h1 : 1 ≤ n) (h64 : n ≤ 64)
    (hc : r.runCodes = List.replicate n code) (hcount : code.toNat < b.count)
    (hplain : ∀ special ∈ [b.space, b.hyphen, b.newline], special ≠ 0xFFFF → code ≠ special)
    (hcache : cacheFind s.cache f code.toNat = some e) (hgood : e.bad = false) :
    s.wordReady r b (List.replicate n e.glyph) := by
  subst hf hn
  refine ⟨hb, h1, h64, by simp, ?_⟩
  intro k g hg
  obtain ⟨hk, rfl⟩ := by simpa [List.getElem?_replicate] using hg
  exact ⟨code, e, by rw [hc]; simp [hk], hcount, hplain, hcache, hgood, rfl⟩

/-- So they do those on the word, its codes cached. -/
theorem test_witness_GlyphRunBegins_word_ready :
    threeLetters.wordReady (recOf (runRec [97, 97, 97])) font0 (List.replicate 3 letter0) := by
  have font : (recOf (runRec [97, 97, 97])).runFont = 1 := by decide +kernel
  have bound : threeLetters.font 1 = some font0 := by decide +kernel
  have count : (recOf (runRec [97, 97, 97])).runCount = 3 := by decide +kernel
  have codes : (recOf (runRec [97, 97, 97])).runCodes = List.replicate 3 97 := by decide +kernel
  have found : cacheFind threeLetters.cache 1 (97 : BitVec 16).toNat =
      some { number := 0, font := 1, code := 97, glyph := letter0, bad := false } := by decide +kernel
  have plain : ∀ special ∈ [font0.space, font0.hyphen, font0.newline], special ≠ 0xFFFF → (97 : BitVec 16) ≠ special := by
    intro special h
    rcases List.mem_cons.1 h with rfl | h
    · decide
    · rcases List.mem_cons.1 h with rfl | h
      · decide
      · rcases List.mem_singleton.1 h with rfl; decide
  exact wordReady_of (e := { number := 0, font := 1, code := 97, glyph := letter0, bad := false }) font bound count
    (by decide) (by decide) codes (by decide) plain found rfl

/-- A word set where the log holds 512 raises LOG_FULL once and is not logged (R84). -/
theorem test_witness_GlyphRunBegins_log_full :
    let e : LogEntry :=
      { runId := 7, first := 0, count := 1, column := 0, baseline := 216, xLeft := 100, xRight := 118, font := 1 }
    let s := textAt (cursorAt 1600 216) (List.replicate 512 e)
    let t := ranOn s [97]
    (t.page 0).log.length = 512 ∧ (t.page 0).logFull = true ∧ t.cursor 0 0 = cursorAt 1760 216 true ∧
    t.reporter.unwritten.map (·.words) = [[0x22000900, 0, 0x00070000, 0]] := by decide +kernel

/-- A space joins the pending space, up to 65535; one whose code lies beyond the count takes the advance of code 0 and
is counted as substituted (R58, R72, R85). -/
theorem test_witness_GlyphRunBegins_space :
    (let s := textAt (cursorAt 1760 216 true 40)
     yields .glyphRunContinue (taken s (runRec [32]))
       { ((taken s (runRec [32])).setCursor 0 0 (cursorAt 1760 216 true 120)).ended with
         cache := (ranOn s [32]).cache } = true ∧
     (ranOn (textAt (cursorAt 1760 216 true 65500)) [32]).cursor 0 0 = cursorAt 1760 216 true 65535) ∧
    (let s0 := textAt (cursorAt 1760 216 true 40) [] [blankEntry 2 0 64]
     let s : State := { s0 with fonts := s0.fonts.set 1 ((s0.fonts[1]).map (fun b => { b with count := 32 })) }
     let t := ranOn s [32]
     t.cursor 0 0 = cursorAt 1760 216 true 104 ∧ t.composer = .ended ∧
     t.reporter.unwritten.map (·.words) = [[0x21000900, 0, 0x00070000, 0x00010000]]) := by decide +kernel

/-- A newline on the lowest line that leaves room, and one further down, last in its run or followed (R78). -/
theorem test_witness_GlyphRunBegins_newline :
    (ranOn (textAt (cursorAt 1760 262 true 40)) [10]).cursor 0 0 = cursorAt 1600 286 ∧
    (ranOn (textAt (cursorAt 1760 263 true 40)) [10]).cursor 0 0 = { cursorAt 1600 287 with full := true } ∧
    (ranOn (textAt (cursorAt 1760 263 true 40)) [10]).reporter.unwritten = [] ∧
    (ranOn (textAt (cursorAt 1760 263 true 40)) [10, 97]).reporter.unwritten.map (·.words) =
      [[0x20000900, 0, 0x00070000, 1]] ∧
    (ranOn (textAt (cursorAt 1760 263 true 40)) [10, 97]).composer = .ended := by decide +kernel

/-- A hyphen ends its word: it and the letter after it are two entries of the log (R71). -/
theorem test_witness_GlyphRunBegins_hyphen :
    let s := textAt (cursorAt 1600 216) [] [blankEntry 2 45 96]
    logOf (ranOn s [45, 97]) = [(0, 1, 216, 100, 100), (1, 1, 216, 106, 114)] ∧
    (ranOn s [45, 97]).cursor 0 0 = cursorAt 1856 216 true := by decide +kernel

/-- A code at the count, 100, and a code whose entry is bad, are set with code 0; where code 0 is bad too, they are left
out with their own advance, which is 0 for the former (R58, R85). -/
theorem test_witness_GlyphRunBegins_substituted :
    let s (bad : Bool) := textAt (cursorAt 1600 216) [] [blankEntry 2 0 64 bad, blankEntry 3 99 32 true]
    let told (t : State) (pen : Nat) (counts : Word) : Bool :=
      decide (t.cursor 0 0 = cursorAt pen 216 true) && decide (logOf t = [(0, 1, 216, 100, 100)]) &&
      decide (t.reporter.unwritten.map (·.words) = [[0x21000900, 0, 0x00070000, counts]])
    told (ranOn (s false) [100]) 1664 0x00010000 = true ∧ told (ranOn (s false) [99]) 1664 0x00010000 = true ∧
    told (ranOn (s true) [100]) 1600 1 = true ∧ told (ranOn (s true) [99]) 1632 1 = true ∧
    (ranOn (s true) [99]).composer = .ended := by decide +kernel

/-- The last word of a run's last glyph is written back, and the run ends with GLYPHS_MISSING (R85, R86). -/
theorem test_witness_GlyphRunBegins_last :
    let w : Touch := { addr := 64 * 31 + 16, coverage := [15, 0, 0, 0, 0, 0, 0, 0] }
    let run : Run :=
      { (recOf (runRec [97])).run with
        tone := 0, codes := [], index := 1, acts := [.finish], substituted := 1, firstBad := some 0
        blits := [{ left := 32, top := 31, width := 1, height := 1, bitmap := 0x200000 }]
        drawing := .blend [w] (some 0xFFFFFFFF) }
    let s : State := { page0 with composer := .running run }
    let t := after (.downstreamGrant false 0) s
    grants s false 0 .composer = true ∧ t.composer = .ended ∧ t.mem = Memory.setWord [] (64 * 31 + 16) 0xFFFFFF0F ∧
    (t.page 0).dirty = 2 ∧ t.reporter.unwritten.map (·.words) = [[0x21000900, 0, 0x00070000, 0x00010000]] := by
  decide +kernel

/-! ## Notes, clause by clause -/

/-- The page of the manual's worked passage: five entries of run 7 and one of run 8. -/
def passage0 : State :=
  let e (run first count baseline : Nat) (left right : Int) : LogEntry :=
    { runId := run, first := first, count := count, column := 0, baseline := baseline, xLeft := left, xRight := right,
      font := 1 }
  let r (a b c d : Nat) : Rect := { left := a, top := b, right := c, bottom := d }
  { (text0.setPage 0 { text0.page 0 with
      pageId := 0x51
      log := [e 7 0 2 216 100 118, e 7 3 4 216 125 163, e 7 8 16 240 100 258, e 7 24 4 264 100 138, e 7 29 1 264 145 153,
        e 8 0 1 264 155 163] }) with
    noteCounter := 7
    notes :=
      [{ slot := 0, id := 1, pageId := 0x51, style := .underline, tone := 0, sequence := 4, rects := [r 125 202 163 220] },
       { slot := 2, id := 3, pageId := 0x52, style := .band, tone := 12, sequence := 6, rects := [r 40 100 300 118] }] }

/-- A HIGHLIGHT of page slot 0 with note id 3. -/
def markRec (run first last style tone : Nat) : List Nat :=
  [hdr 0x28 3 0 2, 3 * 65536 + run, style * 0x10000000 + first * 65536 + tone * 4096 + last]

/-- What is left to paint. -/
def paintsLeft (s : State) : List Paint := match s.composer with | .painting p => p.paints | _ => []

/-- The worked passage: three lines make the note of sequence 7, and a second record adds a rectangle to it, drawn as a
band in tone 10. -/
theorem test_witness_HighlightMarks_worked :
    let r (a b c d : Nat) : Rect := { left := a, top := b, right := c, bottom := d }
    let lines := [r 125 202 163 220, r 100 226 258 244, r 100 250 153 268]
    let note (rects : List Rect) : Note :=
      { slot := 0, id := 3, pageId := 0x51, style := .band, tone := 10, sequence := 7, rects := rects }
    let band (x : Rect) : Paint := { rect := x, op := .multiply, tone := 10 }
    let s1 := after .highlight (taken passage0 (markRec 7 5 29 0 10))
    let s2 := after .highlight (taken s1 (markRec 8 0 0 1 0))
    s1.notes = passage0.notes ++ [note lines] ∧ s1.noteCounter = 8 ∧ s1.reporter.unwritten = [] ∧
    paintsLeft s1 = lines.map band ∧
    s2.notes = passage0.notes ++ [note (lines ++ [r 155 250 163 268])] ∧ s2.noteCounter = 8 ∧
    paintsLeft s2 = [band (r 155 250 163 268)] := by decide +kernel

/-- At the top of the creation counter the notes that stand are numbered anew before the new one (R88). -/
theorem test_witness_HighlightMarks_top :
    let s : State := { passage0 with noteCounter := 0xFFFFFFFF }
    let t := after .highlight (taken s (markRec 7 5 29 0 10))
    t.notes.map (fun n => (n.id, n.sequence)) = [(1, 0), (3, 1), (3, 2)] ∧ t.noteCounter = 3 := by decide +kernel

/-- Nine lines of an underline: eight are taken and one is cut; a full table refuses a new note (R89, R95, R97). -/
theorem test_witness_HighlightMarks_cut :
    let e (k : Nat) : LogEntry :=
      { runId := 7, first := k, count := 1, column := 0, baseline := 100 + 24 * k, xLeft := 100, xRight := 118, font := 1 }
    let s := passage0.setPage 0 { passage0.page 0 with log := (List.range 9).map e }
    let t := after .highlight (taken s (markRec 7 0 8 1 0))
    let full : State := { passage0 with notes := List.replicate 64 { note0 with slot := 1 } }
    (t.notes.getLast?.map (·.rects.length)) = some 8 ∧
    t.reporter.unwritten.map (·.words) = [[0x30000200, 0, 0x00030007, 0x00000108]] ∧
    (paintsLeft t).length = 16 ∧
    (paintsLeft t).take 2 =
      [{ rect := { left := 100, top := 101, right := 118, bottom := 102 }, op := .set, tone := 0 },
       { rect := { left := 100, top := 102, right := 118, bottom := 103 }, op := .set, tone := 0 }] ∧
    yields .highlight (taken full (markRec 7 5 29 0 10))
      ((taken full (markRec 7 5 29 0 10)).refused (recOf (markRec 7 5 29 0 10)) .notesFull) = true := by decide +kernel

/-! ## Updates and panel power, clause by clause -/

/-- A repair and three entries: the repair and the first entry start, the second overlaps the first and waits, and the
third takes the next slot (R126). -/
theorem test_witness_ConsiderationStarts_walk :
    let s : State := { panel0 with
      updates := { (panel0.updates) with due := true, repairs := [{ ask none 0 1 with mode := .clean, repair := true }] }
      commit := { (panel0.commit) with pending := [ask none 1 2, ask (some 1) 1 3, ask none 3 4] } }
    let t := after .startConsideration s
    t.updates.order = [0, 1, 2] ∧ t.updates.repairs = [] ∧ t.commit.pending = [ask (some 1) 1 3] ∧
    ([0, 1, 2].map (fun u => (t.update u).map (fun x => (x.rect.left, x.repair)))) =
      [some (0, true), some (1, false), some (3, false)] := by decide +kernel

/-- Two slots that finish at one frame end, in the start order 4, 2, and one that goes on (R135, R136). -/
theorem test_witness_FrameEnds_several :
    let x (n c : Nat) : Update := { slotOf .active (2 * n) (2 * n + 2) with counter := c, commits := [BitVec.ofNat 16 n] }
    let s0 := frameDone (x 0 6) false
    let s : State := { s0 with updates := { (s0.updates) with
      slots := (s0.updates.slots.set 2 (some (x 1 7))).set 4 (some (x 2 7)), order := [0, 4, 2] } }
    let t := after .frameEnd s
    t.updates.order = [0] ∧ t.update 2 = none ∧ t.update 4 = none ∧ t.update 0 = some (x 0 7) ∧ t.updates.due = true ∧
    t.supply = s.supply ∧
    (after .frameEnd { s with supply := { (s.supply) with lossNoted := true } }).supply.panel = .suspended ∧
    (after .frameEnd { s with supply := { (s.supply) with lossNoted := true } }).update 0 =
      some { x 0 7 with state := .frozen } ∧
    (let all := frameDone (x 0 7) false
     (after .frameEnd { all with tune := { (all.tune) with panelHold := 0 } }).supply.panel = .falling) ∧
    t.reporter.unwritten.map (·.words) = [[0x6022FF00, 0, 0x00020000, 0], [0x6022FF00, 0, 0x00010000, 0]] := by
  decide +kernel

/-- The panel-ready line already asserted when the enable is raised: from OFF, after the gap, after the fall (R145). -/
theorem test_witness_PanelTimersExpire_ready :
    let line (s : State) : State := { s with supply := { (s.supply) with readyLine := true } }
    (after .loadingComplete (line (loaded0 .off))).supply.panel = .on ∧
    (after .loadingComplete (line (loaded0 .off))).supply.readingsAsked = 1 ∧
    (after .loadingComplete (line (loaded0 .off))).supply.readingTimer = some 30000 ∧
    (after .gapTimerExpiry (panelIn .rising true 2)).supply.panel = .on ∧
    (after .gapTimerExpiry (panelIn .rising true 2)).supply.attempt = 3 ∧
    (after .gapTimerExpiry (panelIn .rising true 2)).supply.riseTimer = none ∧
    (let s := line (driving .falling (slotOf .ready 0 2))
     let t := after .fallTimerExpiry { s with supply := { (s.supply) with fallTimer := some 10 } }
     t.supply.panel = .on ∧ t.supply.attempt = 1 ∧ t.supply.readingsAsked = 1) := by decide +kernel
end Sys2Proof.Tests
end

section
/-! SUPPORT. What the port and the Relay do with a command, said once: what every command concludes, the arbiter's choice and
the grant it makes, and a beat that arrives. -/

namespace Sys2Proof.Machine

/-! ## What a command concludes -/

theorem conclude_mem (before after : State) : (conclude before after).mem = after.mem := by rw [conclude_eq]

theorem conclude_relay (before after : State) : (conclude before after).relay = after.relay := by rw [conclude_eq]

theorem conclude_pages (before after : State) : (conclude before after).pages = after.pages := by rw [conclude_eq]

/-- What follows every command never takes the part into doze nor out of it (R159). -/
theorem conclude_dozing (before after : State) : (conclude before after).doze.dozing = after.doze.dozing := by
  unfold conclude State.watchDoze
  split
  · rfl
  · split
    · split <;> rfl
    · rfl

/-- A part that dozes has no doze timer to look at (R159). -/
theorem conclude_doze_of_dozing {before after : State} (h : after.doze.dozing = true) :
    (conclude before after).doze = after.doze := by
  unfold conclude State.watchDoze
  rw [if_pos (show (after.addMarks (changedMarks before after)).doze.dozing = true from h)]
  rfl

/-- States that differ in the Doze Controller alone agree. -/
theorem State.agrees_with_doze (s : State) (d : Doze) : State.agrees { s with doze := d } s := rfl

/-- A command that proceeds to a state yields every state equal to it. -/
theorem yields_of_proceed_eq {c : Instr} {s x want : State} (h : exec c s = proceed s x) (hx : x = want) :
    Yields c s want :=
  hx ▸ yields_of_proceed h

/-! ## The arbiter's choice (R7) -/

theorem State.choose_refresh {s : State} (hp : s.portReady = true) (hr : s.port.refreshRequest = true) (pick : Nat) :
    s.choose pick = some .refresh := by
  unfold State.choose; simp [hp, hr]

theorem State.choose_scanner {s : State} (hp : s.portReady = true) (hr : s.port.refreshRequest = false)
    (hs : s.scanner.request = true) (ha : s.scanAccess.isSome = true) (pick : Nat) : s.choose pick = some .scanner := by
  unfold State.choose; simp [hp, hr, hs, ha]

/-- The Relay is not granted where a refresh or the scanner goes ahead of it. -/
theorem State.relayGranted_behind {s : State}
    (h : s.port.refreshRequest = true ∨ s.scanner.request = true ∧ s.scanAccess.isSome = true) :
    s.relayGranted = false := by
  unfold State.relayGranted State.choose
  rcases h with hr | ⟨hs, ha⟩
  · cases s.portReady <;> simp [hr]
  · cases s.portReady <;> cases s.port.refreshRequest <;> simp [hs, ha]

/-- With the port free for it, the Relay's request is granted at once. -/
theorem State.portFree.relayGranted {s : State} (h : s.portFree) (hq : s.relayRequests = true) :
    s.relayGranted = true := by
  obtain ⟨hp, hr, hs⟩ := h
  unfold State.relayGranted
  rw [State.choose_relay hp hr hs hq]
  rfl

/-- A scanner whose request does not come up leaves the state as it is. -/
theorem State.raiseScan_eq_self {s : State} {needs : Bool} (h : (s.raiseScan needs).scanner.request = false) :
    s.raiseScan needs = s := by
  have hor : (s.scanner.request || (needs && s.scanAccess.isSome)) = false := h
  have h0 : s.scanner.request = false := (Bool.or_eq_false_iff.1 hor).1
  unfold State.raiseScan
  rw [hor, ← h0]

/-- A raised request changes nothing that the scanner reads. -/
theorem State.raiseScan_scanAccess (s : State) (needs : Bool) : (s.raiseScan needs).scanAccess = s.scanAccess := rfl

/-- DOWNSTREAM_GRANT makes the grant chosen, where its words lie in memory (R7). -/
theorem exec_downstreamGrant {needs : Bool} {pick : Nat} {s : State} {g : Grant}
    (hc : (s.raiseScan needs).choose pick = some g) (hm : (s.raiseScan needs).grantInMemory pick g = true) :
    exec (.downstreamGrant needs pick) s = proceed s ((s.raiseScan needs).serveGrant pick g) := by
  show execDownstreamGrant needs pick s = _
  unfold execDownstreamGrant
  simp only [hc, hm, if_true]

/-- What a grant that does not fault leaves of the state. -/
theorem exec_downstreamGrant_next {needs : Bool} {pick : Nat} {s t : State} {g : Grant}
    (hc : (s.raiseScan needs).choose pick = some g) (h : exec (.downstreamGrant needs pick) s = .next t) :
    t = conclude s ((s.raiseScan needs).serveGrant pick g) := by
  cases hm : (s.raiseScan needs).grantInMemory pick g with
  | true =>
    rw [exec_downstreamGrant hc hm] at h
    exact (Host.Outcome.next.inj h).symm
  | false =>
    have hf : exec (.downstreamGrant needs pick) s = .fault .grantBeyondMemory := by
      show execDownstreamGrant needs pick s = _
      unfold execDownstreamGrant
      simp only [hc, hm, Bool.false_eq_true, if_false]
    rw [hf] at h
    cases h

/-- The grant that comes to the Relay runs the Relay's work (R1, R7). -/
theorem exec_downstreamGrant_relay {needs : Bool} {pick : Nat} {s : State} (hp : s.portReady = true)
    (hr : s.port.refreshRequest = false) (hs : (s.raiseScan needs).scanner.request = false)
    (hq : s.relayRequests = true) : exec (.downstreamGrant needs pick) s = proceed s s.serveRelay := by
  have hself := State.raiseScan_eq_self hs
  rw [hself] at hs
  have hc : (s.raiseScan needs).choose pick = some .relay := by
    rw [hself]; exact State.choose_relay hp hr hs hq pick
  rw [exec_downstreamGrant hc rfl, hself]
  rfl

/-! ## Beats that arrive (R1, R157, R159) -/

/-- The state with a relay that it has already. -/
theorem State.with_relay_eq {s : State} {r : Relay} (h : s.relay = r) : { s with relay := r } = s := by
  rw [← h]

theorem State.relayIdle_of_idle {s : State} (h : s.relay = .idle) : s.relayIdle = true := by
  unfold State.relayIdle; rw [h]

/-- A beat that comes to the idle Relay arrives. -/
theorem exec_beat {s : State} (h : s.relay = .idle) (b : Beat) : exec b.command s = proceed s (s.arrive b) := by
  have hi := State.relayIdle_of_idle h
  cases b with
  | read addr => exact if_pos hi
  | write w => exact if_pos hi

theorem State.spoilCheck_none {s : State} {a : Nat} (h : s.supply.check = none) : s.spoilCheck a = s := by
  unfold State.spoilCheck; rw [h]

/-- A write into the store spoils the waveform check that runs (R140). -/
theorem State.spoilCheck_some {s : State} {a : Nat} {k : Check} (h : s.supply.check = some k) :
    s.spoilCheck a = { s with supply :=
      { (s.supply) with check := some { k with spoilt := k.spoilt || s.inStore a } } } := by
  unfold State.spoilCheck
  rw [h]
  dsimp only
  cases s.inStore a with
  | true => simp [State.setSupply]
  | false => simp [← h]

/-- An access fault is counted alike whatever the Doze Controller is at. -/
theorem State.accessFault_with_doze (s : State) (d : Doze) (a : BusAddr) (c : FaultCause) :
    State.accessFault { s with doze := d } a c = { s.accessFault a c with doze := d } := by
  unfold State.accessFault State.raise
  dsimp only
  split
  · split <;> rfl
  · rfl

/-- A waveform check is spoilt alike whatever the Doze Controller is at. -/
theorem State.spoilCheck_with_doze (s : State) (d : Doze) (a : Nat) :
    State.spoilCheck { s with doze := d } a = { s.spoilCheck a with doze := d } := by
  cases h : s.supply.check with
  | none => rw [State.spoilCheck_none h, State.spoilCheck_none (s := { s with doze := d }) h]
  | some k => rw [State.spoilCheck_some h, State.spoilCheck_some (s := { s with doze := d }) h]; rfl

/-- A beat is served alike whatever the doze timer is at. -/
theorem State.serveBeat_doze {s : State} {d : Doze} (h : d.dozing = s.doze.dozing) (b : Beat) :
    State.serveBeat { s with doze := d } b = { s.serveBeat b with doze := d } := by
  cases b with
  | read addr =>
    have hg : ({ s with doze := d, relay := .reading addr } : State).relayGranted =
        ({ s with relay := .reading addr } : State).relayGranted := by
      unfold State.relayGranted State.choose State.portReady
      dsimp only
      rw [h]
      rfl
    show State.serveRead _ addr = { s.serveRead addr with doze := d }
    unfold State.serveRead
    split
    · rename_i hb
      rw [if_pos (show s.memBytes ≤ addr.toNat from hb)]
      exact State.accessFault_with_doze { s with readData := 0, relay := .idle } d addr .range
    · rename_i hb
      rw [if_neg (show ¬ s.memBytes ≤ addr.toNat from hb)]
      unfold State.landIfGranted
      rw [hg]
      split <;> rfl
  | write w =>
    show State.decideWrite _ w = { s.decideWrite w with doze := d }
    unfold State.decideWrite
    have ht : ({ s with doze := d } : State).treat w.addr = s.treat w.addr := rfl
    rw [ht]
    cases s.treat w.addr with
    | dropped => exact State.accessFault_with_doze { s with relay := .idle } d w.addr .range
    | absorbed cause => exact State.accessFault_with_doze { s with relay := .idle } d w.addr cause
    | passed dest => exact State.spoilCheck_with_doze { s with relay := .writing w dest } d w.addr.toNat
    | offered => rfl

/-- Serving a beat says anew what the Relay is doing. -/
theorem State.serveBeat_relay (s : State) (r : Relay) (b : Beat) :
    State.serveBeat { s with relay := r } b = s.serveBeat b := by
  cases b <;> rfl

/-- A beat that arrives while the port grants requests is served (R1). -/
theorem State.arrive_agrees {s : State} (hp : s.portReady = true) (b : Beat) : (s.arrive b).agrees (s.serveBeat b) := by
  unfold State.arrive
  rw [if_pos hp]
  have h : s.touchDoze.serveBeat b = { s.serveBeat b with doze := s.touchDoze.doze } :=
    State.serveBeat_doze (s := s) (d := s.touchDoze.doze) rfl b
  rw [h]
  exact State.agrees_with_doze (s.serveBeat b) _

theorem State.arrive_held {s : State} (hp : s.portReady = false) (b : Beat) :
    s.arrive b = { s with relay := .held b } := by
  unfold State.arrive; rw [hp]; rfl

/-- What a beat that arrives at the idle Relay comes to while the port grants requests. -/
theorem yields_beat {s : State} (h : s.relay = .idle) (hp : s.portReady = true) (b : Beat) :
    Yields b.command s (s.serveBeat b) :=
  yields_of_agrees (exec_beat h b) (State.arrive_agrees hp b)

/-- A read beat beyond the memory size completes with zeros and an access fault (R3). -/
theorem State.serveBeat_read_beyond {s : State} {addr : BusAddr} (h : s.memBytes ≤ addr.toNat) :
    s.serveBeat (.read addr) = State.accessFault { s with readData := 0, relay := .idle } addr .range :=
  if_pos h

/-- A read beat below the memory size is read at once where the port is free for it (R1, R7). -/
theorem State.serveBeat_read_granted {s : State} {addr : BusAddr} (h : addr.toNat < s.memBytes) (hf : s.portFree) :
    s.serveBeat (.read addr) = { s with readData := s.mem.word (addr.toNat / 4 * 4), relay := .idle } := by
  have hg : ({ s with relay := .reading addr } : State).relayGranted = true := State.portFree.relayGranted hf rfl
  show State.serveRead s addr = _
  unfold State.serveRead State.landIfGranted
  rw [if_neg (by omega), if_pos hg]
  rfl

/-- A read beat below the memory size waits where a refresh or the scanner goes ahead (R7). -/
theorem State.serveBeat_read_waits {s : State} {addr : BusAddr} (h : addr.toNat < s.memBytes)
    (ha : s.port.refreshRequest = true ∨ s.scanner.request = true ∧ s.scanAccess.isSome = true) :
    s.serveBeat (.read addr) = { s with relay := .reading addr } := by
  have hg : ({ s with relay := .reading addr } : State).relayGranted = false := State.relayGranted_behind ha
  show State.serveRead s addr = _
  unfold State.serveRead State.landIfGranted
  rw [if_neg (by omega), hg]
  rfl

/-- A write beat completes, waits or is offered as its treatment says (R2). -/
theorem State.serveBeat_write (s : State) (w : HostWrite) :
    s.serveBeat (.write w) =
      match s.treat w.addr with
      | .dropped => State.accessFault { s with relay := .idle } w.addr .range
      | .absorbed cause => State.accessFault { s with relay := .idle } w.addr cause
      | .passed dest => State.spoilCheck { s with relay := .writing w dest } w.addr.toNat
      | .offered => { s with relay := .ringOffer w } := rfl

end Sys2Proof.Machine
end

section
/-! SUPPORT. The statements about the Relay: read and write beats, the landing of passed writes, and the treatment of a host
write by its address. -/

namespace Sys2Proof.Machine

/-! ## What the Relay does with its beats (R1 to R6, R140, R155) -/

/-- Settles O16: a read beat that arrives is served, and a read that waits is served by the Relay's grant. -/
theorem hostReadBeat : Obligations.HostReadBeat := by
  unfold Obligations.HostReadBeat
  refine ⟨fun addr s hi hp => ?_, fun needs pick addr s hw hp hr hs => ?_⟩
  · have served : Yields (.hostReadBeat addr) s (s.serveBeat (.read addr)) := yields_beat hi hp (.read addr)
    refine ⟨fun hb => ?_, fun hb hf => ?_, fun hb hr => ?_, fun hb hs ha => ?_⟩
    · rw [State.serveBeat_read_beyond hb, State.with_relay_eq (s := { s with readData := 0 }) hi] at served
      exact served
    · rw [State.serveBeat_read_granted hb hf,
        State.with_relay_eq (s := { s with readData := s.mem.word (addr.toNat / 4 * 4) }) hi] at served
      exact served
    · rwa [State.serveBeat_read_waits hb (.inl hr)] at served
    · rwa [State.serveBeat_read_waits hb (.inr ⟨hs, ha⟩)] at served
  · have hq : s.relayRequests = true := by unfold State.relayRequests; rw [hw]
    refine yields_of_proceed_eq (exec_downstreamGrant_relay hp hr hs hq) ?_
    unfold State.serveRelay
    rw [hw]
    rfl

/-- The addresses of the Waveform Store (R4). -/
theorem State.inStore_eq (s : State) (a : Nat) : s.inStore a = decide (s.storeBase ≤ a ∧ a < s.ringBase) := by
  unfold State.inStore
  simp

/-- Settles O17: a write beat that arrives is served as its treatment says, and an access fault is kept or counted. -/
theorem hostWriteBeat : Obligations.HostWriteBeat := by
  unfold Obligations.HostWriteBeat
  refine ⟨fun addr data enables s hi hp => ?_, fun s addr cause => ⟨State.accessFault_first, fun h => ?_⟩⟩
  · intro w c
    have served : Yields c s (s.serveBeat (.write w)) := yields_beat hi hp (.write w)
    rw [State.serveBeat_write, State.with_relay_eq hi] at served
    refine ⟨fun ht => ?_, fun cause ht => ?_, fun d ht hk => ?_, fun d k ht hk => ?_, fun ht => ?_⟩
    · rwa [show s.treat w.addr = _ from ht] at served
    · rwa [show s.treat w.addr = _ from ht] at served
    · rw [show s.treat w.addr = _ from ht] at served
      dsimp only at served
      rwa [State.spoilCheck_none (s := { s with relay := .writing w d }) hk] at served
    · rw [show s.treat w.addr = _ from ht] at served
      dsimp only at served
      rw [State.spoilCheck_some (s := { s with relay := .writing w d }) hk, State.inStore_eq] at served
      exact served
    · rwa [show s.treat w.addr = _ from ht] at served
  · rw [State.accessFault_later h]
    unfold sat16
    rw [min_comm]
    rfl

/-! ## Passed writes that land (R1, R5, R9) -/

/-- The block that watches a landed write leaves the Relay to it (R5). -/
theorem State.handOff_relay (s : State) (d : Handoff) : (s.handOff d).relay = s.relay := by
  cases d with
  | nobody => rfl
  | page e o =>
    show (s.draftWritten e o).relay = s.relay
    unfold State.draftWritten
    split
    · split <;> rfl
    · rfl
  | font e => rfl
  | consumedCount => rfl
  | faultClear =>
    show s.faultClearWritten.relay = s.relay
    unfold State.faultClearWritten
    split <;> rfl

/-- A landed write has released ready (R1). -/
theorem State.landWrite_relay (s : State) (w : HostWrite) (d : Handoff) : (s.landWrite w d).relay = .idle := by
  unfold State.landWrite; rw [State.handOff_relay]

/-- A landing command that fits the write in the Relay lands it where the Relay is granted. -/
theorem onLanding_eq {s : State} {w : HostWrite} {d : Handoff} {fits : Handoff → Bool} (hw : s.relay = .writing w d)
    (hg : s.relayGranted = true) (hf : fits d = true) : onLanding s fits = proceed s (s.landWrite w d) := by
  unfold onLanding
  rw [hw]
  simp [hf, hg]

/-- The row of a write's destination lands it where the Relay is granted (R5). -/
theorem exec_handoffCommand {s : State} {w : HostWrite} {d : Handoff} (hw : s.relay = .writing w d)
    (hg : s.relayGranted = true) : exec d.command s = proceed s (s.landWrite w d) := by
  cases d <;> exact onLanding_eq hw hg rfl

/-- A byte of memory after a host write has landed in it: the enabled bytes of its word are the data's (R1). -/
theorem HostWrite.byte_into {m : Memory} (h : m.wf = true) (w : HostWrite) (a : Nat) :
    (w.into m).byte a =
      if a / 4 = w.addr.toNat / 4 ∧ w.enables.getLsbD (a % 4) = true then byteOf w.data (a % 4) else m.byte a := by
  unfold HostWrite.into wordAddr
  by_cases hw : a / 4 = w.addr.toNat / 4
  · have ha : a = w.addr.toNat / 4 * 4 + a % 4 := by omega
    have hb := Memory.byte_writeMasked (a := w.addr.toNat / 4 * 4) (w := w.data) (e := w.enables) h
      (Nat.mod_lt a (by omega : 0 < 4))
    rw [← ha] at hb
    simpa [hw] using hb
  · rw [Memory.byte_writeMasked_outside h (by omega), if_neg (fun hc => hw hc.1)]

/-- Settles O19: the row of the destination and the grant that comes to the Relay both land the write that waits. -/
theorem passedWriteLands : Obligations.PassedWriteLands := by
  unfold Obligations.PassedWriteLands
  refine ⟨fun s w d hm hw hg => ⟨_, exec_handoffCommand hw hg, ?_, fun a => ?_, fun hd => ?_⟩,
    fun needs pick s w d hw hp hr hs hh => ?_⟩
  · rw [conclude_relay, State.landWrite_relay]
  · rw [conclude_mem, State.landWrite_mem, HostWrite.byte_into hm]
  · subst hd
    rw [conclude_mem]
    exact conclude_agrees s _
  · have hq : s.relayRequests = true := by
      unfold State.relayRequests wordAddr
      rw [hw]
      exact decide_eq_true hh
    have hg : s.relayGranted = true := by
      refine State.portFree.relayGranted ⟨hp, hr, ?_⟩ hq
      rwa [State.raiseScan_eq_self hs] at hs
    refine ⟨hg, ?_⟩
    rw [exec_downstreamGrant_relay hp hr hs hq, exec_handoffCommand hw hg]
    unfold State.serveRelay
    rw [hw]

/-! ## The treatment of a host write (R2 to R5, R10, R12) -/

/-- The memory size is one of three (R157). -/
theorem State.memBytes_cases (s : State) :
    s.memBytes = 0x2000000 ∨ s.memBytes = 0x4000000 ∨ s.memBytes = 0x8000000 := by
  unfold State.memBytes Config.memoryBytes
  split_ifs <;> simp

theorem State.top_eq (s : State) : s.top = s.memBytes - 0x600000 := rfl
theorem State.priorBase_eq (s : State) : s.priorBase = s.memBytes - 0x600000 := by
  rw [← State.top_eq]
  exact Nat.add_zero s.top

theorem State.panelBase_eq (s : State) : s.panelBase = s.memBytes - 0x600000 + 0x280000 := rfl
theorem State.storeBase_eq (s : State) : s.storeBase = s.memBytes - 0x600000 + 0x500000 := rfl
theorem State.ringBase_eq (s : State) : s.ringBase = s.memBytes - 0x600000 + 0x540000 := rfl
theorem State.reportBase_eq (s : State) : s.reportBase = s.memBytes - 0x600000 + 0x544000 := rfl
theorem State.remainderBase_eq (s : State) : s.remainderBase = s.memBytes - 0x600000 + 0x545000 := rfl

/-- What the Write Guard absorbs (R12). -/
theorem Guard.absorbs_iff (g : Guard) (unit : Nat) :
    g.absorbs unit = true ↔
      g.on = true ∧
        (if g.invert then unit < g.lower ∨ g.upper < unit else g.lower ≤ unit ∧ unit ≤ g.upper) := by
  unfold Guard.absorbs
  cases g.invert <;> simp

theorem State.treat_dropped {s : State} {addr : BusAddr} (h : s.memBytes ≤ addr.toNat) : s.treat addr = .dropped :=
  if_pos h

/-- At or above T the area decides (R4). -/
theorem State.treat_reserved {s : State} {addr : BusAddr} (h : addr.toNat < s.memBytes) (ht : s.top ≤ addr.toNat) :
    s.treat addr = s.treatReserved addr.toNat := by
  unfold State.treat
  simp only [if_neg (Nat.not_le.2 h), if_pos ht]

/-- Below T the guard decides, and then the Region Map (R2). -/
theorem State.treat_below {s : State} {addr : BusAddr} (h : addr.toNat < s.top) :
    s.treat addr =
      if s.guard.absorbs (addr.toNat / 4096) then .absorbed .guarded else s.treatByRegion addr.toNat := by
  have hm : addr.toNat < s.memBytes := by rw [State.top_eq] at h; omega
  unfold State.treat
  simp only [if_neg (Nat.not_le.2 hm), if_neg (Nat.not_le.2 h)]
  rfl

/-- The Region Map never says that the guard absorbed a write. -/
theorem State.treatByRegion_ne_guarded (s : State) (a : Nat) : s.treatByRegion a ≠ .absorbed .guarded := by
  unfold State.treatByRegion
  split
  · simp
  · split
    · simp
    · split <;> simp

/-- Below T a write is absorbed as guarded exactly where the guard absorbs its unit (R12, R13). -/
theorem State.treat_guarded_iff {s : State} {addr : BusAddr} (h : addr.toNat < s.top) :
    s.treat addr = .absorbed .guarded ↔ s.guard.absorbs (addr.toNat / 4096) = true := by
  rw [State.treat_below h]
  split
  · rename_i hg; simp [hg]
  · rename_i hg; simp [hg, State.treatByRegion_ne_guarded]

/-- No entry holds an address that no region covers. -/
theorem State.regionAt_none {s : State} {a : Nat}
    (h : ∀ (e : Fin 8) (r : Region), s.regions[e] = some r → r.covers a = false) : s.regionAt a = none := by
  unfold State.regionAt
  rw [List.findSome?_eq_none_iff]
  intro e _
  split
  · rename_i r hr; simp [h e r hr]
  · rfl

/-- An entry found for an address holds a region that covers it. -/
theorem State.regionAt_some {s : State} {a : Nat} {e : Fin 8} {r : Region} (h : s.regionAt a = some (e, r)) :
    s.regions[e] = some r ∧ r.covers a = true := by
  unfold State.regionAt at h
  obtain ⟨e', _, he⟩ := List.exists_of_findSome?_eq_some h
  split at he
  · rename_i r' hr
    split at he
    · rename_i hc
      cases he
      exact ⟨hr, hc⟩
    · cases he
  · cases he

/-- The one entry whose region covers an address is the one found (R10). -/
theorem State.regionAt_unique {s : State} {a : Nat} {e : Fin 8} {r : Region} (hr : s.regions[e] = some r)
    (hc : r.covers a = true)
    (hu : ∀ (e' : Fin 8) (r' : Region), s.regions[e'] = some r' → r'.covers a = true → e' = e) :
    s.regionAt a = some (e, r) := by
  cases h : s.regionAt a with
  | none =>
    unfold State.regionAt at h
    have := List.findSome?_eq_none_iff.1 h e (List.mem_finRange e)
    rw [hr] at this
    simp [hc] at this
  | some p =>
    obtain ⟨e', r'⟩ := p
    obtain ⟨hr', hc'⟩ := State.regionAt_some h
    obtain rfl := hu e' r' hr' hc'
    rw [hr] at hr'
    cases hr'
    rfl

/-- The word of the Report Area that an address lies in. -/
theorem State.wordAddr_report_iff (s : State) (a k : Nat) :
    wordAddr a = s.reportBase + 4 * k ↔ s.reportBase + 4 * k ≤ a ∧ a < s.reportBase + 4 * k + 4 := by
  rw [State.reportBase_eq]
  unfold wordAddr
  obtain h | h | h := s.memBytes_cases <;> rw [h] <;> omega

/-- Settles O15: the areas of the reserved top, the guard and the one region that covers the address, in turn. -/
theorem treatmentTable : Obligations.TreatmentTable := by
  unfold Obligations.TreatmentTable
  intro s addr a T
  have hsize := s.memBytes_cases
  have top : s.top = T := s.top_eq
  have store : s.storeBase = T + 0x500000 := s.storeBase_eq
  have ring : s.ringBase = T + 0x540000 := s.ringBase_eq
  have report : s.reportBase = T + 0x544000 := s.reportBase_eq
  have remainder : s.remainderBase = T + 0x545000 := s.remainderBase_eq
  have hT : T + 0x600000 = s.memBytes := by
    show s.memBytes - 0x600000 + 0x600000 = _
    omega
  have reserved : T ≤ a → a < s.memBytes → s.treat addr = s.treatReserved a := fun h1 h2 => State.treat_reserved h2 h1
  refine ⟨State.treat_dropped, fun h0 h1 h2 => ?_, fun h1 h2 => ?_, fun h1 h2 => ?_, fun h1 h2 => ?_, fun h1 h2 => ?_,
    fun h => ?_⟩
  · rw [reserved h1 h0]
    unfold State.treatReserved
    rw [if_pos (by omega)]
  · rw [reserved (by omega) (by omega)]
    unfold State.treatReserved
    rw [if_neg (by omega), if_pos (by omega)]
  · rw [reserved (by omega) (by omega)]
    unfold State.treatReserved
    rw [if_neg (by omega), if_neg (by omega), if_pos (by omega)]
  · rw [reserved (by omega) (by omega)]
    unfold State.treatReserved
    rw [if_neg (by omega), if_neg (by omega), if_neg (by omega), if_pos (by omega)]
    have consumed : wordAddr a = s.reportBase + 4 ↔ T + 0x544004 ≤ a ∧ a < T + 0x544008 := by
      have := s.wordAddr_report_iff a 1
      rw [report] at this ⊢
      omega
    have clear : wordAddr a = s.reportBase + 8 ↔ T + 0x544008 ≤ a ∧ a < T + 0x54400C := by
      have := s.wordAddr_report_iff a 2
      rw [report] at this ⊢
      omega
    simp only [consumed, clear]
  · rw [reserved (by omega) h2]
    unfold State.treatReserved
    rw [if_neg (by omega), if_neg (by omega), if_neg (by omega), if_neg (by omega)]
  · intro guarded
    have hg : s.guard.absorbs (a / 4096) = true ↔ guarded := Guard.absorbs_iff s.guard (a / 4096)
    have hmap : ¬ guarded → s.treat addr = s.treatByRegion a := fun hn => by
      rw [State.treat_below h, if_neg (fun hc => hn (hg.1 hc))]
    refine ⟨fun hc => (State.treat_guarded_iff h).2 (hg.2 hc), fun hn hr => ?_, fun hn e r hr hc hu => ?_⟩
    · rw [hmap hn]
      unfold State.treatByRegion
      rw [State.regionAt_none hr]
    · rw [hmap hn]
      unfold State.treatByRegion
      rw [State.regionAt_unique hr hc hu]
      rfl

end Sys2Proof.Machine
end

section
/-! SUPPORT. The memory a grant leaves, engine by engine, with the statement about it, and the records of protection: REGION,
LOCK_TIGHT and GUARD. -/

namespace Sys2Proof.Machine

/-! ## What a run of glyphs leaves of memory between its grants (R70 to R86) -/

theorem State.finishRun_mem (s : State) (r : Run) : (s.finishRun r).mem = s.mem := by
  unfold State.finishRun; split <;> simp

theorem State.appendLog_mem (s : State) (r : Run) (e : LogEntry) : (s.appendLog r e).mem = s.mem := by
  unfold State.appendLog
  dsimp only
  split
  · rfl
  · split <;> simp

theorem State.foldl_appendLog_mem (r : Run) (segments : List (List SetGlyph × Nat)) : ∀ s : State,
    (segments.foldl (fun s x => s.appendLog r (logEntryOf r x.1 x.2)) s).mem = s.mem := by
  induction segments with
  | nil => intro s; rfl
  | cons x xs ih => intro s; rw [List.foldl_cons, ih, State.appendLog_mem]

theorem State.endWord_mem (s : State) (r : Run) : (s.endWord r).1.mem = s.mem := by
  unfold State.endWord
  split
  · rfl
  · dsimp only
    split
    · simp [State.overflowRun, State.foldl_appendLog_mem]
    · simp [State.foldl_appendLog_mem]

theorem State.forceBreak_mem (s : State) (r : Run) : (s.forceBreak r).1.mem = s.mem := by
  unfold State.forceBreak
  dsimp only
  split
  · simp [State.overflowRun]
  · simp

theorem State.searchZero_mem (s : State) (r : Run) (b : Font) (l : Lookup) (n : Nat) :
    (s.searchZero r b l n).1.mem = s.mem := by
  unfold State.searchZero; split <;> rfl

theorem State.resolveOwn_mem (s : State) (r : Run) (b : Font) (l : Lookup) (g : Glyph) (bad : Bool) :
    (s.resolveOwn r b l g bad).1.mem = s.mem := by
  unfold State.resolveOwn
  split
  · rfl
  · split
    · rfl
    · split
      · rfl
      · exact State.searchZero_mem ..

theorem State.beginLookup_mem (s : State) (r : Run) (b : Font) (l : Lookup) : (s.beginLookup r b l).1.mem = s.mem := by
  unfold State.beginLookup
  split
  · split
    · rw [State.resolveOwn_mem]
    · rfl
  · exact State.searchZero_mem ..

theorem State.readCode_mem (s : State) (r : Run) (code : BitVec 16) (rest : List (BitVec 16)) :
    (s.readCode r code rest).1.mem = s.mem := by
  unfold State.readCode
  dsimp only
  split
  · rfl
  · split
    · rfl
    · exact State.beginLookup_mem ..

/-- A run that goes on without a grant changes no memory. -/
theorem State.runOn_mem : ∀ (n : Nat) (s : State) (r : Run), (State.runOn n s r).mem = s.mem := by
  intro n
  induction n with
  | zero => intro s r; rfl
  | succ n ih =>
    intro s r
    unfold State.runOn
    split
    · rfl
    · split
      · exact State.finishRun_mem ..
      · exact ih ..
      · exact (ih ..).trans (State.endWord_mem ..)
      · exact ih ..
      · exact (ih ..).trans (State.forceBreak_mem ..)
      · split
        · exact (ih ..).trans (State.readCode_mem ..)
        · exact ih ..

theorem State.resumeRun_mem (s : State) (r : Run) : (s.resumeRun r).mem = s.mem := State.runOn_mem ..

theorem State.nextBlit_mem (s : State) (r : Run) : (s.nextBlit r).mem = s.mem := State.resumeRun_mem ..

theorem State.blendOn_mem (s : State) (r : Run) (touches : List Touch) : (s.blendOn r touches).mem = s.mem := by
  unfold State.blendOn
  split
  · exact State.nextBlit_mem ..
  · rfl

theorem State.serveBitmap_mem (s : State) (r : Run) (b : Blit) (bytes : List Byte) :
    (s.serveBitmap r b bytes).mem = s.mem := by
  unfold State.serveBitmap
  dsimp only
  split
  · rfl
  · exact State.blendOn_mem ..

theorem State.serveEntry_mem (s : State) (r : Run) (b : Font) (l : Lookup) : (s.serveEntry r b l).mem = s.mem := by
  unfold State.serveEntry
  dsimp only
  split
  · rw [State.resumeRun_mem]
  · rw [State.resumeRun_mem, State.resolveOwn_mem]

/-! ## What a grant leaves of memory (R7) -/

/-- Memory after a grant of an access: as it was, or with the words of a writing access replaced. -/
def WrittenBy (access : Option Access) (m m' : Memory) : Prop :=
  m' = m ∨ ∃ (a : Access) (ws : List Word),
    access = some a ∧ a.write = true ∧ a.words = ws.length ∧ m' = m.setWords a.addr ws

/-- A write of one word is one of words. -/
theorem WrittenBy.of_setWord {m : Memory} {a : Nat} {w : Word} :
    WrittenBy (some { addr := a, words := 1, write := true }) m (m.setWord a w) :=
  .inr ⟨_, [w], rfl, rfl, rfl, rfl⟩

/-- Every byte outside the words of a writing access is as it was. -/
theorem WrittenBy.byte_outside {access : Option Access} {m m' : Memory} (h : WrittenBy access m m') (hw : m.wf = true)
    {x : Nat} (ho : ∀ a, access = some a → a.write = true → x < a.addr ∨ a.addr + 4 * a.words ≤ x) :
    m'.byte x = m.byte x := by
  rcases h with rfl | ⟨a, ws, ha, hwr, hn, rfl⟩
  · rfl
  · have := ho a ha hwr
    rw [hn] at this
    exact Memory.byte_setWords_outside hw this

theorem State.resumePainting_mem (s : State) (p : Painting) : (s.resumePainting p).mem = s.mem := by
  unfold State.resumePainting; split <;> rfl

theorem State.markOffsets_mem (s : State) (i : Fin 4) (offsets : List Nat) : (s.markOffsets i offsets).mem = s.mem := rfl

theorem State.servePainting_written (s : State) (p : Painting) : WrittenBy p.access s.mem (s.servePainting p).mem := by
  unfold Painting.access State.servePainting
  cases p.paints with
  | nil => exact .inl rfl
  | cons j rest =>
    dsimp only
    cases p.held with
    | some old =>
      dsimp only
      rw [State.resumePainting_mem, State.markOffsets_mem]
      exact WrittenBy.of_setWord
    | none =>
      dsimp only
      split
      · rw [State.resumePainting_mem, State.markOffsets_mem]
        exact .inr ⟨_, _, rfl, rfl, by simp, rfl⟩
      · exact .inl rfl

theorem State.serveCopying_written (s : State) (c : Copying) : WrittenBy c.access s.mem (s.serveCopying c).mem := by
  unfold Copying.access State.serveCopying
  split
  · exact .inl rfl
  · refine .inr ⟨_, _, rfl, rfl, rfl, ?_⟩
    dsimp only
    split <;> rfl

theorem State.serveRun_written (s : State) (r : Run) : WrittenBy (r.access s) s.mem (s.serveRun r).mem := by
  unfold Run.access State.serveRun
  cases r.blits with
  | nil =>
    dsimp only
    split
    · exact .inl (State.serveEntry_mem ..)
    · exact .inl rfl
  | cons b bs =>
    cases r.drawing with
    | bitmap bytes => exact .inl (State.serveBitmap_mem ..)
    | blend touches held =>
      cases touches with
      | nil => exact .inl (State.nextBlit_mem ..)
      | cons t rest =>
        cases held with
        | none => exact .inl rfl
        | some old =>
          dsimp only
          rw [State.blendOn_mem, State.markOffsets_mem]
          exact WrittenBy.of_setWord

theorem State.serveDiff_mem (s : State) : s.serveDiff.mem = s.mem := by
  unfold State.serveDiff
  split
  · split <;> rfl
  · rfl

theorem State.serveLoad_written (s : State) (x : Update) (l : Load) :
    WrittenBy (some (s.loadAccess x l)) s.mem (s.serveLoad x l).mem := by
  unfold State.serveLoad
  dsimp only
  split
  · exact .inl rfl
  · exact .inl rfl
  · exact .inl rfl
  · rename_i prior panelNew h
    refine .inr ⟨_, prior, rfl, ?_, ?_, rfl⟩ <;> simp [State.loadAccess, h]
  · rename_i new h
    refine .inr ⟨_, new, rfl, ?_, ?_, rfl⟩ <;> simp [State.loadAccess, h]

theorem State.serveClear_written (s : State) (c : Clear) :
    WrittenBy (some (c.access s)) s.mem (s.serveClear c).mem := by
  refine .inr ⟨_, List.replicate (c.access s).words (wordOfTone 15), rfl, ?_, by simp, rfl⟩
  unfold Clear.access
  split <;> rfl

theorem State.serveLoader_written (s : State) : WrittenBy s.loaderAccess s.mem s.serveLoader.mem := by
  unfold State.loaderAccess State.serveLoader
  cases s.loader.clear with
  | some c => exact State.serveClear_written s c
  | none =>
    dsimp only
    split
    · exact State.serveLoad_written ..
    · exact .inl rfl

theorem State.serveReport_written (s : State) (w : ReportWork) :
    WrittenBy (some (w.access s)) s.mem (s.serveReport w).mem := by
  cases w with
  | clear word => exact .inr ⟨_, _, rfl, rfl, by simp, rfl⟩
  | entry e => exact .inr ⟨_, e.words, rfl, rfl, rfl, rfl⟩
  | words first count => exact .inr ⟨_, _, rfl, rfl, by simp, rfl⟩

theorem State.serveCheck_mem (s : State) : s.serveCheck.mem = s.mem := by
  unfold State.serveCheck; split <;> rfl

/-- A grant of an engine writes the words it asks for, or none. -/
theorem State.serveEngine_written (s : State) (pick : Nat) (e : EngineName) :
    WrittenBy (s.engineAccess pick e) s.mem (s.serveEngine pick e).mem := by
  cases e with
  | composer =>
    show WrittenBy s.composerAccess s.mem (s.serveEngine pick .composer).mem
    unfold State.composerAccess State.serveEngine
    dsimp only
    split
    · exact State.servePainting_written ..
    · exact State.serveCopying_written ..
    · exact State.serveRun_written ..
    · exact .inl rfl
  | commitEngine => exact .inl (State.serveDiff_mem s)
  | slotLoader => exact State.serveLoader_written s
  | reporter =>
    show WrittenBy ((s.reportWork pick).map (·.access s)) s.mem (s.serveEngine pick .reporter).mem
    unfold State.serveEngine
    dsimp only
    cases s.reportWork pick with
    | some w => exact State.serveReport_written s w
    | none => exact .inl rfl
  | waveformCheck => exact .inl (State.serveCheck_mem s)

theorem State.deliver_mem (s : State) (f : Frame) (n : Nat) (codes : List (BitVec 2)) :
    (s.deliver f n codes).mem = s.mem := by
  unfold State.deliver; split <;> rfl

/-- A grant of the scanner reads. -/
theorem State.serveScan_mem (s : State) : s.serveScan.mem = s.mem := by
  unfold State.serveScan
  split
  · dsimp only
    split
    · rfl
    · exact State.deliver_mem ..
    · exact State.deliver_mem ..
  · rfl

/-- A grant other than the Relay's writes the words of its access, or none. -/
theorem State.serveGrant_written (s : State) (pick : Nat) {g : Grant} (h : g ≠ .relay) :
    WrittenBy (s.grantAccess pick g) s.mem (s.serveGrant pick g).mem := by
  cases g with
  | refresh => exact .inl rfl
  | scanner => exact .inl (State.serveScan_mem s)
  | relay => exact absurd rfl h
  | engine e =>
    have same : State.engineAccess { s with port := { (s.port) with turn := e.after } } pick e = s.engineAccess pick e := by
      cases e <;> rfl
    have := State.serveEngine_written { s with port := { (s.port) with turn := e.after } } pick e
    rwa [same] at this

/-- The Relay's grant writes no byte outside the word of the write that waits (R1). -/
theorem State.byte_serveRelay_outside {s : State} (hw : s.mem.wf = true) {a : Nat}
    (ho : ∀ w d, s.relay = .writing w d → a / 4 ≠ w.addr.toNat / 4) : s.serveRelay.mem.byte a = s.mem.byte a := by
  unfold State.serveRelay
  split
  · rfl
  · rename_i w d h
    rw [State.landWrite_mem, HostWrite.byte_into hw, if_neg (fun hc => ho w d h hc.1)]
  · rfl

/-- Settles O12: the memory a grant leaves is that of its access, or of the Relay's write. -/
theorem grantWritesOnlyItsWords : Obligations.GrantWritesOnlyItsWords := by
  unfold Obligations.GrantWritesOnlyItsWords
  intro needs pick s t g hw hc ht
  have hm : t.mem = ((s.raiseScan needs).serveGrant pick g).mem := by
    rw [exec_downstreamGrant_next hc ht, conclude_mem]
  refine ⟨fun hg a ho => ?_, fun hg a ho => ?_⟩
  · rw [hm]
    exact (State.serveGrant_written (s.raiseScan needs) pick hg).byte_outside hw ho
  · subst hg
    rw [hm]
    exact State.byte_serveRelay_outside (s := s.raiseScan needs) hw ho

/-! ## REGION, LOCK_TIGHT and GUARD (R10 to R14) -/

/-- A record command that passes its checks is carried out. -/
theorem yields_carryOut {c : Instr} {s carryOut : State} {r : Record} {checks : List (Bool × Reason)}
    (h : exec c s = proceed s (s.checked r checks carryOut)) (hc : firstFailing checks = none) :
    Yields c s carryOut :=
  yields_of_proceed_eq h (State.checked_pass hc)

/-- A record command is refused by the first check that fails (R29). -/
theorem yields_refused {c : Instr} {s carryOut : State} {r : Record} {checks : List (Bool × Reason)} {reason : Reason}
    (h : exec c s = proceed s (s.checked r checks carryOut)) (hc : firstFailing checks = some reason) :
    Yields c s (s.refused r reason) :=
  yields_of_proceed_eq h (State.checked_fail hc)

theorem exec_region {s : State} {r : Record} (h : s.executing r .region) :
    exec .region s =
      proceed s (s.checked r (s.regionChecks r)
        (State.endExecution { s with regions := s.regions.set r.regionEntry r.region })) :=
  onRecord_eq h h.isKind

theorem exec_guard {s : State} {r : Record} (h : s.executing r .guard) :
    exec .guard s = proceed s (s.checked r (s.guardChecks r) (State.endExecution { s with guard := r.guardFields })) :=
  onRecord_eq h h.isKind

theorem exec_lockTight {s : State} {r : Record} (h : s.executing r .lockTight) :
    exec .lockTight s = proceed s (State.endExecution { s with locked := true }) :=
  onRecord_eq h h.isKind

/-- A record of size 0 describes an empty entry (R11). -/
theorem Record.region_empty {r : Record} (h : r.regionSize = 0) : r.region = none := if_pos h

/-- A record whose codes are defined describes their region (R11). -/
theorem Record.region_defined {r : Record} (h : 0 < r.regionSize) {k : RegionKind} {a : Bool}
    (hk : regionKindOf r.regionKindCode = some k) (ha : absorbOf r.regionAbsorbCode = some a) :
    r.region = some { base := r.regionBase, size := r.regionSize, kind := k, absorb := a } := by
  unfold Record.region
  rw [if_neg (by omega), hk, ha]

theorem Region.sharesUnit_iff (p q : Region) :
    p.sharesUnit q = true ↔ max p.base q.base < min (p.base + p.size) (q.base + q.size) := by
  unfold Region.sharesUnit spansOverlap
  simp only [decide_eq_true_eq]

/-- A region shares a unit with the region of another entry (R11). -/
def State.overlapsAnother (s : State) (e : Fin 8) (new : Region) : Bool :=
  (List.finRange 8).any (fun k => decide (k ≠ e) &&
    (match s.regions[k] with | some old => new.sharesUnit old | none => false))

theorem State.overlapsAnother_iff (s : State) (e : Fin 8) (new : Region) :
    s.overlapsAnother e new = true ↔
      ∃ (k : Fin 8) (old : Region), k ≠ e ∧ s.regions[k] = some old ∧ new.sharesUnit old = true := by
  unfold State.overlapsAnother
  simp only [List.any_eq_true, List.mem_finRange, true_and, Bool.and_eq_true, decide_eq_true_eq]
  constructor
  · rintro ⟨k, hk, h⟩
    split at h
    · rename_i old hold; exact ⟨k, old, hk, hold, h⟩
    · cases h
  · rintro ⟨k, old, hk, hold, h⟩
    refine ⟨k, hk, ?_⟩
    rw [hold]
    exact h

/-- Regions that lie clear of every other entry's share no unit with one. -/
theorem State.overlapsAnother_false {s : State} {e : Fin 8} {new : Region}
    (h : ∀ (k : Fin 8) (old : Region), k ≠ e → s.regions[k] = some old →
      new.base + new.size ≤ old.base ∨ old.base + old.size ≤ new.base) : s.overlapsAnother e new = false := by
  rw [Bool.eq_false_iff]
  intro ho
  obtain ⟨k, old, hk, hold, hs⟩ := (State.overlapsAnother_iff ..).1 ho
  have := h k old hk hold
  have := (Region.sharesUnit_iff ..).1 hs
  omega

/-- A bound entry may be set to a region of its own base, size and kind, and to no other (R11). -/
theorem sameButAbsorb_some (p q : Region) :
    sameButAbsorb (some p) (some q) = true ↔ p.base = q.base ∧ p.size = q.size ∧ p.kind = q.kind := by
  unfold sameButAbsorb
  simp [and_assoc]

/-- The checks of a REGION record of size 0 (R11). -/
theorem State.regionChecks_empty {s : State} {r : Record} (hl : s.locked = false) (h : r.regionSize = 0) :
    firstFailing (s.regionChecks r) =
      if s.entryBound r.regionEntry && !sameButAbsorb s.regions[r.regionEntry] none then some .bound else none := by
  unfold State.regionChecks
  rw [Record.region_empty h]
  simp [hl, h]

/-- The checks of a REGION record whose codes are defined and whose region lies below T (R11). -/
theorem State.regionChecks_defined {s : State} {r : Record} (hl : s.locked = false) (h : 0 < r.regionSize)
    {k : RegionKind} {a : Bool} (hk : regionKindOf r.regionKindCode = some k)
    (ha : absorbOf r.regionAbsorbCode = some a) (ht : r.regionBase + r.regionSize ≤ s.top / 4096) :
    let new : Region := { base := r.regionBase, size := r.regionSize, kind := k, absorb := a }
    firstFailing (s.regionChecks r) =
      if s.entryBound r.regionEntry && !sameButAbsorb s.regions[r.regionEntry] (some new) then some .bound
      else if s.overlapsAnother r.regionEntry new then some .overlap else none := by
  unfold State.regionChecks State.overlapsAnother
  rw [Record.region_defined h hk ha]
  have ht' : decide (s.top / Config.unitBytes < r.regionBase + r.regionSize) = false :=
    decide_eq_false (Nat.not_lt.2 ht)
  simp [hl, hk, ha, ht'] <;> rfl

/-- A record with an undefined code, or a region that reaches beyond T, has a bad field (R11). -/
theorem State.regionChecks_badField {s : State} {r : Record} (hl : s.locked = false) (h : 0 < r.regionSize)
    (hb : regionKindOf r.regionKindCode = none ∨ absorbOf r.regionAbsorbCode = none ∨
      s.top / 4096 < r.regionBase + r.regionSize) : firstFailing (s.regionChecks r) = some .badField := by
  have hn : r.regionSize ≠ 0 := by omega
  unfold State.regionChecks
  rcases hb with hb | hb | hb
  · simp [hl, hn, hb]
  · simp [hl, hn, hb]
  · simp [hl, hn, show s.top / Config.unitBytes < r.regionBase + r.regionSize from hb]

/-- Settles O31: the checks of a REGION record in their order, and the entry it then sets. -/
theorem regionAndLock : Obligations.RegionAndLock := by
  unfold Obligations.RegionAndLock
  refine ⟨fun s r h => yields_of_proceed (exec_lockTight h), fun s r h => ?_⟩
  have hx := exec_region h
  refine ⟨fun hl => ?_, fun hl hb h0 => ?_, fun hl hb hs k a hk ha => ⟨fun ht => ?_, fun ht hd => ?_⟩,
    fun hl hs hu => ?_, fun hl hb old hold => ⟨fun h0 => ?_, fun hs ht k a hk ha => ⟨fun hne => ?_, ?_⟩⟩,
    fun hl hb hs ht hk ha e other he ho hpos h1 h2 => ?_⟩
  · exact yields_refused hx (by simp [State.regionChecks, hl])
  · rw [Record.region_empty h0] at hx
    exact yields_carryOut hx (by simp [State.regionChecks_empty hl h0, hb])
  · exact yields_refused hx (State.regionChecks_badField hl hs (.inr (.inr ht)))
  · have clear := State.overlapsAnother_false (s := s) (e := r.regionEntry)
      (new := { base := r.regionBase, size := r.regionSize, kind := k, absorb := a }) hd
    rw [Record.region_defined hs hk ha] at hx
    exact yields_carryOut hx (by simp [State.regionChecks_defined hl hs hk ha ht, hb, clear])
  · refine yields_refused hx (State.regionChecks_badField hl hs ?_)
    exact hu.imp_right .inl
  · refine yields_refused hx ?_
    rw [State.regionChecks_empty hl h0, hb, hold]
    rfl
  · have differ : sameButAbsorb (some old)
        (some { base := r.regionBase, size := r.regionSize, kind := k, absorb := a }) = false := by
      rw [Bool.eq_false_iff]
      intro hsame
      obtain ⟨hbase, hsize, hkind⟩ := (sameButAbsorb_some ..).1 hsame
      exact hne.elim (· hbase) (fun hne => hne.elim (· hsize) (· hkind))
    refine yields_refused hx ?_
    rw [State.regionChecks_defined hl hs hk ha ht, hb, hold, differ]
    rfl
  · intro hbase hsize hkind hd
    have clear := State.overlapsAnother_false (s := s) (e := r.regionEntry)
      (new := { base := r.regionBase, size := r.regionSize, kind := k, absorb := a }) hd
    have same : ({ old with absorb := a } : Region) =
        { base := r.regionBase, size := r.regionSize, kind := k, absorb := a } := by rw [← hbase, ← hsize, ← hkind]
    rw [Record.region_defined hs hk ha] at hx
    rw [same]
    refine yields_carryOut hx ?_
    rw [State.regionChecks_defined hl hs hk ha ht, hold, (sameButAbsorb_some ..).2 ⟨hbase, hsize, hkind⟩, clear]
    simp
  · obtain ⟨k, hk⟩ := Option.isSome_iff_exists.1 hk
    obtain ⟨a, ha⟩ := Option.isSome_iff_exists.1 ha
    have shares : s.overlapsAnother r.regionEntry
        { base := r.regionBase, size := r.regionSize, kind := k, absorb := a } = true :=
      (State.overlapsAnother_iff ..).2 ⟨e, other, he, ho, (Region.sharesUnit_iff ..).2 (by dsimp only; omega)⟩
    exact yields_refused hx (by simp [State.regionChecks_defined hl hs hk ha ht, hb, shares])

/-- Settles O32: the checks of a GUARD record in their order, and what the guard it sets absorbs. -/
theorem guardReplaced : Obligations.GuardReplaced := by
  unfold Obligations.GuardReplaced
  intro s r h g
  have hx := exec_guard h
  refine ⟨fun hl => ?_, fun hl hon hlt => ?_, fun hl hok => ⟨?_, fun addr ha => ?_⟩⟩
  · exact yields_refused hx (by simp [State.guardChecks, hl])
  · exact yields_refused hx (by simp [State.guardChecks, hl, show r.guardFields.on = true from hon,
      show r.guardFields.upper < r.guardFields.lower from hlt])
  · refine yields_carryOut hx ?_
    have : (g.on && decide (g.upper < g.lower)) = false := by
      cases hon : g.on with
      | false => rfl
      | true => simpa using hok hon
    simp [State.guardChecks, hl, show (r.guardFields.on && decide (r.guardFields.upper < r.guardFields.lower)) = false
      from this]
  · rw [State.treat_guarded_iff (s := { s with guard := g }) ha, Guard.absorbs_iff]

end Sys2Proof.Machine
end

section
/-! SUPPORT. The statement about the arbiter's order, with what the scanner's grants read and deliver and the engines'
circle, and the statement about start-up and doze. -/

namespace Sys2Proof.Machine

/-! ## The scanner's grants (R143, R144) -/

theorem heldPixel_iff (m : Mode) (a b : Nat) : heldPixel m a b = true ↔ m ≠ .clean ∧ a = b := by
  unfold heldPixel
  rw [Bool.and_eq_true, decide_eq_true_eq, decide_eq_true_eq]

/-- Just so many pixels from one on are held: the next of the word's eight, if there is one, is not (R144). -/
def heldJust (m : Mode) (prior panel : Word) (k n : Nat) : Prop :=
  k + n ≤ 8 ∧ (∀ j, j < n → m ≠ .clean ∧ pixel prior (k + j) = pixel panel (k + j)) ∧
  (k + n < 8 → ¬ (m ≠ .clean ∧ pixel prior (k + n) = pixel panel (k + n)))

/-- Held pixels take code 0 with the code before them (R144). -/
theorem holdOn_eq {m : Mode} {prior panel : Word} : ∀ (n fuel : Nat) (codes : List (BitVec 2)), n ≤ fuel →
    heldJust m prior panel codes.length n → holdOn m prior panel fuel codes = codes ++ List.replicate n 0 := by
  intro n
  induction n with
  | zero =>
    intro fuel codes _ h
    obtain ⟨_, _, hstop⟩ := h
    rw [List.replicate_zero, List.append_nil]
    cases fuel with
    | zero => rfl
    | succ fuel => exact if_neg (fun hc => hstop hc.1 ((heldPixel_iff ..).1 hc.2))
  | succ n ih =>
    intro fuel codes hf h
    obtain ⟨hle, hheld, hstop⟩ := h
    obtain ⟨fuel, rfl⟩ : ∃ f, fuel = f + 1 := ⟨fuel - 1, by omega⟩
    have hlen : (codes ++ [(0 : BitVec 2)]).length = codes.length + 1 := by simp
    have hpos : codes.length < 8 ∧ heldPixel m (pixel prior codes.length) (pixel panel codes.length) = true :=
      ⟨by omega, (heldPixel_iff ..).2 (hheld 0 (by omega))⟩
    have hrest : heldJust m prior panel (codes ++ [0]).length n := by
      rw [hlen]
      refine ⟨by omega, fun j hj => ?_, fun hlt => ?_⟩
      · rw [Nat.add_assoc, Nat.add_comm 1 j]; exact hheld (j + 1) (by omega)
      · rw [Nat.add_assoc, Nat.add_comm 1 n] at hlt ⊢; exact hstop hlt
    show (if _ then _ else _) = _
    rw [if_pos hpos, ih fuel _ (by omega) hrest, List.append_assoc]
    rfl

/-- The eighth code delivers the word to the panel link, and the scan goes on past it (R144). -/
theorem State.deliver_eq {s : State} {f : Frame} {n : Nat} {codes : List (BitVec 2)} (h : codes.length ≤ 8) :
    s.deliver f n codes =
      if codes.length = 8 then
        { s with scanner :=
          { s.scanner with
            frame := some { next := n + 1, panel := none, prior := none, codes := [] }
            link := Sparse.put (List.replicate 8 0) n codes s.scanner.link } }
      else { s with scanner := { s.scanner with frame := some { f with codes := codes } } } := by
  unfold State.deliver
  by_cases h8 : codes.length = 8
  · rw [if_pos (by omega), if_pos h8]; rfl
  · rw [if_neg (by omega), if_neg h8]

/-- A scanner with a word in hand asks for a grant. -/
theorem State.scanAccess_isSome {s : State} {f : Frame} {n : Nat} {x : Update} (h : s.scanInHand = some (f, n, x)) :
    s.scanAccess.isSome = true := by
  unfold State.scanAccess
  rw [h]
  dsimp only
  split <;> rfl

section ScannerGrant

variable {s : State} {f : Frame} {n : Nat} {x : Update}

/-- The scanner's grant lowers its request, however it was raised. -/
theorem State.serveScan_raiseScan (h : s.scanInHand = some (f, n, x)) (needs : Bool) :
    (s.raiseScan needs).serveScan = s.serveScan := by
  unfold State.serveScan
  rw [show (s.raiseScan needs).scanInHand = some (f, n, x) from h, h]
  rfl

theorem State.serveScan_panel (h : s.scanInHand = some (f, n, x)) (hf : f.panel = none) :
    s.serveScan =
      { s with scanner := { s.scanner with
        request := false, frame := some { f with panel := some (s.mem.word (s.panelBase + 4 * n)) } } } := by
  unfold State.serveScan
  rw [h]
  dsimp only
  rw [hf]
  rfl

theorem State.serveScan_prior (h : s.scanInHand = some (f, n, x)) {q : Word} (hf : f.panel = some q)
    (hp : f.prior = none) :
    s.serveScan =
      State.deliver { s with scanner := { s.scanner with request := false } }
        { f with prior := some (s.mem.word (s.priorBase + 4 * n)) } n
        (holdOn x.mode (s.mem.word (s.priorBase + 4 * n)) q 8 f.codes) := by
  unfold State.serveScan
  rw [h]
  dsimp only
  rw [hf, hp]
  rfl

theorem State.serveScan_code (h : s.scanInHand = some (f, n, x)) {q p : Word} (hf : f.panel = some q)
    (hp : f.prior = some p) :
    s.serveScan =
      State.deliver { s with scanner := { s.scanner with request := false } } f n
        (holdOn x.mode p q 8
          (f.codes ++ [s.driveCode x (pixel p f.codes.length) (pixel q f.codes.length)])) := by
  unfold State.serveScan
  rw [h]
  dsimp only
  rw [hf, hp]
  rfl

/-- The grant that comes to the scanner runs the scanner's work (R7). -/
theorem exec_downstreamGrant_scanner {needs : Bool} {pick : Nat} (hp : s.portReady = true)
    (hr : s.port.refreshRequest = false) (hs : (s.raiseScan needs).scanner.request = true)
    (h : s.scanInHand = some (f, n, x)) (hm : s.grantInMemory pick .scanner = true) :
    exec (.downstreamGrant needs pick) s = proceed s s.serveScan := by
  have hc : (s.raiseScan needs).choose pick = some .scanner :=
    State.choose_scanner (s := s.raiseScan needs) hp hr hs (State.scanAccess_isSome h) pick
  rw [exec_downstreamGrant hc hm, ← State.serveScan_raiseScan h needs]
  rfl

end ScannerGrant

/-! ## The engines' circle (R8) -/

/-- In a list whose keys rise, the first element with a property is the one with the property and the least key. -/
theorem find?_eq_some_iff_least {α : Type} {p : α → Bool} {key : α → Nat} : ∀ {l : List α} {x : α},
    l.Pairwise (fun a b => key a < key b) → x ∈ l →
    (l.find? p = some x ↔ p x = true ∧ ∀ y ∈ l, key y < key x → p y = false) := by
  intro l
  induction l with
  | nil => intro x _ hx; cases hx
  | cons a l ih =>
    intro x hl hx
    obtain ⟨ha, hl⟩ := List.pairwise_cons.1 hl
    cases hp : p a with
    | true =>
      rw [List.find?_cons_of_pos hp, Option.some.injEq]
      constructor
      · rintro rfl
        refine ⟨hp, fun y hy hlt => ?_⟩
        rcases List.mem_cons.1 hy with rfl | hy
        · omega
        · have := ha y hy; omega
      · rintro ⟨-, hleast⟩
        rcases List.mem_cons.1 hx with rfl | hx
        · rfl
        · rw [hleast a List.mem_cons_self (ha x hx)] at hp; cases hp
    | false =>
      rw [List.find?_cons_of_neg (by simp [hp])]
      rcases List.mem_cons.1 hx with rfl | hx
      · refine ⟨fun h => ?_, fun h => ?_⟩
        · rw [List.find?_some h] at hp; cases hp
        · rw [h.1] at hp; cases hp
      · rw [ih hl hx]
        refine and_congr_right fun _ => ⟨fun h y hy hlt => ?_, fun h y hy => h y (List.mem_cons_of_mem a hy)⟩
        rcases List.mem_cons.1 hy with rfl | hy
        · exact hp
        · exact h y hy hlt

/-- The round from an engine on goes through the engines in the order in which they stand past it. -/
theorem EngineName.round_pairwise (turn : EngineName) :
    turn.round.Pairwise (fun a b => a.past turn < b.past turn) := by
  cases turn <;> decide

theorem EngineName.mem_round (turn e : EngineName) : e ∈ turn.round := by
  cases turn <;> cases e <;> decide

/-- The engine in turn is the first from the turn pointer on with a request (R8). -/
theorem State.engineInTurn_iff (s : State) (pick : Nat) (e : EngineName) :
    s.engineInTurn pick = some e ↔
      (s.engineAccess pick e).isSome = true ∧
      ∀ e', e'.past s.port.turn < e.past s.port.turn → s.engineAccess pick e' = none := by
  unfold State.engineInTurn
  rw [find?_eq_some_iff_least (EngineName.round_pairwise s.port.turn) (EngineName.mem_round s.port.turn e)]
  refine and_congr_right fun _ => ⟨fun h e' hlt => ?_, fun h e' _ hlt => ?_⟩
  · simpa using h e' (EngineName.mem_round s.port.turn e') hlt
  · rw [h e' hlt]; rfl

/-- Settles O13: the arbiter's choice kind by kind, the scanner's three grants, and the engines' circle. -/
theorem grantOrder : Obligations.GrantOrder := by
  unfold Obligations.GrantOrder
  refine ⟨fun needs pick s hp => ⟨?_, fun hr => ?_, fun hr hs ha => ?_, fun hr hs hq => ?_, fun hr hs hq e he hm => ?_⟩,
    fun needs pick s f n x hp hr hs h hm => ?_, fun s pick e => ⟨s.engineInTurn_iff pick e, by cases e <;> rfl⟩⟩
  · exact yields_of_proceed (if_pos hp)
  · have hc : (s.raiseScan needs).choose pick = some .refresh :=
      State.choose_refresh (s := s.raiseScan needs) hp hr pick
    refine ⟨_, exec_downstreamGrant hc rfl, ?_⟩
    obtain ⟨m, d, ht⟩ := State.agrees_iff.1 (conclude_agrees s ((s.raiseScan needs).serveGrant pick .refresh))
    rw [ht]
    rfl
  · exact State.choose_scanner (s := s.raiseScan needs) hp hr hs ha pick
  · exact yields_of_proceed (exec_downstreamGrant_relay hp hr hs hq)
  · exact yields_of_proceed (State.grantsTo.exec_eq ⟨hp, hr, hs, hq, he, hm⟩)
  · intro reading found held upTo
    have hx := exec_downstreamGrant_scanner hp hr hs h hm
    have delivered : ∀ (f' : Frame) (codes : List (BitVec 2)), codes.length ≤ 8 →
        State.deliver { s with scanner := { s.scanner with request := false } } f' n codes = found f' codes :=
      fun f' codes hc => State.deliver_eq hc
    refine ⟨fun hf => ?_, fun q m hf hpr hcodes => ?_, fun q p m hf hpr hlen hup => ?_⟩
    · exact yields_of_proceed_eq hx (State.serveScan_panel h hf)
    · intro p hup
      have hjust : heldJust x.mode p q f.codes.length m := by rw [hcodes]; exact hup
      refine yields_of_proceed_eq hx ?_
      rw [State.serveScan_prior h hf hpr, holdOn_eq m 8 f.codes (by have := hjust.1; omega) hjust, hcodes,
        List.nil_append, delivered _ _ (by simpa [hcodes] using hjust.1)]
    · have hl : (f.codes ++ [s.driveCode x (pixel p f.codes.length) (pixel q f.codes.length)]).length =
          f.codes.length + 1 := by simp
      have hjust : heldJust x.mode p q
          (f.codes ++ [s.driveCode x (pixel p f.codes.length) (pixel q f.codes.length)]).length m := by
        rw [hl]; exact hup
      have hle := hjust.1
      refine yields_of_proceed_eq hx ?_
      rw [State.serveScan_code h hf hpr, holdOn_eq m 8 _ (by omega) hjust, delivered _ _ ?_]
      rw [List.length_append, List.length_replicate]
      exact hle

/-! ## Start-up and doze (R141, R157 to R159) -/

theorem State.portReady_iff (s : State) : s.portReady = true ↔ s.startup ≠ .initializing ∧ s.doze.dozing = false := by
  unfold State.portReady
  cases s.startup <;> simp

/-- What two yields of one command at one state leave agrees. -/
theorem Yields.agrees {c : Instr} {s a b : State} (ha : Yields c s a) (hb : Yields c s b) : a.agrees b := by
  obtain ⟨t, ht, hta⟩ := ha
  obtain ⟨t', ht', htb⟩ := hb
  rw [ht] at ht'
  cases ht'
  exact State.agrees_trans (State.agrees_symm hta) htb

/-- A served beat leaves the Doze Controller as it was. -/
theorem State.serveBeat_keeps_doze (s : State) (b : Beat) : (s.serveBeat b).doze = s.doze := by
  have h : s.serveBeat b = { s.serveBeat b with doze := s.doze } := State.serveBeat_doze (s := s) (d := s.doze) rfl b
  rw [h]

/-- The Doze Controller of a part that has just woken (R159). -/
def Doze.awake : Doze := { dozing := false, timer := none }

/-- DOZE_WAKE serves the beat that is held, awake (R159). -/
theorem exec_dozeWake {s : State} {b : Beat} (hd : s.doze.dozing = true) (hr : s.relay = .held b) :
    exec .dozeWake s = proceed s (State.serveBeat { s with doze := Doze.awake } b) := by
  show execDozeWake s = _
  unfold execDozeWake
  rw [hr]
  exact if_pos hd

/-- A part that wakes is AWAKE. -/
theorem dozeWake_awake {s want : State} {b : Beat} (hd : s.doze.dozing = true) (hr : s.relay = .held b)
    (hw : (State.serveBeat { s with doze := Doze.awake } b).agrees want) :
    ∃ t, exec .dozeWake s = .next t ∧ t.doze.dozing = false ∧ t.agrees want := by
  refine ⟨_, exec_dozeWake hd hr, ?_, State.agrees_trans (conclude_agrees ..) hw⟩
  rw [conclude_dozing, State.serveBeat_keeps_doze]
  rfl

/-- The state in which the start-up clearing has begun (R158). -/
def State.clearingBegun (s : State) : State :=
  { s with startup := .clearing 0, loader := { (s.loader) with clear := some { words := 655360, next := 0 } } }

/-- The end of the SDRAM's initialization begins the clearing and serves the beat that is held (R157, R158). -/
theorem exec_sdramInitializationEnd {s : State} (h : s.startup = .initializing) :
    exec .sdramInitializationEnd s = proceed s s.clearingBegun.serveHeld := by
  show execSdramInitializationEnd s = _
  unfold execSdramInitializationEnd
  rw [h]
  rfl

theorem State.serveHeld_idle {s : State} (h : s.relay = .idle) : s.serveHeld = s := by
  unfold State.serveHeld; rw [h]

theorem State.serveHeld_held {s : State} {b : Beat} (h : s.relay = .held b) : s.serveHeld = s.serveBeat b := by
  unfold State.serveHeld; rw [h]

/-- The doze timer's expiry puts an idle part to doze (R159). -/
theorem exec_dozeTimerExpiry {s : State} {n : Nat} (hd : s.doze = { dozing := false, timer := some n })
    (hi : s.idleConditions = true) (hr : s.relay = .idle) :
    exec .dozeTimerExpiry s = proceed s { s with doze := { dozing := true, timer := none } } := by
  show execDozeTimerExpiry s = _
  unfold execDozeTimerExpiry
  rw [hd]
  exact if_pos (by rw [hi, State.relayIdle_of_idle hr]; rfl)

/-- While the Relay serves a beat the doze timer's expiry has no occasion (log entry 24). -/
theorem exec_dozeTimerExpiry_busy {s : State} (h : s.relay ≠ .idle) : exec .dozeTimerExpiry s = .next s := by
  have hi : s.relayIdle = false := by
    unfold State.relayIdle
    split
    · rename_i hr; exact absurd hr h
    · rfl
  show execDozeTimerExpiry s = _
  unfold execDozeTimerExpiry
  rw [hi, Bool.and_false]
  split <;> rfl

/-- The start-up clearing over, the part runs (R158). -/
theorem exec_startUpClearingEnd {s : State} (h : s.startup = .clearing 1024) (hc : s.loader.clear = none) :
    exec .startUpClearingEnd s = proceed s { s with startup := .running } := by
  show execStartUpClearingEnd s = _
  unfold execStartUpClearingEnd
  rw [h, hc]
  rfl

/-- A grant of a clearing writes white into up to eight words of an image, the Prior Image first (R141, R158). -/
theorem State.serveClear_eq (s : State) (c : Clear) :
    s.serveClear c =
      let n := if c.next < c.words then min 8 (c.words - c.next) else min 8 (2 * c.words - c.next)
      let a := if c.next < c.words then s.memBytes - 0x600000 + 4 * c.next
        else s.memBytes - 0x600000 + 0x280000 + 4 * (c.next - c.words)
      { s with
        mem := s.mem.setWords a (List.replicate n 0xFFFFFFFF)
        loader := { (s.loader) with
          clear := if c.next + n < 2 * c.words then some { c with next := c.next + n } else none } } := by
  have white : wordOfTone 15 = 0xFFFFFFFF := by decide
  unfold State.serveClear Clear.access Config.grantWords
  rw [white, State.priorBase_eq, State.panelBase_eq]
  by_cases h : c.next < c.words
  · simp only [if_pos h]
  · simp only [if_neg h]

theorem State.serveLoader_clear {s : State} {c : Clear} (h : s.loader.clear = some c) :
    s.serveLoader = s.serveClear c := by
  unfold State.serveLoader; rw [h]

/-- During the start-up clearing the Reporter writes the Report Area alone (R152, R158). -/
theorem State.reportWork_clearing {s : State} {next : Nat} (h : s.startup = .clearing next) (hn : next < 1024)
    (pick : Nat) : s.reportWork pick = some (.clear next) := by
  unfold State.reportWork
  rw [h]
  exact if_pos hn

/-- A grant of the Slot Loader with a clearing under way. -/
theorem grantLeaves_clear {needs : Bool} {pick : Nat} {s : State} {c : Clear} (h : s.grantsTo needs pick .slotLoader)
    (hc : s.loader.clear = some c) : GrantLeaves needs pick s .slotLoader (s.serveClear c) :=
  yields_of_proceed_eq h.exec_eq
    (State.serveLoader_clear (s := { s with port := { (s.port) with turn := EngineName.after .slotLoader } }) hc)

/-- A grant of the Reporter during the start-up clearing. -/
theorem grantLeaves_reportClear {needs : Bool} {pick : Nat} {s : State} {next : Nat}
    (h : s.grantsTo needs pick .reporter) (hs : s.startup = .clearing next) (hn : next < 1024) :
    GrantLeaves needs pick s .reporter (s.serveReport (.clear next)) := by
  refine yields_of_proceed_eq h.exec_eq ?_
  have hw := State.reportWork_clearing
    (s := { s with port := { (s.port) with turn := EngineName.after .reporter } }) hs hn pick
  unfold State.serveEngine
  dsimp only
  rw [hw]
  rfl

/-- Settles O18: held beats are served when the reason for holding them ends, the clearings write their words, and the
doze timer's expiry puts an idle part to doze. -/
theorem startUpAndDoze : Obligations.StartUpAndDoze := by
  unfold Obligations.StartUpAndDoze
  refine ⟨⟨fun addr s hi hp => ?_, fun addr data enables s hi hp => ?_, fun s hs hi => ?_,
      fun addr s hd hr hb => ?_, fun addr s hd hs hr hb href hscan => ?_, fun w s hd hr hk d ht => ?_,
      fun b s want hd hs hr hy => ?_, fun b s want hs hd hr hy => ?_⟩,
    ⟨fun s hs hc => yields_of_proceed (exec_startUpClearingEnd hs hc), fun s n hd hi hr => ?_,
      fun s hr => exec_dozeTimerExpiry_busy hr⟩,
    fun needs pick s c hg hc hn => ?_, fun needs pick s next hg hs hn => ?_⟩
  · exact yields_of_proceed_eq (exec_beat hi (.read addr)) (State.arrive_held hp _)
  · exact yields_of_proceed_eq (exec_beat hi (.write { addr := addr, data := data, enables := enables }))
      (State.arrive_held hp _)
  · exact yields_of_proceed_eq (exec_sdramInitializationEnd hs) (State.serveHeld_idle (s := s.clearingBegun) hi)
  · refine dozeWake_awake hd hr ?_
    rw [State.serveBeat_read_beyond (s := { s with doze := Doze.awake }) hb]
    exact (State.accessFault_with_doze { s with readData := 0, relay := .idle } Doze.awake addr .range).symm ▸
      State.agrees_with_doze _ _
  · refine dozeWake_awake hd hr ?_
    have hp : ({ s with doze := Doze.awake } : State).portReady = true :=
      (State.portReady_iff _).2 ⟨by rw [hs]; simp, rfl⟩
    rw [State.serveBeat_read_granted (s := { s with doze := Doze.awake }) hb ⟨hp, href, hscan⟩]
    rfl
  · refine dozeWake_awake hd hr ?_
    rw [State.serveBeat_write, show ({ s with doze := Doze.awake } : State).treat w.addr = .passed d from ht]
    dsimp only
    rw [State.spoilCheck_none (s := { s with doze := Doze.awake, relay := .writing w d }) hk]
    rfl
  · have hp : ({ s with relay := .idle, doze := Doze.awake } : State).portReady = true :=
      (State.portReady_iff _).2 ⟨hs, rfl⟩
    have served := (yields_beat rfl hp b).agrees hy
    rw [State.serveBeat_relay { s with doze := Doze.awake } .idle b] at served
    exact yields_of_agrees (exec_dozeWake hd hr) served
  · have hp : ({ s.clearingBegun with relay := .idle } : State).portReady = true :=
      (State.portReady_iff _).2 ⟨by simp [State.clearingBegun], hd⟩
    have served := (yields_beat rfl hp b).agrees hy
    rw [State.serveBeat_relay s.clearingBegun .idle b, ← State.serveHeld_held (s := s.clearingBegun) hr] at served
    exact yields_of_agrees (exec_sdramInitializationEnd hs) served
  · refine ⟨_, exec_dozeTimerExpiry hd hi hr, conclude_doze_of_dozing rfl, ?_⟩
    exact State.agrees_trans (conclude_agrees ..) (State.agrees_with_doze s _)
  · have h := grantLeaves_clear hg hc
    rwa [State.serveClear_eq] at h
  · exact grantLeaves_reportClear hg hs hn

end Sys2Proof.Machine
end

section
/-! SUPPORT. The statement about FILL and the grants of a painting, with what a grant that writes into a draft marks. -/

namespace Sys2Proof.Machine

/-! ## The marks of written words (R39, R40, R49) -/

/-- The marks of the tiles of words at some byte offsets of an image. -/
def writtenMarks (stride : Nat) (offsets : List Nat) : BitVec 5120 :=
  offsets.foldl (fun m o => m ||| tileMask (tileOfOffset stride o)) 0

theorem State.markOffsets_eq (s : State) (i : Fin 4) (offsets : List Nat) :
    s.markOffsets i offsets = s.markTiles i (writtenMarks s.geometry.stride offsets) := rfl

theorem tileMask_getLsbD (tile : Nat) {k : Nat} (hk : k < 5120) : (tileMask tile).getLsbD k = true ↔ tile = k := by
  unfold tileMask
  rw [BitVec.getLsbD_shiftLeft, BitVec.getLsbD_one]
  simp only [Bool.and_eq_true, Bool.not_eq_true', decide_eq_true_eq, decide_eq_false_iff_not]
  omega

theorem writtenMarks_getLsbD (stride : Nat) (offsets : List Nat) {k : Nat} (hk : k < 5120) :
    (writtenMarks stride offsets).getLsbD k = true ↔ ∃ o ∈ offsets, tileOfOffset stride o = k := by
  have fold : ∀ (offsets : List Nat) (m : BitVec 5120),
      (offsets.foldl (fun m o => m ||| tileMask (tileOfOffset stride o)) m).getLsbD k = true ↔
        m.getLsbD k = true ∨ ∃ o ∈ offsets, tileOfOffset stride o = k := by
    intro offsets
    induction offsets with
    | nil => intro m; simp
    | cons o os ih =>
      intro m
      rw [List.foldl_cons, ih, BitVec.getLsbD_or, Bool.or_eq_true, tileMask_getLsbD _ hk, or_assoc]
      simp
  unfold writtenMarks
  rw [fold]
  simp

/-- Some tile of the Dirty Map is marked exactly where some word lies in a tile of it. -/
theorem writtenMarks_ne_zero (stride : Nat) (offsets : List Nat) :
    writtenMarks stride offsets ≠ 0 ↔ ∃ o ∈ offsets, tileOfOffset stride o < 5120 := by
  constructor
  · intro h
    by_contra hn
    refine h (BitVec.eq_of_getLsbD_eq fun k hk => ?_)
    rw [show (0 : BitVec 5120).getLsbD k = false from BitVec.getLsbD_zero, Bool.eq_false_iff]
    intro hm
    obtain ⟨o, ho, ht⟩ := (writtenMarks_getLsbD stride offsets hk).1 hm
    exact hn ⟨o, ho, by omega⟩
  · rintro ⟨o, ho, ht⟩ hz
    have hm := (writtenMarks_getLsbD stride offsets ht).2 ⟨o, ho, rfl⟩
    rw [hz] at hm
    simp at hm

/-- A state whose page slots are those after the marking of some words has their tiles marked, and no more. -/
theorem marksWritten_of_pages {s t : State} {i : Fin 4} {offsets : List Nat}
    (h : t.pages = (s.markOffsets i offsets).pages) : MarksWritten s t i offsets := by
  have page : ∀ j, t.page j =
      if i = j then (s.page i).mark s.tune.latencyLimit (writtenMarks s.geometry.stride offsets) else s.page j := by
    intro j
    rw [show t.page j = (s.markOffsets i offsets).page j by unfold State.page; rw [h], State.markOffsets_eq]
    exact State.setPage_page ..
  have own := page i
  rw [if_pos rfl] at own
  refine ⟨fun j hj => by rw [page j, if_neg (Ne.symm hj)], by rw [own]; rfl, fun k hk => ?_, ?_⟩
  · rw [own]
    unfold PageSlot.mark PageSlot.marked
    dsimp only
    rw [BitVec.getLsbD_or, Bool.or_eq_true, writtenMarks_getLsbD _ _ hk]
    rfl
  · rw [own]
    unfold PageSlot.mark PageSlot.hasDirty
    dsimp only
    have lies : (∃ o ∈ offsets, o / (s.geometry.width / 2) / 32 * 80 + o % (s.geometry.width / 2) / 16 < 5120) ↔
        writtenMarks s.geometry.stride offsets ≠ 0 := (writtenMarks_ne_zero s.geometry.stride offsets).symm
    simp only [lies, Bool.and_eq_true, Bool.not_eq_true', decide_eq_true_eq, decide_eq_false_iff_not, not_not, and_assoc]

/-- A command that replaces memory, marks the tiles of some words, and leaves the Composer and the port somewhere. -/
theorem written_and_marked {c : Instr} {s : State} {i : Fin 4} {offsets : List Nat} {m : Memory} {k : Composer}
    {q : Port}
    (h : exec c s =
      proceed s { (State.markOffsets { s with mem := m, port := q } i offsets) with composer := k }) :
    ∃ t, exec c s = .next t ∧ t.agrees { s with mem := m, pages := t.pages, composer := k, port := q } ∧
      MarksWritten s t i offsets := by
  refine ⟨_, h, ?_, marksWritten_of_pages (by rw [conclude_pages]; rfl)⟩
  rw [conclude_pages]
  exact conclude_agrees ..

/-! ## Painting (R9, R47) -/

theorem State.geometry_eq {s : State} {g : Geometry} (h : s.supply.geometry = some g) : s.geometry = g := by
  unfold State.geometry; rw [h]

/-- The Composer with a painting as it stands: it goes on, or has ended when nothing is left to paint. -/
def Painting.composer (p : Painting) : Composer := if p.paints.isEmpty then .ended else .painting p

theorem State.resumePainting_eq (s : State) (p : Painting) : s.resumePainting p = { s with composer := p.composer } := by
  unfold State.resumePainting Painting.composer
  split <;> rfl

/-- The painting goes on along the row, down the rows, to the next rectangle, and ends. -/
theorem Painting.composer_advance (p : Painting) (j : Paint) (rest : List Paint) (n : Nat) :
    p.paints = j :: rest → (p.advance n).composer =
      if p.col + n < (j.rect.right + 7) / 8 then .painting { p with col := p.col + n, held := none }
      else if p.row + 1 < j.rect.bottom then .painting { p with row := p.row + 1, col := j.rect.left / 8, held := none }
      else match rest with
        | [] => .ended
        | k :: _ => .painting { p with paints := rest, row := k.rect.top, col := k.rect.left / 8, held := none } := by
  intro h
  unfold Painting.advance Rect.endCol Rect.firstCol
  split
  · rename_i hnil; rw [h] at hnil; cases hnil
  · rename_i hcons
    rw [h] at hcons
    cases hcons
    split_ifs
    · simp [Painting.composer, h]
    · simp [Painting.composer, h]
    · cases rest <;> rfl

/-- A word is written without a read where SET covers it whole. -/
theorem Painting.whole_iff (p : Painting) (j : Paint) :
    p.whole j = true ↔ j.op = .set ∧ j.rect.left ≤ 8 * p.col ∧ 8 * p.col + 8 ≤ j.rect.right := by
  unfold Painting.whole Rect.coversCol
  cases j.op <;> simp

section PaintingGrant

variable {s : State} {p : Painting} {j : Paint} {rest : List Paint}

/-- A word that is not covered whole by SET is read. -/
theorem State.servePainting_read (h : p.paints = j :: rest) (hh : p.held = none) (hw : p.whole j = false) :
    s.servePainting p = { s with composer := .painting { p with held := some (s.mem.word (p.base + p.offset)) } } := by
  unfold State.servePainting
  rw [h, hh]
  dsimp only
  rw [hw]
  rfl

/-- A word that has been read is written back painted. -/
theorem State.servePainting_back (h : p.paints = j :: rest) {old : Word} (hh : p.held = some old) :
    s.servePainting p =
      { (State.markOffsets { s with mem := s.mem.setWord (p.base + p.offset) (j.word p.col old) } p.slot [p.offset]) with
        composer := (p.advance 1).composer } := by
  unfold State.servePainting
  rw [h, hh]
  exact State.resumePainting_eq ..

/-- Words that SET covers whole are written with the tone, up to eight in one grant. -/
theorem State.servePainting_whole (h : p.paints = j :: rest) (hh : p.held = none) (hw : p.whole j = true) :
    s.servePainting p =
      let n := min 8 (j.rect.right / 8 - p.col)
      { (State.markOffsets { s with mem := s.mem.setWords (p.base + p.offset) (List.replicate n (wordOfTone j.tone)) }
          p.slot ((List.range n).map (fun k => p.offset + 4 * k))) with
        composer := (p.advance n).composer } := by
  obtain ⟨_, _, hright⟩ := (Painting.whole_iff p j).1 hw
  have hn : max 1 (j.rect.wholeRun p.col) = min 8 (j.rect.right / 8 - p.col) := by
    unfold Rect.wholeRun Config.grantWords
    omega
  unfold State.servePainting
  rw [h, hh]
  dsimp only
  rw [if_pos hw, hn]
  exact State.resumePainting_eq ..

/-- A grant made to a Composer that paints. -/
theorem State.grantsTo.exec_painting {needs : Bool} {pick : Nat} (hg : s.grantsTo needs pick .composer)
    (hc : s.composer = .painting p) :
    exec (.downstreamGrant needs pick) s =
      proceed s (State.servePainting { s with port := { (s.port) with turn := .commitEngine } } p) := by
  rw [hg.exec_eq]
  unfold State.serveEngine
  rw [hc]
  rfl

end PaintingGrant

/-! ## FILL (R47) -/

/-- With nothing to paint, execution ends at once. -/
theorem State.beginPainting_empty (s : State) (i : Fin 4) {p : Paint} (h : p.rect.nonempty = false) :
    s.beginPainting i [p] = { s with composer := .ended } := by
  unfold State.beginPainting Painting.start
  rw [List.filter_cons_of_neg (by simp [h])]
  rfl

/-- A FILL record of a defined operation, at its command. -/
theorem exec_fill {s : State} {r : Record} {op : PaintOp} {c : Instr} (h : s.executing r .fill)
    (hop : op = .set ∧ r.fillOp = 0 ∧ c = .fillSet ∨ op = .multiply ∧ r.fillOp = 1 ∧ c = .fillMultiply) :
    exec c s = proceed s (s.checked r (s.fillChecks r) (s.beginPainting r.slot [s.fillPaint r op])) := by
  rcases hop with ⟨rfl, ho, rfl⟩ | ⟨rfl, ho, rfl⟩
  · exact onRecord_eq h (by simp [h.isKind, ho])
  · exact onRecord_eq h (by simp [h.isKind, ho])

/-- The checks of a FILL record of a defined operation. -/
theorem State.fillChecks_defined {s : State} {r : Record} (h : r.fillOp ≤ 1) :
    firstFailing (s.fillChecks r) = if (s.page r.slot).isOpen then none else some .notOpen := by
  have hn : ¬ 1 < r.fillOp := by omega
  unfold State.fillChecks
  cases (s.page r.slot).isOpen <;> simp [hn]

theorem Rect.nonempty_iff (p : Rect) : p.nonempty = true ↔ p.left < p.right ∧ p.top < p.bottom := by
  unfold Rect.nonempty; simp

/-- Settles O39: the painting that FILL begins, and what each grant of a painting writes, marks and goes on to. -/
theorem fillBegins : Obligations.FillBegins := by
  unfold Obligations.FillBegins
  refine ⟨fun s r g op c h hop hg => ?_, fun needs pick s p j rest hg hc hp => ?_⟩
  · intro f q
    have hx := exec_fill h hop
    have hdefined : r.fillOp ≤ 1 := by
      rcases hop with ⟨_, ho, _⟩ | ⟨_, ho, _⟩ <;> omega
    have hpaint : s.fillPaint r op = { rect := q, op := op, tone := r.fillTone } := by
      unfold State.fillPaint
      rw [State.geometry_eq hg]
      rfl
    rw [hpaint] at hx
    refine ⟨fun ho => ?_, fun ho hempty => ?_, fun ho hl ht => ?_⟩
    · exact yields_refused hx (by rw [State.fillChecks_defined hdefined, ho]; rfl)
    · have hne : q.nonempty = false := by
        rw [Bool.eq_false_iff]
        intro hn
        have := (Rect.nonempty_iff q).1 hn
        omega
      rw [State.beginPainting_empty s r.slot hne] at hx
      exact yields_carryOut hx (by rw [State.fillChecks_defined hdefined, ho]; rfl)
    · have hne : q.nonempty = true := (Rect.nonempty_iff q).2 ⟨hl, ht⟩
      rw [State.beginPainting_eq s r.slot _ (by simpa using hne)] at hx
      unfold State.drawing at hx
      rw [State.geometry_eq hg] at hx
      exact yields_carryOut hx (by rw [State.fillChecks_defined hdefined, ho]; rfl)
  · intro o whole goesOn
    have hx := hg.exec_painting hc
    have hwhole : p.whole j = true ↔ whole := Painting.whole_iff p j
    have hgoes : ∀ n, (p.advance n).composer = goesOn n := fun n => Painting.composer_advance p j rest n hp
    refine ⟨fun hh hn => ?_, fun old hh => ?_, fun hh hw => ?_⟩
    · rw [State.servePainting_read hp hh (Bool.eq_false_iff.2 (fun hc => hn (hwhole.1 hc)))] at hx
      exact yields_of_proceed hx
    · rw [State.servePainting_back hp hh, hgoes] at hx
      exact written_and_marked hx
    · rw [State.servePainting_whole hp hh (hwhole.2 hw)] at hx
      dsimp only at hx
      rw [hgoes] at hx
      exact written_and_marked hx

end Sys2Proof.Machine
end

section
/-! SUPPORT. What the commands that do not touch the Ring Decoder, the Record Queue or the tunable limits leave of them, and
of the Reporter's counts, said once for each shared operation. -/

namespace Sys2Proof.Machine

-- As in the tests, this keeps the number of the compiler's threads, and with it its memory, low.
set_option Elab.async false

/-! ## Beside the Control Ring -/

/-- Each of the Reporter's counts that is in bounds stays in bounds (R153, R155). -/
def Reporter.keepsBounds (r r' : Reporter) : Prop :=
  (r.outstanding ≤ 240 → r'.outstanding ≤ 240) ∧ (r.dropped ≤ 65535 → r'.dropped ≤ 65535) ∧
  (r.faultCount ≤ 65535 → r'.faultCount ≤ 65535) ∧ (r.nextIndex < 240 → r'.nextIndex < 240)

/-- The second state has the first one's tunable limits, Ring Decoder and Record Queue, and its Reporter keeps its counts
in bounds. -/
def State.besideRing (b s : State) : Prop :=
  s.tune = b.tune ∧ s.decoder = b.decoder ∧ s.queue = b.queue ∧ b.reporter.keepsBounds s.reporter

theorem Reporter.keepsBounds_refl (r : Reporter) : r.keepsBounds r := ⟨id, id, id, id⟩

/-- The counts that the bounds are about, kept as they are. -/
theorem Reporter.keepsBounds_of_eq {r r' : Reporter} (hp : r'.produced = r.produced) (hc : r'.consumed = r.consumed)
    (hd : r'.dropped = r.dropped) (hf : r'.faultCount = r.faultCount) (hn : r'.nextIndex = r.nextIndex) :
    r.keepsBounds r' := by
  unfold Reporter.keepsBounds Reporter.outstanding
  rw [hp, hc, hd, hf, hn]
  exact ⟨id, id, id, id⟩

theorem Reporter.keepsBounds.trans {p q r : Reporter} (h : p.keepsBounds q) (h' : q.keepsBounds r) : p.keepsBounds r := by
  obtain ⟨ho, hd, hf, hn⟩ := h
  obtain ⟨ho', hd', hf', hn'⟩ := h'
  exact ⟨ho' ∘ ho, hd' ∘ hd, hf' ∘ hf, hn' ∘ hn⟩

/-- One more event appended while fewer than 240 are outstanding (R153). -/
theorem Reporter.outstanding_succ {r : Reporter} (h : r.outstanding < 240) :
    (r.produced + 1 - r.consumed).toNat ≤ 240 := by
  unfold Reporter.outstanding at h
  bv_omega

theorem nextEntry_lt {n : Nat} (h : n < 240) : nextEntry n < 240 := by
  unfold nextEntry Config.eventEntries
  split <;> omega

theorem sat16_le (n : Nat) : sat16 n ≤ 65535 := Nat.min_le_right ..

/-- An event raised keeps the Reporter's counts in bounds (R153). -/
theorem State.raise_keepsBounds (s : State) (e : Event) : s.reporter.keepsBounds (s.raise e).reporter := by
  by_cases h : s.reporter.outstanding < Config.eventEntries
  · rw [State.raise_append h]
    exact ⟨fun _ => Reporter.outstanding_succ h, id, id, nextEntry_lt⟩
  · rw [State.raise_drop h]
    exact ⟨id, fun _ => sat16_le _, id, id⟩

/-- An access fault keeps the Reporter's counts in bounds (R155). -/
theorem State.accessFault_keepsBounds (s : State) (a : BusAddr) (c : FaultCause) :
    s.reporter.keepsBounds (s.accessFault a c).reporter := by
  by_cases h : s.reporter.faultCount = 0
  · rw [State.accessFault_first h]
    refine Reporter.keepsBounds.trans ?_ (State.raise_keepsBounds ..)
    exact ⟨id, id, fun _ => (by decide : 1 ≤ 65535), id⟩
  · rw [State.accessFault_later h]
    exact ⟨id, id, fun _ => sat16_le _, id⟩

/-- A Consumed Count taken leaves at most 240 events outstanding (R154). -/
theorem Reporter.acceptConsumed_outstanding (r : Reporter) (v : BitVec 16) :
    (r.produced - r.acceptConsumed v).toNat ≤ 240 := by
  unfold Reporter.acceptConsumed Config.eventEntries
  split
  · assumption
  · simp

theorem State.besideRing_refl (s : State) : s.besideRing s := ⟨rfl, rfl, rfl, Reporter.keepsBounds_refl _⟩

section
variable {b s : State}

/-- A change of other parts of the state. -/
theorem State.besideRing.same {t : State} (h : b.besideRing s) (ht : t.tune = s.tune := by rfl)
    (hd : t.decoder = s.decoder := by rfl) (hq : t.queue = s.queue := by rfl)
    (hr : t.reporter = s.reporter := by rfl) : b.besideRing t := by
  unfold State.besideRing
  rw [ht, hd, hq, hr]
  exact h

/-- A change of the Reporter and of other parts of the state. -/
theorem State.besideRing.report {t : State} (h : b.besideRing s) (hr : s.reporter.keepsBounds t.reporter)
    (ht : t.tune = s.tune := by rfl) (hd : t.decoder = s.decoder := by rfl) (hq : t.queue = s.queue := by rfl) :
    b.besideRing t := by
  obtain ⟨ht', hd', hq', hr'⟩ := h
  exact ⟨ht.trans ht', hd.trans hd', hq.trans hq', hr'.trans hr⟩

theorem State.besideRing.trans {t : State} (h : b.besideRing s) (h' : s.besideRing t) : b.besideRing t := by
  obtain ⟨ht, hd, hq, hr⟩ := h'
  exact h.report hr ht hd hq

/-- Items taken one after another, each beside the Control Ring. -/
theorem State.besideRing.foldl {α : Type} {f : State → α → State} (hf : ∀ s x, b.besideRing s → b.besideRing (f s x))
    (xs : List α) : ∀ {s : State}, b.besideRing s → b.besideRing (xs.foldl f s) := by
  induction xs with
  | nil => exact fun h => h
  | cons x xs ih => exact fun h => ih (hf _ x h)

/-! ## Events, faults and answers -/

theorem State.besideRing.raise (h : b.besideRing s) (e : Event) : b.besideRing (s.raise e) :=
  h.report (State.raise_keepsBounds s e) (by simp) (by simp) (by simp)

theorem State.besideRing.raiseAll (h : b.besideRing s) (es : List Event) : b.besideRing (s.raiseAll es) :=
  State.besideRing.foldl (fun _ e h => h.raise e) es h

theorem State.besideRing.accessFault (h : b.besideRing s) (a : BusAddr) (c : FaultCause) :
    b.besideRing (s.accessFault a c) :=
  h.report (State.accessFault_keepsBounds s a c) (by simp) (by simp) (by simp)

theorem State.besideRing.conclude {before : State} (h : b.besideRing s) : b.besideRing (conclude before s) := by
  rw [conclude_eq]
  exact h.report (Reporter.keepsBounds_refl s.reporter)

theorem State.besideRing.refuse (h : b.besideRing s) (r : Record) (reason : Reason) : b.besideRing (s.refuse r reason) :=
  (h.raise _).same

theorem State.besideRing.endExecution (h : b.besideRing s) : b.besideRing s.endExecution := h.same

/-- A record refused or carried out. -/
theorem State.besideRing.checked {t : State} (h : b.besideRing s) (ht : b.besideRing t) (r : Record)
    (checks : List (Bool × Reason)) : b.besideRing (s.checked r checks t) := by
  unfold State.checked
  split
  · exact h.refuse ..
  · exact ht

/-! ## Painting and copying (R9, R46, R47) -/

theorem State.besideRing.resumePainting (h : b.besideRing s) (p : Painting) : b.besideRing (s.resumePainting p) := by
  unfold State.resumePainting
  split
  · exact h.same
  · exact h.same

theorem State.besideRing.beginPainting (h : b.besideRing s) (i : Fin 4) (paints : List Paint) :
    b.besideRing (s.beginPainting i paints) :=
  h.resumePainting _

theorem State.besideRing.servePainting (h : b.besideRing s) (p : Painting) : b.besideRing (s.servePainting p) := by
  unfold State.servePainting
  split
  · exact h
  · dsimp only
    split
    · exact State.besideRing.resumePainting h.same _
    · split
      · exact State.besideRing.resumePainting h.same _
      · exact h.same

theorem State.besideRing.serveCopying (h : b.besideRing s) (c : Copying) : b.besideRing (s.serveCopying c) := by
  unfold State.serveCopying
  split
  · exact h.same
  · dsimp only
    split
    · exact h.same
    · exact h.same

/-! ## Notes (R88 to R99) -/

theorem State.besideRing.createNote (h : b.besideRing s) (n : Note) : b.besideRing (s.createNote n) := by
  have hr : b.besideRing s.renumberNotes := by
    unfold State.renumberNotes
    split
    · exact h.same
    · exact h
  exact hr.same

theorem State.besideRing.copyNotes (h : b.besideRing s) (source dest : Fin 4) :
    b.besideRing (s.copyNotes source dest) :=
  State.besideRing.foldl (fun _ _ h => h.createNote _) _ (s := s.dropNotes dest) h.same

theorem State.besideRing.raiseCut (h : b.besideRing s) (r : Record) (dropped held : Nat) :
    b.besideRing (s.raiseCut r dropped held) := by
  unfold State.raiseCut
  split
  · exact h
  · exact h.raise _

theorem State.besideRing.doHighlight (h : b.besideRing s) (r : Record) : b.besideRing (s.doHighlight r) := by
  unfold State.doHighlight
  dsimp only
  split
  · exact State.besideRing.beginPainting (State.besideRing.raiseCut h.same ..) ..
  · exact State.besideRing.beginPainting (State.besideRing.raiseCut (h.createNote _) ..) ..

/-! ## Commits (R103 to R120) -/

/-- A consideration called for where some entry is gone. -/
theorem State.besideRing.callIf (h : b.besideRing s) (c : Bool) :
    b.besideRing (if c then s else s.callConsideration) := by
  split
  · exact h
  · exact h.same

theorem State.besideRing.cancelPage (h : b.besideRing s) (i : Fin 4) : b.besideRing (s.cancelPage i) :=
  State.besideRing.callIf (State.besideRing.raiseAll h.same _) _

theorem State.besideRing.cancelAll (h : b.besideRing s) : b.besideRing s.cancelAll :=
  State.besideRing.callIf (State.besideRing.raiseAll h.same _) _

theorem State.besideRing.discardPage (h : b.besideRing s) (i : Fin 4) : b.besideRing (s.discardPage i) :=
  (h.cancelPage i).same

theorem State.besideRing.takeWaitingDiscard (h : b.besideRing s) (i : Fin 4) : b.besideRing (s.takeWaitingDiscard i) := by
  unfold State.takeWaitingDiscard
  split
  · exact (h.discardPage i).same
  · exact h

theorem State.besideRing.endCommit (h : b.besideRing s) (c : Commit) : b.besideRing (s.endCommit c) := by
  unfold State.endCommit
  cases c.origin.isRecord with
  | true =>
    split
    · exact State.besideRing.takeWaitingDiscard h.same _
    · exact h.same
  | false =>
    split
    · exact State.besideRing.takeWaitingDiscard h.same _
    · exact h.same

theorem State.besideRing.append (h : b.besideRing s) (r : Request) : b.besideRing (s.append r) :=
  h.report (Reporter.keepsBounds_refl s.reporter)

theorem State.besideRing.decideRequest (h : b.besideRing s) (c : Commit) (r : Request) :
    b.besideRing (s.decideRequest c r) := by
  unfold State.decideRequest
  split
  · exact State.besideRing.endCommit h.same c
  · split
    · exact (h.append r).endCommit c
    · exact h.same

theorem State.besideRing.serveDiff (h : b.besideRing s) : b.besideRing s.serveDiff := by
  unfold State.serveDiff
  split
  · split
    · exact h.same
    · exact h
  · exact h

/-! ## Updates, frames and panel power (R121 to R151) -/

theorem State.besideRing.riseIfReady (h : b.besideRing s) : b.besideRing s.riseIfReady := by
  unfold State.riseIfReady
  split
  · exact h.same
  · exact h

theorem State.besideRing.slotBecameReady (h : b.besideRing s) : b.besideRing s.slotBecameReady := by
  unfold State.slotBecameReady
  split
  · exact h.same
  · exact h.riseIfReady

theorem State.besideRing.abort (h : b.besideRing s) (u : Fin 15) : b.besideRing (s.abort u) := by
  unfold State.abort
  split
  · exact h.same
  · exact h

theorem State.besideRing.serveScan (h : b.besideRing s) : b.besideRing s.serveScan := by
  have hdeliver : ∀ {s : State} (f : Frame) (n : Nat) (codes : List (BitVec 2)), b.besideRing s →
      b.besideRing (s.deliver f n codes) := by
    intro s f n codes h
    unfold State.deliver
    split
    · exact h.same
    · exact h.same
  unfold State.serveScan
  split
  · dsimp only
    split
    · exact h.same
    · exact hdeliver _ _ _ h.same
    · exact hdeliver _ _ _ h.same
  · exact h

theorem State.besideRing.finishSlot (h : b.besideRing s) (u : Fin 15) : b.besideRing (s.finishSlot u) := by
  unfold State.finishSlot
  split
  · exact State.besideRing.raise h.same _
  · exact h

theorem State.besideRing.countFrames (h : b.besideRing s) : b.besideRing s.countFrames :=
  State.besideRing.callIf
    (State.besideRing.foldl (fun _ u h => h.finishSlot u) _ (s := s.mapUpdates Update.countFrame) h.same) _

theorem State.besideRing.suspend (h : b.besideRing s) : b.besideRing s.suspend :=
  h.report (Reporter.keepsBounds_refl s.reporter)

theorem State.besideRing.startUpdate (h : b.besideRing s) (e : Request) : b.besideRing (s.startUpdate e) := by
  unfold State.startUpdate
  split
  · exact h.same
  · exact h

theorem State.besideRing.walkEntries (es : List Request) : ∀ {s : State} (waiting : List Request), b.besideRing s →
    b.besideRing (s.walkEntries waiting es).1 := by
  induction es with
  | nil => exact fun _ h => h
  | cons e es ih =>
    intro s waiting h
    unfold State.walkEntries
    split
    · exact ih _ (h.startUpdate e)
    · exact ih _ h

theorem State.besideRing.consider (h : b.besideRing s) : b.besideRing s.consider :=
  (State.besideRing.walkEntries _ _ (State.besideRing.walkEntries _ [] h)).same

theorem State.besideRing.serveLoad (h : b.besideRing s) (x : Update) (l : Load) : b.besideRing (s.serveLoad x l) := by
  unfold State.serveLoad
  dsimp only
  split
  · exact h.same
  · exact h.same
  · exact h.same
  · exact h.same
  · exact h.same

theorem State.besideRing.serveLoader (h : b.besideRing s) : b.besideRing s.serveLoader := by
  unfold State.serveLoader
  split
  · exact h.same
  · split
    · exact h.serveLoad ..
    · exact h

theorem State.besideRing.setSlotState (h : b.besideRing s) (u : Fin 15) (st : UpdateState) :
    b.besideRing (s.setSlotState u st) := by
  unfold State.setSlotState
  split
  · exact h.same
  · exact h

theorem State.besideRing.finishLoad (h : b.besideRing s) : b.besideRing s.finishLoad := by
  unfold State.finishLoad
  exact State.besideRing.endExecution (State.besideRing.riseIfReady h.same)

theorem State.besideRing.changeGeometry (h : b.besideRing s) (c : Check) (g : Geometry) :
    b.besideRing (s.changeGeometry c g) := by
  have hc : b.besideRing (State.cancelAll
      (s.setSupply { s.supply with geometry := some g, check := some { c with clearing := true } })) :=
    State.besideRing.cancelAll h.same
  exact hc.same

theorem State.besideRing.refuseLoad (h : b.besideRing s) (r : Record) (reason : Reason) :
    b.besideRing (s.refuseLoad r reason) :=
  State.besideRing.refuse h.same r reason

theorem State.besideRing.serveCheck (h : b.besideRing s) : b.besideRing s.serveCheck := by
  unfold State.serveCheck
  split
  · exact h.same
  · exact h

/-! ## Text (R65 to R86) -/

theorem State.besideRing.resetOpenCursors (h : b.besideRing s) (c : Fin 4) : b.besideRing (s.resetOpenCursors c) := by
  refine State.besideRing.foldl (fun t i h => ?_) _ h
  split
  · exact h.same
  · exact h

theorem State.besideRing.appendLog (h : b.besideRing s) (r : Run) (e : LogEntry) : b.besideRing (s.appendLog r e) := by
  unfold State.appendLog
  dsimp only
  split
  · exact h.same
  · split
    · exact h
    · exact State.besideRing.raise h.same _

theorem State.besideRing.overflowRun (h : b.besideRing s) (r : Run) (index : Nat) :
    b.besideRing (s.overflowRun r index).1 :=
  h.raise _

theorem State.besideRing.endWord (h : b.besideRing s) (r : Run) : b.besideRing (s.endWord r).1 := by
  unfold State.endWord
  split
  · exact h
  · dsimp only
    have hlog : ∀ (xs : List (List SetGlyph × Nat)) (k : Cursor), b.besideRing
        (xs.foldl (fun s x => s.appendLog r (logEntryOf r x.1 x.2)) (s.setCursor r.slot r.column k)) :=
      fun xs k => State.besideRing.foldl (fun _ _ h => h.appendLog ..) xs h.same
    split
    · exact (hlog _ _).overflowRun ..
    · exact hlog _ _

theorem State.besideRing.forceBreak (h : b.besideRing s) (r : Run) : b.besideRing (s.forceBreak r).1 := by
  unfold State.forceBreak
  dsimp only
  split
  · exact State.besideRing.overflowRun h.same ..
  · exact h.same

theorem State.besideRing.searchZero (h : b.besideRing s) (r : Run) (f : Font) (l : Lookup) (n : Nat) :
    b.besideRing (s.searchZero r f l n).1 := by
  unfold State.searchZero
  split
  · exact h.same
  · exact h

theorem State.besideRing.resolveOwn (h : b.besideRing s) (r : Run) (f : Font) (l : Lookup) (g : Glyph) (bad : Bool) :
    b.besideRing (s.resolveOwn r f l g bad).1 := by
  unfold State.resolveOwn
  split
  · exact h
  · split
    · exact h
    · split
      · exact h
      · exact h.searchZero ..

theorem State.besideRing.readCode (h : b.besideRing s) (r : Run) (code : BitVec 16) (rest : List (BitVec 16)) :
    b.besideRing (s.readCode r code rest).1 := by
  have hlookup : ∀ (r : Run) (f : Font) (l : Lookup), b.besideRing (s.beginLookup r f l).1 := by
    intro r f l
    unfold State.beginLookup
    split
    · split
      · exact State.besideRing.resolveOwn h.same ..
      · exact h
    · exact h.searchZero ..
  unfold State.readCode
  dsimp only
  split
  · exact h
  · split
    · exact h
    · exact hlookup ..

theorem State.besideRing.finishRun (h : b.besideRing s) (r : Run) : b.besideRing (s.finishRun r) := by
  unfold State.finishRun
  split
  · exact (h.raise _).same
  · exact h.same

/-- A run that goes on without a grant. -/
theorem State.besideRing.runOn : ∀ (n : Nat) {s : State} (r : Run), b.besideRing s → b.besideRing (State.runOn n s r) := by
  intro n
  induction n with
  | zero => exact fun _ h => h.same
  | succ n ih =>
    intro s r h
    unfold State.runOn
    split
    · exact h.same
    · split
      · exact h.finishRun _
      · exact ih _ h
      · exact ih _ (h.endWord _)
      · exact ih (s := s.addSpace r _) _ h.same
      · exact ih _ (h.forceBreak _)
      · split
        · exact ih _ (h.readCode ..)
        · exact ih _ h

theorem State.besideRing.blendOn (h : b.besideRing s) (r : Run) (touches : List Touch) :
    b.besideRing (s.blendOn r touches) := by
  unfold State.blendOn
  split
  · exact State.besideRing.runOn _ _ h
  · exact h.same

theorem State.besideRing.serveEntry (h : b.besideRing s) (r : Run) (f : Font) (l : Lookup) :
    b.besideRing (s.serveEntry r f l) := by
  unfold State.serveEntry
  dsimp only
  split
  · exact State.besideRing.runOn _ _ h.same
  · exact State.besideRing.runOn _ _ (State.besideRing.resolveOwn h.same ..)

theorem State.besideRing.serveRun (h : b.besideRing s) (r : Run) : b.besideRing (s.serveRun r) := by
  unfold State.serveRun
  split
  · split
    · unfold State.serveBitmap
      dsimp only
      split
      · exact h.same
      · exact h.blendOn ..
    · exact State.besideRing.blendOn h.same ..
    · exact h.same
    · exact State.besideRing.runOn _ _ h
  · split
    · exact h.serveEntry ..
    · exact h

theorem State.besideRing.beginRun (h : b.besideRing s) (r : Run) : b.besideRing (s.beginRun r) := by
  unfold State.beginRun
  split
  · split
    · exact h.same
    · exact (h.raise _).same
  · exact State.besideRing.runOn _ _ h

/-! ## The Relay and the port (R1 to R9, R152 to R156) -/

/-- A word written by the host is handed to the block that watches it (R5). -/
theorem State.besideRing.handOff (h : b.besideRing s) (d : Handoff) : b.besideRing (s.handOff d) := by
  cases d with
  | nobody => exact h
  | page e o =>
    show b.besideRing (s.draftWritten e o)
    unfold State.draftWritten
    split
    · split
      · exact h.same
      · exact h
    · exact h
  | font e => exact h.same
  | consumedCount => exact h.report ⟨fun _ => Reporter.acceptConsumed_outstanding .., id, id, id⟩
  | faultClear =>
    show b.besideRing s.faultClearWritten
    unfold State.faultClearWritten
    split
    · exact h.report ⟨id, id, fun _ => Nat.zero_le _, id⟩
    · exact h

theorem State.besideRing.serveRelay (h : b.besideRing s) : b.besideRing s.serveRelay := by
  unfold State.serveRelay
  split
  · exact h.same
  · exact State.besideRing.handOff h.same _
  · exact h

theorem State.besideRing.landIfGranted (h : b.besideRing s) : b.besideRing s.landIfGranted := by
  unfold State.landIfGranted
  split
  · exact h.serveRelay
  · exact h

theorem State.besideRing.serveReport (h : b.besideRing s) (w : ReportWork) : b.besideRing (s.serveReport w) := by
  have hsignal : ∀ (r : Reporter) (pulseMode : Bool), r.keepsBounds (r.signal pulseMode) := by
    intro r pulseMode
    unfold Reporter.signal
    split
    · exact Reporter.keepsBounds_refl r
    · split
      · exact Reporter.keepsBounds_refl r
      · split
        · exact Reporter.keepsBounds_refl r
        · exact Reporter.keepsBounds_refl r
  cases w with
  | clear word => exact h.same
  | entry e => exact h.report (Reporter.keepsBounds_refl s.reporter)
  | words first count =>
    refine h.report ?_
    show s.reporter.keepsBounds
      (if first = 0 then (s.reporter.wordsWritten first _).signal s.tune.pulseMode else s.reporter.wordsWritten first _)
    split
    · exact hsignal (s.reporter.wordsWritten first _) _
    · exact Reporter.keepsBounds_refl s.reporter

theorem State.besideRing.serveEngine (h : b.besideRing s) (pick : Nat) (e : EngineName) :
    b.besideRing (s.serveEngine pick e) := by
  cases e with
  | composer =>
    unfold State.serveEngine
    dsimp only
    split
    · exact h.servePainting _
    · exact h.serveCopying _
    · exact h.serveRun _
    · exact h
  | commitEngine => exact h.serveDiff
  | slotLoader => exact h.serveLoader
  | reporter =>
    unfold State.serveEngine
    dsimp only
    split
    · exact h.serveReport _
    · exact h
  | waveformCheck => exact h.serveCheck

theorem State.besideRing.serveGrant (h : b.besideRing s) (pick : Nat) (g : Grant) : b.besideRing (s.serveGrant pick g) := by
  cases g with
  | refresh => exact h.same
  | scanner => exact h.serveScan
  | relay => exact h.serveRelay
  | engine e => exact State.besideRing.serveEngine h.same pick e

theorem State.besideRing.serveBeat (h : b.besideRing s) (beat : Beat) : b.besideRing (s.serveBeat beat) := by
  cases beat with
  | read addr =>
    show b.besideRing (s.serveRead addr)
    unfold State.serveRead
    split
    · exact State.besideRing.accessFault h.same ..
    · exact State.besideRing.landIfGranted h.same
  | write w =>
    rw [State.serveBeat_write]
    split
    · exact State.besideRing.accessFault h.same ..
    · exact State.besideRing.accessFault h.same ..
    · exact h.same (by simp) (by simp) (by simp) (by simp)
    · exact h.same

theorem State.besideRing.arrive (h : b.besideRing s) (beat : Beat) : b.besideRing (s.arrive beat) := by
  unfold State.arrive
  split
  · exact State.besideRing.serveBeat (s := s.touchDoze) h.same beat
  · exact h.same

theorem State.besideRing.serveHeld (h : b.besideRing s) : b.besideRing s.serveHeld := by
  unfold State.serveHeld
  split
  · exact h.serveBeat _
  · exact h

end

end Sys2Proof.Machine
end

section
/-! SUPPORT. Every command but those of the Ring Decoder, RECORD_EXECUTION_END, TUNE and RESET goes on beside the Control
Ring. -/

namespace Sys2Proof.Machine

set_option Elab.async false

/-- The commands that may touch the Ring Decoder, the Record Queue or the tunable limits. -/
def touchesRing : Instr → Bool
  | .reset _ | .controlRingWrite | .holdReleaseOnRoom | .holdTimerExpiry | .stallTimerExpiry | .restart
  | .recordExecutionEnd | .tune => true
  | _ => false

/-- Every next state that an answer gives is beside the Control Ring. -/
def State.answersBeside (s : State) (o : Host.Outcome State Fault Refusal) : Prop := ∀ t, o = .next t → s.besideRing t

section
variable {s x : State}

theorem State.answersBeside_next (h : s.besideRing x) : s.answersBeside (.next x) := by
  rintro t ⟨⟩
  exact h

theorem State.answersBeside_proceed (h : s.besideRing x) : s.answersBeside (proceed s x) :=
  State.answersBeside_next h.conclude

theorem State.answersBeside_noOccasion (s : State) : s.answersBeside (noOccasion s) :=
  State.answersBeside_next s.besideRing_refl

/-- A command with one condition. -/
theorem State.answersBeside_ite (h : s.besideRing x) (p : Prop) [Decidable p] :
    s.answersBeside (if p then proceed s x else noOccasion s) := by
  split
  · exact State.answersBeside_proceed h
  · exact State.answersBeside_noOccasion s

/-- A record command whose work goes on beside the Control Ring. -/
theorem State.answersBeside_onRecord {run : Record → State} (h : ∀ r, s.besideRing (run r)) (fits : Record → Bool) :
    s.answersBeside (onRecord s fits run) := by
  unfold onRecord
  split
  · exact State.answersBeside_ite (h _) _
  · exact State.answersBeside_noOccasion s

/-- A record command with checks. -/
theorem State.answersBeside_checked {carryOut : Record → State} (h : ∀ r, s.besideRing (carryOut r))
    (fits : Record → Bool) (checks : Record → List (Bool × Reason)) :
    s.answersBeside (onRecord s fits (fun r => s.checked r (checks r) (carryOut r))) :=
  State.answersBeside_onRecord (fun r => s.besideRing_refl.checked (h r) r _) fits

/-- A hand-over with checks. -/
theorem State.answersBeside_onHandOver {carryOut : Record → State} (h : ∀ r, s.besideRing (carryOut r))
    (k : RecordKind) (checks : Record → List (Bool × Reason)) :
    s.answersBeside (onHandOver s k (fun r => s.checked r (checks r) (carryOut r))) := by
  unfold onHandOver
  split
  · exact State.answersBeside_checked h _ checks
  · exact State.answersBeside_noOccasion s

theorem State.answersBeside_onLanding (s : State) (fits : Handoff → Bool) : s.answersBeside (onLanding s fits) := by
  unfold onLanding
  split
  · exact State.answersBeside_ite (State.besideRing.handOff s.besideRing_refl.same _) _
  · exact State.answersBeside_noOccasion s

end

/-! ## Commands by block -/

theorem execDiffTileVisit_beside (s : State) : s.answersBeside (execDiffTileVisit s) := by
  unfold execDiffTileVisit
  split
  · split
    · exact State.answersBeside_proceed s.besideRing_refl.same
    · exact State.answersBeside_noOccasion s
  · exact State.answersBeside_noOccasion s

theorem execDiffEnd_beside (s : State) : s.answersBeside (execDiffEnd s) := by
  unfold execDiffEnd
  split
  · split
    · split
      · exact State.answersBeside_proceed ((s.besideRing_refl.raise _).endCommit _)
      · exact State.answersBeside_proceed (s.besideRing_refl.decideRequest ..)
    · exact State.answersBeside_noOccasion s
  · exact State.answersBeside_noOccasion s

theorem execPanelReadyDropped_beside (s : State) : s.answersBeside (execPanelReadyDropped s) := by
  unfold execPanelReadyDropped
  refine State.answersBeside_ite ?_ _
  split
  · exact s.besideRing_refl.same
  · exact State.besideRing.raise s.besideRing_refl.same _
  · exact s.besideRing_refl.same

theorem execRiseTimerExpiry_beside (s : State) : s.answersBeside (execRiseTimerExpiry s) := by
  unfold execRiseTimerExpiry
  split
  · dsimp only
    split
    · exact State.answersBeside_proceed s.besideRing_refl.same
    · exact State.answersBeside_proceed (State.besideRing.raise s.besideRing_refl.same _)
  · exact State.answersBeside_noOccasion s

/-- The grace timer's expiry aborts the FROZEN slots one after another (R149). -/
theorem execGraceTimerExpiry_beside (s : State) : s.answersBeside (execGraceTimerExpiry s) := by
  unfold execGraceTimerExpiry
  split
  · have h : s.besideRing ((s.inOrder .frozen).foldl State.abort (s.setSupply s.supply.enterFalling)) :=
      State.besideRing.foldl (fun _ u h => h.abort u) _ s.besideRing_refl.same
    exact State.answersBeside_proceed (h.raise _).same
  · exact State.answersBeside_noOccasion s

theorem execTemperatureReading_beside (s : State) (reading : Option Int) :
    s.answersBeside (execTemperatureReading reading s) := by
  unfold execTemperatureReading
  dsimp only
  split
  · exact State.answersBeside_ite s.besideRing_refl.same _
  · exact State.answersBeside_proceed (State.besideRing.raise s.besideRing_refl.same _)

theorem execFrameEnd_beside (s : State) : s.answersBeside (execFrameEnd s) := by
  unfold execFrameEnd
  split
  · dsimp only
    have h : s.besideRing (State.countFrames { s with scanner := { s.scanner with frame := none } }) :=
      State.besideRing.countFrames s.besideRing_refl.same
    refine State.answersBeside_proceed ?_
    split
    · exact h.suspend
    · split
      · exact h.same
      · exact h
  · exact State.answersBeside_noOccasion s

theorem execLoadingComplete_beside (s : State) : s.answersBeside (execLoadingComplete s) := by
  unfold execLoadingComplete
  split
  · split
    · refine State.answersBeside_ite (State.besideRing.slotBecameReady ?_) _
      exact State.besideRing.same (s.besideRing_refl.setSlotState _ .ready)
    · exact State.answersBeside_noOccasion s
  · exact State.answersBeside_noOccasion s

theorem execPanelUnload_beside (s : State) : s.answersBeside (execPanelUnload s) := by
  refine State.answersBeside_checked (fun r => State.besideRing.endExecution ?_) _ (fun _ => s.unloadChecks)
  split
  · exact s.besideRing_refl.same
  · exact s.besideRing_refl.same

theorem execWaveformCheckEnd_beside (s : State) : s.answersBeside (execWaveformCheckEnd s) := by
  unfold execWaveformCheckEnd
  split
  · refine State.answersBeside_ite ?_ _
    split
    · split
      · exact s.besideRing_refl.refuseLoad ..
      · split
        · exact State.besideRing.changeGeometry s.besideRing_refl.same ..
        · exact State.besideRing.finishLoad s.besideRing_refl.same
    · exact s.besideRing_refl.refuseLoad ..
  · exact State.answersBeside_noOccasion s

theorem execDownstreamGrant_beside (s : State) (needs : Bool) (pick : Nat) :
    s.answersBeside (execDownstreamGrant needs pick s) := by
  unfold execDownstreamGrant
  dsimp only
  split
  · split
    · exact State.answersBeside_proceed (State.besideRing.serveGrant (s := s.raiseScan needs) s.besideRing_refl.same ..)
    · rintro t ⟨⟩
  · exact State.answersBeside_noOccasion s

theorem execPageCopy_beside (s : State) : s.answersBeside (execPageCopy s) := by
  refine State.answersBeside_checked (fun r => ?_) _ s.copyChecks
  dsimp only
  have h := s.besideRing_refl.copyNotes r.copySource r.slot
  split
  · exact h.same
  · exact h.same

theorem execPageDiscard_beside (s : State) : s.answersBeside (execPageDiscard s) := by
  refine State.answersBeside_checked (fun r => ?_) _ (fun r => [(!(s.page r.slot).isOpen, .notOpen)])
  split
  · exact s.besideRing_refl
  · exact (s.besideRing_refl.discardPage _).same

/-! ## Every command -/

/-- A command that does not touch the ring leaves the Ring Decoder, the Record Queue and the tunable limits as they are,
and the Reporter's counts in bounds. -/
theorem exec_besideRing {c : Instr} (hc : touchesRing c = false) {s t : State} (h : exec c s = .next t) :
    s.besideRing t := by
  have hs := s.besideRing_refl
  suffices ho : s.answersBeside (exec c s) from ho t h
  cases c with
  | reset | controlRingWrite | holdReleaseOnRoom | holdTimerExpiry | stallTimerExpiry | restart | recordExecutionEnd
  | tune => cases hc
  | sdramInitializationEnd =>
    show s.answersBeside (execSdramInitializationEnd s)
    unfold execSdramInitializationEnd
    split
    · exact State.answersBeside_proceed (State.besideRing.serveHeld hs.same)
    · exact State.answersBeside_noOccasion s
  | startUpClearingEnd =>
    show s.answersBeside (execStartUpClearingEnd s)
    unfold execStartUpClearingEnd
    split
    · exact State.answersBeside_ite hs.same _
    · exact State.answersBeside_noOccasion s
  | hostReadBeat addr => exact State.answersBeside_ite (hs.arrive _) _
  | hostWriteBeat addr data enables => exact State.answersBeside_ite (hs.arrive _) _
  | hostWriteLands | draftWrite | fontRegionWrite | consumedCountWrite | faultClearWrite =>
    exact State.answersBeside_onLanding s _
  | recordTake | settleTimerExpiry | latencyTimerExpiry | autoCommitGrant | frameStart | gapTimerExpiry | holdTimeExpiry
  | readingTimerExpiry =>
    dsimp only [exec, execRecordTake, execSettleTimerExpiry, execLatencyTimerExpiry, execAutoCommitGrant, execFrameStart,
      execGapTimerExpiry, execHoldTimeExpiry, execReadingTimerExpiry]
    split
    · exact State.answersBeside_proceed hs.same
    · exact State.answersBeside_noOccasion s
  | nop | lockTight | fontUnbind => exact State.answersBeside_onRecord (fun _ => hs.same) _
  | region | guard | panelLoad | fontBind | pageOpenKeepClean | pageOpenKeepDirty | noteClearOne | noteClearAll =>
    exact State.answersBeside_checked (fun _ => hs.same) _ _
  | column =>
    exact State.answersBeside_checked
      (fun _ => State.besideRing.endExecution (State.besideRing.resetOpenCursors hs.same _)) _ _
  | pageOpenFill => exact State.answersBeside_checked (fun _ => State.besideRing.beginPainting hs.same ..) _ _
  | pageDiscard => exact execPageDiscard_beside s
  | pageCopy => exact execPageCopy_beside s
  | fillSet | fillMultiply => exact State.answersBeside_checked (fun _ => hs.beginPainting ..) _ _
  | glyphRunContinue => exact State.answersBeside_checked (fun _ => hs.beginRun _) _ _
  | glyphRunSet => exact State.answersBeside_checked (fun _ => State.besideRing.beginRun hs.same _) _ _
  | highlight => exact State.answersBeside_checked (fun _ => hs.doHighlight _) _ _
  | probe => exact State.answersBeside_onRecord (fun _ => (hs.raise _).same) _
  | pageCommit => exact State.answersBeside_onHandOver (fun _ => hs.same) _ _
  | refresh => exact State.answersBeside_onHandOver (fun _ => State.besideRing.decideRequest hs.same ..) _ _
  | panelUnload => exact execPanelUnload_beside s
  | waveformCheckEnd => exact execWaveformCheckEnd_beside s
  | geometryClearEnd =>
    show s.answersBeside (execGeometryClearEnd s)
    unfold execGeometryClearEnd
    split
    · exact State.answersBeside_ite hs.finishLoad _
    · exact State.answersBeside_noOccasion s
  | diffTileVisit => exact execDiffTileVisit_beside s
  | diffEnd => exact execDiffEnd_beside s
  | pendingRetry =>
    show s.answersBeside (execPendingRetry s)
    unfold execPendingRetry
    split
    · exact State.answersBeside_proceed (hs.decideRequest ..)
    · exact State.answersBeside_noOccasion s
  | startConsideration => exact State.answersBeside_ite (State.besideRing.consider hs.same) _
  | downstreamGrant needs pick => exact execDownstreamGrant_beside s needs pick
  | refreshTimerExpiry => exact State.answersBeside_ite hs.same _
  | loadingComplete => exact execLoadingComplete_beside s
  | frameEnd => exact execFrameEnd_beside s
  | panelReadyAsserted =>
    show s.answersBeside (execPanelReadyAsserted s)
    unfold execPanelReadyAsserted
    split
    · exact State.answersBeside_noOccasion s
    · exact State.answersBeside_proceed hs.same
  | panelReadyDropped => exact execPanelReadyDropped_beside s
  | riseTimerExpiry => exact execRiseTimerExpiry_beside s
  | fallTimerExpiry =>
    show s.answersBeside (execFallTimerExpiry s)
    unfold execFallTimerExpiry
    split
    · exact State.answersBeside_proceed (State.besideRing.riseIfReady hs.same)
    · exact State.answersBeside_noOccasion s
  | graceTimerExpiry => exact execGraceTimerExpiry_beside s
  | temperatureReading reading => exact execTemperatureReading_beside s reading
  | dozeTimerExpiry =>
    show s.answersBeside (execDozeTimerExpiry s)
    unfold execDozeTimerExpiry
    split
    · exact State.answersBeside_ite hs.same _
    · exact State.answersBeside_noOccasion s
  | dozeWake =>
    show s.answersBeside (execDozeWake s)
    unfold execDozeWake
    split
    · exact State.answersBeside_ite (State.besideRing.serveBeat hs.same _) _
    · exact State.answersBeside_noOccasion s
  | interruptPulseEnd =>
    refine State.answersBeside_ite (x := { s with reporter := { s.reporter with
      pulse := decide (0 < s.reporter.pulsesQueued), pulsesQueued := s.reporter.pulsesQueued - 1 } }) ?_ _
    exact hs.report s.reporter.keepsBounds_refl
  | timeStampTick => exact State.answersBeside_proceed hs.same

end Sys2Proof.Machine
end

section
/-! SUPPORT. What the Ring Decoder's operations do, said once for each: where EP goes, what a record holds of the queue, and
what the space check comes to. -/

namespace Sys2Proof.Machine

set_option Elab.async false

/-! ## EP, the gap and headers (R16, R17) -/

theorem headerLength_pos (w : Word) : 1 ≤ headerLength w := Nat.le_add_left ..

theorem headerLength_le_one_iff (w : Word) : headerLength w ≤ 1 ↔ headerLength w = 1 := by
  have := headerLength_pos w
  omega

theorem toNat_ep_succ (ep : BitVec 12) : (ep + 1).toNat = (ep.toNat + 1) % 4096 := BitVec.toNat_add ep 1

/-- The boundary after the word at EP (R17). -/
theorem boundaryAfter_succ (ep : BitVec 12) : boundaryAfter (ep + 1) = BitVec.ofNat 12 ((ep.toNat + 4) / 4 * 4) := by
  have h := ep.isLt
  unfold boundaryAfter
  apply BitVec.eq_of_toNat_eq
  rw [toNat_ep_succ, BitVec.toNat_ofNat, BitVec.toNat_ofNat]
  omega

/-- The offsets passed over from the word at EP to the next boundary (R17). -/
theorem gapFrom_succ (ep : BitVec 12) :
    gapFrom (ep + 1) = (List.range (3 - ep.toNat % 4)).map (fun k => ep + 1 + BitVec.ofNat 12 k) := by
  have h := ep.isLt
  have hn : ((ep + 1).toNat + 3) / 4 * 4 - (ep + 1).toNat = 3 - ep.toNat % 4 := by
    rw [toNat_ep_succ]
    omega
  unfold gapFrom
  rw [hn]

/-- The last word of a record consumed at EP closes the decoder's record (R17, R20). -/
theorem Decoder.closed_eq (d : Decoder) :
    { d.consume.toBoundary d.consume.ep with state := .sync, stall := none } = d.closed := by
  unfold Decoder.toBoundary Decoder.consume Decoder.closed
  dsimp only
  rw [boundaryAfter_succ, gapFrom_succ]

/-! ## The space check (R27) -/

theorem State.checkSpace_quiet {s : State} (h : s.spaceQuiet) : s.checkSpace = s := by
  unfold State.checkSpace
  rcases h with ⟨hl, hu⟩ | ⟨hl, hu⟩
  · simp only [hl, Bool.false_eq_true, if_false]
    exact if_neg (by omega)
  · simp only [hl, if_true]
    exact if_neg (by omega)

theorem State.checkSpace_again {s : State} (hl : s.decoder.lowSpace = true) (hu : s.usedWords ≤ 8 * s.tune.lowMark) :
    s.checkSpace =
      State.raise { s with decoder := { (s.decoder) with lowSpace := false } } (.spaceAgain s.usedWords) := by
  unfold State.checkSpace
  rw [if_pos hl, if_pos hu]

theorem State.checkSpace_low {s : State} (hl : s.decoder.lowSpace = false) (hu : 8 * s.tune.highMark ≤ s.usedWords) :
    s.checkSpace =
      State.raise { s with decoder := { (s.decoder) with lowSpace := true } } (.lowSpace s.usedWords) := by
  unfold State.checkSpace
  rw [if_neg (by simp [hl]), if_pos hu]

/-- The space check changes nothing of the decoder but the low-space flag. -/
theorem State.checkSpace_decoder (s : State) : ∃ b, s.checkSpace.decoder = { (s.decoder) with lowSpace := b } := by
  rcases s.checkSpace_cases with h | ⟨_, h⟩ | ⟨_, h⟩
  · exact ⟨s.decoder.lowSpace, by rw [h]⟩
  · exact ⟨false, by rw [h, State.raise_decoder]⟩
  · exact ⟨true, by rw [h, State.raise_decoder]⟩

/-! ## The words and entries in use (R27) -/

/-- The decoder collects no record. -/
def Decoder.reservesNothing (d : Decoder) : Prop := ∀ o words, d.state ≠ .body o words

theorem Decoder.reservesNothing.reserved {d : Decoder} (h : d.reservesNothing) :
    d.reservedWords = 0 ∧ d.reservedEntries = 0 := by
  unfold Decoder.reservedWords Decoder.reservedEntries
  cases hd : d.state with
  | body o words => exact absurd hd (h o words)
  | sync | skip | hunt => exact ⟨rfl, rfl⟩

theorem Decoder.reserved_body {d : Decoder} {o : BitVec 12} {words : List Word} (h : d.state = .body o words) :
    d.reservedWords = headerLength (words.headD 0) ∧ d.reservedEntries = 1 := by
  unfold Decoder.reservedWords Decoder.reservedEntries
  rw [h]
  exact ⟨rfl, rfl⟩

theorem State.usedWords_unreserved {s : State} (h : s.decoder.reservesNothing) :
    s.usedWords = (s.queue.map (fun r => r.words.length)).sum := by
  unfold State.usedWords
  rw [h.reserved.1, Nat.add_zero]

theorem State.usedWords_body {s : State} {o : BitVec 12} {words : List Word} (h : s.decoder.state = .body o words) :
    s.usedWords = (s.queue.map (fun r => r.words.length)).sum + headerLength (words.headD 0) := by
  unfold State.usedWords
  rw [(Decoder.reserved_body h).1]

/-- The words and entries in use rest on the queue and the decoder's state. -/
theorem State.used_congr {s t : State} (hq : t.queue = s.queue) (hd : t.decoder.state = s.decoder.state) :
    t.usedWords = s.usedWords ∧ t.usedEntries = s.usedEntries := by
  unfold State.usedWords State.usedEntries Decoder.reservedWords Decoder.reservedEntries
  rw [hq, hd]
  exact ⟨rfl, rfl⟩

theorem State.hasRoom_iff {s : State} {n : Nat} :
    s.hasRoom n = true ↔ s.usedEntries < 32 ∧ s.usedWords + n ≤ 2048 := by
  unfold State.hasRoom
  rw [Bool.and_eq_true, decide_eq_true_eq, decide_eq_true_eq]
  rfl

/-- A queue with a record joined to it. -/
theorem sum_words_append (queue : List Record) (r : Record) :
    ((queue ++ [r]).map (fun r => r.words.length)).sum = (queue.map (fun r => r.words.length)).sum + r.words.length := by
  simp

/-! ## Records (R18 to R20) -/

/-- A header consumed at EP, its record complete or under collection (R18). -/
def State.begun (s : State) (header : Word) : State :=
  if headerLength header = 1 then
    { s with
      queue := s.queue ++ [{ offset := s.decoder.ep, words := [header] }], decoder := s.decoder.closed }
  else
    { s with decoder :=
      { (s.decoder) with
        state := .body s.decoder.ep [header], ep := s.decoder.ep + 1, gap := [], stall := stallStart s.tune } }

theorem State.begun_one {s : State} {header : Word} (h : headerLength header = 1) :
    s.begun header = { s with
      queue := s.queue ++ [{ offset := s.decoder.ep, words := [header] }], decoder := s.decoder.closed } := if_pos h

theorem State.begun_more {s : State} {header : Word} (h : headerLength header ≠ 1) :
    s.begun header = { s with decoder :=
      { (s.decoder) with
        state := .body s.decoder.ep [header], ep := s.decoder.ep + 1, gap := [], stall := stallStart s.tune } } :=
  if_neg h

/-- A record is started, and the used words are checked against the marks (R18, R27). -/
theorem State.startRecord_eq (s : State) (header : Word) : s.startRecord header = (s.begun header).checkSpace := by
  unfold State.startRecord
  dsimp only
  congr 1
  by_cases hn : headerLength header = 1
  · rw [State.begun_one hn, if_pos hn.le]
    show _ = ({ s with queue := _, decoder := s.decoder.closed } : State)
    rw [← Decoder.closed_eq]
    rfl
  · have h1 := headerLength_pos header
    rw [State.begun_more hn, if_neg (by omega)]
    rfl

/-- A record started reserves the words of its length (R18). -/
theorem State.begun_usedWords {s : State} (hs : s.decoder.reservesNothing) (header : Word) :
    (s.begun header).usedWords = s.usedWords + headerLength header := by
  rw [State.usedWords_unreserved hs]
  by_cases hn : headerLength header = 1
  · rw [State.begun_one hn, State.usedWords_unreserved (by rintro _ _ ⟨⟩), sum_words_append, hn]
    rfl
  · rw [State.begun_more hn]
    exact State.usedWords_body (o := s.decoder.ep) (words := [header]) rfl

/-- The last word of a record completes it (R20). -/
theorem State.collect_last {s : State} {o : BitVec 12} {words : List Word} {w : Word}
    (h : headerLength (words.headD 0) ≤ words.length + 1) :
    s.collect o words w = { s with
      queue := s.queue ++ [{ offset := o, words := words ++ [w] }], decoder := s.decoder.closed } := by
  unfold State.collect
  dsimp only
  rw [if_pos (by simpa using h), ← Decoder.closed_eq]
  rfl

/-- A word before the last joins the record under collection (R20). -/
theorem State.collect_more {s : State} {o : BitVec 12} {words : List Word} {w : Word}
    (h : words.length + 1 < headerLength (words.headD 0)) :
    s.collect o words w = { s with decoder :=
      { (s.decoder) with
        state := .body o (words ++ [w]), ep := s.decoder.ep + 1, gap := [], stall := stallStart s.tune } } := by
  unfold State.collect
  dsimp only
  rw [if_neg (by simpa using h)]
  rfl

/-- The header of an overrun record is consumed unread (R19). -/
theorem State.overrun_eq (s : State) (w : Word) :
    s.overrun w = State.raise
      { s with decoder :=
        if headerLength w = 1 then { s.decoder.closed with hold := none, stall := s.decoder.stall }
        else
          { (s.decoder) with
            state := .skip (headerLength w - 1) (headerLength w), ep := s.decoder.ep + 1, gap := [], hold := none
            stall := stallStart s.tune } }
      (.recordOverrun w s.decoder.ep) := by
  unfold State.overrun
  dsimp only
  by_cases hn : headerLength w = 1
  · rw [if_pos hn.le, if_pos hn, ← Decoder.closed_eq]
    rfl
  · rw [if_neg (fun h => hn ((headerLength_le_one_iff w).1 h)), if_neg hn]
    rfl

/-- The decoder with the record under collection dropped, or the skipping ended (R23, R26). -/
def State.dropped (s : State) : State :=
  { s with decoder := { (s.decoder) with state := .hunt, huntCount := 0, stall := none } }

/-- A torn record is dropped, its space checked, and RECORD_TORN raised (R23, log entry 12). -/
theorem State.tear_eq (s : State) (cause : TornCause) (o : BitVec 12) (words : List Word) :
    s.tear cause o words = s.dropped.checkSpace.raise (.recordTorn cause (words.headD 0) o words.length) := rfl

/-- The stream set back to offset 4 (R25). -/
def State.setBack (s : State) : State :=
  { s with decoder := { (s.decoder) with state := .sync, ep := 4, gap := [], huntCount := 0, stall := none } }

/-- A RESTART outside BODY tears no record (R25). -/
theorem State.doRestart_eq {s : State} (h : s.decoder.reservesNothing) (header : Word) :
    s.doRestart header = s.setBack.raise (.restarted header s.decoder.droppedByRestart) := by
  unfold State.doRestart
  cases hs : s.decoder.state with
  | body o words => exact absurd hs (h o words)
  | sync | skip | hunt => rfl

/-- A RESTART in BODY tears the record under collection first (R25). -/
theorem State.doRestart_body {s : State} {o : BitVec 12} {words : List Word} (h : s.decoder.state = .body o words)
    (header : Word) :
    s.doRestart header = (s.tear .restart o words).setBack.raise (.restarted header words.length) := by
  unfold State.doRestart Decoder.droppedByRestart
  rw [h]
  rfl

end Sys2Proof.Machine
end

section
/-! SUPPORT. The laws of the counts and of the Record Queue through the Ring Decoder's operations, and the two statements
about them: CountsStayInRange and RecordQueueStaysBounded. -/

namespace Sys2Proof.Machine

set_option Elab.async false

/-! ## What the decoder's operations keep -/

/-- Each of the decoder's counts that is within 16 bits stays so (R15). -/
def Decoder.keepsCounts (d d' : Decoder) : Prop :=
  (d.huntCount ≤ 65535 → d'.huntCount ≤ 65535) ∧ (d.stray ≤ 65535 → d'.stray ≤ 65535) ∧
  (d.skipped ≤ 65535 → d'.skipped ≤ 65535)

/-- From the first state to the second, the tunable limits stay in their ranges and the counts and the Record Queue in
bounds, each for itself. -/
def State.keepsRing (b s : State) : Prop :=
  (b.tune.inRange → s.tune.inRange) ∧ b.reporter.keepsBounds s.reporter ∧ b.decoder.keepsCounts s.decoder ∧
  (b.queueBounded → s.queueBounded)

theorem Decoder.keepsCounts_refl (d : Decoder) : d.keepsCounts d := ⟨id, id, id⟩

theorem Decoder.keepsCounts.trans {p q r : Decoder} (h : p.keepsCounts q) (h' : q.keepsCounts r) : p.keepsCounts r := by
  obtain ⟨hh, hs, hk⟩ := h
  obtain ⟨hh', hs', hk'⟩ := h'
  exact ⟨hh' ∘ hh, hs' ∘ hs, hk' ∘ hk⟩

theorem State.keepsRing_refl (s : State) : s.keepsRing s :=
  ⟨id, Reporter.keepsBounds_refl _, Decoder.keepsCounts_refl _, id⟩

theorem State.keepsRing.trans {a b c : State} (h : a.keepsRing b) (h' : b.keepsRing c) : a.keepsRing c := by
  obtain ⟨ht, hr, hd, hq⟩ := h
  obtain ⟨ht', hr', hd', hq'⟩ := h'
  exact ⟨ht' ∘ ht, hr.trans hr', hd.trans hd', hq' ∘ hq⟩

/-- The law of the Record Queue rests on the queue and the decoder's state. -/
theorem State.queueBounded.congr {s t : State} (h : s.queueBounded) (hq : t.queue = s.queue)
    (hd : t.decoder.state = s.decoder.state) : t.queueBounded := by
  obtain ⟨he, hw, hc⟩ := h
  obtain ⟨hwords, hentries⟩ := State.used_congr hq hd
  refine ⟨hentries ▸ he, hwords ▸ hw, fun o words hb => hc o words (hd ▸ hb)⟩

/-- A queue no longer than before, with nothing reserved, stays in bounds. -/
theorem State.queueBounded.shrink {s t : State} (h : s.queueBounded) (hd : t.decoder.reservesNothing)
    (hq : t.queue.length ≤ s.usedEntries)
    (hw : (t.queue.map (fun r => r.words.length)).sum ≤ s.usedWords) : t.queueBounded := by
  obtain ⟨he, hu, _⟩ := h
  refine ⟨?_, ?_, fun o words hb => absurd hb (hd o words)⟩
  · unfold State.usedEntries
    rw [hd.reserved.2]
    omega
  · rw [State.usedWords_unreserved hd]
    omega

/-- The reservation given up. -/
theorem State.queueBounded.release {s t : State} (h : s.queueBounded) (hd : t.decoder.reservesNothing)
    (hq : t.queue = s.queue) : t.queueBounded :=
  h.shrink hd (hq ▸ Nat.le_add_right ..) (hq ▸ Nat.le_add_right ..)

theorem State.besideRing.keepsRing {b s : State} (h : b.besideRing s) : b.keepsRing s := by
  obtain ⟨ht, hd, hq, hr⟩ := h
  refine ⟨fun h => ht ▸ h, hr, ?_, fun hb => hb.congr hq (by rw [hd])⟩
  rw [hd]
  exact Decoder.keepsCounts_refl _

section
variable {s : State}

/-- An operation that keeps the Reporter and the limits. -/
theorem State.keepsRing.intro {t : State} (hd : s.decoder.keepsCounts t.decoder)
    (hq : s.queueBounded → t.queueBounded) (ht : t.tune = s.tune := by rfl)
    (hr : t.reporter = s.reporter := by rfl) : s.keepsRing t :=
  ⟨fun h => ht ▸ h, hr ▸ Reporter.keepsBounds_refl _, hd, hq⟩

theorem State.keepsRing_raise (s : State) (e : Event) : s.keepsRing (s.raise e) :=
  (s.besideRing_refl.raise e).keepsRing

theorem State.keepsRing_checkSpace (s : State) : s.keepsRing s.checkSpace := by
  have hflag : ∀ b, s.keepsRing { s with decoder := { s.decoder with lowSpace := b } } :=
    fun b => State.keepsRing.intro (Decoder.keepsCounts_refl s.decoder) (fun h => h.congr rfl rfl)
  rcases s.checkSpace_cases with h | ⟨_, h⟩ | ⟨_, h⟩
  · rw [h]
    exact s.keepsRing_refl
  · rw [h]
    exact (hflag false).trans (State.keepsRing_raise ..)
  · rw [h]
    exact (hflag true).trans (State.keepsRing_raise ..)

theorem State.keepsRing_dropped (s : State) : s.keepsRing s.dropped :=
  State.keepsRing.intro ⟨fun _ => Nat.zero_le _, id, id⟩ (fun h => h.release (by rintro _ _ ⟨⟩) rfl)

theorem State.keepsRing_tear (s : State) (cause : TornCause) (o : BitVec 12) (words : List Word) :
    s.keepsRing (s.tear cause o words) := by
  rw [State.tear_eq]
  exact (s.keepsRing_dropped.trans (State.keepsRing_checkSpace _)).trans (State.keepsRing_raise ..)

theorem State.keepsRing_setBack (s : State) : s.keepsRing s.setBack :=
  State.keepsRing.intro ⟨fun _ => Nat.zero_le _, id, id⟩ (fun h => h.release (by rintro _ _ ⟨⟩) rfl)

theorem State.keepsRing_doRestart (s : State) (header : Word) : s.keepsRing (s.doRestart header) := by
  by_cases h : s.decoder.reservesNothing
  · rw [State.doRestart_eq h]
    exact s.keepsRing_setBack.trans (State.keepsRing_raise ..)
  · unfold Decoder.reservesNothing at h
    push Not at h
    obtain ⟨o, words, hb⟩ := h
    rw [State.doRestart_body hb]
    exact ((s.keepsRing_tear ..).trans (State.keepsRing_setBack _)).trans (State.keepsRing_raise ..)

theorem State.keepsRing_skipToHunt (s : State) : s.keepsRing s.skipToHunt :=
  State.keepsRing.intro ⟨fun _ => (by decide : 1 ≤ 65535), id, fun _ => sat16_le _⟩
    (fun h => h.release (by rintro _ _ ⟨⟩) rfl)

theorem State.keepsRing_skipInHunt (s : State) : s.keepsRing s.skipInHunt :=
  State.keepsRing.intro ⟨fun _ => sat16_le _, id, fun _ => sat16_le _⟩ (fun h => h.congr rfl rfl)

theorem State.keepsRing_skipInSkip (s : State) (remainder length : Nat) :
    s.keepsRing (s.skipInSkip remainder length) := by
  unfold State.skipInSkip
  dsimp only
  split
  · exact State.keepsRing.intro ⟨id, id, fun _ => sat16_le _⟩ (fun h => h.release (by rintro _ _ ⟨⟩) rfl)
  · exact State.keepsRing.intro ⟨id, id, fun _ => sat16_le _⟩ (fun h => h.release (by rintro _ _ ⟨⟩) rfl)

theorem State.keepsRing_overrun (s : State) (w : Word) : s.keepsRing (s.overrun w) := by
  rw [State.overrun_eq]
  refine State.keepsRing.trans (State.keepsRing.intro ?_ ?_) (State.keepsRing_raise ..)
  · dsimp only
    split
    · exact Decoder.keepsCounts_refl s.decoder
    · exact Decoder.keepsCounts_refl s.decoder
  · intro h
    refine h.release ?_ rfl
    dsimp only
    split
    · rintro _ _ ⟨⟩
    · rintro _ _ ⟨⟩

theorem State.keepsRing_endHunt (s : State) (w : Word) : s.keepsRing (s.endHunt w) := by
  refine State.keepsRing.trans (State.keepsRing.intro ?_ ?_) (State.keepsRing_raise ..)
  · exact ⟨fun _ => Nat.zero_le _, id, id⟩
  · exact fun h => h.release (by rintro _ _ ⟨⟩) rfl

/-- A record joins the queue, or its words are collected, in place of its reservation (R20). -/
theorem State.keepsRing_collect {o : BitVec 12} {words : List Word} (hb : s.decoder.state = .body o words) (w : Word) :
    s.keepsRing (s.collect o words w) := by
  obtain ⟨hwords, hentries⟩ := Decoder.reserved_body hb
  by_cases hn : headerLength (words.headD 0) ≤ words.length + 1
  · rw [State.collect_last hn]
    refine State.keepsRing.intro (Decoder.keepsCounts_refl s.decoder) (fun h => ?_)
    obtain ⟨_, hlt⟩ := h.2.2 o words hb
    refine h.shrink (by rintro _ _ ⟨⟩) ?_ ?_
    · show (s.queue ++ [_]).length ≤ s.usedEntries
      unfold State.usedEntries
      rw [hentries, List.length_append]
      rfl
    · show ((s.queue ++ [_]).map _).sum ≤ s.usedWords
      rw [sum_words_append, State.usedWords_body hb, List.length_append]
      exact Nat.add_le_add_left (by simpa using hlt) _
  · rw [State.collect_more (by omega)]
    refine State.keepsRing.intro (Decoder.keepsCounts_refl s.decoder) (fun h => ?_)
    obtain ⟨he, hw, hc⟩ := h
    obtain ⟨hpos, hlt⟩ := hc o words hb
    have hhead : (words ++ [w]).headD 0 = words.headD 0 := by
      cases words with
      | nil => simp at hpos
      | cons x xs => rfl
    refine ⟨?_, ?_, ?_⟩
    · unfold State.usedEntries at he ⊢
      rw [hentries] at he
      exact he
    · rw [State.usedWords_body hb] at hw
      rw [State.usedWords_body rfl, hhead]
      exact hw
    · rintro _ _ ⟨⟩
      rw [hhead, List.length_append]
      exact ⟨Nat.le_add_left .., by simpa using hn⟩

/-- A record is started where there is room for it (R18, R19). -/
theorem State.keepsRing_startRecord {w : Word} (hr : s.hasRoom (headerLength w) = true) :
    s.keepsRing (s.startRecord w) := by
  rw [State.startRecord_eq]
  refine State.keepsRing.trans ?_ (State.keepsRing_checkSpace _)
  have hroom := State.hasRoom_iff.1 hr
  have hqueue : s.queue.length + 1 ≤ 32 ∧ (s.queue.map (fun r => r.words.length)).sum + headerLength w ≤ 2048 := by
    unfold State.usedEntries State.usedWords at hroom
    omega
  obtain ⟨hentries, hwords⟩ := hqueue
  by_cases hn : headerLength w = 1
  · rw [State.begun_one hn]
    refine State.keepsRing.intro (Decoder.keepsCounts_refl s.decoder) (fun _ => ⟨?_, ?_, by rintro _ _ ⟨⟩⟩)
    · show (s.queue ++ [_]).length + 0 ≤ 32
      simpa using hentries
    · rw [State.usedWords_unreserved (by rintro _ _ ⟨⟩), sum_words_append]
      rw [hn] at hwords
      exact hwords
  · rw [State.begun_more hn]
    refine State.keepsRing.intro (Decoder.keepsCounts_refl s.decoder) (fun _ => ⟨hentries, hwords, ?_⟩)
    rintro _ _ ⟨⟩
    have := headerLength_pos w
    exact ⟨Nat.le_refl 1, by simpa using (by omega : 1 < headerLength w)⟩

theorem State.keepsRing_releaseHeld {w : Word} (hr : s.hasRoom (headerLength w) = true) :
    s.keepsRing (s.releaseHeld w) :=
  State.keepsRing.trans (b := { s with decoder := { s.decoder with hold := none } })
    (State.keepsRing.intro (Decoder.keepsCounts_refl s.decoder) (fun h => h.congr rfl rfl))
    (State.keepsRing_startRecord hr)

theorem State.keepsRing_takeHeader (s : State) (w : Word) : s.keepsRing (s.takeHeader w).state := by
  unfold State.takeHeader
  split
  · exact s.keepsRing_doRestart w
  · split
    · rename_i hr
      exact State.keepsRing_startRecord hr
    · split
      · exact s.keepsRing_overrun w
      · exact State.keepsRing.intro (Decoder.keepsCounts_refl s.decoder) (fun h => h.congr rfl rfl)

theorem State.keepsRing_offerAtEp (s : State) (whole : Bool) (w : Word) : s.keepsRing (s.offerAtEp whole w).state := by
  unfold State.offerAtEp
  split
  · split
    · exact s.keepsRing_takeHeader w
    · exact s.keepsRing_skipToHunt
  · rename_i o words hb
    split
    · exact State.keepsRing_collect hb w
    · exact (s.keepsRing_tear ..).trans (State.keepsRing_skipToHunt _)
  · exact s.keepsRing_skipInSkip ..
  · split
    · exact (s.keepsRing_endHunt w).trans (State.keepsRing_takeHeader ..)
    · exact s.keepsRing_skipInHunt

theorem State.keepsRing_offer (s : State) (o : BitVec 12) (whole : Bool) (w : Word) :
    s.keepsRing (s.offer o whole w).state := by
  unfold State.offer
  split
  · exact s.keepsRing_doRestart w
  · split
    · exact s.keepsRing_offerAtEp whole w
    · split
      · exact s.keepsRing_refl
      · exact State.keepsRing.intro ⟨id, fun _ => sat16_le _, id⟩ (fun h => h.congr rfl rfl)

theorem State.keepsRing_release (s : State) (w : HostWrite) : s.keepsRing (s.release w) :=
  State.besideRing.keepsRing (State.besideRing.landIfGranted s.besideRing_refl.same)

theorem State.keepsRing_offerWrite (s : State) (w : HostWrite) : s.keepsRing (s.offerWrite w) := by
  have ho := s.keepsRing_offer (s.ringWord w) w.whole w.data
  unfold State.offerWrite
  dsimp only
  split
  · exact ho.trans (State.besideRing.keepsRing (State.besideRing_refl _).same)
  · exact ho.trans (State.keepsRing_release ..)

/-- The record whose execution has ended is removed (R28). -/
theorem State.keepsRing_removed (s : State) : s.keepsRing { s with composer := .idle, queue := s.queue.tail } := by
  refine State.keepsRing.intro (Decoder.keepsCounts_refl s.decoder) (fun h => ?_)
  obtain ⟨he, hw, hc⟩ := h
  cases hq : s.queue with
  | nil =>
    refine State.queueBounded.congr ⟨he, hw, hc⟩ ?_ rfl
    rw [hq]
    rfl
  | cons r rest =>
    have hentries : s.usedEntries = rest.length + 1 + s.decoder.reservedEntries := by
      unfold State.usedEntries
      rw [hq]
      rfl
    have hwords : s.usedWords =
        r.words.length + (rest.map (fun r => r.words.length)).sum + s.decoder.reservedWords := by
      unfold State.usedWords
      rw [hq]
      rfl
    refine ⟨?_, ?_, hc⟩
    · show rest.length + s.decoder.reservedEntries ≤ 32
      omega
    · show (rest.map (fun r => r.words.length)).sum + s.decoder.reservedWords ≤ 2048
      omega

end

/-! ## What a command keeps -/

theorem State.keepsRing_conclude {s x : State} (h : s.keepsRing x) : s.keepsRing (conclude s x) :=
  h.trans x.besideRing_refl.conclude.keepsRing

theorem tuned_le {v allOnes low high stored : Nat} (h : stored ≤ high) : tuned v allOnes low high stored ≤ high := by
  unfold tuned
  split
  · exact h
  · exact Nat.min_le_left ..

theorem le_tuned {v allOnes low high stored : Nat} (h : low ≤ stored) (hr : low ≤ high) :
    low ≤ tuned v allOnes low high stored := by
  unfold tuned
  split
  · exact h
  · exact Nat.le_min.2 ⟨hr, Nat.le_max_left ..⟩

theorem tuned_kept {v allOnes : Nat} (h : v = allOnes) (low high stored : Nat) :
    tuned v allOnes low high stored = stored := if_pos h

theorem tuned_clamped {v allOnes : Nat} (h : v ≠ allOnes) (low high stored : Nat) :
    tuned v allOnes low high stored = min high (max low v) := if_neg h

/-- A mark brought below another (R32, log entry 25). -/
theorem tuned_below (v allOnes stored high : Nat) :
    (if tuned v allOnes 0 (high - 1) stored < high then tuned v allOnes 0 (high - 1) stored else high - 1) =
      min (high - 1) (if v = allOnes then stored else v) := by
  by_cases h : v = allOnes
  · rw [tuned_kept h, if_pos h]
    split <;> omega
  · rw [tuned_clamped h, if_neg h]
    split <;> omega

/-- A time brought up to another (R32, log entry 25). -/
theorem tuned_above (v allOnes stored low high : Nat) :
    (if tuned v allOnes low high stored < low then low else tuned v allOnes low high stored) =
      max low (if v = allOnes then stored else min high v) := by
  by_cases h : v = allOnes
  · rw [tuned_kept h, if_pos h]
    split <;> omega
  · rw [tuned_clamped h, if_neg h]
    split <;> omega

theorem Tunables.after_lowMark (t : Tunables) (r : Record) :
    (t.after r).lowMark = min ((t.after r).highMark - 1) (if r.tuneField 60 9 = 511 then t.lowMark else r.tuneField 60 9) :=
  tuned_below ..

theorem Tunables.after_latencyLimit (t : Tunables) (r : Record) :
    (t.after r).latencyLimit = max (t.after r).settleTime
      (if r.tuneField 42 9 = 511 then t.latencyLimit else min 255 (r.tuneField 42 9)) :=
  tuned_above ..

theorem below_lt {high x : Nat} (h : 8 ≤ high) : min (high - 1) x < high := by omega

/-- TUNE keeps limits in their ranges (R32). -/
theorem Tunables.after_inRange {t : Tunables} (h : t.inRange) (r : Record) : (t.after r).inRange := by
  obtain ⟨hstall, hhold, hhigh, hhigh', hlow, hsettle, hlatency, hlatency', hghost, hghost', hpanel, hband, hdoze,
    hdoze'⟩ := h
  have hhigh8 : 8 ≤ (t.after r).highMark := le_tuned hhigh (by decide)
  have hsettle255 : (t.after r).settleTime ≤ 255 := tuned_le (hlatency.trans hlatency')
  refine ⟨tuned_le hstall, tuned_le hhold, hhigh8, tuned_le hhigh', ?_, le_tuned hsettle (by decide), ?_, ?_,
    le_tuned hghost (by decide), tuned_le hghost', tuned_le hpanel, tuned_le hband, le_tuned hdoze (by decide),
    tuned_le hdoze'⟩
  · rw [Tunables.after_lowMark]
    exact below_lt hhigh8
  · rw [Tunables.after_latencyLimit]
    exact Nat.le_max_left ..
  · rw [Tunables.after_latencyLimit]
    refine Nat.max_le.2 ⟨hsettle255, ?_⟩
    split
    · exact hlatency'
    · exact Nat.min_le_left ..

/-- The state with tunable limits stored, and the pulses not yet begun dropped where the mode is LEVEL (R32, R156). -/
def State.withLimits (s : State) (u : Tunables) : State :=
  { s with
    tune := u
    reporter := { s.reporter with pulsesQueued := if u.pulseMode then s.reporter.pulsesQueued else 0 } }

theorem exec_tune {s : State} {r : Record} (h : s.executing r .tune) :
    exec .tune s = proceed s (s.withLimits (s.tune.after r)).checkSpace.endExecution :=
  onRecord_eq h h.isKind

/-- TUNE proceeds with the record in hand, or finds no occasion. -/
theorem exec_tune_cases (s : State) : exec .tune s = noOccasion s ∨
    ∃ r, exec .tune s = proceed s (s.withLimits (s.tune.after r)).checkSpace.endExecution := by
  change onRecord s (·.isKind .tune) (fun r => (s.withLimits (s.tune.after r)).checkSpace.endExecution) = _ ∨ ∃ r,
    onRecord s (·.isKind .tune) (fun r => (s.withLimits (s.tune.after r)).checkSpace.endExecution) = _
  unfold onRecord
  split
  · split
    · exact .inr ⟨_, rfl⟩
    · exact .inl rfl
  · exact .inl rfl

theorem State.keepsRing_withLimits (s : State) {u : Tunables} (h : s.tune.inRange → u.inRange) :
    s.keepsRing (s.withLimits u) :=
  ⟨h, Reporter.keepsBounds_of_eq rfl rfl rfl rfl rfl, Decoder.keepsCounts_refl s.decoder, fun h => h.congr rfl rfl⟩

theorem State.keepsRing_tune (s : State) (r : Record) :
    s.keepsRing (s.withLimits (s.tune.after r)).checkSpace.endExecution :=
  ((s.keepsRing_withLimits (fun h => Tunables.after_inRange h r)).trans (State.keepsRing_checkSpace _)).trans
    (State.besideRing_refl _).endExecution.keepsRing

/-- Every command but RESET keeps the limits, the counts and the Record Queue in bounds. -/
theorem exec_keepsRing {c : Instr} (hreset : ∀ straps, c ≠ .reset straps) {s t : State} (h : exec c s = .next t) :
    s.keepsRing t := by
  cases hq : touchesRing c with
  | false => exact (exec_besideRing hq h).keepsRing
  | true =>
    suffices hx : ∃ x, s.keepsRing x ∧ (exec c s = proceed s x ∨ exec c s = noOccasion s) by
      obtain ⟨x, hk, hp | hn⟩ := hx
      · cases hp ▸ h
        exact State.keepsRing_conclude hk
      · cases hn ▸ h
        exact s.keepsRing_refl
    cases c with
    | reset straps => exact absurd rfl (hreset straps)
    | tune =>
      rcases exec_tune_cases s with hx | ⟨r, hx⟩
      · exact ⟨s, s.keepsRing_refl, .inr hx⟩
      · exact ⟨_, s.keepsRing_tune r, .inl hx⟩
    | controlRingWrite =>
      show ∃ x, s.keepsRing x ∧ (execControlRingWrite s = _ ∨ execControlRingWrite s = _)
      unfold execControlRingWrite
      split
      · split
        · exact ⟨s, s.keepsRing_refl, .inr rfl⟩
        · exact ⟨_, s.keepsRing_offerWrite _, .inl rfl⟩
      · exact ⟨s, s.keepsRing_refl, .inr rfl⟩
    | restart =>
      show ∃ x, s.keepsRing x ∧ (execRestart s = _ ∨ execRestart s = _)
      unfold execRestart
      split
      · split
        · exact ⟨_, s.keepsRing_offerWrite _, .inl rfl⟩
        · exact ⟨s, s.keepsRing_refl, .inr rfl⟩
      · exact ⟨s, s.keepsRing_refl, .inr rfl⟩
    | holdReleaseOnRoom =>
      show ∃ x, s.keepsRing x ∧ (execHoldReleaseOnRoom s = _ ∨ execHoldReleaseOnRoom s = _)
      unfold execHoldReleaseOnRoom
      split
      · split
        · rename_i hr
          refine ⟨_, ?_, .inl rfl⟩
          exact (State.keepsRing_releaseHeld hr).trans (State.keepsRing_release ..)
        · exact ⟨s, s.keepsRing_refl, .inr rfl⟩
      · exact ⟨s, s.keepsRing_refl, .inr rfl⟩
    | holdTimerExpiry =>
      show ∃ x, s.keepsRing x ∧ (execHoldTimerExpiry s = _ ∨ execHoldTimerExpiry s = _)
      unfold execHoldTimerExpiry
      split
      · split
        · exact ⟨s, s.keepsRing_refl, .inr rfl⟩
        · exact ⟨_, (s.keepsRing_overrun _).trans (State.keepsRing_release ..), .inl rfl⟩
      · exact ⟨s, s.keepsRing_refl, .inr rfl⟩
    | stallTimerExpiry =>
      show ∃ x, s.keepsRing x ∧ (execStallTimerExpiry s = _ ∨ execStallTimerExpiry s = _)
      unfold execStallTimerExpiry
      split
      · exact ⟨_, s.keepsRing_tear .., .inl rfl⟩
      · exact ⟨_, s.keepsRing_dropped, .inl rfl⟩
      · exact ⟨s, s.keepsRing_refl, .inr rfl⟩
    | recordExecutionEnd =>
      show ∃ x, s.keepsRing x ∧ (execRecordExecutionEnd s = _ ∨ execRecordExecutionEnd s = _)
      unfold execRecordExecutionEnd
      split
      · exact ⟨_, s.keepsRing_removed.trans (State.keepsRing_checkSpace _), .inl rfl⟩
      · exact ⟨s, s.keepsRing_refl, .inr rfl⟩
    | _ => cases hq

/-! ## The laws at every step -/

/-- A law that does not speak of the waiting commands is kept by every step if every command keeps it. -/
theorem step_keeps {P : State → Prop} (hp : ∀ s rest, P s → P { s with pending := rest })
    (hx : ∀ c s t, P s → exec c s = .next t → P t) : ∀ s t, P s → step s = .next t → P t := by
  intro s t h hs
  cases hc : s.pending with
  | nil =>
    unfold step at hs
    rw [hc] at hs
    cases hs
    exact h
  | cons c rest =>
    rw [step_cons hc] at hs
    exact hx c _ t (hp s rest h) hs

/-- A law that holds at reset, whatever is kept then, and that the Ring Decoder keeps, is kept by every step. -/
theorem step_keeps_of_keepsRing {P : State → Prop} (hp : ∀ s rest, P s → P { s with pending := rest })
    (hr : ∀ straps s t, exec (.reset straps) s = .next t → P t) (hk : ∀ s t, s.keepsRing t → P s → P t) :
    ∀ s t, P s → step s = .next t → P t := by
  refine step_keeps hp fun c s t hs h => ?_
  by_cases hreset : ∃ straps, c = .reset straps
  · obtain ⟨straps, rfl⟩ := hreset
    exact hr straps s t h
  · exact hk s t (exec_keepsRing (fun straps hc => hreset ⟨straps, hc⟩) h) hs

theorem State.keepsRing.countsBounded {s t : State} (h : s.keepsRing t) (hs : s.countsBounded) : t.countsBounded := by
  obtain ⟨_, ⟨_, hd, hf, hn⟩, ⟨hh, hst, hsk⟩, _⟩ := h
  obtain ⟨ah, ast, ask, ad, af, an⟩ := hs
  exact ⟨hh ah, hst ast, hsk ask, hd ad, hf af, hn an⟩

/-! ## The laws at reset (R15, R32, R153) -/

theorem State.reset_outstandingBounded : State.reset.outstandingBounded := by
  show (0 - 0 : BitVec 16).toNat ≤ 240
  decide

theorem State.reset_countsBounded : State.reset.countsBounded := by
  unfold State.countsBounded
  decide

theorem Tunables.reset_inRange : Tunables.reset.inRange := by
  unfold Tunables.inRange
  decide

theorem State.reset_queueBounded : State.reset.queueBounded :=
  ⟨Nat.zero_le _, Nat.zero_le _, by rintro _ _ ⟨⟩⟩

/-- Settles O5: beside RESET, every command keeps the Reporter's and the decoder's counts in bounds, and a TUNE clamps the
limits that it stores. -/
theorem countsStayInRange : Obligations.CountsStayInRange := by
  unfold Obligations.CountsStayInRange
  refine ⟨step_keeps_of_keepsRing (fun _ _ => id) ?_ fun s t hk => hk.2.1.1,
    step_keeps_of_keepsRing (fun _ _ => id) ?_ fun s t hk => hk.countsBounded,
    step_keeps_of_keepsRing (P := fun s => s.tune.inRange) (fun _ _ => id) ?_ fun s t hk => hk.1⟩
  · rintro straps s t ⟨⟩
    exact State.reset_outstandingBounded
  · rintro straps s t ⟨⟩
    exact State.reset_countsBounded
  · rintro straps s t ⟨⟩
    exact Tunables.reset_inRange

/-- Settles O8: a record is started only with room for it, and its words take the place of their reservation. -/
theorem recordQueueStaysBounded : Obligations.RecordQueueStaysBounded := by
  unfold Obligations.RecordQueueStaysBounded
  refine step_keeps_of_keepsRing (fun _ _ => id) ?_ fun s t hk => hk.2.2.2
  rintro straps s t ⟨⟩
  exact State.reset_queueBounded

end Sys2Proof.Machine
end

section
/-! SUPPORT. Writes offered to the Ring Decoder: which of them are a RESTART, what an offered write may change, and how it
lands. -/

namespace Sys2Proof.Machine

set_option Elab.async false

/-! ## What a command concludes -/

theorem conclude_decoder (before after : State) : (conclude before after).decoder = after.decoder := by rw [conclude_eq]

theorem conclude_queue (before after : State) : (conclude before after).queue = after.queue := by rw [conclude_eq]

theorem conclude_tune (before after : State) : (conclude before after).tune = after.tune := by rw [conclude_eq]

/-! ## What an offered write may change (R17 to R25) -/

/-- Nothing but the Ring Decoder, the Record Queue and the Reporter differs. -/
def State.ringOnly (s t : State) : Prop := ∃ d q r, t = { s with decoder := d, queue := q, reporter := r }

theorem State.ringOnly.trans {a b c : State} (h : a.ringOnly b) (h' : b.ringOnly c) : a.ringOnly c := by
  obtain ⟨d, q, r, rfl⟩ := h
  obtain ⟨d', q', r', rfl⟩ := h'
  exact ⟨d', q', r', rfl⟩

section
variable (s : State)

theorem State.ringOnly_decoder (d : Decoder) : s.ringOnly { s with decoder := d } := ⟨d, s.queue, s.reporter, rfl⟩

theorem State.ringOnly_raise (e : Event) : s.ringOnly (s.raise e) := by
  by_cases h : s.reporter.outstanding < Config.eventEntries
  · rw [State.raise_append h]
    exact ⟨_, _, _, rfl⟩
  · rw [State.raise_drop h]
    exact ⟨_, _, _, rfl⟩

theorem State.ringOnly_checkSpace : s.ringOnly s.checkSpace := by
  rcases s.checkSpace_cases with h | ⟨_, h⟩ | ⟨_, h⟩
  · rw [h]
    exact s.ringOnly_decoder s.decoder
  · rw [h]
    exact (s.ringOnly_decoder _).trans (State.ringOnly_raise ..)
  · rw [h]
    exact (s.ringOnly_decoder _).trans (State.ringOnly_raise ..)

theorem State.ringOnly_tear (cause : TornCause) (o : BitVec 12) (words : List Word) :
    s.ringOnly (s.tear cause o words) := by
  rw [State.tear_eq]
  exact ((s.ringOnly_decoder _).trans (State.ringOnly_checkSpace _)).trans (State.ringOnly_raise ..)

theorem State.ringOnly_doRestart (header : Word) : s.ringOnly (s.doRestart header) := by
  unfold State.doRestart
  dsimp only
  split
  · exact ((s.ringOnly_tear ..).trans (State.ringOnly_decoder ..)).trans (State.ringOnly_raise ..)
  · exact (s.ringOnly_decoder _).trans (State.ringOnly_raise ..)

theorem State.ringOnly_begun (header : Word) : s.ringOnly (s.begun header) := by
  unfold State.begun
  split
  · exact ⟨_, _, s.reporter, rfl⟩
  · exact s.ringOnly_decoder _

theorem State.ringOnly_startRecord (header : Word) : s.ringOnly (s.startRecord header) := by
  rw [State.startRecord_eq]
  exact (s.ringOnly_begun header).trans (State.ringOnly_checkSpace _)

theorem State.ringOnly_overrun (w : Word) : s.ringOnly (s.overrun w) :=
  (s.ringOnly_decoder _).trans (State.ringOnly_raise ..)

theorem State.ringOnly_takeHeader (w : Word) : s.ringOnly (s.takeHeader w).state := by
  unfold State.takeHeader
  split
  · exact s.ringOnly_doRestart w
  · split
    · exact s.ringOnly_startRecord w
    · split
      · exact s.ringOnly_overrun w
      · exact s.ringOnly_decoder _

theorem State.ringOnly_collect (o : BitVec 12) (words : List Word) (w : Word) : s.ringOnly (s.collect o words w) := by
  by_cases h : headerLength (words.headD 0) ≤ words.length + 1
  · rw [State.collect_last h]
    exact ⟨_, _, s.reporter, rfl⟩
  · rw [State.collect_more (by omega)]
    exact s.ringOnly_decoder _

theorem State.ringOnly_offerAtEp (whole : Bool) (w : Word) : s.ringOnly (s.offerAtEp whole w).state := by
  unfold State.offerAtEp
  split
  · split
    · exact s.ringOnly_takeHeader w
    · exact s.ringOnly_decoder _
  · split
    · exact s.ringOnly_collect ..
    · exact (s.ringOnly_tear ..).trans (State.ringOnly_decoder ..)
  · unfold State.skipInSkip
    dsimp only
    split
    · exact s.ringOnly_decoder _
    · exact s.ringOnly_decoder _
  · split
    · exact ((s.ringOnly_decoder _).trans (State.ringOnly_raise ..)).trans (State.ringOnly_takeHeader ..)
    · exact s.ringOnly_decoder _

theorem State.ringOnly_offer (o : BitVec 12) (whole : Bool) (w : Word) : s.ringOnly (s.offer o whole w).state := by
  unfold State.offer
  split
  · exact s.ringOnly_doRestart w
  · split
    · exact s.ringOnly_offerAtEp whole w
    · split
      · exact s.ringOnly_decoder s.decoder
      · exact s.ringOnly_decoder _

end

/-! ## How an offered write lands (R6) -/

/-- A write released by the decoder lands at once where the port is free for it. -/
theorem State.ringOnly.release {s t : State} (h : s.ringOnly t) {w : HostWrite} (hc : s.clearFor w) :
    t.release w = { t with mem := w.into s.mem, relay := .idle } := by
  obtain ⟨d, q, r, rfl⟩ := h
  exact State.release_eq (State.clearFor_congr hc rfl rfl rfl rfl rfl)

theorem State.offerWrite_of_released {s t : State} {w : HostWrite} (hc : s.clearFor w)
    (ho : s.offer (s.ringWord w) w.whole w.data = { state := t, held := false }) :
    s.offerWrite w = { t with mem := w.into s.mem, relay := .idle } := by
  have h := s.ringOnly_offer (s.ringWord w) w.whole w.data
  rw [ho] at h
  unfold State.offerWrite
  rw [ho]
  exact h.release hc

theorem HostWrite.whole_eq_true {w : HostWrite} (h : w.enables = 15) : w.whole = true := decide_eq_true h

theorem HostWrite.whole_eq_false {w : HostWrite} (h : w.enables ≠ 15) : w.whole = false := decide_eq_false h

/-- At EP a write is a RESTART where the decoder expects a header and the write is a whole RESTART header (R25). -/
theorem State.offersRestart_at_ep {s : State} {w : HostWrite} (h : s.ringWord w = s.decoder.ep) :
    s.offersRestart w =
      (w.whole && decide (validHeader w.data = some .restart) && s.decoder.expectsHeader) := by
  unfold State.offersRestart takesRestart
  rw [restartsAtZero_at_ep h]
  simp [h]

/-- What CONTROL_RING_WRITE does with a write at EP that the decoder consumes. -/
theorem exec_controlRingWrite_at_ep {s t : State} {w : HostWrite} (hw : s.relay = .ringOffer w) (hc : s.clearFor w)
    (hep : s.ringWord w = s.decoder.ep) (hr : s.offersRestart w = false)
    (ho : s.offerAtEp w.whole w.data = { state := t, held := false }) :
    exec .controlRingWrite s = proceed s { t with mem := w.into s.mem, relay := .idle } := by
  rw [exec_controlRingWrite hw hr, State.offerWrite_of_released hc (by rw [State.offer_at_ep hep, ho])]

/-! ## A write at EP, by the decoder's state (R17 to R23) -/

section
variable {s : State} (whole : Bool) (w : Word)

theorem State.offerAtEp_sync (h : s.decoder.state = .sync) : s.offerAtEp whole w =
    if whole && (validHeader w).isSome then s.takeHeader w else { state := s.skipToHunt, held := false } := by
  unfold State.offerAtEp
  rw [h]

theorem State.offerAtEp_hunt (h : s.decoder.state = .hunt) : s.offerAtEp whole w =
    if whole && isBoundary s.decoder.ep && (validHeader w).isSome then (s.endHunt w).takeHeader w
    else { state := s.skipInHunt, held := false } := by
  unfold State.offerAtEp
  rw [h]

theorem State.offerAtEp_body {o : BitVec 12} {words : List Word} (h : s.decoder.state = .body o words) :
    s.offerAtEp whole w =
      if whole then { state := s.collect o words w, held := false }
      else { state := (s.tear .partialWord o words).skipToHunt, held := false } := by
  unfold State.offerAtEp
  rw [h]

theorem State.offerAtEp_skip {remainder length : Nat} (h : s.decoder.state = .skip remainder length) :
    s.offerAtEp whole w = { state := s.skipInSkip remainder length, held := false } := by
  unfold State.offerAtEp
  rw [h]

end

theorem sat16_eq (n : Nat) : sat16 n = min 65535 n := Nat.min_comm ..

theorem State.skipToHunt_eq (s : State) : s.skipToHunt = { s with decoder :=
    { (s.decoder) with
      state := .hunt, huntCount := 1, stall := none, skipped := min 65535 (s.decoder.skipped + 1)
      ep := s.decoder.ep + 1, gap := [] } } := by
  rw [← sat16_eq]
  rfl

theorem State.skipInHunt_eq (s : State) : s.skipInHunt = { s with decoder :=
    { (s.decoder) with
      huntCount := min 65535 (s.decoder.huntCount + 1), skipped := min 65535 (s.decoder.skipped + 1)
      ep := s.decoder.ep + 1, gap := [] } } := by
  rw [← sat16_eq, ← sat16_eq]
  rfl

/-- The last word skipped closes the decoder's record (R21). -/
theorem State.skipInSkip_last (s : State) {remainder : Nat} (h : remainder ≤ 1) (length : Nat) :
    s.skipInSkip remainder length =
      { s with decoder := { (s.decoder.closed) with skipped := min 65535 (s.decoder.skipped + 1) } } := by
  unfold State.skipInSkip
  dsimp only
  rw [if_pos h, ← sat16_eq, ← Decoder.closed_eq]
  rfl

theorem State.skipInSkip_more (s : State) {remainder : Nat} (h : 1 < remainder) (length : Nat) :
    s.skipInSkip remainder length = { s with decoder :=
      { (s.decoder) with
        state := .skip (remainder - 1) length, skipped := min 65535 (s.decoder.skipped + 1), ep := s.decoder.ep + 1
        gap := [], stall := stallStart s.tune } } := by
  unfold State.skipInSkip
  dsimp only
  rw [if_neg (by omega), ← sat16_eq]
  rfl

end Sys2Proof.Machine
end

section
/-! SUPPORT. The statements about writes that the Ring Decoder consumes: StrayRingWrite, SkipConsumes, RecordCompletes and
StallEndsRecord. -/

namespace Sys2Proof.Machine

set_option Elab.async false

/-- Settles O22: such a write changes at most the stray count, and lands. -/
theorem strayRingWrite : Obligations.StrayRingWrite := by
  unfold Obligations.StrayRingWrite
  intro s w hw hc hr hep
  have hzero : restartsAtZero s (s.ringWord w) w.whole w.data = false := (Bool.or_eq_false_iff.1 hr).1
  have ho : s.offer (s.ringWord w) w.whole w.data =
      Offered.mk
        { s with
          decoder :=
            if s.ringWord w ∈ s.decoder.gap then s.decoder
            else { (s.decoder) with stray := min 65535 (s.decoder.stray + 1) } }
        false := by
    unfold State.offer
    rw [hzero, if_neg (by simp), if_neg hep]
    by_cases hg : s.ringWord w ∈ s.decoder.gap
    · rw [if_pos (List.contains_iff_mem.2 hg), if_pos hg]
    · rw [if_neg (fun h => hg (List.contains_iff_mem.1 h)), if_neg hg, ← sat16_eq]
  exact yields_of_proceed_eq (exec_controlRingWrite hw hr) (State.offerWrite_of_released hc ho)

/-- Settles O23: the word before the last leaves one fewer to skip, and the last closes the skipping. -/
theorem skipConsumes : Obligations.SkipConsumes := by
  unfold Obligations.SkipConsumes
  intro s w remainder length hw hc hst hpos hep
  have hr : s.offersRestart w = false := by
    rw [State.offersRestart_at_ep hep]
    unfold Decoder.expectsHeader
    rw [hst, Bool.and_false]
  have hx := exec_controlRingWrite_at_ep hw hc hep hr (State.offerAtEp_skip _ _ hst)
  rcases Nat.lt_or_ge 1 remainder with hmore | hlast
  · rw [State.skipInSkip_more s hmore] at hx
    refine ⟨_, hx, ?_⟩
    rw [conclude_decoder]
    exact ⟨conclude_agrees .., rfl, rfl, rfl, rfl, rfl, fun h => by omega, fun _ => ⟨rfl, rfl, rfl, rfl⟩⟩
  · rw [State.skipInSkip_last s hlast] at hx
    refine ⟨_, hx, ?_⟩
    rw [conclude_decoder]
    exact ⟨conclude_agrees .., rfl, rfl, rfl, rfl, rfl, fun _ => ⟨rfl, rfl, BitVec.toNat_ofNat ..⟩, fun h => by omega⟩

/-! ## Records torn (R23, R26) -/

theorem State.tear_quiet {s : State} (h : s.dropped.spaceQuiet) (cause : TornCause) (o : BitVec 12) (words : List Word) :
    s.tear cause o words = s.dropped.raise (.recordTorn cause (words.headD 0) o words.length) := by
  rw [State.tear_eq, State.checkSpace_quiet h]

theorem State.tear_again {s : State} (hl : s.decoder.lowSpace = true) (hu : s.dropped.usedWords ≤ 8 * s.tune.lowMark)
    (cause : TornCause) (o : BitVec 12) (words : List Word) :
    s.tear cause o words =
      State.raise
        (State.raise { (s.dropped) with decoder := { (s.dropped.decoder) with lowSpace := false } }
          (.spaceAgain s.dropped.usedWords))
        (.recordTorn cause (words.headD 0) o words.length) := by
  rw [State.tear_eq, State.checkSpace_again (s := s.dropped) hl hu]

/-- Settles O24: the last word closes the record, an earlier one joins it, and a broken one tears it. -/
theorem recordCompletes : Obligations.RecordCompletes := by
  unfold Obligations.RecordCompletes
  intro s w o words hw hc hst hep
  have hr : s.offersRestart w = false := by
    rw [State.offersRestart_at_ep hep]
    unfold Decoder.expectsHeader
    rw [hst, Bool.and_false]
  have hx : ∀ t, s.offerAtEp w.whole w.data = { state := t, held := false } →
      exec .controlRingWrite s = proceed s { t with mem := w.into s.mem, relay := .idle } :=
    fun _ => exec_controlRingWrite_at_ep hw hc hep hr
  rw [State.offerAtEp_body _ _ hst] at hx
  refine ⟨fun he hn => ?_, fun he hn => ?_, fun he => ⟨fun hq => ?_, fun hl hu => ?_⟩⟩
  · have h := hx _ (if_pos (HostWrite.whole_eq_true he))
    rw [State.collect_last hn.le] at h
    refine ⟨yields_of_proceed h, fun t ht => ?_⟩
    cases h ▸ ht
    rw [(State.used_congr (conclude_queue ..) (congrArg _ (conclude_decoder ..))).1,
      State.usedWords_unreserved (by rintro _ _ ⟨⟩), State.usedWords_body hst, sum_words_append, hn, List.length_append]
    rfl
  · have h := hx _ (if_pos (HostWrite.whole_eq_true he))
    rw [State.collect_more hn] at h
    exact yields_of_proceed h
  · have h := hx _ (if_neg (by simp [HostWrite.whole_eq_false he]))
    rw [State.tear_quiet hq, State.skipToHunt_eq, State.raise_decoder] at h
    exact yields_of_proceed h
  · have h := hx _ (if_neg (by simp [HostWrite.whole_eq_false he]))
    rw [State.tear_again hl hu, State.skipToHunt_eq, State.raise_decoder, State.raise_decoder] at h
    exact yields_of_proceed h

/-- Settles O28: the record is torn, or the skipping ends. -/
theorem stallEndsRecord : Obligations.StallEndsRecord := by
  unfold Obligations.StallEndsRecord
  intro s hstall
  obtain ⟨n, hn⟩ := Option.isSome_iff_exists.1 hstall
  refine ⟨fun remainder length hst => ?_, fun o words hst => ?_⟩
  · have hx : exec .stallTimerExpiry s = proceed s s.dropped := by
      show execStallTimerExpiry s = _
      unfold execStallTimerExpiry
      rw [hn, hst]
      rfl
    exact yields_of_proceed hx
  · have hx : exec .stallTimerExpiry s = proceed s (s.tear .stall o words) := by
      show execStallTimerExpiry s = _
      unfold execStallTimerExpiry
      rw [hn, hst]
    exact ⟨fun hq => yields_of_proceed_eq hx (State.tear_quiet hq ..),
      fun hl hu => yields_of_proceed_eq hx (State.tear_again hl hu ..)⟩

end Sys2Proof.Machine
end

section
/-! SUPPORT. The statements about headers: HeaderStartsOrIsHeld, RestartSetsStreamBack and HoldEnds. -/

namespace Sys2Proof.Machine

set_option Elab.async false

/-! ## A header taken (R18, R19) -/

section
variable {s : State} {w : Word}

theorem State.takeHeader_room (hk : validHeader w ≠ some .restart) (hr : s.hasRoom (headerLength w) = true) :
    s.takeHeader w = { state := (s.begun w).checkSpace, held := false } := by
  unfold State.takeHeader
  rw [if_neg hk, if_pos hr, State.startRecord_eq]

theorem State.takeHeader_overrun (hk : validHeader w ≠ some .restart) (hr : s.hasRoom (headerLength w) = false)
    (hl : s.tune.holdLimit = 0) : s.takeHeader w = { state := s.overrun w, held := false } := by
  unfold State.takeHeader
  rw [if_neg hk, if_neg (by simp [hr]), if_pos hl]

theorem State.takeHeader_held (hk : validHeader w ≠ some .restart) (hr : s.hasRoom (headerLength w) = false)
    (hl : s.tune.holdLimit ≠ 0) :
    s.takeHeader w =
      { state := { s with decoder := { (s.decoder) with hold := some s.tune.holdLimit } }, held := true } := by
  unfold State.takeHeader
  rw [if_neg hk, if_neg (by simp [hr]), if_neg hl]

theorem State.takeHeader_restart (hk : validHeader w = some .restart) :
    s.takeHeader w = { state := s.doRestart w, held := false } := by
  unfold State.takeHeader
  rw [if_pos hk]

theorem State.begun_tune (s : State) (w : Word) : (s.begun w).tune = s.tune := by
  unfold State.begun
  split <;> rfl

theorem State.begun_lowSpace (s : State) (w : Word) : (s.begun w).decoder.lowSpace = s.decoder.lowSpace := by
  unfold State.begun
  split <;> rfl

/-- LOW_SPACE at a record's start (R27). -/
theorem State.checkSpace_begun_low (hs : s.decoder.reservesNothing) (hl : s.decoder.lowSpace = false)
    (hu : 8 * s.tune.highMark ≤ s.usedWords + headerLength w) :
    (s.begun w).checkSpace =
      State.raise { (s.begun w) with decoder := { ((s.begun w).decoder) with lowSpace := true } }
        (.lowSpace (s.usedWords + headerLength w)) := by
  have hwords := State.begun_usedWords hs w
  rw [← hwords]
  refine State.checkSpace_low ?_ ?_
  · rw [State.begun_lowSpace, hl]
  · rw [hwords, State.begun_tune]
    exact hu

end

/-- The decoder expects a header at EP: in SYNC, or in HUNT at a boundary (R18, R22). -/
def Decoder.awaitsHeader (d : Decoder) : Prop := d.state = .sync ∨ (d.state = .hunt ∧ d.ep.toNat % 4 = 0)

theorem Decoder.awaitsHeader.reservesNothing {d : Decoder} (h : d.awaitsHeader) : d.reservesNothing := by
  rintro o words hb
  rcases h with h | ⟨h, _⟩
  · cases h ▸ hb
  · cases h ▸ hb

theorem Decoder.expectsHeader_iff {d : Decoder} : d.expectsHeader = true ↔ d.awaitsHeader := by
  unfold Decoder.expectsHeader Decoder.awaitsHeader
  cases hd : d.state with
  | sync => simp
  | hunt => simp [isBoundary]
  | body | skip => simp

/-- The state in which a header at EP is taken: the hunt has ended with its RESYNC (R22). -/
def State.headerState (s : State) (header : Word) : State :=
  match s.decoder.state with
  | .hunt => s.endHunt header
  | _ => s

theorem State.headerState_sync {s : State} (h : s.decoder.state = .sync) (header : Word) : s.headerState header = s := by
  unfold State.headerState
  rw [h]

theorem State.headerState_hunt {s : State} (h : s.decoder.state = .hunt) (header : Word) :
    s.headerState header = s.endHunt header := by
  unfold State.headerState
  rw [h]

section
variable {s : State}

theorem State.headerState_tune (header : Word) : (s.headerState header).tune = s.tune := by
  unfold State.headerState
  split
  · exact State.raise_tune ..
  · rfl

theorem State.headerState_queue (header : Word) : (s.headerState header).queue = s.queue := by
  unfold State.headerState
  split
  · exact State.raise_queue ..
  · rfl

/-- The end of a hunt leaves the decoder in SYNC with its hunt count 0 (R22). -/
theorem State.headerState_decoder (h : s.decoder.awaitsHeader) (header : Word) :
    ∃ n, (s.headerState header).decoder = { (s.decoder) with state := .sync, huntCount := n } := by
  rcases h with h | ⟨h, _⟩
  · rw [State.headerState_sync h]
    exact ⟨s.decoder.huntCount, by rw [← h]⟩
  · rw [State.headerState_hunt h]
    exact ⟨0, State.raise_decoder ..⟩

theorem State.headerState_reservesNothing (h : s.decoder.awaitsHeader) (header : Word) :
    (s.headerState header).decoder.reservesNothing := by
  obtain ⟨n, hd⟩ := State.headerState_decoder h header
  rw [hd]
  rintro _ _ ⟨⟩

theorem State.headerState_used (h : s.decoder.awaitsHeader) (header : Word) :
    (s.headerState header).usedWords = s.usedWords ∧ (s.headerState header).usedEntries = s.usedEntries := by
  have h0 := State.headerState_reservesNothing h header
  unfold State.usedWords State.usedEntries
  rw [h0.reserved.1, h0.reserved.2, h.reservesNothing.reserved.1, h.reservesNothing.reserved.2, State.headerState_queue]
  exact ⟨rfl, rfl⟩

theorem State.headerState_hasRoom (h : s.decoder.awaitsHeader) (header : Word) (n : Nat) :
    (s.headerState header).hasRoom n = s.hasRoom n := by
  unfold State.hasRoom
  rw [(State.headerState_used h header).1, (State.headerState_used h header).2]

/-- A valid header at EP is taken where the decoder expects one (R18, R22). -/
theorem State.offerAtEp_header (h : s.decoder.awaitsHeader) {header : Word} {k : RecordKind}
    (hk : validHeader header = some k) : s.offerAtEp true header = (s.headerState header).takeHeader header := by
  rcases h with h | ⟨h, hb⟩
  · rw [State.headerState_sync h, State.offerAtEp_sync _ _ h, hk]
    rfl
  · rw [State.headerState_hunt h, State.offerAtEp_hunt _ _ h, hk]
    exact if_pos (by simpa [isBoundary] using hb)

/-- A word at EP that begins a hunt (R18, R23). -/
theorem yields_skipToHunt {w : HostWrite} (hw : s.relay = .ringOffer w) (hc : s.clearFor w)
    (hep : s.ringWord w = s.decoder.ep) (hst : s.decoder.state = .sync)
    (hbad : w.enables ≠ 15 ∨ validHeader w.data = none) :
    Yields .controlRingWrite s { (s.skipToHunt) with mem := w.into s.mem, relay := .idle } := by
  have hr : s.offersRestart w = false := by
    rw [State.offersRestart_at_ep hep]
    rcases hbad with h | h
    · simp [HostWrite.whole_eq_false h]
    · simp [h]
  refine yields_of_proceed (exec_controlRingWrite_at_ep hw hc hep hr ?_)
  rw [State.offerAtEp_sync _ _ hst]
  refine if_neg ?_
  rcases hbad with h | h
  · simp [HostWrite.whole_eq_false h]
  · simp [h]

/-- A word at EP that ends no hunt (R22). -/
theorem yields_skipInHunt {w : HostWrite} (hw : s.relay = .ringOffer w) (hc : s.clearFor w)
    (hep : s.ringWord w = s.decoder.ep) (hst : s.decoder.state = .hunt)
    (hbad : w.enables ≠ 15 ∨ validHeader w.data = none ∨ s.decoder.ep.toNat % 4 ≠ 0) :
    Yields .controlRingWrite s { (s.skipInHunt) with mem := w.into s.mem, relay := .idle } := by
  have hr : s.offersRestart w = false := by
    rw [State.offersRestart_at_ep hep]
    unfold Decoder.expectsHeader
    rcases hbad with h | h | h
    · simp [HostWrite.whole_eq_false h]
    · simp [h]
    · simp [hst, isBoundary, h]
  refine yields_of_proceed (exec_controlRingWrite_at_ep hw hc hep hr ?_)
  rw [State.offerAtEp_hunt _ _ hst]
  refine if_neg ?_
  rcases hbad with h | h | h
  · simp [HostWrite.whole_eq_false h]
  · simp [h]
  · simp [isBoundary, h]

end

/-- Settles O25: the header is taken by the decoder in SYNC, after RESYNC at the end of a hunt. -/
theorem headerStartsOrIsHeld : Obligations.HeaderStartsOrIsHeld := by
  unfold Obligations.HeaderStartsOrIsHeld
  intro s w hw hc hep n timer
  refine ⟨?_, fun hst hbad => ?_, fun hst hbad => ?_⟩
  · intro k he hk hne hst s0 started
    have hkind : validHeader w.data ≠ some .restart := by
      rw [hk]
      simpa using hne
    have hr : s.offersRestart w = false := by
      rw [State.offersRestart_at_ep hep, decide_eq_false hkind, Bool.and_false, Bool.false_and]
    have htake : s.offerAtEp w.whole w.data = s0.takeHeader w.data := by
      rw [HostWrite.whole_eq_true he]
      exact State.offerAtEp_header hst hk
    have hqueue : s0.queue = s.queue := State.headerState_queue w.data
    have htune : s0.tune = s.tune := State.headerState_tune w.data
    obtain ⟨m, hd⟩ : ∃ m, s0.decoder = { (s.decoder) with state := .sync, huntCount := m } :=
      State.headerState_decoder hst w.data
    have hep0 : s0.decoder.ep = s.decoder.ep := by rw [hd]
    have hres : s0.decoder.reservesNothing := State.headerState_reservesNothing hst w.data
    have hused : s0.usedWords = s.usedWords := (State.headerState_used hst w.data).1
    have hroom : s0.hasRoom n = s.hasRoom n := State.headerState_hasRoom hst w.data n
    have hstarted : started = s0.begun w.data := by
      show (if n = 1 then _ else _) = s0.begun w.data
      unfold State.begun stallStart
      rw [hqueue, hep0, htune]
    have hconsumed : ∀ t, s0.takeHeader w.data = { state := t, held := false } →
        Yields .controlRingWrite s { t with mem := w.into s.mem, relay := .idle } :=
      fun t ht => yields_of_proceed (exec_controlRingWrite_at_ep hw hc hep hr (htake.trans ht))
    refine ⟨fun hfull hlimit => ?_, fun hfull hlimit => ?_, fun hfree => ⟨?_, fun hquiet => ?_, fun hl hu => ?_⟩⟩
    · rw [← htune] at hlimit ⊢
      have ho := State.takeHeader_held hkind (hroom.trans hfull) hlimit
      rw [← htake, ← State.offer_at_ep hep] at ho
      exact yields_of_proceed_eq (exec_controlRingWrite hw hr) (State.offerWrite_held ho)
    · have ho := hconsumed _ (State.takeHeader_overrun hkind (hroom.trans hfull) (htune ▸ hlimit))
      have hstall : s0.decoder.stall = s.decoder.stall := by rw [hd]
      have htimer : stallStart s0.tune = timer := by rw [htune]; rfl
      rw [State.overrun_eq, hep0, hstall, htimer] at ho
      exact ho
    · rw [hstarted, State.begun_usedWords hres, hused]
    · have ho := hconsumed _ (State.takeHeader_room hkind (hroom.trans hfree))
      rw [← hstarted, State.checkSpace_quiet hquiet] at ho
      exact ho
    · have hl0 : s0.decoder.lowSpace = false := by rw [hd]; exact hl
      have ho := hconsumed _ (State.takeHeader_room hkind (hroom.trans hfree))
      rw [State.checkSpace_begun_low hres hl0 (by rw [htune, hused]; exact hu), hused, ← hstarted] at ho
      exact ho
  · have hx := yields_skipToHunt hw hc hep hst hbad
    rw [State.skipToHunt_eq] at hx
    exact hx
  · have hx := yields_skipInHunt hw hc hep hst hbad
    rw [State.skipInHunt_eq] at hx
    exact hx

/-! ## RESTART (R25) -/

theorem State.setBack_decoder (s : State) : s.setBack.decoder =
    { (s.decoder) with state := .sync, ep := 4, gap := [], huntCount := 0, stall := none } := rfl

/-- What a RESTART leaves of the decoder. -/
theorem State.doRestart_decoder (s : State) (header : Word) : ∃ b, (s.doRestart header).decoder =
    { (s.decoder) with
      state := .sync, ep := 4, gap := [], huntCount := 0, stall := none, lowSpace := b } := by
  by_cases h : s.decoder.reservesNothing
  · rw [State.doRestart_eq h, State.raise_decoder]
    exact ⟨s.decoder.lowSpace, rfl⟩
  · unfold Decoder.reservesNothing at h
    push Not at h
    obtain ⟨o, words, hb⟩ := h
    obtain ⟨b, hd⟩ := s.dropped.checkSpace_decoder
    rw [State.doRestart_body hb, State.raise_decoder, State.setBack_decoder, State.tear_eq, State.raise_decoder, hd]
    exact ⟨b, rfl⟩

theorem State.doRestart_queue (s : State) (header : Word) : (s.doRestart header).queue = s.queue := by
  unfold State.doRestart
  rw [State.raise_queue]
  dsimp only
  split
  · rw [State.tear_eq, State.raise_queue, State.checkSpace_queue]
    rfl
  · rfl

/-- A RESTART changes the decoder and the Reporter alone. -/
theorem State.doRestart_leaves (s : State) (header : Word) : ∃ b r, s.doRestart header =
    { s with
      decoder := { (s.decoder) with state := .sync, ep := 4, gap := [], huntCount := 0, stall := none, lowSpace := b }
      reporter := r } := by
  obtain ⟨b, hd⟩ := s.doRestart_decoder header
  have hq := s.doRestart_queue header
  obtain ⟨d, q, r, hs⟩ := s.ringOnly_doRestart header
  rw [hs] at hd hq ⊢
  exact ⟨b, r, by rw [← hd, ← hq]⟩

/-- The words dropped by a RESTART outside BODY are those skipped so far (R25). -/
theorem Decoder.droppedByRestart_outside {d : Decoder} (h : d.reservesNothing) :
    d.droppedByRestart = match d.state with | .skip remainder length => length - remainder | _ => 0 := by
  unfold Decoder.droppedByRestart
  cases hd : d.state with
  | body o words => exact absurd hd (h o words)
  | sync | skip | hunt => rfl

/-- A command's answer agrees with the state it proceeds to, with the Reporter as the answer has it. -/
theorem conclude_agrees_reporter (before x : State) :
    (conclude before x).agrees { x with reporter := (conclude before x).reporter } := by
  refine State.agrees_iff.2 ⟨(conclude before x).reporter.marks, (conclude before x).doze, ?_⟩
  have h := conclude_eq before x
  generalize conclude before x = y at h ⊢
  rw [h]

/-- What RESTART does with a write that takes effect as one. -/
theorem exec_restart_released {s : State} {w : HostWrite} (hw : s.relay = .ringOffer w) (hc : s.clearFor w)
    (hr : s.offersRestart w = true) {t : State}
    (ho : s.offer (s.ringWord w) w.whole w.data = { state := t, held := false }) :
    exec .restart s = proceed s { t with mem := w.into s.mem, relay := .idle } := by
  rw [exec_restart hw hr, State.offerWrite_of_released hc ho]

theorem exec_restart_at_zero {s : State} {w : HostWrite} (hw : s.relay = .ringOffer w) (hc : s.clearFor w)
    (he : w.enables = 15) (hk : validHeader w.data = some .restart) (hz : s.ringWord w = 0) (hep : s.decoder.ep ≠ 0) :
    exec .restart s = proceed s { (s.doRestart w.data) with mem := w.into s.mem, relay := .idle } := by
  have hzero : restartsAtZero s (s.ringWord w) w.whole w.data = true := by
    unfold restartsAtZero
    simpa [HostWrite.whole_eq_true he, hk, hz] using hep
  refine exec_restart_released hw hc (Bool.or_eq_true_iff.2 (.inl hzero)) ?_
  unfold State.offer
  rw [if_pos hzero]

theorem exec_restart_at_ep {s : State} {w : HostWrite} (hw : s.relay = .ringOffer w) (hc : s.clearFor w)
    (he : w.enables = 15) (hk : validHeader w.data = some .restart) (hep : s.ringWord w = s.decoder.ep)
    (hst : s.decoder.awaitsHeader) :
    exec .restart s =
      proceed s { ((s.headerState w.data).doRestart w.data) with mem := w.into s.mem, relay := .idle } := by
  have hr : s.offersRestart w = true := by
    rw [State.offersRestart_at_ep hep, HostWrite.whole_eq_true he, decide_eq_true hk, Decoder.expectsHeader_iff.2 hst]
    rfl
  refine exec_restart_released hw hc hr ?_
  rw [State.offer_at_ep hep, HostWrite.whole_eq_true he, State.offerAtEp_header hst hk, State.takeHeader_restart hk]

/-- Settles O26: beside EP and at it the stream is set back, a record under collection torn first. -/
theorem restartSetsStreamBack : Obligations.RestartSetsStreamBack := by
  unfold Obligations.RestartSetsStreamBack
  refine ⟨?_, ?_⟩
  · intro s w hw hc he hk hz hep
    have hx := exec_restart_at_zero hw hc he hk hz hep
    refine ⟨⟨_, hx, ?_⟩, fun hst => ?_, fun o words hst => ⟨fun hq => ?_, fun hl hu => ?_⟩⟩
    · obtain ⟨b, r, hs⟩ := s.doRestart_leaves w.data
      rw [conclude_relay, conclude_mem, conclude_queue, conclude_decoder, hs]
      exact ⟨rfl, rfl, rfl, rfl, rfl, rfl, rfl, rfl, rfl, rfl, conclude_agrees_reporter ..⟩
    · rw [State.doRestart_eq hst, Decoder.droppedByRestart_outside hst] at hx
      exact yields_of_proceed hx
    · rw [State.doRestart_body hst, State.tear_quiet hq] at hx
      exact yields_of_proceed hx
    · rw [State.doRestart_body hst, State.tear_again hl hu] at hx
      exact yields_of_proceed hx
  · intro s w hw hc he hk hep hst s0
    have hx := exec_restart_at_ep hw hc he hk hep hst
    obtain ⟨m, hd⟩ := State.headerState_decoder hst w.data
    have hback : (s.headerState w.data).setBack = { (s.headerState w.data) with decoder :=
        { (s.decoder) with state := .sync, ep := 4, gap := [], huntCount := 0, stall := none } } := by
      unfold State.setBack
      rw [hd]
    have hnone : (s.headerState w.data).decoder.droppedByRestart = 0 := by
      rw [hd]
      rfl
    rw [State.doRestart_eq (State.headerState_reservesNothing hst _), hback, hnone] at hx
    exact yields_of_proceed hx

/-! ## The end of a hold (R19) -/

/-- The hold timer stopped (R19). -/
def State.unheld (s : State) : State := { s with decoder := { (s.decoder) with hold := none } }

theorem State.releaseHeld_eq (s : State) (w : Word) : s.releaseHeld w = (s.unheld.begun w).checkSpace :=
  State.startRecord_eq ..

theorem State.unheld_usedWords (s : State) : s.unheld.usedWords = s.usedWords := (State.used_congr rfl rfl).1

theorem exec_holdReleaseOnRoom {s : State} {w : HostWrite} (hw : s.relay = .ringHold w) (hc : s.clearFor w)
    (hr : s.hasRoom (headerLength w.data) = true) :
    exec .holdReleaseOnRoom s = proceed s { (s.releaseHeld w.data) with mem := w.into s.mem, relay := .idle } := by
  have hx : exec .holdReleaseOnRoom s = proceed s ((s.releaseHeld w.data).release w) := by
    show execHoldReleaseOnRoom s = _
    unfold execHoldReleaseOnRoom
    rw [hw]
    exact if_pos hr
  have honly : s.ringOnly (s.releaseHeld w.data) :=
    (s.ringOnly_decoder _).trans (State.ringOnly_startRecord ..)
  rw [hx, honly.release hc]

theorem exec_holdTimerExpiry {s : State} {w : HostWrite} (hw : s.relay = .ringHold w) (hc : s.clearFor w)
    (hh : s.decoder.hold.isSome = true) (hr : s.hasRoom (headerLength w.data) = false) :
    exec .holdTimerExpiry s = proceed s { (s.overrun w.data) with mem := w.into s.mem, relay := .idle } := by
  obtain ⟨n, hn⟩ := Option.isSome_iff_exists.1 hh
  have hx : exec .holdTimerExpiry s = proceed s ((s.overrun w.data).release w) := by
    show execHoldTimerExpiry s = _
    unfold execHoldTimerExpiry
    rw [hw, hn]
    exact if_neg (by simp [hr])
  rw [hx, (s.ringOnly_overrun w.data).release hc]

/-- A hold with room is not ended by its limit (log entry 22). -/
theorem exec_holdTimerExpiry_room {s : State} {w : HostWrite} (hw : s.relay = .ringHold w)
    (hr : s.hasRoom (headerLength w.data) = true) : exec .holdTimerExpiry s = .next s := by
  show execHoldTimerExpiry s = _
  unfold execHoldTimerExpiry
  rw [hw]
  cases s.decoder.hold with
  | none => rfl
  | some n => exact if_pos hr

/-- Settles O27: a held header is started where there is room for it, and overrun at its limit where there is none. -/
theorem holdEnds : Obligations.HoldEnds := by
  unfold Obligations.HoldEnds
  intro s w hw hc hst n timer started
  have hstarted : started = s.unheld.begun w.data := rfl
  have hres : s.unheld.decoder.reservesNothing := fun o words hb => by cases hst ▸ hb
  have hused := s.unheld_usedWords
  refine ⟨fun hr => ⟨?_, fun hq => ?_, fun hl hu => ?_⟩, exec_holdTimerExpiry_room hw, fun hr hh => ?_⟩
  · rw [hstarted, State.begun_usedWords hres, hused]
  · have hx := exec_holdReleaseOnRoom hw hc hr
    rw [State.releaseHeld_eq, ← hstarted, State.checkSpace_quiet hq] at hx
    exact yields_of_proceed hx
  · have hx := exec_holdReleaseOnRoom hw hc hr
    rw [State.releaseHeld_eq, State.checkSpace_begun_low hres hl (hused ▸ hu), hused, ← hstarted] at hx
    exact yields_of_proceed hx
  · have hx := exec_holdTimerExpiry hw hc hh hr
    rw [State.overrun_eq] at hx
    exact yields_of_proceed hx

end Sys2Proof.Machine
end

section
/-! SUPPORT. The records that the Composer takes, ends and executes by itself (RecordsTakenAndRemoved, TuneClamps), and the
reset state (ResetLeaves, LawsHoldAtReset). -/

namespace Sys2Proof.Machine

set_option Elab.async false

/-! ## Records taken and removed (R27 to R30) -/

theorem exec_recordTake {s : State} {r : Record} {rest : List Record} (hs : s.startup = .running)
    (hc : s.composer = .idle) (hq : s.queue = r :: rest) :
    exec .recordTake s = proceed s { s with composer := .taken } := by
  show execRecordTake s = _
  unfold execRecordTake
  rw [hs, hc, hq]

theorem exec_nop {s : State} {r : Record} (h : s.executing r .nop) : exec .nop s = proceed s s.ended :=
  onRecord_eq h h.isKind

theorem exec_recordExecutionEnd {s : State} {r : Record} {rest : List Record} (hc : s.composer = .ended)
    (hq : s.queue = r :: rest) :
    exec .recordExecutionEnd s = proceed s (State.checkSpace { s with composer := .idle, queue := rest }) := by
  show execRecordExecutionEnd s = _
  unfold execRecordExecutionEnd
  rw [hc, hq]
  rfl

/-- Settles O29: the three commands each proceed to the one change that they make, and the removal to its space check. -/
theorem recordsTakenAndRemoved : Obligations.RecordsTakenAndRemoved := by
  unfold Obligations.RecordsTakenAndRemoved
  refine ⟨fun s r rest hs hc hq => yields_of_proceed (exec_recordTake hs hc hq),
    fun s r h => yields_of_proceed (exec_nop h), fun s r rest hc hq => ⟨fun hquiet => ?_, fun hl hu => ?_⟩⟩
  · exact yields_of_proceed_eq (exec_recordExecutionEnd hc hq) (State.checkSpace_quiet hquiet)
  · exact yields_of_proceed_eq (exec_recordExecutionEnd hc hq) (State.checkSpace_again hl hu)

/-! ## TUNE (R32, R33) -/

theorem State.raise_endExecution (s : State) (e : Event) : (s.raise e).endExecution = s.endExecution.raise e := by
  by_cases h : s.reporter.outstanding < Config.eventEntries
  · rw [State.raise_append h, State.raise_append (s := s.endExecution) h]
    rfl
  · rw [State.raise_drop h, State.raise_drop (s := s.endExecution) h]
    rfl

/-- The space check comes to the same before the record's execution ends and after. -/
theorem State.checkSpace_endExecution (s : State) : s.checkSpace.endExecution = s.endExecution.checkSpace := by
  unfold State.checkSpace
  rw [State.endExecution_decoder, State.endExecution_tune]
  have hused : s.endExecution.usedWords = s.usedWords := rfl
  rw [hused]
  split
  · split
    · exact State.raise_endExecution ..
    · rfl
  · split
    · exact State.raise_endExecution ..
    · rfl

/-- Limits stored by a record that then ends, and the event that the used words bring under the new marks (R33). -/
theorem State.withLimits_space (s : State) (u : Tunables) :
    let t := conclude s (s.withLimits u).checkSpace.endExecution
    let stored := (s.withLimits u).endExecution
    (stored.spaceQuiet → t.agrees stored) ∧
    (s.decoder.lowSpace = false → 8 * u.highMark ≤ s.usedWords →
      t.agrees (State.raise { stored with decoder := { (s.decoder) with lowSpace := true } } (.lowSpace s.usedWords))) ∧
    (s.decoder.lowSpace = true → s.usedWords ≤ 8 * u.lowMark →
      t.agrees
        (State.raise { stored with decoder := { (s.decoder) with lowSpace := false } } (.spaceAgain s.usedWords))) := by
  intro t stored
  have ht : t.agrees stored.checkSpace := by
    show (conclude s (s.withLimits u).checkSpace.endExecution).agrees _
    rw [State.checkSpace_endExecution]
    exact conclude_agrees ..
  refine ⟨fun hq => ?_, fun hl hu => ?_, fun hl hu => ?_⟩
  · exact State.checkSpace_quiet hq ▸ ht
  · exact State.checkSpace_low (s := stored) hl hu ▸ ht
  · exact State.checkSpace_again (s := stored) hl hu ▸ ht

theorem tuned_from_zero (v allOnes high stored : Nat) :
    tuned v allOnes 0 high stored = if v = allOnes then stored else min high v := by
  unfold tuned
  rw [Nat.zero_max]

/-- A flag field of two bits (R32). -/
theorem tuned_flag (v : Nat) (b : Bool) :
    decide (tuned v 3 0 1 (flag b) = 1) = if v = 3 then b else decide (1 ≤ v) := by
  by_cases h : v = 3
  · rw [tuned_kept h, if_pos h]
    cases b <;> rfl
  · rw [tuned_clamped h, if_neg h, Nat.zero_max]
    exact decide_eq_decide.2 (by omega)

theorem tuned_mask (v : Nat) (m : BitVec 8) :
    (BitVec.ofNat 8 (tuned v 511 0 255 m.toNat)).toNat = if v = 511 then m.toNat else min 255 v := by
  have hm : m.toNat ≤ 255 := Nat.le_of_lt_succ m.isLt
  have hle := tuned_le (v := v) (allOnes := 511) (low := 0) hm
  rw [BitVec.toNat_ofNat, Nat.mod_eq_of_lt (Nat.lt_succ_of_le hle), tuned_from_zero]

/-- A field that no other field bounds, as are the settle time, the ghost limit and the doze delay below (R32);
`Tunables.after_lowMark` and `Tunables.after_latencyLimit` speak of the dependent pairs. -/
theorem Tunables.after_highMark (t : Tunables) (r : Record) :
    (t.after r).highMark = if r.tuneField 69 9 = 511 then t.highMark else min 256 (max 8 (r.tuneField 69 9)) := rfl

theorem Tunables.after_settleTime (t : Tunables) (r : Record) :
    (t.after r).settleTime = if r.tuneField 51 9 = 511 then t.settleTime else min 255 (max 1 (r.tuneField 51 9)) := rfl

theorem Tunables.after_ghostLimit (t : Tunables) (r : Record) :
    (t.after r).ghostLimit = if r.tuneField 35 7 = 127 then t.ghostLimit else min 63 (max 1 (r.tuneField 35 7)) := rfl

theorem Tunables.after_dozeDelay (t : Tunables) (r : Record) :
    (t.after r).dozeDelay = if r.tuneField 0 9 = 511 then t.dozeDelay else min 255 (max 1 (r.tuneField 0 9)) := rfl

theorem conclude_withLimits_tune (s : State) (u : Tunables) :
    (conclude s (s.withLimits u).checkSpace.endExecution).tune = u := by
  rw [conclude_tune, State.endExecution_tune, State.checkSpace_tune]
  rfl

/-- Settles O30: the record's limits are stored, and the used words are checked against the new marks. The space part is
shown of any limits `u`, the rest of those that the record gives. -/
theorem tuneClamps : Obligations.TuneClamps := by
  unfold Obligations.TuneClamps
  intro s r h
  obtain ⟨u, hu⟩ : ∃ u, u = s.tune.after r := ⟨_, rfl⟩
  have hx := exec_tune h
  rw [← hu] at hx
  refine ⟨_, hx, ?_⟩
  rw [conclude_withLimits_tune]
  refine ⟨State.withLimits_space s u, ?_⟩
  subst hu
  exact ⟨fun hr => Tunables.after_inRange hr r, tuned_from_zero .., tuned_from_zero .., Tunables.after_highMark ..,
    Tunables.after_lowMark .., Tunables.after_settleTime .., Tunables.after_latencyLimit .., Tunables.after_ghostLimit ..,
    tuned_from_zero .., tuned_from_zero .., tuned_flag .., tuned_mask .., tuned_flag .., Tunables.after_dozeDelay ..⟩

/-! ## The reset state (R157) -/

theorem State.reset_update (u : Fin 15) : State.reset.update u = none := by
  show (Vector.replicate 15 none)[u] = none
  simp

theorem State.reset_page (i : Fin 4) : State.reset.page i = PageSlot.reset := by
  show (Vector.replicate 4 PageSlot.reset)[i] = PageSlot.reset
  simp

theorem State.reset_slotsDisjoint : State.reset.slotsDisjoint := by
  intro u v x y _ hx
  rw [State.reset_update] at hx
  cases hx

theorem State.reset_requestsBounded : State.reset.requestsBounded := by
  refine ⟨Nat.zero_le _, fun _ => nofun, fun _ => nofun, fun u x hx => ?_, fun _ _ => nofun⟩
  rw [State.reset_update] at hx
  cases hx

theorem State.reset_repairsBounded : State.reset.repairsBounded :=
  ⟨State.reset_slotsDisjoint, .nil, fun _ => nofun, Nat.zero_le _⟩

theorem State.reset_enableLaw : State.reset.enableLaw :=
  ⟨nofun, fun h => (by rcases h with h | h | h <;> cases h), nofun⟩

theorem PageSlot.reset_hasDirty : PageSlot.reset.hasDirty = false := by
  simp [PageSlot.hasDirty, PageSlot.reset]

/-- Settles O3: the tables, lists and counts of the reset state are empty, its limits the defaults, and its panel
UNCONFIGURED. -/
theorem lawsHoldAtReset : Obligations.LawsHoldAtReset := by
  unfold Obligations.LawsHoldAtReset
  refine ⟨⟨rfl, rfl, rfl⟩, State.reset_outstandingBounded, State.reset_countsBounded, Tunables.reset_inRange,
    State.reset_slotsDisjoint, ⟨List.nodup_nil, fun u => ?_⟩, State.reset_repairsBounded, State.reset_enableLaw,
    State.reset_queueBounded, State.reset_requestsBounded, fun _ => nofun, fun _ => ⟨nofun, nofun⟩⟩
  rw [State.reset_update]
  exact ⟨nofun, fun h => absurd rfl h⟩

/-- Settles O2: each value of the reset state, and RESET as the reset state with what lies outside the part. -/
theorem resetLeaves : Obligations.ResetLeaves := by
  unfold Obligations.ResetLeaves
  refine ⟨⟨⟨rfl, rfl, rfl, rfl, rfl, rfl, rfl, rfl, rfl, rfl⟩,
    ⟨rfl, rfl, rfl, rfl, rfl, rfl, rfl, rfl, rfl, rfl, rfl, rfl, rfl⟩, fun e => ?_, ⟨rfl, rfl, rfl, rfl, rfl⟩,
    fun i => ?_, ⟨rfl, rfl, rfl⟩, ⟨rfl, rfl, rfl⟩, State.reset_update, ⟨rfl, rfl⟩, fun _ => rfl,
    ⟨rfl, rfl, rfl, rfl, rfl, rfl, rfl, rfl, rfl, rfl, rfl, rfl, rfl, rfl, rfl, rfl⟩,
    ⟨rfl, rfl, rfl, rfl, rfl, rfl, rfl, rfl⟩, ⟨rfl, rfl, rfl, rfl⟩⟩,
    fun straps s => ⟨_, rfl, rfl, rfl, rfl, rfl, rfl, rfl, rfl, rfl, rfl, rfl⟩⟩
  · show (Vector.replicate 8 none)[e] = none ∧ (Vector.replicate 8 none)[e] = none
    simp
  · have hcursor : ∀ k : Fin 4, (State.reset.cursor i k).full = true := by
      intro k
      unfold State.cursor
      rw [State.reset_page]
      show ((Vector.replicate 4 Cursor.fullCursor)[k]).full = true
      simp [Cursor.fullCursor]
    have hcolumn : State.reset.columns[i] = none := by
      show (Vector.replicate 4 none)[i] = none
      simp
    rw [State.reset_page]
    exact ⟨rfl, rfl, rfl, rfl, rfl, rfl, rfl, rfl, PageSlot.reset_hasDirty, hcursor, rfl, rfl, hcolumn⟩

end Sys2Proof.Machine
end

section
/-! SUPPORT. The statement about the levels and drive codes of pixels, with what a word made of eight levels shows. -/

namespace Sys2Proof.Machine

/-! ## Levels in words (conventions, Image storage) -/

theorem nibble_lt (b : Byte) (p : Nat) : nibble b p < 16 := by
  unfold nibble
  have hb : b.toNat < 256 := b.isLt
  split_ifs <;> omega

/-- A level is one of sixteen. -/
theorem pixel_lt (w : Word) (k : Nat) : pixel w k < 16 := nibble_lt ..

/-- Each eight bits of a word made of four bytes are those of one of them, the first byte's the lowest. -/
theorem wordOfBytes_getLsbD (b0 b1 b2 b3 : Byte) (i : Nat) :
    (wordOfBytes b0 b1 b2 b3).getLsbD i =
      if i < 8 then b0.getLsbD i else if i < 16 then b1.getLsbD (i - 8) else if i < 24 then b2.getLsbD (i - 16)
      else b3.getLsbD (i - 24) := by
  show BitVec.getLsbD (w := 8 + 8 + 8 + 8) (b3 ++ b2 ++ b1 ++ b0) i = _
  simp only [BitVec.getLsbD_append]
  grind

theorem byteOf_getLsbD (w : Word) (k : Nat) {i : Nat} (hi : i < 8) : (byteOf w k).getLsbD i = w.getLsbD (8 * k + i) := by
  unfold byteOf
  rw [BitVec.getLsbD_setWidth, BitVec.getLsbD_ushiftRight, decide_eq_true hi, Bool.true_and]

/-- The bytes of a word made of four bytes. -/
theorem byteOf_wordOfBytes (b0 b1 b2 b3 : Byte) :
    byteOf (wordOfBytes b0 b1 b2 b3) 0 = b0 ∧ byteOf (wordOfBytes b0 b1 b2 b3) 1 = b1 ∧
    byteOf (wordOfBytes b0 b1 b2 b3) 2 = b2 ∧ byteOf (wordOfBytes b0 b1 b2 b3) 3 = b3 := by
  refine ⟨?_, ?_, ?_, ?_⟩ <;>
  · refine BitVec.eq_of_getLsbD_eq fun i hi => ?_
    rw [byteOf_getLsbD _ _ hi, wordOfBytes_getLsbD]
    grind

/-- The even pixel of a byte is its left level, the odd one its right. -/
theorem nibble_byteOfPixels (left right p : Nat) :
    nibble (byteOfPixels left right) p = if p % 2 = 0 then left % 16 else right % 16 := by
  unfold nibble byteOfPixels
  rw [BitVec.toNat_ofNat]
  split_ifs <;> omega

/-- A word made of eight levels shows them. -/
theorem pixel_wordOfPixels (f : Nat → Nat) {k : Nat} (hk : k < 8) : pixel (wordOfPixels f) k = f k % 16 := by
  obtain ⟨h0, h1, h2, h3⟩ := byteOf_wordOfBytes (byteOfPixels (f 0) (f 1)) (byteOfPixels (f 2) (f 3))
    (byteOfPixels (f 4) (f 5)) (byteOfPixels (f 6) (f 7))
  unfold pixel wordOfPixels
  interval_cases k <;> simp [h0, h1, h2, h3, nibble_byteOfPixels]

/-- A word made of eight levels, one of which is in range, shows that level. -/
theorem pixel_wordOfPixels_of_lt {f : Nat → Nat} {k : Nat} (hk : k < 8) (hf : f k < 16) :
    pixel (wordOfPixels f) k = f k := by
  rw [pixel_wordOfPixels f hk, Nat.mod_eq_of_lt hf]

/-! ## The arithmetic of levels (R47, R81, R96) -/

theorem highlightMultiply_lt {p t : Nat} (hp : p < 16) (ht : t < 16) : highlightMultiply p t < 16 := by
  have : p * t ≤ 15 * 15 := Nat.mul_le_mul (by omega) (by omega)
  unfold highlightMultiply
  omega

theorem PaintOp.level_lt (op : PaintOp) {old tone : Nat} (ho : old < 16) (ht : tone < 16) : op.level old tone < 16 := by
  cases op with
  | set => exact ht
  | multiply => exact highlightMultiply_lt ho ht

/-- The blend lies between two levels, whatever the coverage. -/
theorem glyphBlend_lt {p a k : Nat} (hp : p < 16) (ha : a < 16) (hk : k < 16) : glyphBlend p a k < 16 := by
  have h1 : p * (15 - a) ≤ 15 * (15 - a) := Nat.mul_le_mul (by omega) le_rfl
  have h2 : k * a ≤ 15 * a := Nat.mul_le_mul (by omega) le_rfl
  unfold glyphBlend
  omega

/-- Under no coverage a level stays as it is. -/
theorem glyphBlend_zero (p k : Nat) : glyphBlend p 0 k = p := by
  unfold glyphBlend
  omega

/-! ## Drive codes (R137, R144) -/

/-- The code of a frame is the two bits of its place in the word. -/
theorem codeIn_eq (w : Word) (frame : Nat) : codeIn w frame = BitVec.ofNat 2 (w.toNat / 2 ^ (30 - 2 * (frame % 16))) := by
  unfold codeIn
  apply BitVec.eq_of_toNat_eq
  simp only [BitVec.toNat_setWidth, BitVec.toNat_ushiftRight, Nat.shiftRight_eq_div_pow, BitVec.toNat_ofNat]

/-- The address of the word of an entry that holds the code of a frame. -/
theorem State.driveAddr_eq (s : State) (index frame : Nat) :
    s.driveAddr index frame = s.memBytes - 0x600000 + 0x500100 + 16 * index + 4 * (frame / 16) := by
  unfold State.driveAddr
  rw [State.storeBase_eq]

/-- Settles O40: each kind of word shows the levels it was made of, and the drive code is looked up unless it holds. -/
theorem pixelArithmetic : Obligations.PixelArithmetic := by
  unfold Obligations.PixelArithmetic
  refine ⟨⟨fun p col k old hk ht => ?_, fun t tone k old hk ht ha => ?_, fun old new prior k hk => ?_⟩,
    fun s x p q => ?_⟩
  · unfold Paint.word
    rw [pixel_wordOfPixels_of_lt hk]
    · cases p.op <;> rfl
    · have := p.op.level_lt (pixel_lt old k) ht
      have := pixel_lt old k
      split_ifs <;> assumption
  · show pixel (t.word tone old) k = glyphBlend (pixel old k) (t.coverage.getD k 0) tone
    have uncovered : (if t.coverage.getD k 0 = 0 then pixel old k else
        glyphBlend (pixel old k) (t.coverage.getD k 0) tone) =
        glyphBlend (pixel old k) (t.coverage.getD k 0) tone := by
      split_ifs with h
      · rw [h, glyphBlend_zero]
      · rfl
    unfold Touch.word
    rw [← uncovered]
    exact pixel_wordOfPixels_of_lt hk (by rw [uncovered]; exact glyphBlend_lt (pixel_lt old k) ha ht)
  · unfold priorWord
    refine pixel_wordOfPixels_of_lt hk ?_
    have := pixel_lt old k
    have := pixel_lt prior k
    split_ifs <;> assumption
  · unfold State.driveCode
    simp only [heldPixel_iff]
    rw [codeIn_eq, State.driveAddr_eq]
    rfl

end Sys2Proof.Machine
end

section
/-! SUPPORT. The statements about the grants of page commits, the timers of live pages, and discards. -/

namespace Sys2Proof.Machine

/-! ## Live pages (R48 to R50) -/

/-- Settles O51: either expiry finds its timer running, stops it and asks for a commit where dirty tiles stand. -/
theorem liveTimersExpire : Obligations.LiveTimersExpire := by
  unfold Obligations.LiveTimersExpire
  intro s i
  constructor
  · intro h
    obtain ⟨n, hn⟩ := Option.isSome_iff_exists.1 h
    refine yields_of_proceed ?_
    show execSettleTimerExpiry i s = _
    unfold execSettleTimerExpiry
    rw [hn]
    rfl
  · intro h
    obtain ⟨n, hn⟩ := Option.isSome_iff_exists.1 h
    refine yields_of_proceed ?_
    show execLatencyTimerExpiry i s = _
    unfold execLatencyTimerExpiry
    rw [hn]
    rfl

/-! ## Grants of page commits (R42, R104 to R106, R111) -/

/-- The raised request that is granted is that of the lowest-numbered page slot (R104). -/
theorem State.raisedRequest_eq_some {s : State} {i : Fin 4} :
    s.raisedRequest = some i ↔ (s.page i).autoCommit = true ∧ ∀ j, j < i → (s.page j).autoCommit = false := by
  unfold State.raisedRequest
  have rises : (List.finRange 4).Pairwise (fun a b => a.val < b.val) := by decide
  rw [find?_eq_some_iff_least (key := Fin.val) rises (List.mem_finRange i)]
  exact and_congr_right fun _ => ⟨fun h j hj => h j (List.mem_finRange j) hj, fun h j _ hj => h j hj⟩

theorem State.raisedRequest_eq_none {s : State} : s.raisedRequest = none ↔ ∀ i, (s.page i).autoCommit = false := by
  unfold State.raisedRequest
  simp

/-- The engine grants a hand-over exactly where no request is before it (R104). -/
theorem State.grantsHandOver_iff {s : State} : s.grantsHandOver = true ↔ s.engineFree := by
  unfold State.grantsHandOver State.engineFree State.engineIdle
  rw [Bool.and_eq_true, Option.isNone_iff_eq_none, State.raisedRequest_eq_none]
  cases s.commit.state <;> simp

/-- A hand-over that is not granted waits. -/
theorem onHandOver_waits {s : State} {k : RecordKind} {run : Record → State} (h : ¬ s.engineFree) :
    onHandOver s k run = noOccasion s :=
  if_neg (fun hg => h (State.grantsHandOver_iff.1 hg))

/-- A hand-over that is granted is carried out. -/
theorem onHandOver_eq {s : State} {r : Record} {k : RecordKind} {run : Record → State} (hr : s.executing r k)
    (h : s.engineFree) : onHandOver s k run = proceed s (run r) := by
  unfold onHandOver
  rw [if_pos (State.grantsHandOver_iff.2 h), onRecord_eq hr hr.isKind]

/-- A granted page commit takes the next number, puts its page in commit and begins its diff. -/
theorem State.beginDiff_eq (s : State) (origin : Origin) (mode : Option Mode) (i : Fin 4) :
    s.beginDiff origin mode i =
      { s with
        pages := s.pages.set i
          { s.page i with inCommit := true, settle := none, latency := none, autoCommit := false }
        commit :=
          { (s.commit) with
            nextNumber := s.commit.nextNumber + 1
            state := .diffing { origin := origin, mode := mode, number := s.commit.nextNumber }
              { next := 0, bounds := none, grey := false, visit := none } } } := rfl

/-- PAGE_COMMIT of the record in execution, granted. -/
theorem exec_pageCommit {s : State} {r : Record} (hr : s.executing r .pageCommit) (hf : s.engineFree) :
    exec .pageCommit s =
      proceed s (s.checked r (s.commitChecks r)
        { (s.beginDiff (.pageCommit r.slot r.tag) ((commitModeOf r.tag).getD none) r.slot) with
          composer := .atCommitEngine }) :=
  onHandOver_eq hr hf

/-- Settles O47: a granted page commit begins its diff, for a record and for a raised auto-commit alike. -/
theorem commitGranted : Obligations.CommitGranted := by
  unfold Obligations.CommitGranted
  refine ⟨fun s r hr => ⟨fun hb => yields_of_noOccasion (onHandOver_waits hb), fun hf ho => ?_,
    fun hf ho mode hm => ?_⟩, fun s i hidle hraised hlower => ?_⟩
  · exact yields_refused (exec_pageCommit hr hf) (by simp [State.commitChecks, ho])
  · have granted := yields_carryOut (exec_pageCommit hr hf) (by simp [State.commitChecks, ho, hm])
    rwa [hm, State.beginDiff_eq] at granted
  · have first := State.raisedRequest_eq_some.2 ⟨hraised, hlower⟩
    rw [← State.beginDiff_eq]
    refine yields_of_proceed ?_
    show execAutoCommitGrant s = _
    unfold execAutoCommitGrant
    rw [hidle, first]

/-! ## PAGE_DISCARD (R43, R44, R119) -/

/-- PAGE_DISCARD of the record in execution. -/
theorem exec_pageDiscard {s : State} {r : Record} (h : s.executing r .pageDiscard) :
    exec .pageDiscard s =
      proceed s (s.checked r [(!(s.page r.slot).isOpen, .notOpen)]
        (if (s.page r.slot).inCommit then s else s.discarded r.slot)) := by
  rw [← State.discardPage_eq]
  exact onRecord_eq h h.isKind

/-- Settles O37: a PAGE_DISCARD is refused, waits, or takes effect. -/
theorem pageDiscarded : Obligations.PageDiscarded := by
  unfold Obligations.PageDiscarded
  intro s r h
  have hx := exec_pageDiscard h
  refine ⟨fun ho => ?_, fun ho hi => ?_, fun ho hi => ?_⟩
  · exact yields_refused hx (by simp [ho])
  · rw [if_pos hi] at hx
    exact yields_carryOut hx (by simp [ho])
  · rw [hi] at hx
    exact yields_carryOut hx (by simp [ho])

end Sys2Proof.Machine
end

section
/-! SUPPORT. The statements about host writes into drafts, PAGE_OPEN and PAGE_COPY, with the marks that each sets. -/

namespace Sys2Proof.Machine

theorem conclude_page (before after : State) (i : Fin 4) : (conclude before after).page i = after.page i := by
  unfold State.page; rw [conclude_pages]

theorem conclude_composer (before after : State) : (conclude before after).composer = after.composer := by
  rw [conclude_eq]

theorem conclude_notes (before after : State) : (conclude before after).notes = after.notes := by rw [conclude_eq]

/-! ## Marks (R36, R38, R39, R49) -/

/-- A live page without dirty tiles starts its latency timer when some tile is marked (R49). -/
theorem PageSlot.mark_eq (p : PageSlot) (limit : Nat) {marks : BitVec 5120} (h : marks ≠ 0) :
    p.mark limit marks =
      { p with
        dirty := p.dirty ||| marks
        latency := if p.live = true ∧ p.dirty = 0 then some limit else p.latency } := by
  unfold PageSlot.mark PageSlot.hasDirty
  simp only [decide_eq_true h, Bool.and_true, Bool.and_eq_true, Bool.not_eq_true', decide_eq_false_iff_not, not_not]

theorem tileMask_ne_zero {tile : Nat} (h : tile < 5120) : tileMask tile ≠ 0 := by
  intro hz
  have hm := (tileMask_getLsbD tile h).2 rfl
  rw [hz] at hm
  simp at hm

/-- The word at an offset of an image lies in a tile of the Dirty Map. -/
theorem Geometry.legal.tileOfOffset_lt {g : Geometry} (h : g.legal) {o : Nat} (ho : o < g.width * g.height / 2) :
    tileOfOffset (g.width / 2) o < 5120 := by
  obtain ⟨hw, hw32, hw2560, hh, hh32, hh2048⟩ := h
  have halves : g.width * g.height / 2 = g.width / 2 * g.height := by
    rw [Nat.mul_comm, Nat.mul_comm (g.width / 2), Nat.mul_div_assoc _ (by omega)]
  have row : o / (g.width / 2) < g.height := Nat.div_lt_of_lt_mul (halves ▸ ho)
  have col : o % (g.width / 2) < g.width / 2 := Nat.mod_lt _ (by omega)
  unfold tileOfOffset tileNumber Config.tileStride
  omega

/-- The marks of the first rows of tiles, each row of so many. -/
theorem rowMarks_getLsbD {cols : Nat} (hc : cols ≤ 80) {i j : Nat} (hi : i < 80) (hj : j < 64) (rows : Nat) :
    ((List.range rows).foldl
      (fun m j => m ||| (BitVec.ofNat 5120 (2 ^ cols - 1) <<< (j * Config.tileStride))) 0).getLsbD (j * 80 + i) = true ↔
      i < cols ∧ j < rows := by
  induction rows with
  | zero => simp
  | succ n ih =>
    have inRow : (BitVec.ofNat 5120 (2 ^ cols - 1) <<< (n * Config.tileStride)).getLsbD (j * 80 + i) = true ↔
        i < cols ∧ j = n := by
      unfold Config.tileStride
      simp only [BitVec.getLsbD_shiftLeft, BitVec.getLsbD_ofNat, Nat.testBit_two_pow_sub_one, Bool.and_eq_true,
        Bool.not_eq_true', decide_eq_true_eq, decide_eq_false_iff_not]
      omega
    rw [List.range_succ, List.foldl_append, List.foldl_cons, List.foldl_nil, BitVec.getLsbD_or, Bool.or_eq_true, ih,
      inRow]
    omega

/-- The marks of every tile of a geometry are those of its tiles and no other. -/
theorem Geometry.legal.allTiles_getLsbD {g : Geometry} (h : g.legal) {i j : Nat} (hi : i < 80) (hj : j < 64) :
    g.allTiles.getLsbD (j * 80 + i) = true ↔ i < g.width / 32 ∧ j < g.height / 32 := by
  obtain ⟨_, _, hw, _⟩ := h
  exact rowMarks_getLsbD (by unfold Geometry.tileCols; omega) hi hj g.tileRows

theorem Geometry.legal.allTiles_ne_zero {g : Geometry} (h : g.legal) : g.allTiles ≠ 0 := by
  intro hz
  have hm := (h.allTiles_getLsbD (i := 0) (j := 0) (by omega) (by omega)).2
    ⟨by have := h.2.1; omega, by have := h.2.2.2.2.1; omega⟩
  rw [hz] at hm
  simp at hm

/-! ## Host writes into drafts (R39, R48, R49) -/

/-- A host write into the Dirty Map's reach marks its tile and drives the timers of a live page. -/
theorem PageSlot.hostWrite_eq (p : PageSlot) (t : Tunables) {tile : Nat} (h : tile < 5120) :
    p.hostWrite t tile =
      { p with
        dirty := p.dirty ||| tileMask tile
        settle := if p.live then some t.settleTime else p.settle
        latency := if p.live = true ∧ p.dirty = 0 then some t.latencyLimit else p.latency } := by
  unfold PageSlot.hostWrite
  rw [PageSlot.mark_eq p _ (tileMask_ne_zero h)]

/-- A landed write into the draft of an OPEN page is recorded below the image size, and only there. -/
theorem State.draftWritten_eq {s : State} {e : Fin 8} {i : Fin 4} (h : s.pageOfRegion e = some i) (o : Nat) :
    s.draftWritten e o = s.setPage i
      (if o < s.geometry.imageBytes then (s.page i).hostWrite s.tune (tileOfOffset s.geometry.stride o)
       else s.page i) := by
  unfold State.draftWritten
  rw [h]
  dsimp only
  split_ifs
  · rfl
  · rw [State.setPage_self]

/-- Settles O20: DRAFT_WRITE lands the write and records it on its page. -/
theorem draftWriteMarks : Obligations.DraftWriteMarks := by
  unfold Obligations.DraftWriteMarks
  intro s w e o i g hw hgr hg hlegal hi
  have lands : s.landWrite w (.page e o) =
      State.setPage { s with mem := w.into s.mem, relay := .idle } i
        (if o < g.width * g.height / 2 then (s.page i).hostWrite s.tune (tileOfOffset (g.width / 2) o)
         else s.page i) := by
    rw [← State.geometry_eq hg]
    exact State.draftWritten_eq (s := { s with mem := w.into s.mem, relay := .idle }) hi o
  have hx : exec .draftWrite s = _ := exec_handoffCommand hw hgr
  rw [lands] at hx
  refine ⟨_, hx, ?_, fun j hj => ?_, fun ho => ?_, fun ho => ?_⟩
  · rw [conclude_pages]
    exact conclude_agrees ..
  · rw [conclude_page, State.setPage_page, if_neg (Ne.symm hj)]
    rfl
  · rw [conclude_page, State.setPage_page, if_pos rfl, if_neg (Nat.not_lt.2 ho)]
  · rw [conclude_page, State.setPage_page, if_pos rfl, if_pos ho, PageSlot.hostWrite_eq _ _ (hlegal.tileOfOffset_lt ho)]
    rfl

end Sys2Proof.Machine
end

section
/-! SUPPORT. The statement about PAGE_OPEN. -/

namespace Sys2Proof.Machine

/-! ## PAGE_OPEN (R34 to R37, R49) -/

/-- The command that carries out or refuses a PAGE_OPEN record (log entry 17). -/
def Record.openCommand (r : Record) : Instr :=
  if r.openOption = 1 then .pageOpenKeepClean else if r.openOption = 2 then .pageOpenKeepDirty else .pageOpenFill

/-- What an accepted PAGE_OPEN does after its slot is set up, by its start option (R36, R37). -/
def State.opened (s : State) (r : Record) : State :=
  if r.openOption = 1 then (s.openPage r).endExecution
  else if r.openOption = 2 then (s.openMarked r).endExecution
  else (s.openMarked r).beginPainting r.slot
    [{ rect := { left := 0, top := 0, right := s.geometry.width, bottom := s.geometry.height }, op := .set,
       tone := r.openTone }]

/-- PAGE_OPEN of the record in execution. -/
theorem exec_pageOpen {s : State} {r : Record} (h : s.executing r .pageOpen) :
    exec r.openCommand s = proceed s (s.checked r (s.openChecks r) (s.opened r)) := by
  unfold Record.openCommand State.opened
  split_ifs with h1 h2
  · exact onRecord_eq h (by simp [h.isKind, h1])
  · exact onRecord_eq h (by simp [h.isKind, h2])
  · exact onRecord_eq h (by simp [h.isKind, h1, h2])

/-- A defined start option names its command alike. -/
theorem Record.openCommand_defined {r : Record} (h : r.openOption ≤ 2) :
    r.openCommand =
      if r.openOption = 0 then .pageOpenFill else if r.openOption = 1 then .pageOpenKeepClean
      else .pageOpenKeepDirty := by
  unfold Record.openCommand
  obtain h | h | h : r.openOption = 0 ∨ r.openOption = 1 ∨ r.openOption = 2 := by omega
  all_goals simp [h]

section Opened

variable (s : State) (r : Record)

/-- The page slot that is set up, with every tile marked but for KEEP_CLEAN. -/
theorem State.opened_pages :
    (s.opened r).pages = s.pages.set r.slot
      (if r.openOption = 1 then s.openedPage r else (s.openedPage r).mark s.tune.latencyLimit s.geometry.allTiles) := by
  have marked : (s.openMarked r).pages =
      s.pages.set r.slot ((s.openedPage r).mark s.tune.latencyLimit s.geometry.allTiles) := by
    unfold State.openMarked State.markTiles State.openPage
    simp [State.page]
  unfold State.opened
  split_ifs
  · rfl
  · exact marked
  · unfold State.beginPainting
    rw [State.resumePainting_eq]
    exact marked

theorem State.openedPage_cursors (k : Fin 4) : (s.openedPage r).cursors[k] = resetCursor s.columns[k] :=
  Vector.getElem_ofFn k.isLt

/-- Every tile of the geometry is marked on a page that is opened dirty (R36, R37). -/
theorem State.openedPage_marked {g : Geometry} (hl : g.legal) {i j : Nat} (hi : i < 80) (hj : j < 64) :
    ((s.openedPage r).mark s.tune.latencyLimit g.allTiles).marked (j * 80 + i) = true ↔
      i < g.width / 32 ∧ j < g.height / 32 := by
  show (0#5120 ||| g.allTiles).getLsbD (j * 80 + i) = true ↔ _
  rw [BitVec.zero_or]
  exact hl.allTiles_getLsbD hi hj

/-- A live page that is opened dirty starts its latency timer (R49). -/
theorem State.openedPage_latency {g : Geometry} (hl : g.legal) :
    ((s.openedPage r).mark s.tune.latencyLimit g.allTiles).latency =
      if r.openLive then some s.tune.latencyLimit else none := by
  have fresh : (s.openedPage r).dirty = 0 := rfl
  rw [PageSlot.mark_eq _ _ hl.allTiles_ne_zero]
  simp only [fresh, and_true]
  rfl

/-- Nothing but the pages, the notes of the slot and the Composer differs. -/
theorem State.opened_frame :
    s.opened r = { s with
      pages := (s.opened r).pages, notes := s.notes.filter (fun n => n.slot != r.slot)
      composer := (s.opened r).composer } := by
  unfold State.opened
  split_ifs
  · rfl
  · rfl
  · unfold State.beginPainting
    rw [State.resumePainting_eq]
    rfl

/-- FILL goes on to paint the whole image into the slot's region, and the other options end (R36, R37). -/
theorem State.opened_composer {g : Geometry} {e : Region} (hg : s.supply.geometry = some g) (hl : g.legal)
    (he : s.regions[r.openRegion] = some e) (ho : r.openOption ≤ 2) :
    (s.opened r).composer =
      if r.openOption = 0 then
        .painting
          { slot := r.slot, base := e.base * 4096, stride := g.width / 2,
            paints := [{ rect := { left := 0, top := 0, right := g.width, bottom := g.height }, op := .set,
                         tone := r.openTone }],
            row := 0, col := 0, held := none }
      else .ended := by
  obtain ⟨_, hw, _, _, hh, _⟩ := hl
  have base : (s.openMarked r).draftBase r.slot = e.base * 4096 := by
    have own : ((s.openMarked r).page r.slot).region = some r.openRegion := by
      unfold State.openMarked State.markTiles
      rw [State.setPage_page, if_pos rfl]
      unfold PageSlot.mark State.openPage
      show ((s.setPage r.slot (s.openedPage r)).page r.slot).region = _
      rw [State.setPage_page, if_pos rfl]
      rfl
    have entry : (s.openMarked r).regions[r.openRegion] = some e := he
    unfold State.draftBase
    rw [own]
    dsimp only
    rw [entry]
    rfl
  unfold State.opened
  split_ifs with h1 h2 h3
  · omega
  · rfl
  · omega
  · rfl
  · rw [State.geometry_eq hg, State.beginPainting_eq _ _ _ (by simp [Rect.nonempty]; omega)]
    unfold State.drawing
    dsimp only
    rw [base, State.geometry_eq (s := s.openMarked r) hg]
  · omega

end Opened

/-- The checks of a record under a geometry, in their order (R35). -/
theorem State.openChecks_eq {s : State} {r : Record} {g : Geometry} (hg : s.supply.geometry = some g) :
    firstFailing (s.openChecks r) =
      if (s.page r.slot).isOpen then some .inUse
      else match s.regions[r.openRegion] with
        | none => some .badField
        | some e =>
          if e.kind ≠ .page ∨ 2 < r.openOption then some .badField
          else if e.size * 4096 < g.width * g.height / 2 then some .tooSmall
          else if ∃ i : Fin 4, i ≠ r.slot ∧ (s.page i).region = some r.openRegion then some .bound
          else none := by
  unfold State.openChecks
  rw [State.geometry_eq hg]
  unfold Geometry.imageBytes Config.unitBytes
  cases s.regions[r.openRegion] with
  | none => simp [hg]
  | some e => simp [hg]

/-- Settles O36: an accepted record opens its slot as its start option says, and every other is refused in order. -/
theorem pageOpens : Obligations.PageOpens := by
  unfold Obligations.PageOpens
  refine ⟨fun s r g e h hg hl hclosed he hk hfits hfree ho => ?_, fun s r h => ?_⟩
  · have passes : firstFailing (s.openChecks r) = none := by
      rw [State.openChecks_eq hg, hclosed, he]
      simp only [Bool.false_eq_true, if_false]
      rw [if_neg (by simp [hk]; omega), if_neg (by omega), if_neg (fun ⟨i, hi, hb⟩ => hfree i hi hb)]
    have hx := exec_pageOpen h
    rw [State.checked_pass passes, Record.openCommand_defined ho] at hx
    have own : (s.opened r).page r.slot =
        if r.openOption = 1 then s.openedPage r else (s.openedPage r).mark s.tune.latencyLimit s.geometry.allTiles := by
      unfold State.page
      rw [State.opened_pages]
      simp
    refine ⟨_, hx, ?_, fun j hj => ?_, ?_, fun h0 => ?_, fun h0 => ?_⟩
    · rw [conclude_pages, conclude_composer, ← State.opened_frame]
      exact conclude_agrees ..
    · rw [conclude_page]
      unfold State.page
      rw [State.opened_pages]
      simp [Ne.symm (Fin.val_ne_of_ne hj)]
    · rw [conclude_page, own, State.geometry_eq hg]
      by_cases h1 : r.openOption = 1
      · rw [if_pos h1]
        exact ⟨rfl, rfl, rfl, rfl, rfl, rfl, rfl, rfl, State.openedPage_cursors s r, fun _ => ⟨rfl, rfl⟩,
          fun hn => absurd h1 hn⟩
      · rw [if_neg h1]
        exact ⟨rfl, rfl, rfl, rfl, rfl, rfl, rfl, rfl, State.openedPage_cursors s r, fun hy => absurd hy h1,
          fun _ => ⟨fun i j hi hj => State.openedPage_marked s r hl hi hj, State.openedPage_latency s r hl⟩⟩
    · rw [conclude_composer, State.opened_composer s r hg hl he ho, if_neg h0]
    · rw [conclude_composer, State.opened_composer s r hg hl he ho, if_pos h0]
  · intro c
    have hx : exec c s = _ := exec_pageOpen h
    refine ⟨fun hg => yields_refused hx (by simp [State.openChecks, hg]), fun g hg => ?_⟩
    have checks := State.openChecks_eq (r := r) hg
    refine ⟨fun ho => yields_refused hx (by simp [checks, ho]), fun hc => ⟨fun hbad => ?_, fun e he => ?_⟩⟩
    · refine yields_refused hx ?_
      rw [checks, hc]
      cases he : s.regions[r.openRegion] with
      | none => rfl
      | some e =>
        have hopt : 2 < r.openOption := hbad.resolve_left (by simp [he])
        simp [hopt]
    · refine ⟨fun hk => yields_refused hx (by simp [checks, hc, he, hk]),
        fun hk ho => ⟨fun hsmall => ?_, fun hfits hb => ?_⟩⟩
      · exact yields_refused hx (by simp [checks, hc, he, hk, hsmall, Nat.not_lt.2 ho])
      · exact yields_refused hx (by simp [checks, hc, he, hk, Nat.not_lt.2 hfits, Nat.not_lt.2 ho, hb])

end Sys2Proof.Machine
end

section
/-! SUPPORT. The statement about PAGE_COPY, with the notes it copies and the grants that copy the image. -/

namespace Sys2Proof.Machine

/-! ## Copied notes (R88, R89) -/

/-- A note created below the top of the creation counter joins the table with the counter's value (R88). -/
theorem State.createNote_eq {s : State} {n : Note} (h : s.noteCounter < 0xFFFFFFFF) :
    s.createNote n =
      { s with notes := s.notes ++ [{ n with sequence := s.noteCounter }], noteCounter := s.noteCounter + 1 } := by
  have same : s.renumberNotes = s := if_neg (Nat.ne_of_lt h)
  unfold State.createNote
  rw [same]

/-- Notes created one after another for a page slot take the values of the creation counter in turn. -/
theorem State.createNotes_eq (dest : Fin 4) (c : Nat) : ∀ (ns : List Note) (k : Nat) (s : State),
    s.noteCounter = c + k → s.noteCounter + ns.length ≤ 0xFFFFFFFF →
    ns.foldl (fun s n => s.createNote { n with slot := dest, pageId := (s.page dest).pageId }) s =
      { s with
        notes := s.notes ++ (ns.zipIdx k).map (fun n =>
          { n.1 with slot := dest, pageId := (s.page dest).pageId, sequence := c + n.2 })
        noteCounter := s.noteCounter + ns.length } := by
  intro ns
  induction ns with
  | nil => intro k s _ _; simp
  | cons n ns ih =>
    intro k s hc hl
    rw [List.length_cons] at hl ⊢
    rw [List.foldl_cons, State.createNote_eq (by omega), ih (k + 1) _ (by dsimp only; omega) (by dsimp only; omega),
      List.zipIdx_cons, List.map_cons, List.append_assoc, ← hc, Nat.add_right_comm, Nat.add_assoc]
    rfl

/-- The notes of one page slot copied to another, below the top of the creation counter (R89). -/
theorem State.copyNotes_eq {s : State} {source dest : Fin 4}
    (h : s.noteCounter + (s.notesOf source).length ≤ 0xFFFFFFFF) :
    s.copyNotes source dest =
      { s with
        notes := s.notes.filter (fun n => n.slot != dest) ++ (s.notesOf source).zipIdx.map (fun n =>
          { n.1 with slot := dest, pageId := (s.page dest).pageId, sequence := s.noteCounter + n.2 })
        noteCounter := s.noteCounter + (s.notesOf source).length } :=
  State.createNotes_eq dest s.noteCounter (s.notesOf source) 0 (s.dropNotes dest) rfl h

/-! ## PAGE_COPY (R45, R46) -/

/-- The destination with its log copied and every tile marked (R46). -/
def State.copiedPage (s : State) (r : Record) (g : Geometry) : PageSlot :=
  PageSlot.mark
    { s.page r.slot with log := (s.page r.copySource).log, logFull := (s.page r.copySource).logFull }
    s.tune.latencyLimit g.allTiles

/-- A live destination without dirty tiles starts its latency timer (R49). -/
theorem State.copiedPage_latency (s : State) (r : Record) {g : Geometry} (hl : g.legal) :
    (s.copiedPage r g).latency =
      if (s.page r.slot).live = true ∧ (s.page r.slot).dirty = 0 then some s.tune.latencyLimit
      else (s.page r.slot).latency := by
  unfold State.copiedPage
  rw [PageSlot.mark_eq _ _ hl.allTiles_ne_zero]

theorem State.copiedPage_marked (s : State) (r : Record) {g : Geometry} (hl : g.legal) {i j : Nat} (hi : i < 80)
    (hj : j < 64) :
    (s.copiedPage r g).marked (j * 80 + i) = true ↔
      (s.page r.slot).marked (j * 80 + i) = true ∨ (i < g.width / 32 ∧ j < g.height / 32) := by
  show ((s.page r.slot).dirty ||| g.allTiles).getLsbD (j * 80 + i) = true ↔ _
  rw [BitVec.getLsbD_or, Bool.or_eq_true, hl.allTiles_getLsbD hi hj]
  rfl

/-- The checks of a PAGE_COPY record, in their order (R45). -/
theorem State.copyChecks_eq (s : State) (r : Record) :
    firstFailing (s.copyChecks r) =
      if (s.page r.slot).isOpen = false ∨ (s.page r.copySource).isOpen = false then some .notOpen
      else if r.slot = r.copySource then some .badField
      else if 64 - s.notes.length + (s.notesOf r.slot).length < (s.notesOf r.copySource).length then some .notesFull
      else none := by
  unfold State.copyChecks Config.noteEntries
  simp

/-- Below the top of the creation counter the notes, the Word Log and the marks of an accepted PAGE_COPY change at
once. -/
theorem State.copied_eq {s : State} {r : Record} {g : Geometry} (hg : s.supply.geometry = some g)
    (hn : s.noteCounter + (s.notesOf r.copySource).length ≤ 0xFFFFFFFF) :
    ((s.copyNotes r.copySource r.slot).copyLog r.copySource r.slot).markTiles r.slot s.geometry.allTiles =
      { s with
        pages := s.pages.set r.slot (s.copiedPage r g)
        notes := s.notes.filter (fun n => n.slot != r.slot) ++ (s.notesOf r.copySource).zipIdx.map (fun n =>
          { n.1 with slot := r.slot, pageId := (s.page r.slot).pageId, sequence := s.noteCounter + n.2 })
        noteCounter := s.noteCounter + (s.notesOf r.copySource).length } := by
  rw [State.geometry_eq hg, State.copyNotes_eq hn]
  unfold State.copyLog State.markTiles
  rw [State.setPage_page, if_pos rfl, State.setPage_setPage]
  rfl

/-- An accepted PAGE_COPY goes on to copy the words of the image, of which there are some. -/
theorem exec_pageCopy {s : State} {r : Record} {g : Geometry} (h : s.executing r .pageCopy)
    (hg : s.supply.geometry = some g) (hl : g.legal) (hc : firstFailing (s.copyChecks r) = none) :
    exec .pageCopy s = proceed s
      { ((s.copyNotes r.copySource r.slot).copyLog r.copySource r.slot).markTiles r.slot s.geometry.allTiles with
        composer := .copying
          { dest := r.slot, sourceBase := s.draftBase r.copySource, destBase := s.draftBase r.slot, next := 0,
            total := g.width * g.height / 2 / 4, buffer := [] } } := by
  have pixels : 32 * 32 ≤ g.width * g.height := Nat.mul_le_mul hl.2.1 hl.2.2.2.2.1
  have total : s.geometry.imageBytes / 4 = g.width * g.height / 2 / 4 := by
    rw [State.geometry_eq hg]
    rfl
  have some_words : ¬ g.width * g.height / 2 / 4 = 0 := by omega
  show onRecord s _ _ = _
  rw [onRecord_eq h h.isKind, State.checked_pass hc]
  dsimp only
  rw [total, if_neg some_words]

/-! ## The grants of a copy (R46) -/

/-- A grant made to a Composer that copies. -/
theorem State.grantsTo.exec_copying {needs : Bool} {pick : Nat} {s : State} {c : Copying}
    (hg : s.grantsTo needs pick .composer) (hc : s.composer = .copying c) :
    exec (.downstreamGrant needs pick) s =
      proceed s (State.serveCopying { s with port := { (s.port) with turn := .commitEngine } } c) := by
  rw [hg.exec_eq]
  unfold State.serveEngine
  rw [hc]
  rfl

/-- Words of the source are read, up to eight in one grant. -/
theorem State.serveCopying_read (s : State) {c : Copying} (h : c.buffer = []) :
    s.serveCopying c =
      { s with composer := (.copying
          { c with buffer := s.mem.words (c.sourceBase + 4 * c.next) (min 8 (c.total - c.next)) }) } := by
  unfold State.serveCopying
  rw [h]
  rfl

/-- The words read are written to the destination, and the copy goes on until the image is copied. -/
theorem State.serveCopying_write (s : State) {c : Copying} (h : c.buffer ≠ []) :
    s.serveCopying c =
      { (State.markOffsets { s with mem := s.mem.setWords (c.destBase + 4 * c.next) c.buffer } c.dest
          ((List.range c.buffer.length).map (fun k => 4 * (c.next + k)))) with
        composer := (if c.next + c.buffer.length < c.total then
          .copying { c with next := c.next + c.buffer.length, buffer := [] } else .ended) } := by
  unfold State.serveCopying
  rw [if_neg (by simpa using h)]
  dsimp only
  split_ifs <;> rfl

/-- Settles O38: the refusals of PAGE_COPY, what it copies at once, and the grants that copy the image. -/
theorem pageCopied : Obligations.PageCopied := by
  unfold Obligations.PageCopied
  refine ⟨fun s r h => ?_, fun s r g h hg hl ho hs hne hroom hn => ?_, fun needs pick s c hgr hc => ?_⟩
  · have hx : exec .pageCopy s = _ := onRecord_eq h h.isKind
    have checks := s.copyChecks_eq r
    refine ⟨fun hclosed => ?_, fun ho hself => ?_, fun ho hs hne hfull => ?_⟩
    · exact yields_refused hx (by rw [checks, if_pos hclosed])
    · exact yields_refused hx (by rw [checks, ← hself]; simp [ho])
    · exact yields_refused hx (by simp [checks, ho, hs, hne, hfull])
  · have passes : firstFailing (s.copyChecks r) = none := by
      rw [s.copyChecks_eq r]
      simp [ho, hs, hne, hroom]
    have hx := exec_pageCopy h hg hl passes
    rw [State.copied_eq hg hn] at hx
    obtain ⟨t, ht, hleft⟩ : ∃ t, exec .pageCopy s = .next t ∧ t = conclude s _ := ⟨_, hx, rfl⟩
    have page : ∀ j, t.page j = if r.slot = j then s.copiedPage r g else s.page j := by
      intro j
      rw [hleft, conclude_page]
      exact State.setPage_page ..
    refine ⟨t, ht, ?_, by rw [hleft, conclude_notes], fun j hj => by rw [page, if_neg (Ne.symm hj)], ?_⟩
    · rw [hleft, conclude_pages, conclude_notes]
      exact conclude_agrees ..
    · rw [page, if_pos rfl]
      exact ⟨rfl, rfl, rfl, s.copiedPage_latency r hl, fun i j hi hj => s.copiedPage_marked r hl hi hj⟩
  · have hx := hgr.exec_copying hc
    refine ⟨fun hb => ?_, fun hb => ?_⟩
    · rw [State.serveCopying_read _ hb] at hx
      exact yields_of_proceed hx
    · rw [State.serveCopying_write _ hb] at hx
      exact written_and_marked hx

end Sys2Proof.Machine
end

section
/-! SUPPORT. The statements about the Commit Engine's decision on a request that waits, and about the diff. -/

namespace Sys2Proof.Machine

/-! ## Events and discards beside the change marks and the Doze Controller -/

/-- The state with other change marks and another Doze Controller. -/
def State.beside (s : State) (m : BitVec 18) (d : Doze) : State :=
  { s with reporter := { (s.reporter) with marks := m }, doze := d }

theorem State.agrees_iff_beside {t s : State} : t.agrees s ↔ ∃ m d, t = s.beside m d := State.agrees_iff

/-- An event is raised alike whatever the change marks and the Doze Controller are. -/
theorem State.raise_beside (s : State) (m : BitVec 18) (d : Doze) (e : Event) :
    (s.beside m d).raise e = (s.raise e).beside m d := by
  by_cases h : s.reporter.outstanding < Config.eventEntries
  · rw [State.raise_append h, State.raise_append (s := s.beside m d) h]
    rfl
  · rw [State.raise_drop h, State.raise_drop (s := s.beside m d) h]
    rfl

theorem State.raiseAll_beside (m : BitVec 18) (d : Doze) : ∀ (es : List Event) (s : State),
    (s.beside m d).raiseAll es = (s.raiseAll es).beside m d := by
  intro es
  induction es with
  | nil => intro s; rfl
  | cons e es ih =>
    intro s
    show ((s.beside m d).raise e).raiseAll es = ((s.raise e).raiseAll es).beside m d
    rw [State.raise_beside, ih]

/-- States that agree still agree after a discard. -/
theorem State.agrees.discarded {t s : State} (h : t.agrees s) (i : Fin 4) : (t.discarded i).agrees (s.discarded i) := by
  obtain ⟨m, d, rfl⟩ := State.agrees_iff_beside.1 h
  refine State.agrees_iff_beside.2 ⟨m, d, ?_⟩
  unfold State.discarded
  dsimp only
  rw [show (s.beside m d).commit = s.commit from rfl, State.raiseAll_beside]
  rfl

/-! ## The decision on a request (R115 to R119) -/

/-- A decision looks at no state of the engine. -/
theorem State.decideRequest_waiting (s : State) (x : EngineState) (c : Commit) (r : Request) :
    State.decideRequest { s with commit := { (s.commit) with state := x } } c r = s.decideRequest c r := by
  have ends : ∀ (t : State), State.endCommit { t with commit := { (t.commit) with state := x } } c = t.endCommit c := by
    intro t
    rw [State.endCommit_eq, State.endCommit_eq]
    rfl
  unfold State.decideRequest
  cases hm : mergePending s.commit.pending r with
  | some merged => exact ends { s with commit := { (s.commit) with pending := merged } }
  | none =>
    dsimp only
    split_ifs
    · exact ends (s.append r)
    · rfl

/-- PENDING_RETRY decides anew on the request that waits. -/
theorem exec_pendingRetry {s : State} {c : Commit} {q : Request} (h : s.commit.state = .waiting c q) :
    exec .pendingRetry s = proceed s (s.decideRequest c q) := by
  show execPendingRetry s = _
  unfold execPendingRetry
  rw [h]

/-- An appended request ends its commit with no discard waiting. -/
theorem State.append_endCommit_left {s : State} {c : Commit} {q : Request} (h : s.noDiscardWaits c) :
    ((s.append q).endCommit c).agrees
      { (s.leftBy c (s.commit.pending ++ [q])) with updates := { (s.updates) with due := true } } := by
  rw [State.endCommit_left (s := s.append q) h]
  exact State.append_left s c q

/-- An appended request of an auto-commit ends it with the discard that waits. -/
theorem State.append_endCommit_discard {s : State} {c : Commit} {q : Request} {i : Fin 4} (ho : c.origin = .auto i)
    (h : s.awaitsDiscard i) :
    ((s.append q).endCommit c).agrees
      (State.discarded
        { (s.leftBy c (s.commit.pending ++ [q])) with updates := { (s.updates) with due := true } } i) := by
  rw [State.endCommit_discard (s := s.append q) ho h]
  exact (State.append_left s c q).discarded i

/-- Settles O50: a waiting engine that decides anew merges, appends or goes on waiting. -/
theorem pendingRetried : Obligations.PendingRetried := by
  unfold Obligations.PendingRetried
  intro s c q hw
  have hx := exec_pendingRetry hw
  refine ⟨fun before p younger hm => ?_, fun hn => ?_⟩
  · rw [State.decideRequest_merge (mergePending_eq_some.2 ⟨before, p, younger, hm, rfl⟩)] at hx
    refine ⟨fun hd => ?_, fun i ho hd => ?_⟩
    · exact yields_of_proceed_eq hx (State.endCommit_left hd)
    · exact yields_of_proceed_eq hx (State.endCommit_discard ho hd)
  · have unmerged := mergePending_eq_none.2 hn
    refine ⟨fun hl hd => ?_, fun i hl ho hd => ?_, fun hl => ?_⟩
    · rw [State.decideRequest_append unmerged hl] at hx
      exact yields_of_agrees hx (State.append_endCommit_left hd)
    · rw [State.decideRequest_append unmerged hl] at hx
      exact yields_of_agrees hx (State.append_endCommit_discard ho hd)
    · rw [State.decideRequest_wait unmerged hl, ← hw] at hx
      exact yields_of_proceed hx

end Sys2Proof.Machine
end

section
/-! SUPPORT. The statement about the diff: its visits, the rows it compares and its end. -/

namespace Sys2Proof.Machine

/-! ## Rows of levels (R107, R108) -/

/-- The levels of words, left to right: eight of each. -/
theorem levelsOf_eq : ∀ ws : List Word,
    levelsOf ws = (List.range (8 * ws.length)).map (fun k => pixel (ws.getD (k / 8) 0) (k % 8)) := by
  intro ws
  induction ws with
  | nil => rfl
  | cons w ws ih =>
    have first : (List.range 8).map (pixel w) =
        (List.range 8).map (fun k => pixel ((w :: ws).getD (k / 8) 0) (k % 8)) := rfl
    have rest : ∀ k, pixel (ws.getD (k / 8) 0) (k % 8) =
        pixel ((w :: ws).getD ((8 + k) / 8) 0) ((8 + k) % 8) := by
      intro k
      rw [Nat.add_div_left k (by omega), Nat.add_mod_left, List.getD_cons_succ]
    have split : 8 * (w :: ws).length = 8 + 8 * ws.length := by rw [List.length_cons]; omega
    rw [split, List.range_add, List.map_append, List.map_map, ← first]
    show (List.range 8).map (pixel w) ++ levelsOf ws = _
    rw [ih]
    congr 1
    exact List.map_congr_left fun k _ => rest k

/-- Level `k` of a row of words in memory. -/
theorem pixel_memory_words (m : Memory) (a : Nat) {n k : Nat} (hk : k < 8 * n) :
    pixel ((m.words a n).getD (k / 8) 0) (k % 8) = pixel (m.word (a + 4 * (k / 8))) (k % 8) := by
  have hn : k / 8 < n := Nat.div_lt_of_lt_mul hk
  unfold Memory.words
  simp [List.getD_eq_getElem?_getD, hn]

section Rows

variable (row : List Word) (m : Memory) (a : Nat)

/-- Some pair of levels of two rows of four words has a property, just where some pixel of theirs has. -/
theorem any_zip_levelsOf (h : row.length = 4) (p : Nat × Nat → Bool) :
    ((levelsOf row).zip (levelsOf (m.words a 4))).any p = true ↔
      ∃ k, k < 32 ∧ p (pixel (row.getD (k / 8) 0) (k % 8), pixel (m.word (a + 4 * (k / 8))) (k % 8)) = true := by
  have words : (m.words a 4).length = 4 := by simp [Memory.words]
  rw [levelsOf_eq, levelsOf_eq, h, words, List.zip_map', List.any_map, List.any_eq_true]
  constructor
  · rintro ⟨k, hk, hp⟩
    have hk : k < 32 := List.mem_range.1 hk
    exact ⟨k, hk, by rwa [← pixel_memory_words m a (n := 4) hk]⟩
  · rintro ⟨k, hk, hp⟩
    exact ⟨k, List.mem_range.2 hk, by rwa [← pixel_memory_words m a (n := 4) hk] at hp⟩

/-- Some pixel of a row is changed (R108). -/
theorem rowChanged_iff (h : row.length = 4) :
    rowChanged (levelsOf row) (levelsOf (m.words a 4)) = true ↔
      ∃ k, k < 32 ∧ pixel (row.getD (k / 8) 0) (k % 8) ≠ pixel (m.word (a + 4 * (k / 8))) (k % 8) := by
  unfold rowChanged
  rw [any_zip_levelsOf row m a h]
  simp

/-- Some changed pixel of a row has a draft level from 1 to 14 (R108). -/
theorem rowGrey_iff (h : row.length = 4) :
    rowGrey (levelsOf row) (levelsOf (m.words a 4)) = true ↔
      ∃ k, k < 32 ∧ pixel (row.getD (k / 8) 0) (k % 8) ≠ pixel (m.word (a + 4 * (k / 8))) (k % 8) ∧
        1 ≤ pixel (row.getD (k / 8) 0) (k % 8) ∧ pixel (row.getD (k / 8) 0) (k % 8) ≤ 14 := by
  unfold rowGrey
  rw [any_zip_levelsOf row m a h]
  simp [and_assoc]

end Rows

/-! ## Visits (R41, R107, R108) -/

theorem Commit.page_of_slot {c : Commit} {i : Fin 4} (h : c.origin.slot = some i) : c.page = i := by
  unfold Commit.page; rw [h]; rfl

section Diffing

variable {s : State} {c : Commit} {d : Diff}

/-- DIFF_TILE_VISIT where the walk reaches a marked tile. -/
theorem exec_diffTileVisit (hs : s.commit.state = .diffing c d) (hv : d.visit = none) {n : Nat}
    (hn : s.nextMarked c.page d.next = some n) :
    exec .diffTileVisit s = proceed s
      { s with
        pages := s.pages.set c.page
          { s.page c.page with dirty := (s.page c.page).dirty &&& ~~~(1#5120 <<<
              (n / s.geometry.tileCols * 80 + n % s.geometry.tileCols)) }
        commit := { (s.commit) with state := (.diffing c
          { d with next := n, visit := (some
              { i := n % s.geometry.tileCols, j := n / s.geometry.tileCols, row := 0, draft := none,
                changed := false, grey := false }) }) } } := by
  show execDiffTileVisit s = _
  unfold execDiffTileVisit
  rw [hs]
  dsimp only
  rw [hv, hn]
  rfl

/-- DIFF_END of a diff in which no tile counted. -/
theorem exec_diffEnd_empty (hs : s.commit.state = .diffing c d) (hv : d.visit = none)
    (hn : s.nextMarked c.page d.next = none) (hb : d.bounds = none) :
    exec .diffEnd s = proceed s ((s.raise c.emptyEvent).endCommit c) := by
  show execDiffEnd s = _
  unfold execDiffEnd
  rw [hs]
  dsimp only
  rw [hv, hn, hb]

/-- DIFF_END of a diff that makes a request. -/
theorem exec_diffEnd_request (hs : s.commit.state = .diffing c d) (hv : d.visit = none)
    (hn : s.nextMarked c.page d.next = none) {rect : Rect} (hb : d.bounds = some rect) :
    exec .diffEnd s = proceed s (s.decideRequest c
      { source := some c.page, rect := rect, mode := c.resolveMode d.grey, commits := [c.number], repair := false }) := by
  show execDiffEnd s = _
  unfold execDiffEnd
  rw [hs]
  dsimp only
  rw [hv, hn, hb]

/-- A grant of the diff reads the draft row first, and keeps it. -/
theorem State.serveDiff_draft {v : Visit} {i : Fin 4} (hs : s.commit.state = .diffing c d) (hv : d.visit = some v)
    (hi : c.origin.slot = some i) (hd : v.draft = none) :
    s.serveDiff = { s with commit := { (s.commit) with state := (.diffing c
      { d with visit := (some { v with draft := (some (s.mem.words
          (s.draftBase i + ((32 * v.j + v.row) * (s.geometry.width / 2) + 16 * v.i)) 4)) }) }) } } := by
  unfold State.serveDiff Visit.access
  rw [hs]
  dsimp only
  rw [hv]
  dsimp only
  rw [hd, Commit.page_of_slot hi]
  rfl

/-- The next grant reads the Panel Image row and compares the two; after the last row the visit ends. -/
theorem State.serveDiff_panel {v : Visit} {row : List Word} (hs : s.commit.state = .diffing c d)
    (hv : d.visit = some v) (hd : v.draft = some row) :
    s.serveDiff =
      let read := levelsOf (s.mem.words
        (s.panelBase + ((32 * v.j + v.row) * (s.geometry.width / 2) + 16 * v.i)) 4)
      let seen : Visit := { v with
        row := v.row + 1, draft := none
        changed := v.changed || rowChanged (levelsOf row) read
        grey := v.grey || rowGrey (levelsOf row) read }
      { s with commit := { (s.commit) with state := (.diffing c
        (if v.row + 1 < 32 then { d with visit := some seen } else d.endVisit c seen)) } } := by
  unfold State.serveDiff Visit.access
  rw [hs]
  dsimp only
  rw [hv]
  dsimp only
  rw [hd]
  rfl

/-- The grant made to a Commit Engine that diffs. -/
theorem State.grantsTo.exec_diff {needs : Bool} {pick : Nat} (hg : s.grantsTo needs pick .commitEngine) :
    exec (.downstreamGrant needs pick) s =
      proceed s (State.serveDiff { s with port := { (s.port) with turn := .slotLoader } }) :=
  hg.exec_eq

/-- The end of a visit, with the tile counted or not (R108). -/
theorem Diff.endVisit_eq (d : Diff) (c : Commit) (v : Visit) :
    d.endVisit c v =
      { next := d.next + 1
        bounds := if v.changed = true ∨ c.mode = some .clean then addTile d.bounds v.i v.j else d.bounds
        grey := d.grey || (c.mode.isNone && v.grey), visit := none } := by
  unfold Diff.endVisit Commit.seeksGrey
  simp only [Bool.or_eq_true, decide_eq_true_eq]

/-! ## The end of a diff (R110, R118) -/

/-- A raised event keeps no discard from waiting, nor makes one wait. -/
theorem State.raise_awaitsDiscard (s : State) (e : Event) (i : Fin 4) :
    (s.raise e).awaitsDiscard i ↔ s.awaitsDiscard i := by
  unfold State.awaitsDiscard State.executing State.page
  rw [State.raise_pages, State.raise_composer, State.raise_queue]

/-- The COMMIT_EMPTY of a commit of a page (R118). -/
theorem Commit.emptyEvent_eq {i : Fin 4} (h : c.origin.slot = some i) :
    c.emptyEvent = match c.origin with
      | .pageCommit _ tag => .commitEmpty tag false i c.number
      | _ => .commitEmpty 0 true i c.number := by
  unfold Commit.emptyEvent
  cases ho : c.origin with
  | pageCommit j tag => rw [ho] at h; cases h; rfl
  | auto j => rw [ho] at h; cases h; rfl
  | refresh => rw [ho] at h; cases h

/-- What a request that waits comes to is what the same request comes to at the end of its diff. -/
theorem yields_of_pendingRetry {ins : Instr} {q : Request} {want : State}
    (hx : exec ins s = proceed s (s.decideRequest c q))
    (h : Yields .pendingRetry { s with commit := { (s.commit) with state := .waiting c q } } want) :
    Yields ins s want := by
  obtain ⟨t, ht, hwant⟩ := h
  rw [exec_pendingRetry rfl, State.decideRequest_waiting] at ht
  cases ht
  exact yields_of_agrees hx (State.agrees_trans (State.agrees_symm (conclude_agrees ..)) hwant)

end Diffing

/-- Settles O49: the walk of a diff, the grants of its visits, and its end. -/
theorem diffVisitsAndEnds : Obligations.DiffVisitsAndEnds := by
  unfold Obligations.DiffVisitsAndEnds
  refine ⟨fun s c d i hs hv hi => ?_, fun needs pick s c d v i hg hs hv hi => ?_⟩
  · have hp := Commit.page_of_slot hi
    refine ⟨fun n hn => ?_, fun hn hb => ?_, fun hn rect hb => ?_⟩
    · rw [← hp] at hn ⊢
      exact yields_of_proceed (exec_diffTileVisit hs hv hn)
    · rw [← hp] at hn
      have hx := exec_diffEnd_empty hs hv hn hb
      rw [Commit.emptyEvent_eq hi] at hx
      intro empty
      have left : (s.raise empty).commit.pending = s.commit.pending := by rw [State.raise_commit]
      rw [← left]
      refine ⟨fun hd => yields_of_proceed_eq hx (State.endCommit_left fun j hj hw => ?_),
        fun ho hd => yields_of_proceed_eq hx (State.endCommit_discard ho ?_)⟩
      · exact hd j hj ((State.raise_awaitsDiscard s _ j).1 hw)
      · exact (State.raise_awaitsDiscard s _ i).2 hd
    · rw [← hp] at hn
      have hx := exec_diffEnd_request hs hv hn hb
      rw [hp] at hx
      intro q
      have hx : exec .diffEnd s = proceed s (s.decideRequest c q) := hx
      refine ⟨fun hempty hd => ?_, ⟨_, hx⟩, fun want => yields_of_pendingRetry hx⟩
      have unmerged : mergePending s.commit.pending q = none := by rw [hempty]; rfl
      have appended := State.append_endCommit_left (q := q) hd
      rw [State.decideRequest_append unmerged (by rw [hempty]; decide)] at hx
      rw [hempty] at appended
      exact yields_of_agrees hx appended
  · intro o holding tile
    have hx := hg.exec_diff
    refine ⟨fun hd => ?_, fun row changed grey hd hrow => ?_⟩
    · exact yields_of_proceed_eq hx (State.serveDiff_draft hs hv hi hd)
    · intro new old hchanged hgrey
      have changes :
          (v.changed || rowChanged (levelsOf row) (levelsOf (s.mem.words (s.panelBase + o) 4))) = changed := by
        rw [Bool.eq_iff_iff, Bool.or_eq_true, rowChanged_iff row s.mem _ hrow]
        exact hchanged.symm
      have greys : (v.grey || rowGrey (levelsOf row) (levelsOf (s.mem.words (s.panelBase + o) 4))) = grey := by
        rw [Bool.eq_iff_iff, Bool.or_eq_true, rowGrey_iff row s.mem _ hrow]
        exact hgrey.symm
      have compared : Yields (.downstreamGrant needs pick) s
          { holding (if v.row + 1 < 32 then
              { d with visit := some { v with row := v.row + 1, draft := none, changed := changed, grey := grey } }
            else d.endVisit c { v with row := v.row + 1, draft := none, changed := changed, grey := grey }) with
            port := { (s.port) with turn := .slotLoader } } := by
        rw [← changes, ← greys]
        exact yields_of_proceed_eq hx (State.serveDiff_panel hs hv hd)
      refine ⟨fun hmore => ?_, fun hlast => ?_⟩
      · rwa [if_pos hmore] at compared
      · rwa [if_neg (Nat.not_lt.2 hlast), Diff.endVisit_eq] at compared

end Sys2Proof.Machine
end

section
/-! SUPPORT. The statements about fonts and the Glyph Cache: host writes into the watched words, FONT_BIND, and the bad
verdict. -/

namespace Sys2Proof.Machine

/-! ## The bad verdict (R57) -/

theorem Glyph.bitmapBytes_eq (g : Glyph) : g.bitmapBytes = g.height * ((g.width + 1) / 2) := rfl

/-- A glyph without a pixel has no bitmap bytes. -/
theorem Glyph.bitmapBytes_blank {g : Glyph} (h : g.width = 0 ∨ g.height = 0) : g.bitmapBytes = 0 := by
  rw [Glyph.bitmapBytes_eq]
  rcases h with h | h <;> simp [h]

theorem Glyph.isBad_iff (g : Glyph) (size : Nat) :
    g.isBad size = true ↔ 0 < g.bitmapBytes ∧ size * 4096 < g.bitmap + g.bitmapBytes :=
  decide_eq_true_iff

/-- Settles O34: the verdict is its definition, and a glyph without bitmap bytes never meets it. -/
theorem badGlyph : Obligations.BadGlyph := by
  unfold Obligations.BadGlyph
  refine fun g size => ⟨g.isBad_iff size, fun h => ?_⟩
  have noBytes : ¬ 0 < g.bitmapBytes := by rw [Glyph.bitmapBytes_blank h]; exact Nat.lt_irrefl 0
  exact Bool.eq_false_iff.2 fun hbad => noBytes ((g.isBad_iff size).1 hbad).1

/-! ## FONT_BIND (R53, R54, R64) -/

/-- The state with a font slot's binding replaced, its cached entries invalidated and the record's execution ended. -/
def State.rebound (s : State) (f : Fin 8) (b : Option Font) : State :=
  { s with fonts := s.fonts.set f b, cache := cacheDropFont s.cache f, composer := .ended }

theorem exec_fontUnbind {s : State} {r : Record} (h : s.executing r .fontBind) (hu : r.fontUnbind = true) :
    exec .fontUnbind s = proceed s (s.rebound r.fontSlot none) :=
  onRecord_eq h (by simp [h.isKind, hu])

theorem exec_fontBind {s : State} {r : Record} (h : s.executing r .fontBind) (hu : r.fontUnbind = false) :
    exec .fontBind s = proceed s (s.checked r (s.fontChecks r) (s.rebound r.fontSlot (some r.fontFields))) :=
  onRecord_eq h (by simp [h.isKind, hu])

/-- A binding to an empty entry is refused at once (R53). -/
theorem State.fontChecks_empty {s : State} {r : Record} (h : s.regions[r.fontFields.region] = none) :
    firstFailing (s.fontChecks r) = some .badField := by
  unfold State.fontChecks
  dsimp only
  rw [h]
  rfl

/-- A binding to a FONT region, with its table in place and its special codes apart, is refused only where the table does
not fit (R53). -/
theorem State.fontChecks_font {s : State} {r : Record} {g : Region} (h : s.regions[r.fontFields.region] = some g)
    (hk : g.kind = .font) (ho : r.fontFields.tableOffset % 8 = 0) (hc : r.fontFields.codesClash = false) :
    firstFailing (s.fontChecks r) =
      if g.size * 4096 < r.fontFields.tableOffset + 8 * r.fontFields.count then some .tooSmall else none := by
  unfold State.fontChecks
  dsimp only
  rw [h]
  simp only [hk, ho, hc, firstFailing_cons, firstFailing_nil, Bool.or_false, ne_eq, not_true_eq_false, decide_false,
    Bool.false_eq_true, if_false]
  exact if_congr decide_eq_true_iff rfl rfl

/-- Settles O33: FONT_BIND refuses by its checks in their order, and otherwise rebinds the slot. -/
theorem fontBinding : Obligations.FontBinding := by
  unfold Obligations.FontBinding
  refine fun s r h => ⟨fun hu => yields_of_proceed (exec_fontUnbind h hu), fun hu => ?_⟩
  have hx := exec_fontBind h hu
  refine ⟨fun hnone => yields_refused hx (State.fontChecks_empty hnone), fun g hg hk ho hc => ?_⟩
  have checks := State.fontChecks_font hg hk ho hc
  refine ⟨fun hbig => ?_, fun hfits => ?_⟩
  · exact yields_refused hx (by rw [checks, if_pos hbig])
  · exact yields_carryOut hx (by rw [checks, if_neg (Nat.not_lt.2 hfits)])

/-! ## Host writes into fonts and the two host-written words (R63, R64, R154 to R156) -/

theorem conclude_cache (before after : State) : (conclude before after).cache = after.cache := by rw [conclude_eq]

/-- The change marks of a command stand in the answer beside those that were set before (R152). -/
theorem conclude_keeps_mark (before : State) {after : State} {k : Nat} (h : after.reporter.marks.getLsbD k = true) :
    (conclude before after).reporter.marks.getLsbD k = true := by
  rw [conclude_eq]
  exact (BitVec.getLsbD_or ..).trans (by rw [h, Bool.true_or])

/-- An entry stays in the cache after a write into a FONT region exactly where its font slot is not bound to it (R63). -/
theorem State.mem_invalidateRegion (s : State) (e : Fin 8) (x : CacheEntry) :
    x ∈ (s.invalidateRegion e).cache ↔ x ∈ s.cache ∧ ∀ b, s.font x.font = some b → b.region ≠ e := by
  unfold State.invalidateRegion
  rw [List.mem_filter]
  refine and_congr_right fun _ => ?_
  cases s.font x.font with
  | none => simp
  | some b => simp

/-- A Consumed Count that differs from the word as memory holds it has that word marked (R154). -/
theorem State.consumedWritten_marks {s : State} (h : s.consumedWritten.reporter.consumed.setWidth 32 ≠
    s.mem.word (s.reportBase + 4)) : s.consumedWritten.reporter.marks.getLsbD 1 = true := by
  have marks : s.consumedWritten.reporter.marks = s.reporter.marks ||| statusMark 1 := if_neg h
  rw [marks, BitVec.getLsbD_or, Bool.or_eq_true]
  exact .inr rfl

/-- Settles O21: each of the three rows lands its write and tells its block. -/
theorem watchedWritesLand : Obligations.WatchedWritesLand := by
  unfold Obligations.WatchedWritesLand
  refine ⟨fun s w e hw hg => ?_, fun s w hw hg => ?_, fun s w hw hg => ?_⟩
  · have hx : exec .fontRegionWrite s =
        proceed s (State.invalidateRegion { s with mem := w.into s.mem, relay := .idle } e) := exec_handoffCommand hw hg
    refine ⟨_, hx, ?_, ?_, fun x => ?_⟩
    · rw [conclude_cache]
      exact conclude_agrees ..
    · rw [conclude_cache]
      exact List.filter_sublist
    · rw [conclude_cache, State.mem_invalidateRegion]
      rfl
  · have hx : exec .consumedCountWrite s =
        proceed s (State.consumedWritten { s with mem := w.into s.mem, relay := .idle }) := exec_handoffCommand hw hg
    refine ⟨_, hx, State.agrees_trans (conclude_agrees ..) rfl,
      fun hc => conclude_keeps_mark s (State.consumedWritten_marks hc)⟩
  · refine yields_of_proceed_eq (exec_handoffCommand hw hg) ?_
    show State.faultClearWritten { s with mem := w.into s.mem, relay := .idle } = _
    unfold State.faultClearWritten
    dsimp only
    rw [show State.reportAddr { s with mem := w.into s.mem, relay := .idle } 2 = s.reportBase + 8 from rfl]
    split_ifs <;> rfl

end Sys2Proof.Machine
end

section
/-! SUPPORT. The Layout Engine between its grants: what each act of a run does, what a run leaves unchanged, and the end of
a run whose codes have all been read (R69 to R86). -/

namespace Sys2Proof.Machine

/-! ## What a run may change -/

/-- The state with an event raised, or as it was. -/
def State.told (s : State) : Option Event → State
  | some e => s.raise e
  | none => s

/-- An event raised changes the Reporter alone, and alike in states that agree in what it reads. -/
theorem State.raise_eq {s t : State} (hr : t.reporter = s.reporter) (ht : t.tune = s.tune) (hw : t.time = s.time)
    (e : Event) : t.raise e = { t with reporter := (s.raise e).reporter } := by
  rw [← State.raise_reporter hr ht hw]
  exact State.raiseAll_eq [e] t

theorem State.told_eq {s t : State} (hr : t.reporter = s.reporter) (ht : t.tune = s.tune) (hw : t.time = s.time)
    (event : Option Event) : t.told event = { t with reporter := (s.told event).reporter } := by
  cases event with
  | none => exact hr ▸ rfl
  | some e => exact State.raise_eq hr ht hw e

theorem State.told_pages (s : State) (event : Option Event) : (s.told event).pages = s.pages := by
  rw [State.told_eq (s := s) rfl rfl rfl]

theorem State.told_page (s : State) (event : Option Event) (i : Fin 4) : (s.told event).page i = s.page i := by
  unfold State.page; rw [State.told_pages]

/-- The state with other pages, another Glyph Cache and another Composer. -/
def State.withText (s : State) (pages : Vector PageSlot 4) (cache : List CacheEntry) (composer : Composer) : State :=
  { s with pages := pages, cache := cache, composer := composer }

/-- An event is raised alike whatever the pages, the Glyph Cache and the Composer are. -/
theorem State.told_withText (s : State) (event : Option Event) (pages : Vector PageSlot 4) (cache : List CacheEntry)
    (composer : Composer) :
    (s.withText pages cache composer).told event = (s.told event).withText pages cache composer := by
  cases event with
  | none => rfl
  | some e =>
    show (s.withText pages cache composer).raise e = (s.raise e).withText pages cache composer
    by_cases h : s.reporter.outstanding < Config.eventEntries
    · rw [State.raise_append h, State.raise_append (s := s.withText pages cache composer) h]
      rfl
    · rw [State.raise_drop h, State.raise_drop (s := s.withText pages cache composer) h]
      rfl

/-- A state that differs by an event raised or none, and otherwise in its pages, the Glyph Cache and the Composer alone. -/
def State.writesText (s : State) (event : Option Event) (t : State) : Prop :=
  ∃ pages cache composer, t = (s.told event).withText pages cache composer

theorem State.writesText_told (s : State) (event : Option Event) : s.writesText event (s.told event) := ⟨_, _, _, rfl⟩

theorem State.writesText.trans_event {s x t : State} {event : Option Event} (h : s.writesText none x)
    (h' : x.writesText event t) : s.writesText event t := by
  obtain ⟨pages, cache, composer, rfl⟩ := h
  obtain ⟨pages', cache', composer', rfl⟩ := h'
  exact ⟨pages', cache', composer', by rw [State.told_withText]; rfl⟩

theorem State.writesText.trans_quiet {s x t : State} {event : Option Event} (h : s.writesText event x)
    (h' : x.writesText none t) : s.writesText event t := by
  obtain ⟨pages, cache, composer, rfl⟩ := h
  obtain ⟨pages', cache', composer', rfl⟩ := h'
  exact ⟨pages', cache', composer', rfl⟩

/-- A run's command that proceeds to a state so written leaves its cursor and its event. -/
theorem State.runLeaves_of {s x : State} {r : Record} {k : Cursor} {event : Option Event}
    (hx : exec r.runCommand s = proceed s x) (hk : x.cursor r.slot r.runColumn = k) (ht : s.writesText event x) :
    s.runLeaves r k event (conclude s x) := by
  refine ⟨hx, ?_, ?_⟩
  · rw [← hk]
    unfold State.cursor
    rw [conclude_page]
  · rw [conclude_pages, conclude_cache, conclude_composer]
    obtain ⟨pages, cache, composer, rfl⟩ := ht
    cases event <;> exact conclude_agrees ..

/-- From one state to another a run of a page slot and column has changed at most its cursor and its Word Log, the Glyph
Cache, the Reporter and the Composer, and the Word Log has only grown. -/
structure State.RunsTo (s : State) (i k : Fin 4) (t : State) : Prop where
  beside : t = { s with pages := t.pages, cache := t.cache, reporter := t.reporter, composer := t.composer }
  others : ∀ j, j ≠ i → t.page j = s.page j
  own : { t.page i with cursors := (s.page i).cursors, log := (s.page i).log, logFull := (s.page i).logFull } = s.page i
  cursors : ∀ j : Fin 4, j ≠ k → (t.page i).cursors[j] = (s.page i).cursors[j]
  log : (s.page i).log <+: (t.page i).log

section Frame

variable {s t u : State} {i k : Fin 4}

/-- A change of the Glyph Cache, the Reporter and the Composer alone. -/
theorem State.RunsTo.of_pages (hp : t.pages = s.pages)
    (hb : t = { s with pages := t.pages, cache := t.cache, reporter := t.reporter, composer := t.composer }) :
    s.RunsTo i k t := by
  have page : ∀ j, t.page j = s.page j := fun j => by unfold State.page; rw [hp]
  exact ⟨hb, fun j _ => page j, by rw [page], fun j _ => by rw [page], by rw [page]⟩

theorem State.RunsTo.refl (s : State) (i k : Fin 4) : s.RunsTo i k s := .of_pages rfl rfl

theorem State.RunsTo.trans (h : s.RunsTo i k t) (h' : t.RunsTo i k u) : s.RunsTo i k u where
  beside := by
    have hu := h'.beside
    rw [h.beside] at hu
    exact hu
  others j hj := (h'.others j hj).trans (h.others j hj)
  own := by
    have ht := h.own
    rw [← h'.own] at ht
    exact ht
  cursors j hj := (h'.cursors j hj).trans (h.cursors j hj)
  log := h.log.trans h'.log

theorem State.RunsTo.raise (s : State) (i k : Fin 4) (e : Event) : s.RunsTo i k (s.raise e) :=
  .of_pages (by simp) (by rw [State.raise_eq (s := s) rfl rfl rfl])

theorem State.RunsTo.setCursor (s : State) (i k : Fin 4) (x : Cursor) : s.RunsTo i k (s.setCursor i k x) where
  beside := rfl
  others j hj := by unfold State.setCursor; rw [State.setPage_page, if_neg (Ne.symm hj)]
  own := by rw [State.setCursor_page]
  cursors j hj := by
    rw [State.setCursor_page]
    have hne : k.val ≠ j.val := fun h => hj (Fin.ext h.symm)
    simp [hne]
  log := by rw [State.setCursor_page]

/-- A page slot replaced by itself with its Word Log grown or its full flag set. -/
theorem State.RunsTo.setLog (s : State) (i k : Fin 4) (more : List LogEntry) (full : Bool) :
    s.RunsTo i k (s.setPage i { s.page i with log := (s.page i).log ++ more, logFull := full }) where
  beside := rfl
  others j hj := by rw [State.setPage_page, if_neg (Ne.symm hj)]
  own := by rw [State.setPage_page, if_pos rfl]
  cursors j _ := by rw [State.setPage_page, if_pos rfl]
  log := by rw [State.setPage_page, if_pos rfl]; exact List.prefix_append ..

theorem State.RunsTo.appendLog (s : State) (r : Run) (k : Fin 4) (e : LogEntry) :
    s.RunsTo r.slot k (s.appendLog r e) := by
  unfold State.appendLog
  dsimp only
  split
  · exact .setLog s r.slot k [e] _
  · split
    · exact .refl ..
    · have full := State.RunsTo.setLog s r.slot k [] true
      rw [List.append_nil] at full
      exact full.trans (.raise ..)

end Frame

/-- The end of a word changes no field of its run but the codes, the buffer, the acts and the glyphs to be drawn. -/
theorem State.endWord_run (s : State) (r : Run) :
    (s.endWord r).2 =
      { r with
        codes := (s.endWord r).2.codes, buffer := (s.endWord r).2.buffer, acts := (s.endWord r).2.acts
        blits := (s.endWord r).2.blits } := by
  unfold State.endWord
  split
  · rfl
  · dsimp only
    split <;> rfl

theorem State.forceBreak_run (s : State) (r : Run) :
    (s.forceBreak r).2 =
      { r with
        codes := (s.forceBreak r).2.codes, buffer := (s.forceBreak r).2.buffer
        acts := (s.forceBreak r).2.acts } := by
  unfold State.forceBreak
  dsimp only
  split <;> rfl

theorem State.RunsTo.endWord (s : State) (r : Run) : s.RunsTo r.slot r.column (s.endWord r).1 := by
  have logged : ∀ (xs : List (List SetGlyph × Nat)) (t : State), t.RunsTo r.slot r.column
      (xs.foldl (fun s x => s.appendLog r (logEntryOf r x.1 x.2)) t) := by
    intro xs
    induction xs with
    | nil => exact fun t => .refl ..
    | cons x xs ih => exact fun t => (State.RunsTo.appendLog ..).trans (ih _)
  unfold State.endWord
  split
  · exact .refl ..
  · dsimp only
    split
    · exact ((State.RunsTo.setCursor ..).trans (logged ..)).trans (.raise ..)
    · exact (State.RunsTo.setCursor ..).trans (logged ..)

theorem State.RunsTo.forceBreak (s : State) (r : Run) : s.RunsTo r.slot r.column (s.forceBreak r).1 := by
  unfold State.forceBreak
  dsimp only
  split
  · exact (State.RunsTo.setCursor ..).trans (.raise ..)
  · exact .setCursor ..

/-- What reading a code may come to: the Glyph Cache alone is changed, and the run keeps its page slot and column. -/
def State.looksUp (s : State) (r : Run) (p : State × Run) : Prop :=
  (∃ cache, p.1 = { s with cache := cache }) ∧ p.2.slot = r.slot ∧ p.2.column = r.column

theorem Run.resolveZero_aim (r : Run) (b : Font) (l : Lookup) (own : Nat) (g : Glyph) (bad : Bool) :
    (r.resolveZero b l own g bad).slot = r.slot ∧ (r.resolveZero b l own g bad).column = r.column := by
  unfold Run.resolveZero
  split
  · exact ⟨rfl, rfl⟩
  · split <;> exact ⟨rfl, rfl⟩

theorem State.looksUp_searchZero (s : State) (r : Run) (b : Font) (l : Lookup) (own : Nat) :
    s.looksUp r (s.searchZero r b l own) := by
  unfold State.searchZero
  split
  · exact ⟨⟨_, rfl⟩, Run.resolveZero_aim ..⟩
  · exact ⟨⟨s.cache, rfl⟩, rfl, rfl⟩

theorem State.looksUp_resolveOwn (s : State) (r : Run) (b : Font) (l : Lookup) (g : Glyph) (bad : Bool) :
    s.looksUp r (s.resolveOwn r b l g bad) := by
  unfold State.resolveOwn
  split
  · exact ⟨⟨s.cache, rfl⟩, rfl, rfl⟩
  · split
    · exact ⟨⟨s.cache, rfl⟩, rfl, rfl⟩
    · split
      · exact ⟨⟨s.cache, rfl⟩, rfl, rfl⟩
      · exact State.looksUp_searchZero ..

theorem State.looksUp_beginLookup (s : State) (r : Run) (b : Font) (l : Lookup) : s.looksUp r (s.beginLookup r b l) := by
  unfold State.beginLookup
  split
  · split
    · obtain ⟨⟨cache, hcache⟩, haim⟩ := State.looksUp_resolveOwn { s with cache := cacheTouch s.cache _ } r b l _ _
      exact ⟨⟨cache, hcache⟩, haim⟩
    · exact ⟨⟨s.cache, rfl⟩, rfl, rfl⟩
  · exact State.looksUp_searchZero ..

theorem State.looksUp_readCode (s : State) (r : Run) (code : BitVec 16) (rest : List (BitVec 16)) :
    s.looksUp r (s.readCode r code rest) := by
  unfold State.readCode
  dsimp only
  split
  · exact ⟨⟨s.cache, rfl⟩, rfl, rfl⟩
  · split
    · exact ⟨⟨s.cache, rfl⟩, rfl, rfl⟩
    · obtain ⟨hs, haim⟩ := State.looksUp_beginLookup s { r with codes := rest, index := r.index + 1 } _ _
      exact ⟨hs, haim⟩

theorem State.RunsTo.readCode (s : State) (r : Run) (code : BitVec 16) (rest : List (BitVec 16)) :
    s.RunsTo r.slot r.column (s.readCode r code rest).1 := by
  obtain ⟨⟨cache, hs⟩, _⟩ := State.looksUp_readCode s r code rest
  rw [hs]
  exact .of_pages rfl rfl

/-- GLYPHS_MISSING as the end of a run raises it, if any lookup was substituted or left out (R85). -/
def Run.missing (r : Run) : Option Event :=
  if 0 < r.substituted + r.leftOut then
    some (.glyphsMissing r.tag r.runId r.slot (r.firstBad.getD 0) r.substituted r.leftOut)
  else none

theorem State.finishRun_eq (s : State) (r : Run) : s.finishRun r = (s.told r.missing).ended := by
  unfold State.finishRun Run.missing
  split <;> rfl

theorem State.RunsTo.finishRun (s : State) (r : Run) : s.RunsTo r.slot r.column (s.finishRun r) := by
  unfold State.finishRun
  split
  · exact (State.RunsTo.raise ..).trans (.of_pages rfl rfl)
  · exact .of_pages rfl rfl

/-- What every act of a run keeps holds of the run as it goes on; what follows from it where the run waits or ends holds
of the state it leaves. -/
theorem State.runOn_induction {P : State → Run → Prop} {Q : State → Prop}
    (waits : ∀ s r, P s r → Q (s.keepRun r)) (finish : ∀ s r, P s r → Q (s.finishRun r))
    (act : ∀ s r buffer acts, P s r → P s { r with buffer := buffer, acts := acts })
    (word : ∀ s r, P s r → P (s.endWord r).1 (s.endWord r).2)
    (space : ∀ s r advance, P s r → P (s.addSpace r advance) r)
    (newline : ∀ s r, P s r → P (s.forceBreak r).1 (s.forceBreak r).2)
    (read : ∀ s r code rest, r.codes = code :: rest → P s r → P (s.readCode r code rest).1 (s.readCode r code rest).2) :
    ∀ n s r, P s r → Q (State.runOn n s r) := by
  intro n
  induction n with
  | zero => exact waits
  | succ n ih =>
    intro s r h
    unfold State.runOn
    split
    · exact waits s r h
    · split
      · exact finish s r h
      · exact ih _ _ (act s r _ _ h)
      · exact ih _ _ (word _ _ (act s r r.buffer _ h))
      · exact ih _ _ (act _ _ r.buffer _ (space s r _ h))
      · exact ih _ _ (newline _ _ (act s r r.buffer _ h))
      · split
        · exact ih _ _ (read s r _ _ ‹_› h)
        · exact ih _ _ (act s r r.buffer _ h)

/-- A run that goes on without a grant keeps to what it may change, and is then running or ended. -/
theorem State.runOn_runsTo (n : Nat) (s : State) (r : Run) :
    s.RunsTo r.slot r.column (State.runOn n s r) ∧
      ((State.runOn n s r).composer = .ended ∨ ∃ run, (State.runOn n s r).composer = .running run) := by
  have step : ∀ {t u : State} {run run' : Run},
      s.RunsTo r.slot r.column t ∧ run.slot = r.slot ∧ run.column = r.column → t.RunsTo run.slot run.column u →
      run'.slot = run.slot → run'.column = run.column →
      s.RunsTo r.slot r.column u ∧ run'.slot = r.slot ∧ run'.column = r.column := by
    rintro t u run run' ⟨h, hslot, hcolumn⟩ hu hs hc
    rw [hslot, hcolumn] at hu
    exact ⟨h.trans hu, hs.trans hslot, hc.trans hcolumn⟩
  refine State.runOn_induction
    (P := fun t run => s.RunsTo r.slot r.column t ∧ run.slot = r.slot ∧ run.column = r.column)
    (Q := fun t => s.RunsTo r.slot r.column t ∧ (t.composer = .ended ∨ ∃ run, t.composer = .running run))
    (fun t run h => ⟨(step h (u := t.keepRun run) (run' := run) (.of_pages rfl rfl) rfl rfl).1, .inr ⟨run, rfl⟩⟩)
    (fun t run h => ⟨(step h (run' := run) (.finishRun ..) rfl rfl).1, .inl (by rw [State.finishRun_eq]; rfl)⟩)
    (fun t run _ _ h => h)
    (fun t run h => step h (.endWord ..) (by rw [State.endWord_run]) (by rw [State.endWord_run]))
    (fun t run _ h => step h (.setCursor ..) rfl rfl)
    (fun t run h => step h (.forceBreak ..) (by rw [State.forceBreak_run]) (by rw [State.forceBreak_run]))
    (fun t run code rest _ h => ?_) n s r ⟨.refl .., rfl, rfl⟩
  obtain ⟨_, hslot, hcolumn⟩ := State.looksUp_readCode t run code rest
  exact step h (.readCode ..) hslot hcolumn

theorem State.appendLog_cache (s : State) (r : Run) (e : LogEntry) : (s.appendLog r e).cache = s.cache := by
  unfold State.appendLog
  dsimp only
  split
  · rfl
  · split <;> simp

theorem State.endWord_cache (s : State) (r : Run) : (s.endWord r).1.cache = s.cache := by
  have logged : ∀ (xs : List (List SetGlyph × Nat)) (t : State),
      (xs.foldl (fun s x => s.appendLog r (logEntryOf r x.1 x.2)) t).cache = t.cache := by
    intro xs
    induction xs with
    | nil => exact fun t => rfl
    | cons x xs ih => exact fun t => (ih _).trans (State.appendLog_cache ..)
  unfold State.endWord
  split
  · rfl
  · dsimp only
    split
    · simp [State.overflowRun, logged]
    · simp [logged]

theorem State.forceBreak_cache (s : State) (r : Run) : (s.forceBreak r).1.cache = s.cache := by
  unfold State.forceBreak
  dsimp only
  split
  · simp [State.overflowRun]
  · simp

theorem State.endWord_codes {s : State} {r : Run} (h : r.codes = []) : (s.endWord r).2.codes = [] := by
  unfold State.endWord
  split
  · exact h
  · dsimp only
    split
    · rfl
    · exact h

theorem State.forceBreak_codes {s : State} {r : Run} (h : r.codes = []) : (s.forceBreak r).2.codes = [] := by
  unfold State.forceBreak
  dsimp only
  split
  · rfl
  · exact h

/-- A run without a code to read leaves the Glyph Cache as it was. -/
theorem State.runOn_cache {n : Nat} {s : State} {r : Run} (h : r.codes = []) : (State.runOn n s r).cache = s.cache := by
  refine State.runOn_induction (P := fun t run => run.codes = [] ∧ t.cache = s.cache) (Q := fun t => t.cache = s.cache)
    (fun t run h => h.2) (fun t run h => ?_) (fun t run _ _ h => h)
    (fun t run h => ⟨State.endWord_codes h.1, (State.endWord_cache ..).trans h.2⟩) (fun t run _ h => h)
    (fun t run h => ⟨State.forceBreak_codes h.1, (State.forceBreak_cache ..).trans h.2⟩)
    (fun t run code rest hc h => ?_) n s r ⟨h, rfl⟩
  · unfold State.finishRun
    split <;> simp [h.2]
  · rw [h.1] at hc
    cases hc

end Sys2Proof.Machine
end

section
/-! SUPPORT. The acts of a run one by one, the reading of a code, and the end of a word and of a run (R58, R59, R70 to
R85). -/

namespace Sys2Proof.Machine

/-! ## Acts of a run (R70, R71) -/

/-- A run goes on without a grant: no glyph is to be drawn and no glyph-table entry to be read. -/
def Run.goesOn (r : Run) : Prop := r.blits = [] ∧ r.lookup = none

section Acts

variable {s : State} {run : Run} {rest : List RunAct} (n : Nat)

theorem State.runOn_waits (h : run.blits ≠ [] ∨ run.lookup ≠ none) : State.runOn n s run = s.keepRun run := by
  cases n with
  | zero => rfl
  | succ n =>
    unfold State.runOn
    refine if_pos ?_
    rcases h with h | h
    · simp [h]
    · simp [Option.isSome_iff_ne_none.2 h]

theorem State.runOn_finish (h : run.goesOn) (ha : run.acts = .finish :: rest) :
    State.runOn (n + 1) s run = s.finishRun run := by
  obtain ⟨hb, hl⟩ := h
  simp [State.runOn, hb, hl, ha]

theorem State.runOn_push (h : run.goesOn) {g : BufGlyph} (ha : run.acts = .push g :: rest) :
    State.runOn (n + 1) s run = State.runOn n s { run with buffer := run.buffer ++ [g], acts := rest } := by
  obtain ⟨hb, hl⟩ := h
  simp [State.runOn, hb, hl, ha]

theorem State.runOn_endWord (h : run.goesOn) (ha : run.acts = .endWord :: rest) :
    State.runOn (n + 1) s run =
      State.runOn n (s.endWord { run with acts := rest }).1 (s.endWord { run with acts := rest }).2 := by
  obtain ⟨hb, hl⟩ := h
  simp [State.runOn, hb, hl, ha]

theorem State.runOn_space (h : run.goesOn) {advance : Nat} (ha : run.acts = .space advance :: rest) :
    State.runOn (n + 1) s run = State.runOn n (s.addSpace run advance) { run with acts := rest } := by
  obtain ⟨hb, hl⟩ := h
  simp [State.runOn, hb, hl, ha]

theorem State.runOn_newline (h : run.goesOn) (ha : run.acts = .newline :: rest) :
    State.runOn (n + 1) s run =
      State.runOn n (s.forceBreak { run with acts := rest }).1 (s.forceBreak { run with acts := rest }).2 := by
  obtain ⟨hb, hl⟩ := h
  simp [State.runOn, hb, hl, ha]

theorem State.runOn_read (h : run.goesOn) (ha : run.acts = []) {code : BitVec 16} {codes : List (BitVec 16)}
    (hc : run.codes = code :: codes) :
    State.runOn (n + 1) s run =
      State.runOn n (s.readCode run code codes).1 (s.readCode run code codes).2 := by
  obtain ⟨hb, hl⟩ := h
  simp [State.runOn, hb, hl, ha, hc]

end Acts

/-! ## Lookups (R58, R59, R61) -/

section Lookups

variable {s : State} {run : Run} {b : Font} {l : Lookup}

/-- A code that is no newline is looked up. -/
theorem State.readCode_lookup (hf : s.font run.font = some b) {code : BitVec 16}
    (hn : b.newline ≠ 0xFFFF → code ≠ b.newline) (rest : List (BitVec 16)) :
    s.readCode run code rest =
      s.beginLookup { run with codes := rest, index := run.index + 1 } b
        { code := code.toNat, index := run.index, space := b.space != 0xFFFF && code == b.space, fallback := none } := by
  unfold State.readCode
  dsimp only
  rw [hf]
  exact if_neg fun h => hn h.1 h.2

theorem State.readCode_newline (hf : s.font run.font = some b) (hn : b.newline ≠ 0xFFFF) (rest : List (BitVec 16)) :
    s.readCode run b.newline rest =
      (s, { run with codes := rest, index := run.index + 1, acts := [.endWord, .newline] }) := by
  unfold State.readCode
  dsimp only
  rw [hf]
  exact if_pos ⟨hn, rfl⟩

theorem State.beginLookup_hit (hlt : l.code < b.count) {e : CacheEntry} (he : cacheFind s.cache run.font l.code = some e) :
    s.beginLookup run b l = State.resolveOwn { s with cache := cacheTouch s.cache e } run b l e.glyph e.bad := by
  unfold State.beginLookup
  rw [if_pos hlt, he]

theorem State.beginLookup_miss (hlt : l.code < b.count) (he : cacheFind s.cache run.font l.code = none) :
    s.beginLookup run b l = (s, { run with lookup := some l }) := by
  unfold State.beginLookup
  rw [if_pos hlt, he]

theorem State.beginLookup_beyond (hge : b.count ≤ l.code) : s.beginLookup run b l = s.searchZero run b l 0 :=
  if_neg (Nat.not_lt.2 hge)

theorem State.resolveOwn_space (hs : l.space = true) (g : Glyph) (bad : Bool) :
    s.resolveOwn run b l g bad = (s, { run with acts := [.endWord, .space g.advance] }) := if_pos hs

theorem State.resolveOwn_good (hs : l.space = false) (g : Glyph) :
    s.resolveOwn run b l g false =
      (s, run.takeGlyph { index := l.index, glyph := g, drawn := true } (b.isHyphen l.code)) := by
  simp [State.resolveOwn, hs]

/-- A bad entry of a code other than 0 is followed by the search for code 0. -/
theorem State.resolveOwn_bad (hs : l.space = false) (h0 : l.code ≠ 0) (g : Glyph) :
    s.resolveOwn run b l g true = s.searchZero run b l g.advance := by
  simp [State.resolveOwn, hs, h0]

theorem State.searchZero_hit {zero : CacheEntry} (hz : cacheFind s.cache run.font 0 = some zero) (own : Nat) :
    s.searchZero run b l own =
      ({ s with cache := cacheTouch s.cache zero },
        { run with lookup := none }.resolveZero b l own zero.glyph zero.bad) := by
  unfold State.searchZero
  rw [hz]

/-- The glyph by which the entry of code 0 resolves a lookup: its own, or one without ink where it is bad too (R58). -/
def zeroGlyph (index own : Nat) (g : Glyph) (bad : Bool) : BufGlyph :=
  { index := index, glyph := if bad then leftOutGlyph own else g, drawn := !bad }

theorem Run.resolveZero_space (hs : l.space = true) (own : Nat) (g : Glyph) (bad : Bool) :
    run.resolveZero b l own g bad = { run.countOutcome l.index 1 0 with acts := [.endWord, .space g.advance] } :=
  if_pos hs

theorem Run.resolveZero_glyph (hs : l.space = false) (own : Nat) (g : Glyph) (bad : Bool) :
    run.resolveZero b l own g bad =
      (run.countOutcome l.index (if bad then 0 else 1) (if bad then 1 else 0)).takeGlyph (zeroGlyph l.index own g bad)
        (b.isHyphen l.code) := by
  unfold Run.resolveZero
  rw [hs]
  cases bad <;> rfl

/-- A glyph joins a buffer with room, and a hyphen ends the word after it. -/
theorem Run.takeGlyph_room (h : run.buffer.length < 64) (g : BufGlyph) (hyphen : Bool) :
    run.takeGlyph g hyphen = { run with acts := .push g :: if hyphen then [.endWord] else [] } := by
  have room : run.buffer.length < Config.bufferGlyphs := h
  unfold Run.takeGlyph
  rw [if_pos room]
  rfl

end Lookups

/-- A code that is none of the special codes in force is neither the space nor the newline nor the hyphen. -/
theorem Font.ordinary {b : Font} {code : BitVec 16}
    (h : ∀ special ∈ [b.space, b.hyphen, b.newline], special ≠ 0xFFFF → code ≠ special) :
    (b.space != 0xFFFF && code == b.space) = false ∧ b.isHyphen code.toNat = false ∧
      (b.newline ≠ 0xFFFF → code ≠ b.newline) := by
  refine ⟨Bool.eq_false_iff.2 fun hs => ?_, Bool.eq_false_iff.2 fun hh => ?_, h b.newline (by simp)⟩
  · simp only [Bool.and_eq_true, bne_iff_ne, beq_iff_eq] at hs
    exact h b.space (by simp) hs.1 hs.2
  · simp only [Font.isHyphen, Bool.and_eq_true, bne_iff_ne, decide_eq_true_eq] at hh
    exact h b.hyphen (by simp) hh.1 (BitVec.eq_of_toNat_eq hh.2.symm)

/-! ## The end of a word (R75 to R84) -/

section EndWord

variable {s : State} {run : Run} {c : Column} {b : Font}

/-- What a word ended in the buffer leaves of the state: its placement's cursor, its entries, its overflow. -/
theorem State.endWord_state (hc : s.columns[run.column] = some c) (hb : s.font run.font = some b) (hne : run.buffer ≠ [])
    {p : Placement} (hp : placeWord c b.descent (s.cursor run.slot run.column) run.buffer = p) :
    (s.endWord run).1 =
      State.told
        ((p.segments.map (fun x => logEntryOf run x.1 x.2)).foldl (fun s e => s.appendLog run e)
          (s.setCursor run.slot run.column p.cursor))
        (p.overflow.map (.overflow run.tag run.runId run.slot run.column)) := by
  rw [State.endWord_eq hc hb hne]
  dsimp only
  rw [hp]
  cases p.overflow <;> rfl

theorem State.endWord_blits (hc : s.columns[run.column] = some c) (hb : s.font run.font = some b) (hne : run.buffer ≠ [])
    {p : Placement} (hp : placeWord c b.descent (s.cursor run.slot run.column) run.buffer = p) :
    (s.endWord run).2.blits = run.blits ++ s.blitsOf run p.glyphs := by
  rw [State.endWord_eq hc hb hne]
  dsimp only
  rw [hp]
  cases p.overflow <;> rfl

theorem State.endWord_acts (s : State) {run : Run} (h : run.acts = [.finish]) :
    (s.endWord run).2.acts = [.finish] := by
  unfold State.endWord
  split
  · exact h
  · dsimp only
    split
    · rfl
    · exact h

theorem State.endWord_empty (s : State) (h : run.buffer = []) : s.endWord run = (s, run) := by
  unfold State.endWord
  rw [h]
  rfl

/-- Nothing is drawn of glyphs that are not drawn or have no ink. -/
theorem State.blitsOf_eq_nil (s : State) (run : Run) {glyphs : List (SetGlyph × Nat)}
    (h : ∀ x ∈ glyphs, x.1.g.drawn = false ∨ x.1.g.glyph.width = 0 ∨ x.1.g.glyph.height = 0) :
    s.blitsOf run glyphs = [] := by
  unfold State.blitsOf
  split
  · rw [List.filter_eq_nil_iff]
    intro blit hblit
    obtain ⟨x, hx, rfl⟩ := List.mem_map.1 hblit
    obtain ⟨hx, hdrawn⟩ := List.mem_filter.1 hx
    rcases h x hx with h | h | h
    · rw [h] at hdrawn
      cases hdrawn
    · simp [Blit.visible, State.blitOf, h]
    · simp [Blit.visible, State.blitOf, h]
  · rfl

end EndWord

/-! ## Appending to the Word Log (R84) -/

section AppendLog

variable {s : State} {run : Run}

theorem State.appendLog_flagged (h : 512 ≤ (s.page run.slot).log.length) (hf : (s.page run.slot).logFull = true)
    (e : LogEntry) : s.appendLog run e = s := by
  unfold State.appendLog
  exact (if_neg (Nat.not_lt.2 h)).trans (if_pos hf)

theorem State.appendLog_flags (h : 512 ≤ (s.page run.slot).log.length) (hf : (s.page run.slot).logFull = false)
    (e : LogEntry) :
    s.appendLog run e =
      (s.setPage run.slot { s.page run.slot with logFull := true }).raise
        (.logFull run.tag run.runId run.slot e.first) := by
  unfold State.appendLog
  exact (if_neg (Nat.not_lt.2 h)).trans (if_neg (by rw [hf]; exact Bool.false_ne_true))

/-- The page slot of a Word Log after an append. -/
theorem State.appendLog_page (s : State) (run : Run) (e : LogEntry) :
    (s.appendLog run e).page run.slot =
      { s.page run.slot with
        log := if (s.page run.slot).log.length < 512 then (s.page run.slot).log ++ [e] else (s.page run.slot).log
        logFull := (s.page run.slot).logFull || decide (512 ≤ (s.page run.slot).log.length) } := by
  rcases Nat.lt_or_ge (s.page run.slot).log.length 512 with hroom | hfull
  · rw [State.appendLog_free hroom]
    simp [hroom, Nat.not_le.2 hroom]
  · cases hf : (s.page run.slot).logFull with
    | true =>
      rw [State.appendLog_flagged hfull hf, if_neg (Nat.not_lt.2 hfull), Bool.true_or, ← hf]
    | false =>
      rw [State.appendLog_flags hfull hf, show ∀ (t : State) (event : Event), (t.raise event).page run.slot = t.page run.slot
        from fun t event => t.told_page (some event) run.slot]
      simp [hfull, Nat.not_lt.2 hfull]

/-- An append to a full Word Log raises LOG_FULL unless the full flag is already set. -/
theorem State.appendLog_writesText (s : State) (run : Run) (e : LogEntry) :
    s.writesText
      (if (s.page run.slot).log.length < 512 ∨ (s.page run.slot).logFull = true then none
       else some (.logFull run.tag run.runId run.slot e.first)) (s.appendLog run e) := by
  rcases Nat.lt_or_ge (s.page run.slot).log.length 512 with hroom | hfull
  · rw [State.appendLog_free hroom, if_pos (Or.inl hroom)]
    exact ⟨_, _, _, rfl⟩
  · cases hf : (s.page run.slot).logFull with
    | true =>
      rw [State.appendLog_flagged hfull hf, if_pos (Or.inr rfl)]
      exact ⟨_, _, _, rfl⟩
    | false =>
      rw [State.appendLog_flags hfull hf, if_neg (by simpa using hfull)]
      exact State.writesText.trans_event (x := s.setPage run.slot { s.page run.slot with logFull := true })
        ⟨_, _, _, rfl⟩ (State.writesText_told ..)

end AppendLog

/-! ## The end of a run (R71, R85, R86) -/

/-- The end of a run whose codes have all been read: its word ends, and then the run unless glyphs are left to draw. -/
def State.endRun (s : State) (run : Run) : State :=
  if (s.endWord run).2.blits.isEmpty then (s.endWord run).1.finishRun (s.endWord run).2
  else (s.endWord run).1.keepRun (s.endWord run).2

section EndRun

variable {s : State} {run : Run}

theorem State.runOn_endRun (n : Nat) (h : run.goesOn) (ha : run.acts = []) (hc : run.codes = []) :
    State.runOn (n + 3) s run = s.endRun { run with acts := [.finish] } := by
  have keeps := State.endWord_run s { run with acts := [.finish] }
  exact State.runOn_end n h.1 h.2 ha hc rfl ((congrArg Run.lookup keeps).trans h.2) (State.endWord_acts s rfl)

theorem State.endRun_pages (s : State) (run : Run) : (s.endRun run).pages = (s.endWord run).1.pages := by
  unfold State.endRun
  split
  · rw [State.finishRun_eq]
    exact State.told_pages ..
  · rfl

theorem State.endRun_page (s : State) (run : Run) (i : Fin 4) : (s.endRun run).page i = (s.endWord run).1.page i := by
  unfold State.page; rw [State.endRun_pages]

theorem State.endRun_cursor (s : State) (run : Run) (i k : Fin 4) :
    (s.endRun run).cursor i k = (s.endWord run).1.cursor i k := by
  unfold State.cursor; rw [State.endRun_page]

theorem State.endRun_finished (h : (s.endWord run).2.blits = []) :
    s.endRun run = (s.endWord run).1.finishRun (s.endWord run).2 := by
  unfold State.endRun
  rw [h]
  rfl

theorem State.endRun_drawing (h : (s.endWord run).2.blits ≠ []) :
    s.endRun run = (s.endWord run).1.keepRun (s.endWord run).2 :=
  if_neg (by simpa using h)

theorem State.finishRun_writesText (s : State) (run : Run) : s.writesText run.missing (s.finishRun run) := by
  rw [State.finishRun_eq]
  exact ⟨_, _, _, rfl⟩

theorem State.finishRun_composer (s : State) (run : Run) : (s.finishRun run).composer = .ended := by
  rw [State.finishRun_eq]
  rfl

/-- A run that has no lookup to report reports none after the end of its word. -/
theorem State.endWord_missing (s : State) (run : Run) : (s.endWord run).2.missing = run.missing := by
  rw [State.endWord_run]
  rfl

theorem State.endRun_quiet (h : run.missing = none) : (s.endWord run).1.writesText none (s.endRun run) := by
  unfold State.endRun
  split
  · have finished := State.finishRun_writesText (s.endWord run).1 (s.endWord run).2
    rwa [State.endWord_missing, h] at finished
  · exact ⟨_, _, _, rfl⟩

/-- The run has ended with its report, or it goes on with the drawing of its word before it does. -/
theorem State.endRun_cases (s : State) {run : Run} (ha : run.acts = [.finish]) :
    ((s.endRun run).composer = .ended ∧ (s.endWord run).1.writesText run.missing (s.endRun run)) ∨
    ∃ u, (s.endRun run).composer = .running u ∧
      u = { run with codes := u.codes, buffer := u.buffer, acts := [.finish], blits := u.blits } ∧ u.blits ≠ [] ∧
      (s.endWord run).1.writesText none (s.endRun run) := by
  rcases eq_or_ne (s.endWord run).2.blits [] with hb | hb
  · rw [State.endRun_finished hb, ← State.endWord_missing s run]
    exact .inl ⟨State.finishRun_composer .., State.finishRun_writesText ..⟩
  · rw [State.endRun_drawing hb]
    have kept := State.endWord_run s run
    rw [State.endWord_acts s ha] at kept
    exact .inr ⟨_, rfl, kept, hb, ⟨_, _, _, rfl⟩⟩

/-- With nothing in the buffer the run ends at once. -/
theorem State.endRun_empty (hb : run.blits = []) (h : run.buffer = []) : s.endRun run = s.finishRun run := by
  rw [State.endRun_finished (by rw [State.endWord_empty s h]; exact hb), State.endWord_empty s h]

end EndRun

end Sys2Proof.Machine
end

section
/-! SUPPORT. A GLYPH_RUN of one word: where its word goes, what is logged, and how it ends (R68 to R86). -/

namespace Sys2Proof.Machine

/-! ## A run that is accepted (R68, R69) -/

/-- A record of the right length holds as many codes as its glyph count. -/
theorem Record.runCodes_length {r : Record} (h : r.words.length = 3 + (r.runCount + 1) / 2) :
    r.runCodes.length = r.runCount := by
  have two : ∀ ws : List Word,
      (ws.flatMap (fun w : Word => [((w >>> 16).setWidth 16 : BitVec 16), w.setWidth 16])).length = 2 * ws.length := by
    intro ws
    induction ws with
    | nil => rfl
    | cons w ws ih => rw [List.flatMap_cons, List.length_append, ih, List.length_cons, List.length_cons]; simp; omega
  unfold Record.runCodes
  rw [List.length_take, two, List.length_drop, h]
  omega

theorem State.setCursor_self (s : State) (i k : Fin 4) : s.setCursor i k (s.cursor i k) = s := by
  have same : (s.page i).cursors.set k (s.cursor i k) = (s.page i).cursors := by
    unfold State.cursor; simp
  unfold State.setCursor
  rw [same]
  exact State.setPage_self s i

/-- The state in which an accepted run goes on, with its cursor prepared and the Glyph Cache as its lookups left it. -/
def State.readOn (s : State) (r : Record) (c : Column) (cache : List CacheEntry) : State :=
  { s.setCursor r.slot r.runColumn (s.preparedCursor r c) with cache := cache }

section Accepted

variable {s : State} {r : Record} {c : Column} {b : Font}

theorem State.readOn_cursor (s : State) (r : Record) (c : Column) (cache : List CacheEntry) :
    (s.readOn r c cache).cursor r.slot r.runColumn = s.preparedCursor r c :=
  State.setCursor_cursor ..

theorem State.readOn_writesText (s : State) (r : Record) (c : Column) (cache : List CacheEntry) :
    s.writesText none (s.readOn r c cache) := ⟨_, _, _, rfl⟩

theorem State.setCursor_writesText (s : State) (i k : Fin 4) (x : Cursor) : s.writesText none (s.setCursor i k x) :=
  ⟨_, _, _, rfl⟩

/-- The page slot of an accepted run with its cursor moved on. -/
theorem State.readOn_setCursor_page (s : State) (r : Record) (c : Column) (cache : List CacheEntry) (k : Cursor) :
    ((s.readOn r c cache).setCursor r.slot r.runColumn k).page r.slot =
      { s.page r.slot with cursors := (s.page r.slot).cursors.set r.runColumn k } := by
  have page : (s.readOn r c cache).page r.slot =
      { s.page r.slot with cursors := (s.page r.slot).cursors.set r.runColumn (s.preparedCursor r c) } :=
    State.setCursor_page ..
  rw [State.setCursor_page, page]
  simp

theorem State.readOn_log (s : State) (r : Record) (c : Column) (cache : List CacheEntry) :
    ((s.readOn r c cache).page r.slot).log = (s.page r.slot).log := by
  have page := State.setCursor_page s r.slot r.runColumn (s.preparedCursor r c)
  exact (congrArg PageSlot.log page :)

/-- A record that is accepted begins its run with the prepared cursor. -/
theorem State.runAccepted.exec_beginRun (h : s.runAccepted r c b) :
    exec r.runCommand s = proceed s ((s.readOn r c s.cache).beginRun r.run) := by
  obtain ⟨hx, ho, hw, hp, hc, hb⟩ := h
  have passes : firstFailing (s.runChecks r) = none := by
    simp [State.runChecks, ho, hw, hc, hb]
    omega
  have column : s.runColumn r.run = c := by
    unfold State.runColumn
    rw [show s.columns[r.run.column] = some c from hc]
  unfold Record.runCommand State.readOn State.preparedCursor
  by_cases h0 : r.runPlacement = 0
  · rw [if_pos h0, if_pos h0, State.setCursor_self]
    show execGlyphRunContinue s = _
    unfold execGlyphRunContinue
    rw [onRecord_eq hx (by simp [hx.isKind, h0]), State.checked_pass passes]
  · rw [if_neg h0, if_neg h0]
    show execGlyphRunSet s = _
    unfold execGlyphRunSet
    rw [onRecord_eq hx (by simp [hx.isKind, h0]), State.checked_pass passes, column]
    rfl

/-- An accepted run whose cursor is not FULL reads its codes. -/
theorem State.runAccepted.exec_runOn (h : s.runAccepted r c b) (hf : (s.preparedCursor r c).full = false) :
    exec r.runCommand s =
      proceed s (State.runOn (4 * r.runCount + 8) (s.readOn r c s.cache) r.run) := by
  have hx := h.exec_beginRun
  obtain ⟨_, _, hw, _⟩ := h
  have notFull : ((s.readOn r c s.cache).cursor r.run.slot r.run.column).full = false :=
    (congrArg Cursor.full (State.readOn_cursor s r c s.cache)).trans hf
  have fuel : r.run.fuel = 4 * r.runCount + 8 := by
    rw [← Record.runCodes_length hw]
    rfl
  unfold State.beginRun at hx
  rwa [notFull, if_neg Bool.false_ne_true, State.resumeRun, fuel] at hx

/-- An overflow raised on the line at which a run stops, with nothing placed or logged. -/
theorem State.runOverflows_of {x : State} {k : Cursor} {i : Nat}
    (hx : exec r.runCommand s = proceed s (x.raise (.overflow r.tag r.runId r.slot r.runColumn i)).ended)
    (ht : s.writesText none x) (hk : x.cursor r.slot r.runColumn = { k with full := true, pendingSpace := 0 })
    (hl : (x.page r.slot).log = (s.page r.slot).log) : s.runOverflows r k i := by
  have page : ∀ j, ((x.raise (.overflow r.tag r.runId r.slot r.runColumn i)).ended).page j = x.page j :=
    fun j => x.told_page (some (.overflow r.tag r.runId r.slot r.runColumn i)) j
  refine ⟨_, State.runLeaves_of hx ?_ (ht.trans_event ⟨_, _, _, rfl⟩), ?_, ?_⟩
  · rw [← hk]
    unfold State.cursor
    rw [page]
  · rw [conclude_composer]
    rfl
  · rw [conclude_page, page, hl]

end Accepted

/-! ## The word of a run (R70 to R77) -/

/-- The run whose codes, a word of glyphs found in the cache, have all been read. -/
def Record.wordRun (r : Record) (glyphs : List Glyph) : Run :=
  { r.run with codes := [], index := glyphs.length, buffer := bufferFrom 0 glyphs, acts := [.finish] }

theorem walkWord_glyphs (t : Int) (start : Nat) (buffer : List BufGlyph) :
    (walkWord t start buffer).map (·.g) = buffer := by
  induction buffer generalizing start with
  | nil => rfl
  | cons g gs ih => rw [walkWord, List.map_cons, ih]

theorem walkWord_glyph_mem {t : Int} {start : Nat} {glyphs : List Glyph} {x : SetGlyph}
    (h : x ∈ walkWord t start (bufferFrom 0 glyphs)) : x.g.glyph ∈ glyphs := by
  have inBuffer := List.mem_map_of_mem (f := (·.g)) h
  rw [walkWord_glyphs] at inBuffer
  have inWord := List.mem_map_of_mem (f := (·.glyph)) inBuffer
  rwa [bufferFrom_glyphs] at inWord

section Word

variable {s : State} {r : Record} {c : Column} {b : Font} {glyphs : List Glyph}

theorem State.wordReady.ne_nil (h : s.wordReady r b glyphs) : glyphs ≠ [] := by
  obtain ⟨_, h1, _, hlen, _⟩ := h
  rintro rfl
  rw [← hlen] at h1
  cases h1

theorem bufferFrom_ne_nil (h : glyphs ≠ []) (n : Nat) : bufferFrom n glyphs ≠ [] := by
  obtain ⟨g, gs, rfl⟩ := List.exists_cons_of_ne_nil h
  exact List.cons_ne_nil _ _

/-- A run of one word that hits in the cache reads it and comes to its end. -/
theorem State.wordReady.exec_eq (hw : s.wordReady r b glyphs) (ha : s.runAccepted r c b)
    (hf : (s.preparedCursor r c).full = false) :
    ∃ cache, exec r.runCommand s = proceed s ((s.readOn r c cache).endRun (r.wordRun glyphs)) := by
  have hx := ha.exec_runOn hf
  obtain ⟨_, _, hwords, _⟩ := ha
  obtain ⟨hfont, _, h64, hlen, hcodes⟩ := hw
  obtain ⟨cache, hrun, _⟩ := State.runOn_word (s0 := s) r.runFont glyphs (s.readOn r c s.cache) r.run
    (2 * glyphs.length + 5 + 3) rfl hfont rfl rfl rfl
    ((Record.runCodes_length hwords).trans hlen.symm) (by rw [hlen]; exact (Nat.zero_add _).trans_le h64)
    (fun _ => rfl) hcodes
  refine ⟨cache, ?_⟩
  rw [show 4 * r.runCount + 8 = 2 * glyphs.length + 5 + 3 + 2 * glyphs.length by omega, hrun,
    State.runOn_endRun _ ⟨rfl, rfl⟩ rfl rfl] at hx
  rw [hx]
  unfold State.readOn Record.wordRun Record.run
  simp

/-- An entry appended where an accepted run's cursor has moved on: the cursor, the Word Log, the full flag, and the event
raised (R84). -/
theorem State.readOn_appendLog (s : State) (r : Record) (c : Column) (cache : List CacheEntry) (k : Cursor) {run : Run}
    (hs : run.slot = r.slot) (e : LogEntry) :
    let x := ((s.readOn r c cache).setCursor r.slot r.runColumn k).appendLog run e
    let p := s.page r.slot
    x.cursor r.slot r.runColumn = k ∧ (x.page r.slot).log = (if p.log.length < 512 then p.log ++ [e] else p.log) ∧
      (x.page r.slot).logFull = (p.logFull || decide (512 ≤ p.log.length)) ∧
      s.writesText
        (if p.log.length < 512 ∨ p.logFull = true then none else some (.logFull run.tag run.runId r.slot e.first)) x := by
  have before := s.readOn_setCursor_page r c cache k
  have after := State.appendLog_page ((s.readOn r c cache).setCursor r.slot r.runColumn k) run e
  have event := State.appendLog_writesText ((s.readOn r c cache).setCursor r.slot r.runColumn k) run e
  rw [hs, before] at after event
  refine ⟨?_, congrArg PageSlot.log after, congrArg PageSlot.logFull after, ?_⟩
  · unfold State.cursor
    rw [after]
    simp
  · exact ((s.readOn_writesText r c cache).trans_event (State.setCursor_writesText ..)).trans_event event

/-- The word of a run is set whole where its placement is. -/
theorem State.setsWhole_of_place (ha : s.runAccepted r c b) (hf : (s.preparedCursor r c).full = false)
    (hw : s.wordReady r b glyphs) {k : Cursor} {start : Nat} (hk : k.full = false)
    (hp : placeWord c b.descent (s.preparedCursor r c) (bufferFrom 0 glyphs) =
      setWhole c k start (bufferFrom 0 glyphs)) : s.setsWhole r c start k.baseline glyphs := by
  obtain ⟨cache, hx⟩ := hw.exec_eq ha hf
  have buffer := bufferFrom_ne_nil hw.ne_nil 0
  obtain ⟨_, _, _, _, hc, hb⟩ := ha
  rw [setWhole_eq, ← State.readOn_cursor s r c cache] at hp
  have state := State.endWord_state (s := s.readOn r c cache) (run := r.wordRun glyphs) hc hb buffer hp
  have blits := State.endWord_blits (s := s.readOn r c cache) (run := r.wordRun glyphs) hc hb buffer hp
  have told : (logEntryOf (r.wordRun glyphs) (walkWord c.tracking start (bufferFrom 0 glyphs)) k.baseline).tells r c 0
      start k.baseline glyphs := logEntryOf_tells rfl rfl rfl hw.ne_nil
  obtain ⟨cursor, log, full, event⟩ := s.readOn_appendLog r c cache
    { k with pen := penAt c.tracking start glyphs glyphs.length, pendingSpace := 0, lineHolds := true }
    (run := r.wordRun glyphs) rfl
    (logEntryOf (r.wordRun glyphs) (walkWord c.tracking start (bufferFrom 0 glyphs)) k.baseline)
  rw [told.2.1] at event
  refine ⟨_, _, told, State.runLeaves_of hx ?_ ?_, ?_, ?_, fun blank => ?_⟩
  · rw [State.endRun_cursor, state]
    exact cursor.trans (by rw [hk])
  · have ended := State.endRun_quiet (s := s.readOn r c cache) (run := r.wordRun glyphs) rfl
    rw [state] at ended
    exact event.trans_quiet ended
  · rw [conclude_page, State.endRun_page, state]
    exact log
  · rw [conclude_page, State.endRun_page, state]
    exact full
  · have undrawn : ((s.readOn r c cache).endWord (r.wordRun glyphs)).2.blits = [] := by
      rw [blits]
      refine State.blitsOf_eq_nil _ _ fun x hx => .inr ?_
      obtain ⟨y, hy, rfl⟩ := List.mem_map.1 hx
      exact blank _ (walkWord_glyph_mem hy)
    rw [conclude_composer, State.endRun_finished undrawn, State.finishRun_composer]

/-- The word of a run overflows where its placement does. -/
theorem State.runOverflows_of_place (ha : s.runAccepted r c b) (hf : (s.preparedCursor r c).full = false)
    (hw : s.wordReady r b glyphs) {k : Cursor} {i : Nat}
    (hp : placeWord c b.descent (s.preparedCursor r c) (bufferFrom 0 glyphs) =
      overflowAt { k with full := true, pendingSpace := 0 } i) : s.runOverflows r k i := by
  obtain ⟨cache, hx⟩ := hw.exec_eq ha hf
  have buffer := bufferFrom_ne_nil hw.ne_nil 0
  obtain ⟨_, _, _, _, hc, hb⟩ := ha
  rw [← State.readOn_cursor s r c cache] at hp
  have state := State.endWord_state (s := s.readOn r c cache) (run := r.wordRun glyphs) hc hb buffer hp
  have blits := State.endWord_blits (s := s.readOn r c cache) (run := r.wordRun glyphs) hc hb buffer hp
  have undrawn : ((s.readOn r c cache).endWord (r.wordRun glyphs)).2.blits = [] :=
    blits.trans (State.blitsOf_eq_nil _ _ fun x hx => absurd hx List.not_mem_nil)
  rw [State.endRun_finished undrawn, State.finishRun_eq, State.endWord_missing, state] at hx
  refine State.runOverflows_of hx
    ((s.readOn_writesText r c cache).trans_event (State.setCursor_writesText ..)) (State.setCursor_cursor ..) ?_
  have page := s.readOn_setCursor_page r c cache { k with full := true, pendingSpace := 0 }
  exact (congrArg PageSlot.log page :)

/-- The word of a run is broken glyph by glyph where its placement is, while the Word Log has room for its lines. -/
theorem State.setsBroken_of_place (ha : s.runAccepted r c b) (hf : (s.preparedCursor r c).full = false)
    (hw : s.wordReady r b glyphs) {k : Cursor} (hk : k.full = false) (hs : k.pendingSpace = 0)
    (hpen : k.pen = c.left * 16) (room : (s.page r.slot).log.length + 64 ≤ 512)
    (hp : placeWord c b.descent (s.preparedCursor r c) (bufferFrom 0 glyphs) =
      breakWord c b.descent k [] (bufferFrom 0 glyphs)) : s.setsBroken r c b k.baseline glyphs := by
  obtain ⟨cache, hx⟩ := hw.exec_eq ha hf
  have buffer := bufferFrom_ne_nil hw.ne_nil 0
  obtain ⟨pen, last, breaks, cursor⟩ := breakWord_start (run := r.wordRun glyphs) (r := r) (c := c)
    (descent := b.descent) rfl rfl rfl hw.ne_nil hk hs hpen
  obtain ⟨_, _, _, _, hc, hb⟩ := ha
  rw [← State.readOn_cursor s r c cache] at hp
  have state := State.endWord_state (s := s.readOn r c cache) (run := r.wordRun glyphs) hc hb buffer hp
  generalize breakWord c b.descent k [] (bufferFrom 0 glyphs) = p at breaks cursor state
  have page := s.readOn_setCursor_page r c cache p.cursor
  have lines : (p.segments.map (fun x => logEntryOf (r.wordRun glyphs) x.1 x.2)).length ≤ 64 := by
    obtain ⟨_, _, h64, hlen, _⟩ := hw
    exact breaks.length_le.trans (hlen.trans_le h64)
  have appended := State.appendLog_all (r.wordRun glyphs)
    (p.segments.map (fun x => logEntryOf (r.wordRun glyphs) x.1 x.2))
    ((s.readOn r c cache).setCursor r.slot r.runColumn p.cursor)
    (by rw [show (r.wordRun glyphs).slot = r.slot from rfl, page]; exact (Nat.add_le_add_left lines _).trans room)
  rw [show (r.wordRun glyphs).slot = r.slot from rfl, page] at appended
  rw [show (s.readOn r c cache).setCursor (r.wordRun glyphs).slot (r.wordRun glyphs).column p.cursor =
    (s.readOn r c cache).setCursor r.slot r.runColumn p.cursor from rfl, appended] at state
  refine ⟨_, _, pen, last, p.overflow, breaks, State.runLeaves_of hx ?_ ?_, ?_⟩
  · rw [State.endRun_cursor, state, ← cursor]
    unfold State.cursor
    rw [State.told_page]
    simp
  · have ended := State.endRun_quiet (s := s.readOn r c cache) (run := r.wordRun glyphs) rfl
    rw [state] at ended
    refine State.writesText.trans_quiet (State.writesText.trans_event ?_ (State.writesText_told ..)) ended
    exact ⟨_, _, _, rfl⟩
  · rw [conclude_page, State.endRun_page, state, State.told_page]
    simp

/-- A run of one word goes where the rules of lines send it (R75 to R79). -/
theorem State.wordReady.placed (ha : s.runAccepted r c b) (hf : (s.preparedCursor r c).full = false)
    (hw : s.wordReady r b glyphs) :
    let k := s.preparedCursor r c
    let left := c.left * 16
    let next := k.baseline + c.pitch
    let start := if k.lineHolds = true then min 65535 (k.pen + k.pendingSpace) else k.pen
    let foot (baseline : Nat) : Prop := c.bottom < baseline + b.descent
    let below : Cursor := { k with pen := left, baseline := next, lineHolds := false }
    (k.lineHolds = false → foot k.baseline → s.runOverflows r k 0) ∧
    (k.lineHolds = true ∨ ¬ foot k.baseline → fitsFrom c start glyphs → s.setsWhole r c start k.baseline glyphs) ∧
    (k.lineHolds = true ∨ (¬ foot k.baseline ∧ left < k.pen) → ¬ fitsFrom c start glyphs →
      (foot next → s.runOverflows r below 0) ∧
      (¬ foot next → fitsFrom c left glyphs → s.setsWhole r c left next glyphs) ∧
      (¬ foot next → ¬ fitsFrom c left glyphs → (s.page r.slot).log.length + 64 ≤ 512 →
        s.setsBroken r c b next glyphs)) ∧
    (k.lineHolds = false → ¬ foot k.baseline → k.pen = left → ¬ fitsFrom c left glyphs →
      (s.page r.slot).log.length + 64 ≤ 512 → s.setsBroken r c b k.baseline glyphs) := by
  intro k left next start foot below
  obtain ⟨stopped, onLine, onNext, fromLeft⟩ := placeWord_eq (c := c) (descent := b.descent) hw.ne_nil hf
  refine ⟨fun hl hfoot => State.runOverflows_of_place ha hf hw (stopped hl hfoot),
    fun hor hfit => State.setsWhole_of_place ha hf hw (k := { k with pendingSpace := 0 }) hf (onLine hor hfit),
    fun hor hno => ?_,
    fun hl hfoot hpen hno room =>
      State.setsBroken_of_place ha hf hw (k := { k with pendingSpace := 0 }) hf rfl hpen room
        (fromLeft hl hfoot hpen hno)⟩
  obtain ⟨stopped, whole, broken⟩ := onNext hor hno
  exact ⟨fun hfoot => State.runOverflows_of_place ha hf hw (k := below) (stopped hfoot),
    fun hfoot hfit => State.setsWhole_of_place ha hf hw (k := { below with full := false, pendingSpace := 0 }) rfl
      (whole hfoot hfit),
    fun hfoot hbreak room => State.setsBroken_of_place ha hf hw
      (k := { below with full := false, pendingSpace := 0 }) rfl rfl rfl room (broken hfoot hbreak)⟩

end Word

end Sys2Proof.Machine
end

section
/-! SUPPORT. Runs of special, substituted and left-out codes, the grants of a run, and the statement about GLYPH_RUN (R58,
R59, R61, R68 to R86). -/

namespace Sys2Proof.Machine

section FirstCode

variable {s : State} {r : Record} {c : Column} {b : Font}

/-- An accepted run reads its first code, and goes on from there. -/
theorem State.runAccepted.exec_read (ha : s.runAccepted r c b) (hf : (s.preparedCursor r c).full = false)
    {code : BitVec 16} {rest : List (BitVec 16)} (hcodes : r.runCodes = code :: rest) {cache : List CacheEntry} {run : Run}
    (read : (s.readOn r c s.cache).readCode r.run code rest = (s.readOn r c cache, run)) :
    exec r.runCommand s = proceed s (State.runOn (4 * rest.length + 11) (s.readOn r c cache) run) := by
  have hx := ha.exec_runOn hf
  obtain ⟨_, _, hwords, _⟩ := ha
  have count := Record.runCodes_length hwords
  rw [hcodes, List.length_cons] at count
  rw [show 4 * r.runCount + 8 = 4 * rest.length + 11 + 1 by omega, State.runOn_read _ ⟨rfl, rfl⟩ rfl hcodes, read] at hx
  exact hx

/-- A run that ends with its cursor moved on and nothing placed. -/
theorem State.runLeaves_finish {cache : List CacheEntry} {k : Cursor} {run : Run}
    (hx : exec r.runCommand s = proceed s (((s.readOn r c cache).setCursor r.slot r.runColumn k).finishRun run)) :
    ∃ t, s.runLeaves r k run.missing t ∧ t.composer = .ended ∧ (t.page r.slot).log = (s.page r.slot).log := by
  have page := s.readOn_setCursor_page r c cache k
  have finished : (((s.readOn r c cache).setCursor r.slot r.runColumn k).finishRun run).page r.slot =
      ((s.readOn r c cache).setCursor r.slot r.runColumn k).page r.slot := by
    rw [State.finishRun_eq]
    exact State.told_page ..
  refine ⟨_, State.runLeaves_of hx ?_ ?_, ?_, ?_⟩
  · unfold State.cursor
    rw [finished, page]
    simp
  · exact ((s.readOn_writesText r c cache).trans_event (State.setCursor_writesText ..)).trans_event
      (State.finishRun_writesText ..)
  · rw [conclude_composer, State.finishRun_composer]
  · rw [conclude_page, finished, page]

/-! ## Spaces (R72) -/

theorem State.addSpace_eq {run : Run} (hc : s.columns[run.column] = some c) (advance : Nat) :
    s.addSpace run advance = s.setCursor run.slot run.column
      { s.cursor run.slot run.column with
        pendingSpace := min 65535 ((s.cursor run.slot run.column).pendingSpace + ((advance : Int) + c.tracking).toNat) } := by
  have column : s.runColumn run = c := by
    unfold State.runColumn
    rw [hc]
  unfold State.addSpace
  rw [column]
  dsimp only
  rw [sat16_eq]
  rfl

/-- A space that is the last code of a run joins the pending space, and the run ends. -/
theorem State.runOn_lastSpace (n : Nat) {run : Run} (h : run.goesOn) {advance : Nat}
    (ha : run.acts = [.endWord, .space advance]) (hbuffer : run.buffer = []) (hc : run.codes = []) :
    State.runOn (n + 5) s run = (s.addSpace run advance).finishRun { run with acts := [.finish] } := by
  rw [State.runOn_endWord _ h ha, State.endWord_empty _ (by exact hbuffer), State.runOn_space _ (by exact h) rfl,
    State.runOn_endRun _ (by exact h) rfl (by exact hc), State.endRun_empty (by exact h.1) (by exact hbuffer)]
  rfl

/-- The run of one code after it has been read, with the counts of its lookups. -/
def Record.oneRead (r : Record) (substituted leftOut : Nat) (firstBad : Option Nat) : Run :=
  { r.run with codes := [], index := 1, substituted := substituted, leftOut := leftOut, firstBad := firstBad }

/-- A run of one space code leaves its step in the pending space, with the event that its lookup brings. -/
theorem State.runAccepted.leaves_space (ha : s.runAccepted r c b) (hf : (s.preparedCursor r c).full = false)
    (hcodes : r.runCodes = [b.space]) {cache : List CacheEntry} {substituted leftOut advance : Nat}
    {firstBad : Option Nat}
    (read : (s.readOn r c s.cache).readCode r.run b.space [] =
      (s.readOn r c cache,
        { r.oneRead substituted leftOut firstBad with acts := [.endWord, .space advance] })) :
    let k := s.preparedCursor r c
    ∃ t, s.runLeaves r
        { k with pendingSpace := min 65535 (k.pendingSpace + ((advance : Int) + c.tracking).toNat) }
        (r.oneRead substituted leftOut firstBad).missing t ∧
      t.composer = .ended ∧ (t.page r.slot).log = (s.page r.slot).log := by
  have hx := ha.exec_read hf hcodes read
  obtain ⟨_, _, _, _, hc, _⟩ := ha
  have ended := State.runOn_lastSpace (s := s.readOn r c cache) 6
    (run := { r.oneRead substituted leftOut firstBad with acts := [.endWord, .space advance] }) ⟨rfl, rfl⟩ rfl rfl rfl
  have spaced := State.addSpace_eq (s := s.readOn r c cache)
    (run := { r.oneRead substituted leftOut firstBad with acts := [.endWord, .space advance] }) hc advance
  rw [spaced] at ended
  rw [show 4 * [].length + 11 = 6 + 5 from rfl, ended] at hx
  rw [← State.readOn_cursor s r c cache]
  exact State.runLeaves_finish hx

/-- What the reading of a space code leaves: its step, by its own entry or by that of code 0 (R58, R59, R72). -/
theorem State.runAccepted.spaces (ha : s.runAccepted r c b) (hf : (s.preparedCursor r c).full = false) {e : CacheEntry}
    (hcodes : r.runCodes = [b.space]) (hs : b.space ≠ 0xFFFF) (hn : b.newline ≠ b.space) :
    let k := s.preparedCursor r c
    let spaced : Cursor :=
      { k with pendingSpace := min 65535 (k.pendingSpace + ((e.glyph.advance : Int) + c.tracking).toNat) }
    let quiet (t : State) : Prop := t.composer = .ended ∧ (t.page r.slot).log = (s.page r.slot).log
    (b.space.toNat < b.count → cacheFind s.cache r.runFont b.space.toNat = some e →
      ∃ t, s.runLeaves r spaced none t ∧ quiet t) ∧
    (b.count ≤ b.space.toNat → cacheFind s.cache r.runFont 0 = some e →
      ∃ t, s.runLeaves r spaced (some (.glyphsMissing r.tag r.runId r.slot 0 1 0)) t ∧ quiet t) := by
  intro k spaced quiet
  obtain ⟨_, _, _, _, _, hb⟩ := id ha
  have space : (b.space != 0xFFFF && b.space == b.space) = true :=
    Bool.and_eq_true_iff.2 ⟨bne_iff_ne.2 hs, beq_self_eq_true _⟩
  refine ⟨fun hlt he => ?_, fun hge hz => ?_⟩
  · refine ha.leaves_space hf hcodes (substituted := 0) (leftOut := 0) (firstBad := none)
      (cache := cacheTouch s.cache e) ?_
    rw [State.readCode_lookup (b := b) hb fun _ => hn.symm, State.beginLookup_hit hlt he, State.resolveOwn_space space]
    rfl
  · refine ha.leaves_space hf hcodes (substituted := 1) (leftOut := 0) (firstBad := some 0)
      (cache := cacheTouch s.cache e) ?_
    rw [State.readCode_lookup (b := b) hb fun _ => hn.symm, State.beginLookup_beyond hge, State.searchZero_hit hz,
      Run.resolveZero_space space]
    rfl

/-! ## Newlines (R78) -/

theorem lineBreak_eq {k : Cursor} (hf : k.full = false) (c : Column) (descent : Nat) :
    lineBreak c descent k =
      { k with
        pen := c.left * 16, baseline := k.baseline + c.pitch, lineHolds := false, pendingSpace := 0
        full := decide (c.bottom < k.baseline + c.pitch + descent) } := by
  unfold lineBreak verticalCheck
  dsimp only
  split_ifs with h
  · simp [h]
  · simp [h, hf]

/-- What a newline code leaves: the line broken, or the run overflown where more codes follow and the line is FULL. -/
theorem State.forceBreak_eq {run : Run} {k : Cursor} (hc : s.columns[run.column] = some c) (hb : s.font run.font = some b)
    (hk : s.cursor run.slot run.column = k) :
    s.forceBreak run =
      if (lineBreak c b.descent k).full && !run.codes.isEmpty then
        (s.setCursor run.slot run.column (lineBreak c b.descent k)).overflowRun run run.index
      else (s.setCursor run.slot run.column (lineBreak c b.descent k), run) := by
  have column : s.runColumn run = c := by
    unfold State.runColumn
    rw [hc]
  have descent : s.descent run.font = b.descent := by
    unfold State.descent
    rw [hb]
  unfold State.forceBreak
  rw [column, descent, hk]

/-- What a newline as the first code of a run leaves (R76, R78, R79). -/
theorem State.runAccepted.breaksLine (ha : s.runAccepted r c b) (hf : (s.preparedCursor r c).full = false)
    {rest : List (BitVec 16)} (hcodes : r.runCodes = b.newline :: rest) (hn : b.newline ≠ 0xFFFF) :
    let k := s.preparedCursor r c
    let next := k.baseline + c.pitch
    let broken : Cursor := { k with pen := c.left * 16, baseline := next, lineHolds := false, pendingSpace := 0 }
    (rest = [] →
      ∃ t, s.runLeaves r { broken with full := decide (c.bottom < next + b.descent) } none t ∧ t.composer = .ended ∧
        (t.page r.slot).log = (s.page r.slot).log) ∧
    (rest ≠ [] → c.bottom < next + b.descent → s.runOverflows r broken 1) := by
  intro k next broken
  obtain ⟨_, _, _, _, hc, hb⟩ := id ha
  have hx := ha.exec_read hf hcodes (State.readCode_newline (s := s.readOn r c s.cache) (run := r.run) hb hn rest)
  have line := lineBreak_eq hf c b.descent
  have broke := State.forceBreak_eq (s := s.readOn r c s.cache) (k := k)
    (run := { r.run with codes := rest, index := 1, acts := [] }) hc hb (State.readOn_cursor ..)
  rw [line] at broke
  rw [State.runOn_endWord _ ⟨rfl, rfl⟩ rfl, State.endWord_empty _ (by rfl), State.runOn_newline _ ⟨rfl, rfl⟩ rfl] at hx
  dsimp only at hx
  rw [show r.run.index + 1 = 1 from rfl, broke] at hx
  refine ⟨fun hrest => ?_, fun hrest hfoot => ?_⟩
  · subst hrest
    rw [if_neg (by simp), State.runOn_endRun _ ⟨rfl, rfl⟩ rfl rfl, State.endRun_empty rfl rfl] at hx
    exact State.runLeaves_finish hx
  · rw [if_pos (by simpa using ⟨hfoot, hrest⟩)] at hx
    rw [show ∀ (t : State) (run : Run) (i : Nat), t.overflowRun run i =
        (t.raise (.overflow run.tag run.runId run.slot run.column i), { run with codes := [], buffer := [], acts := [.finish] })
      from fun _ _ _ => rfl, State.runOn_finish _ ⟨rfl, rfl⟩ rfl, State.finishRun_eq] at hx
    refine State.runOverflows_of hx ((s.readOn_writesText r c s.cache).trans_event (State.setCursor_writesText ..)) ?_ ?_
    · exact (State.setCursor_cursor ..).trans (by rw [decide_eq_true hfoot])
    · have page := s.readOn_setCursor_page r c s.cache
        { k with
          pen := c.left * 16, baseline := next, lineHolds := false, pendingSpace := 0
          full := decide (c.bottom < next + b.descent) }
      exact (congrArg PageSlot.log page :)

/-! ## Words of one glyph (R71, R75, R83) -/

/-- A glyph that fits from the pen of a line without glyphs is set there. -/
theorem placeWord_single {descent : Nat} {k : Cursor} {x : BufGlyph} (hf : k.full = false) (hl : k.lineHolds = false)
    (hfoot : k.baseline + descent ≤ c.bottom) (hfit : fitsFrom c k.pen [x.glyph]) :
    placeWord c descent k [x] = setWhole c { k with pendingSpace := 0 } k.pen [x] := by
  have fits : wordFits c k.pen [x] = true := (wordFits_iff c k.pen [x]).2 hfit
  have line : verticalCheck c descent { k with pendingSpace := 0 } = { k with pendingSpace := 0 } :=
    if_neg (Nat.not_lt.2 hfoot)
  unfold placeWord
  dsimp only
  rw [if_neg (by rw [hl]; exact Bool.false_ne_true)]
  unfold placeOnEmpty
  dsimp only at line ⊢
  rw [line, if_neg (by rw [hf]; exact Bool.false_ne_true), if_pos fits]

/-- The end of such a word: the pen past the glyph, its one entry, and its drawing. -/
theorem State.endWord_single {run : Run} {k : Cursor} {x : BufGlyph} (hc : s.columns[run.column] = some c)
    (hb : s.font run.font = some b) (hx : run.buffer = [x]) (hk : s.cursor run.slot run.column = k)
    (hf : k.full = false) (hl : k.lineHolds = false) (hfoot : k.baseline + b.descent ≤ c.bottom)
    (hfit : fitsFrom c k.pen [x.glyph]) :
    (s.endWord run).1 =
        (s.setCursor run.slot run.column
          { k with pen := penAt c.tracking k.pen [x.glyph] 1, lineHolds := true, pendingSpace := 0 }).appendLog run
          (logEntryOf run [{ g := x, pen := k.pen }] k.baseline) ∧
      (s.endWord run).2.blits = run.blits ++ s.blitsOf run [({ g := x, pen := k.pen }, k.baseline)] := by
  have nonempty : run.buffer ≠ [] := by
    rw [hx]
    exact List.cons_ne_nil _ _
  have placed : placeWord c b.descent (s.cursor run.slot run.column) run.buffer =
      setWhole c { k with pendingSpace := 0 } k.pen [x] := by
    rw [hk, hx]
    exact placeWord_single hf hl hfoot hfit
  have pen : penAfterWord c.tracking k.pen [x] = penAt c.tracking k.pen [x.glyph] 1 := penAfterWord_eq ..
  refine ⟨?_, State.endWord_blits hc hb nonempty placed⟩
  rw [← pen]
  exact State.endWord_state hc hb nonempty placed

/-- The entry of such a word tells of its glyph (R83). -/
theorem logEntryOf_single {run : Run} {x : BufGlyph} (hi : x.index = 0) (h1 : run.runId = r.runId)
    (h2 : run.column = r.runColumn) (h3 : run.font = r.runFont) (c : Column) (pen baseline : Nat) :
    (logEntryOf run [{ g := x, pen := pen }] baseline).tells r c 0 pen baseline [x.glyph] := by
  have tells := logEntryOf_tells (c := c) (start := pen) (baseline := baseline) (first := 0) (glyphs := [x.glyph]) h1 h2 h3
    (List.cons_ne_nil _ _)
  rw [← hi] at tells ⊢
  exact tells

/-- The run whose first code has been read into the buffer, with the codes and acts that follow and the counts of its
lookup. -/
def Record.glyphRead (r : Record) (x : BufGlyph) (codes : List (BitVec 16)) (acts : List RunAct)
    (substituted leftOut : Nat) (firstBad : Option Nat) : Run :=
  { r.run with
    codes := codes, index := 1, buffer := [x], acts := acts, substituted := substituted, leftOut := leftOut
    firstBad := firstBad }

/-- The first glyph of an accepted run fits from the pen of a line without glyphs, and the Word Log has room. -/
structure State.takesGlyph (s : State) (r : Record) (c : Column) (b : Font) (g : Glyph) : Prop where
  notFull : (s.preparedCursor r c).full = false
  empty : (s.preparedCursor r c).lineHolds = false
  above : (s.preparedCursor r c).baseline + b.descent ≤ c.bottom
  fits : fitsFrom c (s.preparedCursor r c).pen [g]
  room : (s.page r.slot).log.length < 512

/-- The cursor after the first glyph of an accepted run has been set. -/
def State.cursorPast (s : State) (r : Record) (c : Column) (g : Glyph) : Cursor :=
  { s.preparedCursor r c with
    pen := penAt c.tracking (s.preparedCursor r c).pen [g] 1, lineHolds := true, pendingSpace := 0 }

/-- What the end of the word of such a glyph leaves: its entry, the cursor past it, no event, and no drawing of a glyph
that is not drawn or has no ink. -/
theorem State.runAccepted.endWord_glyph (ha : s.runAccepted r c b) (cache : List CacheEntry) {x : BufGlyph}
    (hx : x.index = 0) (hg : s.takesGlyph r c b x.glyph) (codes : List (BitVec 16)) (acts : List RunAct)
    (substituted leftOut : Nat) (firstBad : Option Nat) :
    let p := (s.readOn r c cache).endWord (r.glyphRead x codes acts substituted leftOut firstBad)
    ∃ entry : LogEntry,
      entry.tells r c 0 (s.preparedCursor r c).pen (s.preparedCursor r c).baseline [x.glyph] ∧
      (p.1.page r.slot).log = (s.page r.slot).log ++ [entry] ∧
      p.1.cursor r.slot r.runColumn = s.cursorPast r c x.glyph ∧ s.writesText none p.1 ∧
      (x.drawn = false ∨ x.glyph.width = 0 ∨ x.glyph.height = 0 → p.2.blits = []) := by
  intro p
  obtain ⟨_, _, _, _, hc, hb⟩ := ha
  obtain ⟨state, blits⟩ := State.endWord_single (s := s.readOn r c cache) (b := b)
    (run := r.glyphRead x codes acts substituted leftOut firstBad) hc hb rfl (State.readOn_cursor ..) hg.notFull hg.empty
    hg.above hg.fits
  obtain ⟨cursor, log, _, event⟩ := s.readOn_appendLog r c cache (s.cursorPast r c x.glyph)
    (run := r.glyphRead x codes acts substituted leftOut firstBad) rfl
    (logEntryOf (r.glyphRead x codes acts substituted leftOut firstBad)
      [{ g := x, pen := (s.preparedCursor r c).pen }] (s.preparedCursor r c).baseline)
  rw [if_pos hg.room] at log
  rw [if_pos (Or.inl hg.room)] at event
  have tells := logEntryOf_single (run := r.glyphRead x codes acts substituted leftOut firstBad) (r := r) hx rfl rfl rfl c
    (s.preparedCursor r c).pen (s.preparedCursor r c).baseline
  refine ⟨_, tells, ?_, ?_, ?_, fun hblank => ?_⟩
  · rw [show p.1 = _ from state]
    exact log
  · rw [show p.1 = _ from state]
    exact cursor
  · rw [show p.1 = _ from state]
    exact event
  · rw [show p.2.blits = _ from blits]
    refine State.blitsOf_eq_nil _ _ fun y hy => ?_
    rw [List.mem_singleton.1 hy]
    exact hblank

/-- A hyphen as the first code of a run ends its word, of which the Word Log tells (R71, R83). -/
theorem State.runAccepted.hyphenates (ha : s.runAccepted r c b) {rest : List (BitVec 16)} {e : CacheEntry}
    (hg : s.takesGlyph r c b e.glyph) (hcodes : r.runCodes = b.hyphen :: rest) (hh : b.hyphen ≠ 0xFFFF)
    (hn : b.newline ≠ b.hyphen) (hs : b.space ≠ b.hyphen) (hlt : b.hyphen.toNat < b.count)
    (he : cacheFind s.cache r.runFont b.hyphen.toNat = some e) (hgood : e.bad = false) :
    ∃ t entry more, exec r.runCommand s = .next t ∧
      entry.tells r c 0 (s.preparedCursor r c).pen (s.preparedCursor r c).baseline [e.glyph] ∧
      (t.page r.slot).log = (s.page r.slot).log ++ entry :: more := by
  obtain ⟨_, _, _, _, _, hb⟩ := id ha
  have space : (b.space != 0xFFFF && b.hyphen == b.space) = false := by simp [Ne.symm hs]
  have hyphen : b.isHyphen b.hyphen.toNat = true :=
    Bool.and_eq_true_iff.2 ⟨bne_iff_ne.2 hh, decide_eq_true rfl⟩
  have read : (s.readOn r c s.cache).readCode r.run b.hyphen rest =
      (s.readOn r c (cacheTouch s.cache e),
        { r.run with
          codes := rest, index := 1
          acts := [.push { index := 0, glyph := e.glyph, drawn := true }, .endWord] }) := by
    rw [State.readCode_lookup (b := b) hb fun _ => hn.symm, State.beginLookup_hit hlt he, hgood,
      State.resolveOwn_good space, hyphen, Run.takeGlyph_room (by exact Nat.zero_lt_succ 63)]
    rfl
  have hx := ha.exec_read hg.notFull hcodes read
  obtain ⟨entry, tells, log, _⟩ := ha.endWord_glyph (cacheTouch s.cache e)
    (x := { index := 0, glyph := e.glyph, drawn := true }) rfl hg rest [] 0 0 none
  rw [State.runOn_push _ ⟨rfl, rfl⟩ rfl, State.runOn_endWord _ ⟨rfl, rfl⟩ rfl] at hx
  have slot := congrArg Run.slot (State.endWord_run (s.readOn r c (cacheTouch s.cache e))
    (r.glyphRead { index := 0, glyph := e.glyph, drawn := true } rest [] 0 0 none))
  generalize hp : (s.readOn r c (cacheTouch s.cache e)).endWord
    (r.glyphRead { index := 0, glyph := e.glyph, drawn := true } rest [] 0 0 none) = p at log slot
  have hx : exec r.runCommand s = proceed s (State.runOn (4 * rest.length + 9) p.1 p.2) := by
    rw [← hp]
    exact hx
  obtain ⟨more, grown⟩ := (State.runOn_runsTo (4 * rest.length + 9) p.1 p.2).1.log
  rw [show p.2.slot = r.slot from slot, log, List.append_assoc] at grown
  exact ⟨_, entry, more, hx, tells, by rw [conclude_page, ← grown]; rfl⟩

/-! ## Codes substituted and left out (R58, R85) -/

/-- A code that is not looked up with a good entry of its own is set with the glyph of code 0 or without ink. -/
theorem State.runAccepted.exec_zero (ha : s.runAccepted r c b) (hf : (s.preparedCursor r c).full = false)
    {code : BitVec 16} {own : Nat} {zero : CacheEntry} (hcodes : r.runCodes = [code])
    (hspecial : ∀ special ∈ [b.space, b.hyphen, b.newline], special ≠ 0xFFFF → code ≠ special)
    (hown : (b.count ≤ code.toNat ∧ own = 0) ∨
      (code.toNat < b.count ∧ code ≠ 0 ∧ ∃ e, cacheFind s.cache r.runFont code.toNat = some e ∧ e.bad = true ∧
        own = e.glyph.advance))
    (hzero : cacheFind s.cache r.runFont 0 = some zero) :
    ∃ cache, exec r.runCommand s =
      proceed s ((s.readOn r c cache).endRun
        (r.glyphRead (zeroGlyph 0 own zero.glyph zero.bad) [] [.finish] (if zero.bad then 0 else 1)
          (if zero.bad then 1 else 0) (some 0))) := by
  obtain ⟨_, _, _, _, _, hb⟩ := id ha
  obtain ⟨space, hyphen, newline⟩ := Font.ordinary hspecial
  have read : ∃ cache, (s.readOn r c s.cache).readCode r.run code [] =
      (s.readOn r c cache,
        { r.oneRead (if zero.bad then 0 else 1) (if zero.bad then 1 else 0) (some 0) with
          acts := [.push (zeroGlyph 0 own zero.glyph zero.bad)] }) := by
    rw [State.readCode_lookup (b := b) hb newline]
    rcases hown with ⟨hge, rfl⟩ | ⟨hlt, h0, e, he, hbad, rfl⟩
    · refine ⟨cacheTouch s.cache zero, ?_⟩
      rw [State.beginLookup_beyond hge, State.searchZero_hit hzero, Run.resolveZero_glyph space, hyphen,
        Run.takeGlyph_room (by exact Nat.zero_lt_succ 63)]
      cases zero.bad <;> rfl
    · refine ⟨cacheTouch (cacheTouch s.cache e) zero, ?_⟩
      have still : cacheFind (cacheTouch s.cache e) r.runFont 0 = some zero := (cacheFind_touch he _ _).trans hzero
      rw [State.beginLookup_hit hlt he, hbad, State.resolveOwn_bad space (fun h => h0 (BitVec.eq_of_toNat_eq h)),
        State.searchZero_hit still, Run.resolveZero_glyph space, hyphen,
        Run.takeGlyph_room (by exact Nat.zero_lt_succ 63)]
      cases zero.bad <;> rfl
  obtain ⟨cache, read⟩ := read
  have hx := ha.exec_read hf hcodes read
  rw [State.runOn_push _ ⟨rfl, rfl⟩ rfl, State.runOn_endRun _ ⟨rfl, rfl⟩ rfl rfl] at hx
  exact ⟨cache, hx⟩

/-- A run that ends with the word of its one glyph: the entry, and either the end with its report or the drawing first. -/
theorem State.runAccepted.leaves_glyph (ha : s.runAccepted r c b) {cache : List CacheEntry} {x : BufGlyph}
    (hi : x.index = 0) (hg : s.takesGlyph r c b x.glyph) {substituted leftOut : Nat} {firstBad : Option Nat}
    (hx : exec r.runCommand s =
      proceed s ((s.readOn r c cache).endRun (r.glyphRead x [] [.finish] substituted leftOut firstBad))) :
    ∃ t, (∃ entry : LogEntry,
        entry.tells r c 0 (s.preparedCursor r c).pen (s.preparedCursor r c).baseline [x.glyph] ∧
          (t.page r.slot).log = (s.page r.slot).log ++ [entry]) ∧
      ((t.composer = .ended ∧ s.runLeaves r (s.cursorPast r c x.glyph)
          (r.oneRead substituted leftOut firstBad).missing t) ∨
        ∃ run, t.composer = .running run ∧ run.acts = [.finish] ∧ run.lookup = none ∧ run.substituted = substituted ∧
          run.leftOut = leftOut ∧ run.firstBad = firstBad ∧ run.blits ≠ [] ∧
          s.runLeaves r (s.cursorPast r c x.glyph) none t) ∧
      (x.drawn = false ∨ x.glyph.width = 0 ∨ x.glyph.height = 0 → t.composer = .ended) := by
  obtain ⟨entry, tells, log, cursor, text, blank⟩ := ha.endWord_glyph cache hi hg [] [.finish] substituted leftOut firstBad
  have moved := (State.endRun_cursor (s.readOn r c cache) (r.glyphRead x [] [.finish] substituted leftOut firstBad) r.slot
    r.runColumn).trans cursor
  have outcome := State.endRun_cases (s.readOn r c cache)
    (run := r.glyphRead x [] [.finish] substituted leftOut firstBad) rfl
  refine ⟨conclude s ((s.readOn r c cache).endRun (r.glyphRead x [] [.finish] substituted leftOut firstBad)),
    ⟨entry, tells, by rw [conclude_page, State.endRun_page, log]⟩, ?_, fun h => ?_⟩
  · rw [conclude_composer]
    rcases outcome with ⟨ended, wrote⟩ | ⟨u, running, hu, hblits, wrote⟩
    · exact .inl ⟨ended, State.runLeaves_of hx moved (text.trans_event wrote)⟩
    · exact .inr ⟨u, running, congrArg Run.acts hu, congrArg Run.lookup hu, congrArg Run.substituted hu,
        congrArg Run.leftOut hu, congrArg Run.firstBad hu, hblits, State.runLeaves_of hx moved (text.trans_event wrote)⟩
  · rw [conclude_composer, State.endRun_finished (blank h), State.finishRun_composer]

end FirstCode

end Sys2Proof.Machine
end

section
/-! SUPPORT. The statement about GLYPH_RUN: how a run begins, its grants, and the parts that the files above settle (R58,
R61, R68 to R86). -/

namespace Sys2Proof.Machine

section Begins

variable {s : State} {r : Record} {c : Column} {b : Font}

/-! ## How a run begins (R68, R69) -/

/-- A run that begins keeps to what it may change, and is then running or ended. -/
theorem State.beginRun_runsTo (s : State) (run : Run) :
    s.RunsTo run.slot run.column (s.beginRun run) ∧
      ((s.beginRun run).composer = .ended ∨ ∃ run', (s.beginRun run).composer = .running run') := by
  unfold State.beginRun
  split
  · split
    · exact ⟨.of_pages rfl rfl, .inl rfl⟩
    · exact ⟨(State.RunsTo.raise ..).trans (.of_pages rfl rfl), .inl rfl⟩
  · exact State.runOn_runsTo ..

/-- An accepted run leaves everything but its cursor, its Word Log, the Glyph Cache, the Reporter and the Composer. -/
theorem State.runAccepted.begins (ha : s.runAccepted r c b) :
    ∃ t, exec r.runCommand s = .next t ∧
      t.agrees { s with pages := t.pages, cache := t.cache, reporter := t.reporter, composer := t.composer } ∧
      (t.composer = .ended ∨ ∃ run, t.composer = .running run) ∧ (∀ j, j ≠ r.slot → t.page j = s.page j) ∧
      { t.page r.slot with
          cursors := (s.page r.slot).cursors, log := (s.page r.slot).log, logFull := (s.page r.slot).logFull } =
        s.page r.slot ∧
      ∀ k : Fin 4, k ≠ r.runColumn → (t.page r.slot).cursors[k] = (s.page r.slot).cursors[k] := by
  have hx := ha.exec_beginRun
  obtain ⟨began, outcome⟩ := State.beginRun_runsTo (s.readOn r c s.cache) r.run
  have runs : s.RunsTo r.slot r.runColumn ((s.readOn r c s.cache).beginRun r.run) :=
    ((State.RunsTo.setCursor s r.slot r.runColumn (s.preparedCursor r c)).trans (.of_pages rfl rfl)).trans began
  generalize (s.readOn r c s.cache).beginRun r.run = x at hx outcome runs
  refine ⟨_, hx, ?_, ?_, fun j hj => ?_, ?_, fun k hk => ?_⟩
  · have told := conclude_agrees_reporter s x
    rw [conclude_pages, conclude_cache, conclude_composer]
    obtain ⟨pages, cache, reporter, composer, rfl⟩ : ∃ pages cache reporter composer,
        x = { s with pages := pages, cache := cache, reporter := reporter, composer := composer } :=
      ⟨_, _, _, _, runs.beside⟩
    exact told
  · rwa [conclude_composer]
  · rw [conclude_page]
    exact runs.others j hj
  · rw [conclude_page]
    exact runs.own
  · rw [conclude_page]
    exact runs.cursors k hk

theorem Record.runCodes_nil {r : Record} (h : r.runCount = 0) : r.runCodes = [] := by
  unfold Record.runCodes
  rw [h, List.take_zero]

/-- A CONTINUE run uses its cursor as it stands. -/
theorem State.readOn_continue (h : r.runPlacement = 0) (c : Column) : s.readOn r c s.cache = s := by
  unfold State.readOn State.preparedCursor
  rw [if_pos h, State.setCursor_self]

/-- A CONTINUE run that meets a FULL cursor with a code to place overflows at index 0 (R69). -/
theorem State.runAccepted.meetsFull (ha : s.runAccepted r c b) (h0 : r.runPlacement = 0)
    (hfull : (s.cursor r.slot r.runColumn).full = true) (hcount : 0 < r.runCount) :
    Yields .glyphRunContinue s
      { (s.raise (.overflow r.tag r.runId r.slot r.runColumn 0)) with composer := .ended } := by
  have hx := ha.exec_beginRun
  obtain ⟨_, _, hwords, _⟩ := ha
  have codes : r.run.codes.isEmpty = false := by
    rw [List.isEmpty_eq_false_iff, ← List.length_pos_iff]
    exact (Record.runCodes_length hwords).symm ▸ hcount
  rw [State.readOn_continue h0, show r.runCommand = .glyphRunContinue from if_pos h0] at hx
  refine yields_of_proceed_eq hx ?_
  unfold State.beginRun
  rw [if_pos (by exact hfull), codes]
  rfl

/-- A SET run puts its cursor at the point clamped into the column (R69). -/
theorem State.preparedCursor_set (h : r.runPlacement = 1) :
    s.preparedCursor r c =
      { pen := min (max r.runX c.left) (c.right - 1) * 16, baseline := min (max r.runY c.top) (c.bottom - 1)
        full := false, lineHolds := false, pendingSpace := 0 } := by
  unfold State.preparedCursor
  exact if_neg (by omega)

theorem Record.runCommand_set (h : r.runPlacement = 1) : r.runCommand = .glyphRunSet := if_neg (by omega)

/-- A SET run with no codes moves its cursor, and ends (R69). -/
theorem State.runAccepted.movesCursor (ha : s.runAccepted r c b) (h1 : r.runPlacement = 1) (hcount : r.runCount = 0) :
    Yields .glyphRunSet s { (s.setCursor r.slot r.runColumn (s.preparedCursor r c)) with composer := .ended } := by
  have hx := ha.exec_runOn (by rw [State.preparedCursor_set h1])
  rw [hcount, Record.runCommand_set h1, show 4 * 0 + 8 = 5 + 3 from rfl,
    State.runOn_endRun _ ⟨rfl, rfl⟩ rfl (Record.runCodes_nil hcount), State.endRun_empty rfl rfl] at hx
  exact yields_of_proceed hx

/-- A SET run whose first code is not in the cache waits for its glyph-table entry (R58, R61). -/
theorem State.runAccepted.misses (ha : s.runAccepted r c b) (h1 : r.runPlacement = 1) {code : BitVec 16}
    {rest : List (BitVec 16)} (hcodes : r.runCodes = code :: rest) (hlt : code.toNat < b.count)
    (hn : b.newline ≠ 0xFFFF → code ≠ b.newline) (hmiss : cacheFind s.cache r.runFont code.toNat = none) :
    ∃ t run l, exec .glyphRunSet s = .next t ∧ t.composer = .running run ∧ run.lookup = some l ∧
      l.code = code.toNat ∧ l.index = 0 ∧ l.fallback = none ∧ run.codes = rest ∧ t.cache = s.cache ∧
      (t.page r.slot).log = (s.page r.slot).log ∧ t.mem = s.mem := by
  obtain ⟨_, _, _, _, _, hb⟩ := id ha
  have read := State.readCode_lookup (s := s.readOn r c s.cache) (run := r.run) (b := b) hb hn rest
  rw [State.beginLookup_miss hlt hmiss] at read
  have hx := ha.exec_read (by rw [State.preparedCursor_set h1]) hcodes (cache := s.cache) read
  rw [State.runOn_waits _ (.inr (Option.some_ne_none _)), Record.runCommand_set h1] at hx
  refine ⟨_, _, _, hx, (conclude_composer ..).trans rfl, rfl, rfl, rfl, rfl, rfl, ?_, ?_, ?_⟩
  · rw [conclude_cache]
    rfl
  · rw [conclude_page]
    exact s.readOn_log r c s.cache
  · rw [conclude_mem]
    rfl

end Begins

/-! ## The grants of a run (R61, R81, R82) -/

section Grants

variable {s : State} {run : Run}

/-- The state with the turn pointer past the Composer (R8). -/
def State.pastComposer (s : State) : State := { s with port := { (s.port) with turn := .commitEngine } }

theorem State.grantsTo.exec_run {needs : Bool} {pick : Nat} (hg : s.grantsTo needs pick .composer)
    (hc : s.composer = .running run) :
    exec (.downstreamGrant needs pick) s =
      proceed s (s.pastComposer.serveRun run) := by
  have running : s.pastComposer.composer = .running run := hc
  rw [hg.exec_eq]
  show proceed s (s.pastComposer.serveEngine pick .composer) = _
  unfold State.serveEngine
  rw [running]

theorem State.serveRun_entry {l : Lookup} {b : Font} (hb : run.blits = []) (hl : run.lookup = some l)
    (hf : s.font run.font = some b) : s.serveRun run = s.serveEntry run b l := by
  unfold State.serveRun
  rw [hb, hl, hf]

theorem State.serveRun_back {b : Blit} {more : List Blit} {w : Touch} {ws : List Touch} {old : Word}
    (hb : run.blits = b :: more) (hd : run.drawing = .blend (w :: ws) (some old)) :
    s.serveRun run =
      State.blendOn
        (State.markOffsets { s with mem := s.mem.setWord w.addr (w.word run.tone old) } run.slot
          [w.addr - s.draftBase run.slot]) run ws := by
  unfold State.serveRun
  rw [hb, hd]

/-- A good entry read for a code of its own, no space, is installed and its glyph taken. -/
theorem State.serveEntry_good {l : Lookup} {b : Font} (hfall : l.fallback = none) (hs : l.space = false)
    (hgood : (glyphOf (s.mem.word (s.glyphAddr b l.code)) (s.mem.word (s.glyphAddr b l.code + 4))).isBad (s.fontUnits b) =
      false) :
    s.serveEntry run b l =
      let g := glyphOf (s.mem.word (s.glyphAddr b l.code)) (s.mem.word (s.glyphAddr b l.code + 4))
      State.resumeRun { s with cache := cacheInstall s.cache run.font l.code g false }
        ({ run with lookup := none }.takeGlyph { index := l.index, glyph := g, drawn := true } (b.isHyphen l.code)) := by
  unfold State.serveEntry
  rw [hfall]
  dsimp only
  rw [hgood, State.resolveOwn_good hs]

/-- The lowest-numbered invalid entry is the one of which every lower number is taken (R62). -/
theorem cacheFree_eq_some {cache : List CacheEntry} {k : Nat} (hk : k < 128) (hfree : ∀ e ∈ cache, e.number ≠ k)
    (hlow : ∀ m, m < k → ∃ e ∈ cache, e.number = m) : cacheFree cache = some k := by
  unfold cacheFree
  rw [List.find?_range_eq_some]
  refine ⟨?_, List.mem_range.2 hk, fun m hm => ?_⟩
  · simpa using hfree
  · simpa using hlow m hm

theorem cacheFree_eq_none {cache : List CacheEntry} (h : ∀ k, k < 128 → ∃ e ∈ cache, e.number = k) :
    cacheFree cache = none := by
  unfold cacheFree
  rw [List.find?_eq_none]
  intro k hk
  simpa using h k (List.mem_range.1 hk)

/-- An entry is installed in the most recent place: in the lowest-numbered invalid entry, or else in place of the least
recent one (R62). -/
theorem cacheInstall_eq (cache : List CacheEntry) (f : Fin 8) (code : Nat) (g : Glyph) (bad : Bool) :
    ∃ n old, cacheInstall cache f code g bad = { number := n, font := f, code := code, glyph := g, bad := bad } :: old ∧
      (∀ k, k < 128 → (∀ e ∈ cache, e.number ≠ k) → (∀ m, m < k → ∃ e ∈ cache, e.number = m) →
        n = k ∧ old = cache) ∧
      (∀ e kept, cache = kept ++ [e] → (∀ k, k < 128 → ∃ x ∈ cache, x.number = k) → n = e.number ∧ old = kept) := by
  unfold cacheInstall
  cases hfree : cacheFree cache with
  | some n =>
    refine ⟨n, cache, rfl, fun k hk hunused hlow => ?_, fun e kept _ hall => ?_⟩
    · rw [cacheFree_eq_some hk hunused hlow] at hfree
      exact ⟨(Option.some.inj hfree).symm, rfl⟩
    · rw [cacheFree_eq_none hall] at hfree
      cases hfree
  | none =>
    rcases List.eq_nil_or_concat cache with rfl | ⟨kept, e, rfl⟩
    · exact ⟨0, [], rfl, fun k hk hunused hlow => absurd (hfree.symm.trans (cacheFree_eq_some hk hunused hlow)) nofun,
        fun e kept h => absurd h (by simp)⟩
    · rw [List.concat_eq_append] at hfree ⊢
      rw [List.getLast?_concat]
      dsimp only
      rw [List.dropLast_concat]
      refine ⟨e.number, kept, rfl,
        fun k hk hunused hlow => absurd (hfree.symm.trans (cacheFree_eq_some hk hunused hlow)) nofun,
        fun e' kept' h _ => ?_⟩
      obtain ⟨rfl, he⟩ := List.append_inj' h rfl
      cases he
      exact ⟨rfl, rfl⟩

/-- The grant that reads a good glyph-table entry installs it, and changes no memory (R61, R62). -/
theorem State.grantsTo.installs {needs : Bool} {pick : Nat} {l : Lookup} {b : Font} (hg : s.grantsTo needs pick .composer)
    (hc : s.composer = .running run) (hb : run.blits = []) (hcodes : run.codes = []) (hl : run.lookup = some l)
    (hfall : l.fallback = none) (hs : l.space = false) (hf : s.font run.font = some b) :
    let a := s.fontBase b + b.tableOffset + 8 * l.code
    let g := glyphOf (s.mem.word a) (s.mem.word (a + 4))
    g.isBad (s.fontUnits b) = false →
    ∃ t n old, exec (.downstreamGrant needs pick) s = .next t ∧ t.mem = s.mem ∧
      t.cache = { number := n, font := run.font, code := l.code, glyph := g, bad := false } :: old ∧
      (∀ k, k < 128 → (∀ e ∈ s.cache, e.number ≠ k) → (∀ m, m < k → ∃ e ∈ s.cache, e.number = m) →
        n = k ∧ old = s.cache) ∧
      (∀ e kept, s.cache = kept ++ [e] → (∀ k, k < 128 → ∃ x ∈ s.cache, x.number = k) →
        n = e.number ∧ old = kept) := by
  intro a g hgood
  have hx := hg.exec_run hc
  rw [State.serveRun_entry (s := s.pastComposer) hb hl hf, State.serveEntry_good (s := s.pastComposer) hfall hs hgood] at hx
  obtain ⟨n, old, installed, free, least⟩ := cacheInstall_eq s.cache run.font l.code g false
  refine ⟨_, n, old, hx, ?_, ?_, free, least⟩
  · rw [conclude_mem]
    exact State.resumeRun_mem ..
  · rw [conclude_cache, ← installed]
    exact State.runOn_cache hcodes

/-- The grant that writes back a blended word marks its tile, and the blending goes on with the words left (R81, R82). -/
theorem State.grantsTo.blendsWord {needs : Bool} {pick : Nat} {b : Blit} {more : List Blit} {w w' : Touch}
    {ws : List Touch} {old : Word} (hg : s.grantsTo needs pick .composer) (hc : s.composer = .running run)
    (hb : run.blits = b :: more) (hd : run.drawing = .blend (w :: w' :: ws) (some old)) :
    ∃ t, exec (.downstreamGrant needs pick) s = .next t ∧
      t.agrees
        { s with
          mem := s.mem.setWord w.addr (w.word run.tone old), pages := t.pages
          composer := (.running { run with drawing := .blend (w' :: ws) none })
          port := { (s.port) with turn := .commitEngine } } ∧
      MarksWritten s t run.slot [w.addr - s.draftBase run.slot] := by
  have hx := hg.exec_run hc
  rw [State.serveRun_back hb hd] at hx
  exact written_and_marked hx

/-- An event is raised alike whatever memory, the pages and the port are. -/
theorem State.told_with_mem (s : State) (event : Option Event) (m : Memory) (pages : Vector PageSlot 4) (q : Port) :
    State.told { s with mem := m, pages := pages, port := q } event =
      { s.told event with mem := m, pages := pages, port := q } := by
  have alike := State.told_eq (s := s) (t := { s with mem := m, pages := pages, port := q }) rfl rfl rfl event
  have own := State.told_eq (s := s) (t := s) rfl rfl rfl event
  generalize s.told event = t at alike own
  rw [alike, own]

/-- With no word left of the last glyph, a run whose codes have all been read ends. -/
theorem State.blendOn_last (s : State) {b : Blit} (hb : run.blits = [b]) (hl : run.lookup = none)
    (ha : run.acts = [.finish]) : s.blendOn run [] = (s.told run.missing).ended := by
  have fuel : ({ run with blits := run.blits.tail, drawing := .bitmap [] } : Run).fuel =
      4 * run.codes.length + run.acts.length + 7 + 1 := rfl
  have finished := State.runOn_finish (s := s) (4 * run.codes.length + run.acts.length + 7)
    (run := { run with blits := run.blits.tail, drawing := .bitmap [] }) ⟨by rw [hb]; rfl, hl⟩ ha
  show State.resumeRun s { run with blits := run.blits.tail, drawing := .bitmap [] } = _
  unfold State.resumeRun
  rw [fuel, finished, State.finishRun_eq]
  rfl

/-- The grant that writes back the last word of the last glyph of a run ends the run, with its report (R81, R85, R86). -/
theorem State.grantsTo.blendsLast {needs : Bool} {pick : Nat} {b : Blit} {w : Touch} {old : Word}
    (hg : s.grantsTo needs pick .composer) (hc : s.composer = .running run) (hb : run.blits = [b])
    (hd : run.drawing = .blend [w] (some old)) (hl : run.lookup = none) (ha : run.acts = [.finish]) :
    ∃ t, exec (.downstreamGrant needs pick) s = .next t ∧
      t.agrees
        { s.told run.missing with
          mem := s.mem.setWord w.addr (w.word run.tone old), pages := t.pages, composer := .ended
          port := { (s.port) with turn := .commitEngine } } ∧
      MarksWritten s t run.slot [w.addr - s.draftBase run.slot] := by
  have hx := hg.exec_run hc
  rw [State.serveRun_back (s := s.pastComposer) hb hd, State.blendOn_last _ hb hl ha] at hx
  have told : State.told (State.markOffsets { s with
        mem := s.mem.setWord w.addr (w.word run.tone old), port := { (s.port) with turn := .commitEngine } }
      run.slot [w.addr - s.draftBase run.slot]) run.missing = _ := s.told_with_mem run.missing _ _ _
  refine ⟨_, hx.trans (congrArg (fun x => proceed s x.ended) told), ?_, marksWritten_of_pages ?_⟩
  · rw [conclude_pages]
    exact conclude_agrees ..
  · rw [conclude_pages]
    rfl

end Grants

/-- Settles O41: how a run begins, what its grants do, where its word goes, and what its special and missing codes leave. -/
theorem glyphRunBegins : Obligations.GlyphRunBegins := by
  unfold Obligations.GlyphRunBegins
  refine ⟨fun s r c hr ho hwords hc hfont => ?_, fun needs pick s run l b hg hc hb hcodes hl hfall hs hf =>
      hg.installs hc hb hcodes hl hfall hs hf,
    fun needs pick s run b more w w' ws old hg hc hb hd => hg.blendsWord hc hb hd,
    fun needs pick s run b w old hg hc hb hd hl ha => ?_,
    fun s r c b glyphs ha hf hw => hw.placed ha hf, fun s r c b ha hf => ?_⟩
  · obtain ⟨b, hb⟩ := Option.isSome_iff_exists.1 hfont
    refine ⟨fun hp => ?_, fun h0 hfull hcount => ?_, fun h1 => ?_⟩
    · exact State.runAccepted.begins ⟨hr, ho, hwords, hp, hc, hb⟩
    · exact State.runAccepted.meetsFull (c := c) ⟨hr, ho, hwords, by omega, hc, hb⟩ h0 hfull hcount
    · intro start baseline
      refine ⟨fun hcount => ?_, fun b' code rest hb' hcodes hlt hn hmiss => ?_⟩
      · have moved := State.runAccepted.movesCursor (c := c) ⟨hr, ho, hwords, by omega, hc, hb⟩ h1 hcount
        rwa [State.preparedCursor_set h1] at moved
      · exact State.runAccepted.misses (c := c) ⟨hr, ho, hwords, by omega, hc, hb'⟩ h1 hcodes hlt hn hmiss
  · obtain ⟨t, hx, agrees, marks⟩ := hg.blendsLast hc hb hd hl ha
    refine ⟨t, hx, ?_, marks⟩
    unfold Run.missing at agrees
    split_ifs at agrees ⊢ <;> exact agrees
  · intro k next broken quiet
    refine ⟨fun e hcodes hs hn => ha.spaces hf hcodes hs hn, fun rest hcodes hn => ha.breaksLine hf hcodes hn,
      fun rest e hcodes hh hn hs hlt he hgood hl hfoot hfit hroom =>
        ha.hyphenates ⟨hf, hl, hfoot, hfit, hroom⟩ hcodes hh hn hs hlt he hgood,
      fun code own zero hcodes hspecial hown hzero hl hfoot hroom => ?_⟩
    intro blank set logged
    obtain ⟨cache, hx⟩ := ha.exec_zero hf hcodes hspecial hown hzero
    refine ⟨fun hgood hfit => ?_, fun hbad hfit => ?_⟩
    · rw [hgood] at hx
      obtain ⟨t, tells, outcome, ended⟩ := ha.leaves_glyph rfl ⟨hf, hl, hfoot, hfit, hroom⟩ hx
      exact ⟨t, tells, outcome, fun h => ended (.inr h)⟩
    · rw [hbad] at hx
      obtain ⟨t, tells, outcome, ended⟩ := ha.leaves_glyph rfl ⟨hf, hl, hfoot, hfit, hroom⟩ hx
      rcases outcome with ⟨hend, leaves⟩ | ⟨run, running, _⟩
      · exact ⟨t, tells, hend, leaves⟩
      · rw [ended (.inl rfl)] at running
        cases running

end Sys2Proof.Machine
end

section
/-! SUPPORT. The statement about COLUMN: its checks, and the cursors that it resets in OPEN page slots (R66, R67). -/

namespace Sys2Proof.Machine

/-! ## Cursor resets -/

/-- The page slot with one cursor replaced if the slot is OPEN, and otherwise as it is. -/
def PageSlot.withCursor (p : PageSlot) (k : Fin 4) (x : Cursor) : PageSlot :=
  if p.isOpen then { p with cursors := p.cursors.set k x } else p

theorem PageSlot.withCursor_open {p : PageSlot} (h : p.isOpen = true) (k : Fin 4) (x : Cursor) :
    p.withCursor k x = { p with cursors := p.cursors.set k x } := if_pos h

theorem PageSlot.withCursor_closed {p : PageSlot} (h : p.isOpen = false) (k : Fin 4) (x : Cursor) :
    p.withCursor k x = p := if_neg (by simp [h])

/-- The cursor of a column reset in one page slot, if that slot is OPEN. -/
def State.resetCursorIn (s : State) (k i : Fin 4) : State :=
  s.setPage i ((s.page i).withCursor k (resetCursor s.columns[k]))

/-- The cursor of a column is reset in one page slot after another. -/
theorem State.resetOpenCursors_eq (s : State) (k : Fin 4) :
    s.resetOpenCursors k = (List.finRange 4).foldl (fun s i => s.resetCursorIn k i) s := by
  unfold State.resetOpenCursors
  congr
  funext t i
  unfold State.resetCursorIn
  cases ho : (t.page i).isOpen with
  | true => rw [PageSlot.withCursor_open ho]; rfl
  | false => rw [PageSlot.withCursor_closed ho, State.setPage_self]; rfl

/-- Resets in any page slots change nothing but the page slots. -/
theorem State.foldl_resetCursorIn_frame (k : Fin 4) (xs : List (Fin 4)) : ∀ s : State,
    xs.foldl (fun s i => s.resetCursorIn k i) s =
      { s with pages := (xs.foldl (fun s i => s.resetCursorIn k i) s).pages } := by
  induction xs with
  | nil => intro s; rfl
  | cons x xs ih => intro s; exact ih (s.resetCursorIn k x)

/-- Resets in distinct page slots replace the cursor of each that is OPEN, and leave the other slots alone. -/
theorem State.foldl_resetCursorIn_page (k i : Fin 4) {xs : List (Fin 4)} (distinct : xs.Nodup) : ∀ s : State,
    (xs.foldl (fun s i => s.resetCursorIn k i) s).page i =
      if i ∈ xs then (s.page i).withCursor k (resetCursor s.columns[k]) else s.page i := by
  induction xs with
  | nil => intro s; rfl
  | cons x xs ih =>
    intro s
    obtain ⟨fresh, distinct⟩ := List.nodup_cons.1 distinct
    have own : (s.resetCursorIn k x).page i =
        if x = i then (s.page x).withCursor k (resetCursor s.columns[k]) else s.page i := State.setPage_page ..
    have columns : (s.resetCursorIn k x).columns = s.columns := rfl
    rw [List.foldl_cons, ih distinct, own, columns]
    by_cases hi : x = i
    · subst hi
      simp [fresh]
    · simp [hi, Ne.symm hi]

theorem State.resetOpenCursors_frame (s : State) (k : Fin 4) :
    s.resetOpenCursors k = { s with pages := (s.resetOpenCursors k).pages } := by
  rw [State.resetOpenCursors_eq]
  exact State.foldl_resetCursorIn_frame ..

theorem State.resetOpenCursors_page (s : State) (k i : Fin 4) :
    (s.resetOpenCursors k).page i = (s.page i).withCursor k (resetCursor s.columns[k]) := by
  rw [State.resetOpenCursors_eq, State.foldl_resetCursorIn_page k i (List.nodup_finRange 4),
    if_pos (List.mem_finRange i)]

/-! ## COLUMN (R66, R67) -/

/-- The state with a column defined and its cursors reset, before the record's execution ends. -/
def State.withColumn (s : State) (k : Fin 4) (c : Column) : State :=
  State.resetOpenCursors { s with columns := s.columns.set k (some c) } k

theorem State.withColumn_frame (s : State) (k : Fin 4) (c : Column) :
    s.withColumn k c = { s with columns := s.columns.set k (some c), pages := (s.withColumn k c).pages } :=
  State.resetOpenCursors_frame ..

/-- Every OPEN page slot has the cursor at the start of the column's first line. -/
theorem State.withColumn_page (s : State) (k i : Fin 4) (c : Column) :
    (s.withColumn k c).page i = (s.page i).withCursor k (resetCursor (some c)) := by
  have defined : (s.columns.set k (some c))[k] = some c := Vector.getElem_set_self ..
  unfold State.withColumn
  rw [State.resetOpenCursors_page, defined]
  rfl

theorem exec_column {s : State} {r : Record} (h : s.executing r .column) :
    exec .column s =
      proceed s (s.checked r (s.columnChecks r) (s.withColumn r.columnIndex (s.clampedColumn r)).ended) :=
  onRecord_eq h h.isKind

theorem State.columnChecks_unconfigured {s : State} {r : Record} (h : s.supply.geometry = none) :
    firstFailing (s.columnChecks r) = some .unconfigured := by
  simp [State.columnChecks, h]

/-- Under a geometry a column is refused only where its clamped box is empty or its pitch is 0. -/
theorem State.columnChecks_eq {s : State} {r : Record} {g : Geometry} (h : s.supply.geometry = some g) :
    firstFailing (s.columnChecks r) =
      if (s.clampedColumn r).right ≤ (s.clampedColumn r).left ∨ (s.clampedColumn r).bottom ≤ (s.clampedColumn r).top ∨
          (s.clampedColumn r).pitch = 0 then some .badField else none := by
  simp [State.columnChecks, h, or_assoc]

/-- Settles O35: COLUMN is refused without a geometry and for a box it cannot use, and otherwise defines the column. -/
theorem columnDefined : Obligations.ColumnDefined := by
  unfold Obligations.ColumnDefined
  refine fun s r h => ⟨fun hg => yields_refused (exec_column h) (State.columnChecks_unconfigured hg), fun g hg => ?_⟩
  intro f c
  have clamped : s.clampedColumn r = c := by
    unfold State.clampedColumn
    rw [State.geometry_eq hg]
  have hx := exec_column h
  have checks := State.columnChecks_eq (r := r) hg
  rw [clamped] at hx checks
  refine ⟨fun hbad => yields_refused hx (by rw [checks, if_pos hbad]), fun hwide hhigh hpitch => ?_⟩
  have passes : firstFailing (s.columnChecks r) = none := by
    rw [checks, if_neg (by omega)]
  rw [State.checked_pass passes] at hx
  have page (i : Fin 4) : (conclude s (s.withColumn r.columnIndex c).ended).page i =
      (s.page i).withCursor r.columnIndex (resetCursor (some c)) :=
    (conclude_page ..).trans (State.withColumn_page ..)
  refine ⟨_, hx, ?_, fun i => ⟨fun hclosed => ?_, fun hopen => ?_⟩⟩
  · rw [conclude_pages]
    refine State.agrees_trans (conclude_agrees ..) ?_
    rw [State.withColumn_frame]
    rfl
  · rw [page, PageSlot.withCursor_closed hclosed]
  · rw [page, PageSlot.withCursor_open hopen]
    rfl

end Sys2Proof.Machine
end

section
/-! SUPPORT. The statement about NOTE_CLEAR and PROBE: the notes removed, and the youngest note at a point (R100 to
R102). -/

namespace Sys2Proof.Machine

/-! ## NOTE_CLEAR (R100) -/

theorem exec_noteClearOne {s : State} {r : Record} (h : s.executing r .noteClear) (hs : r.clearScope = 0) :
    exec .noteClearOne s =
      proceed s (s.checked r (s.clearChecks r)
        (State.endExecution
          { s with notes := s.notes.filter (fun n => !(n.slot == r.slot && n.id == r.clearNote)) })) :=
  onRecord_eq h (by simp [h.isKind, hs])

theorem exec_noteClearAll {s : State} {r : Record} (h : s.executing r .noteClear) (hs : r.clearScope = 1) :
    exec .noteClearAll s = proceed s (s.checked r (s.clearChecks r) (s.dropNotes r.slot).endExecution) :=
  onRecord_eq h (by simp [h.isKind, hs])

/-- A NOTE_CLEAR of an OPEN page slot is carried out with scope ONE and a note id, and with scope ALL. -/
theorem State.clearChecks_pass {s : State} {r : Record} (ho : (s.page r.slot).isOpen = true)
    (hs : r.clearScope = 0 ∧ r.clearNote ≠ 0 ∨ r.clearScope = 1) : firstFailing (s.clearChecks r) = none := by
  unfold State.clearChecks
  rcases hs with ⟨hone, hnote⟩ | hall
  · simp [ho, hone, hnote]
  · simp [ho, hall]

/-! ## The youngest note (R88, R101) -/

theorem younger_of_lt {a b : Note} (h : a.sequence < b.sequence) : younger a b = b := if_pos h

theorem younger_of_not_lt {a b : Note} (h : ¬ a.sequence < b.sequence) : younger a b = a := if_neg h

/-- Of two notes, one of which is younger than every other note, that one is the younger. -/
theorem younger_eq {n a b : Note} (hn : n = a ∨ n = b) (ha : a ≠ n → a.sequence < n.sequence)
    (hb : b ≠ n → b.sequence < n.sequence) : younger a b = n := by
  rcases hn with rfl | rfl
  · by_cases same : b = n
    · subst same
      exact younger_of_not_lt (Nat.lt_irrefl _)
    · exact younger_of_not_lt (Nat.lt_asymm (hb same))
  · by_cases same : a = n
    · subst same
      exact younger_of_not_lt (Nat.lt_irrefl _)
    · exact younger_of_lt (ha same)

theorem younger_eq_or (a b : Note) : younger a b = a ∨ younger a b = b := by
  by_cases h : a.sequence < b.sequence
  · exact .inr (younger_of_lt h)
  · exact .inl (younger_of_not_lt h)

/-- Taking the younger of a note and each note of a list in turn ends at the note younger than all the others. -/
theorem foldl_younger_eq {n : Note} : ∀ (ns : List Note) (a : Note), n ∈ a :: ns →
    (∀ m ∈ a :: ns, m ≠ n → m.sequence < n.sequence) → ns.foldl younger a = n := by
  intro ns
  induction ns with
  | nil =>
    intro a hn _
    exact (List.mem_singleton.1 hn).symm
  | cons b ns ih =>
    intro a hn hm
    simp only [List.forall_mem_cons] at hm
    obtain ⟨ha, hb, hns⟩ := hm
    refine ih (younger a b) ?_ ?_
    · rw [List.mem_cons, List.mem_cons, ← or_assoc] at hn
      rcases hn with either | later
      · rw [younger_eq either ha hb]
        exact List.mem_cons_self
      · exact List.mem_cons_of_mem _ later
    · refine List.forall_mem_cons.2 ⟨?_, hns⟩
      rcases younger_eq_or a b with h | h
      · rwa [h]
      · rwa [h]

theorem youngest_eq {n : Note} {ns : List Note} (hn : n ∈ ns) (hm : ∀ m ∈ ns, m ≠ n → m.sequence < n.sequence) :
    youngest ns = some n := by
  cases ns with
  | nil => cases hn
  | cons a ns => exact congrArg some (foldl_younger_eq ns a hn hm)

/-! ## PROBE (R101, R102) -/

/-- The notes of a page slot with a rectangle that contains a point. -/
def State.notesAt (s : State) (i : Fin 4) (x y : Nat) : List Note :=
  (s.notesOf i).filter (fun n => n.rects.any (·.contains x y))

theorem State.mem_notesAt {s : State} {i : Fin 4} {x y : Nat} {n : Note} :
    n ∈ s.notesAt i x y ↔ n ∈ s.notes ∧ n.slot = i ∧ n.rects.any (·.contains x y) = true := by
  unfold State.notesAt State.notesOf
  rw [List.mem_filter, List.mem_filter, beq_iff_eq, and_assoc]

/-- On the panel the answer of a probe is the youngest of the notes at its point. -/
theorem State.probeAnswer_eq {s : State} {i : Fin 4} {x y : Nat} {g : Geometry} (hg : s.supply.geometry = some g)
    (hx : x < g.width) (hy : y < g.height) : s.probeAnswer i x y = youngest (s.notesAt i x y) := by
  unfold State.probeAnswer
  rw [hg]
  exact if_pos ⟨hx, hy⟩

theorem State.probeEvent_none {s : State} {r : Record} (h : s.probeAnswer r.slot r.probeX r.probeY = none) :
    s.probeEvent r = .probeResult r.tag 0 r.probeTag r.slot 0 0 := by
  unfold State.probeEvent
  rw [h]

theorem State.probeEvent_some {s : State} {r : Record} {n : Note}
    (h : s.probeAnswer r.slot r.probeX r.probeY = some n) :
    s.probeEvent r =
      .probeResult r.tag n.id r.probeTag r.slot (n.rects.findIdx (·.contains r.probeX r.probeY)) n.pageId := by
  unfold State.probeEvent
  rw [h]

theorem exec_probe {s : State} {r : Record} (h : s.executing r .probe) :
    exec .probe s = proceed s (s.raise (s.probeEvent r)).endExecution :=
  onRecord_eq h h.isKind

/-- A record command that tells an event and ends yields the state with that event raised. -/
theorem yields_told {c : Instr} {s : State} {e e' : Event} (h : exec c s = proceed s (s.raise e).endExecution)
    (he : e = e') : Yields c s { (s.raise e') with composer := .ended } :=
  yields_of_proceed_eq h (he ▸ rfl)

/-- The first index at which a test holds is the one that is found. -/
theorem findIdx_eq_of_first {α : Type} {xs : List α} {p : α → Bool} {k : Nat} (holds : ∃ q, xs[k]? = some q ∧ p q = true)
    (first : ∀ j, j < k → ∀ q, xs[j]? = some q → p q = false) : xs.findIdx p = k := by
  obtain ⟨q, hq, hp⟩ := holds
  obtain ⟨hk, rfl⟩ := List.getElem?_eq_some_iff.1 hq
  exact (List.findIdx_eq hk).2 ⟨hp, fun j hj => first j hj _ (List.getElem?_eq_getElem _)⟩

/-- Settles O43: NOTE_CLEAR filters the table, and the youngest note at the point answers PROBE. -/
theorem notesClearedAndProbed : Obligations.NotesClearedAndProbed := by
  unfold Obligations.NotesClearedAndProbed
  refine ⟨fun s r h ho => ⟨fun hs hn => ?_, fun hs => ?_⟩, fun s r g h hg hx hy => ?_⟩
  · exact yields_carryOut (exec_noteClearOne h hs) (State.clearChecks_pass ho (.inl ⟨hs, hn⟩))
  · exact yields_carryOut (exec_noteClearAll h hs) (State.clearChecks_pass ho (.inr hs))
  · have answer := State.probeAnswer_eq (i := r.slot) hg hx hy
    refine ⟨fun none_there => ?_, fun n hn hslot hpoint oldest k holds first => ?_⟩
    · have empty : s.notesAt r.slot r.probeX r.probeY = [] := by
        refine List.eq_nil_iff_forall_not_mem.2 fun n hn => ?_
        obtain ⟨hmem, hslot, hpoint⟩ := State.mem_notesAt.1 hn
        exact Bool.eq_false_iff.1 (none_there n hmem hslot) hpoint
      rw [empty] at answer
      exact yields_told (exec_probe h) (State.probeEvent_none answer)
    · rw [youngest_eq (State.mem_notesAt.2 ⟨hn, hslot, hpoint⟩) fun m hm hne =>
        have ⟨hmem, hslot', hpoint'⟩ := State.mem_notesAt.1 hm
        oldest m hmem hslot' hpoint' hne] at answer
      refine yields_told (exec_probe h) ?_
      rw [State.probeEvent_some answer, findIdx_eq_of_first holds first]

end Sys2Proof.Machine
end

section
/-! SUPPORT. The statement about HIGHLIGHT: the lines of its selection, the note that it makes or adds to, and the drawing
that it begins (R88 to R97). -/

namespace Sys2Proof.Machine

/-! ## Lines and their rectangles (R91, R92) -/

/-- The entries of a selection on the line of one of them. -/
def lineOf (sel : List LogEntry) (head : LogEntry) : List LogEntry := sel.filter (·.sameLine head)

theorem mem_lineOf {sel : List LogEntry} {head e : LogEntry} :
    e ∈ lineOf sel head ↔ e ∈ sel ∧ head.column = e.column ∧ head.baseline = e.baseline := by
  unfold lineOf
  rw [List.mem_filter, LogEntry.sameLine_iff, eq_comm (a := e.column), eq_comm (a := e.baseline)]

/-- The smallest of some numbers, one of them the start of the comparison. -/
theorem foldl_min_spec {xs : List Int} {x : Int} (hx : x ∈ xs) :
    (∀ y ∈ xs, xs.foldl min x ≤ y) ∧ xs.foldl min x ∈ xs := by
  obtain ⟨hmem, hle⟩ := List.min?_eq_some_iff.1 (List.min?_cons' (x := x) (xs := xs))
  refine ⟨fun y hy => hle y (List.mem_cons_of_mem x hy), ?_⟩
  rcases List.mem_cons.1 hmem with h | h
  · rwa [h]
  · exact h

/-- The largest of some numbers, one of them the start of the comparison. -/
theorem foldl_max_spec {xs : List Int} {x : Int} (hx : x ∈ xs) :
    (∀ y ∈ xs, y ≤ xs.foldl max x) ∧ xs.foldl max x ∈ xs := by
  obtain ⟨hmem, hle⟩ := List.max?_eq_some_iff.1 (List.max?_cons' (x := x) (xs := xs))
  refine ⟨fun y hy => hle y (List.mem_cons_of_mem x hy), ?_⟩
  rcases List.mem_cons.1 hmem with h | h
  · rwa [h]
  · exact h

/-- The rectangle of a line that a selected entry heads reaches to the extremes of the line's entries, clamped to the
panel. -/
theorem State.lineRect_spec (s : State) {sel : List LogEntry} {head : LogEntry} (hh : head ∈ sel) :
    ∃ (left right : Int) (up down : Nat),
      (∀ e ∈ lineOf sel head,
        left ≤ e.xLeft ∧ e.xRight ≤ right ∧ s.ascent e.font ≤ up ∧ s.descent e.font ≤ down) ∧
      (∃ e ∈ lineOf sel head, e.xLeft = left) ∧ (∃ e ∈ lineOf sel head, e.xRight = right) ∧
      (∃ e ∈ lineOf sel head, s.ascent e.font = up) ∧ (∃ e ∈ lineOf sel head, s.descent e.font = down) ∧
      s.lineRect sel head =
        { baseline := head.baseline
          rect :=
            { left := min left.toNat s.geometry.width, right := min right.toNat s.geometry.width
              top := min (head.baseline - up) s.geometry.height
              bottom := min (head.baseline + down) s.geometry.height } } := by
  have own : head ∈ lineOf sel head := mem_lineOf.2 ⟨hh, rfl, rfl⟩
  have some_value (f : LogEntry → Nat) : (lineOf sel head).map f ≠ [] :=
    List.ne_nil_of_mem (List.mem_map_of_mem own)
  obtain ⟨left_le, left_mem⟩ := foldl_min_spec (List.mem_map_of_mem (f := (·.xLeft)) own)
  obtain ⟨le_right, right_mem⟩ := foldl_max_spec (List.mem_map_of_mem (f := (·.xRight)) own)
  obtain ⟨le_up, up_mem⟩ := largestNat_spec (some_value (fun e => s.ascent e.font))
  obtain ⟨le_down, down_mem⟩ := largestNat_spec (some_value (fun e => s.descent e.font))
  rw [List.forall_mem_map] at left_le le_right le_up le_down
  refine ⟨_, _, _, _, fun e he => ⟨left_le e he, le_right e he, le_up e he, le_down e he⟩, List.mem_map.1 left_mem,
    List.mem_map.1 right_mem, List.mem_map.1 up_mem, List.mem_map.1 down_mem, ?_⟩
  unfold State.lineRect clampInt
  dsimp only
  rw [Int.toNat_sub]
  rfl

/-- A rectangle that holds a pixel, as the statements write it. -/
theorem Rect.nonempty_eq (p : Rect) : p.nonempty = decide (p.left < p.right ∧ p.top < p.bottom) :=
  (Bool.decide_and ..).symm

/-! ## Notes made and added to (R88, R93 to R95) -/

/-- The state with another Note Anchor Table and creation counter. -/
def State.withNotes (s : State) (notes : List Note) (counter : Nat) : State :=
  { s with notes := notes, noteCounter := counter }

/-- A note created at the top of the creation counter comes after the notes that stand, numbered anew (R88). -/
theorem State.createNote_top {s : State} {n : Note} (h : s.noteCounter = 0xFFFFFFFF) :
    s.createNote n =
      s.withNotes
        (s.notes.zipIdx.map (fun p => { p.1 with sequence := p.2 }) ++ [{ n with sequence := s.notes.length }])
        (s.notes.length + 1) := by
  have renumbered : s.renumberNotes =
      s.withNotes (s.notes.zipIdx.map (fun p => { p.1 with sequence := p.2 })) s.notes.length := if_pos h
  unfold State.createNote
  rw [renumbered]
  rfl

/-- A note that is found is of the slot and id that it is sought by (R87). -/
theorem State.findNote_key {s : State} {i : Fin 4} {id : Nat} {n : Note} (h : s.findNote i id = some n) :
    n.slot = i ∧ n.id = id := by
  unfold State.findNote at h
  simpa using List.find?_some h

/-- The note that is found gains its rectangles. -/
theorem State.extendNote_eq {s : State} {i : Fin 4} {id : Nat} {n : Note} (h : s.findNote i id = some n)
    (rects : List Rect) :
    s.extendNote n rects =
      s.withNotes
        (s.notes.map (fun m => if m.slot = i ∧ m.id = id then { m with rects := m.rects ++ rects } else m))
        s.noteCounter := by
  obtain ⟨rfl, rfl⟩ := State.findNote_key h
  unfold State.extendNote
  simp only [Bool.and_eq_true, beq_iff_eq]
  rfl

/-- HIGHLIGHT_CUT is raised alike in states that agree in the Reporter, the tunable limits and the time. -/
theorem State.raiseCut_eq {s t : State} (hr : t.reporter = s.reporter) (ht : t.tune = s.tune) (hw : t.time = s.time)
    (r : Record) (dropped held : Nat) :
    t.raiseCut r dropped held = { t with reporter := (s.raiseCut r dropped held).reporter } := by
  unfold State.raiseCut
  split
  · rw [← hr]
  · exact State.raise_eq hr ht hw _

/-- HIGHLIGHT_CUT is raised, and the drawing begun, alike before and after the table changes. -/
theorem State.beginDrawing_eq {s t : State} {notes : List Note} {counter : Nat} (ht : t = s.withNotes notes counter)
    (r : Record) (dropped held : Nat) (style : NoteStyle) (tone : Nat) {ls : List LineRect}
    (hl : ∀ l ∈ ls, l.rect.nonempty = true) :
    State.beginPainting (t.raiseCut r dropped held) r.slot (notePaints style tone s.geometry.height ls) =
      { s.raiseCut r dropped held with
        notes := notes, noteCounter := counter, composer := s.drawing r.slot (s.noteDrawing style tone ls) } := by
  subst ht
  rw [notePaints_eq, State.beginPainting_eq _ _ _ (s.noteDrawing_nonempty style tone ls hl),
    State.raiseCut_eq (s := s) (t := s.withNotes notes counter) rfl rfl rfl, State.raiseCut_eq (s := s) rfl rfl rfl]
  rfl

/-! ## HIGHLIGHT (R90 to R97) -/

theorem exec_highlight {s : State} {r : Record} (h : s.executing r .highlight) :
    exec .highlight s = proceed s (s.checked r (s.highlightChecks r) (s.doHighlight r)) :=
  onRecord_eq h h.isKind

/-- The checks of a HIGHLIGHT with a note id and a defined style for an OPEN page slot (R90). -/
theorem State.highlightChecks_eq {s : State} {r : Record} {style : NoteStyle} (ho : (s.page r.slot).isOpen = true)
    (hn : r.highlightNote ≠ 0) (hs : styleOf r.highlightStyle = some style) :
    firstFailing (s.highlightChecks r) =
      if s.lineRects (s.selection r) = [] then some .noTrace
      else if s.findNote r.slot r.highlightNote = none ∧ 64 ≤ s.notes.length then some .notesFull
      else none := by
  unfold State.highlightChecks Config.noteEntries
  simp [ho, hn, hs]

/-- It passes them where a line is left, and the note stands or the table has an entry for it. -/
theorem State.highlightChecks_pass {s : State} {r : Record} {style : NoteStyle} (ho : (s.page r.slot).isOpen = true)
    (hn : r.highlightNote ≠ 0) (hs : styleOf r.highlightStyle = some style) (hl : s.lineRects (s.selection r) ≠ [])
    (room : s.findNote r.slot r.highlightNote = none → s.notes.length < 64) :
    firstFailing (s.highlightChecks r) = none := by
  rw [State.highlightChecks_eq ho hn hs, if_neg hl, if_neg fun full => Nat.not_le.2 (room full.1) full.2]

/-- A HIGHLIGHT of a note that does not stand makes it, with the first 8 lines. -/
theorem State.doHighlight_new {s : State} {r : Record} {style : NoteStyle} {notes : List Note} {counter : Nat}
    (hs : styleOf r.highlightStyle = some style) (hf : s.findNote r.slot r.highlightNote = none) :
    let lines := s.lineRects (s.selection r)
    let first := lines.take 8
    s.createNote
        { slot := r.slot, id := r.highlightNote, pageId := (s.page r.slot).pageId, style := style,
          tone := r.highlightTone, sequence := 0, rects := first.map (·.rect) } = s.withNotes notes counter →
    s.doHighlight r =
      { s.raiseCut r (lines.length - first.length) first.length with
        notes := notes, noteCounter := counter
        composer := s.drawing r.slot (s.noteDrawing style r.highlightTone first) } := by
  intro lines first created
  have drawn (l : LineRect) (hl : l ∈ first) : l.rect.nonempty = true :=
    s.lineRects_nonempty _ l (List.mem_of_mem_take hl)
  unfold State.doHighlight
  rw [hf, hs]
  exact State.beginDrawing_eq created r _ _ style r.highlightTone drawn

/-- A HIGHLIGHT of a note that stands adds to it the lines that it does not hold yet, up to 8. -/
theorem State.doHighlight_standing {s : State} {r : Record} {n : Note}
    (hf : s.findNote r.slot r.highlightNote = some n) :
    let fresh := freshRects n.rects (s.lineRects (s.selection r))
    let more := fresh.take (8 - n.rects.length)
    s.doHighlight r =
      { s.raiseCut r (fresh.length - more.length) (n.rects.length + more.length) with
        notes := s.notes.map (fun m =>
          if m.slot = r.slot ∧ m.id = r.highlightNote then { m with rects := m.rects ++ more.map (·.rect) } else m)
        composer := s.drawing r.slot (s.noteDrawing n.style n.tone more) } := by
  intro fresh more
  have drawn (l : LineRect) (hl : l ∈ more) : l.rect.nonempty = true :=
    s.lineRects_nonempty _ l ((freshRects_spec _ n.rects).1.subset (List.mem_of_mem_take hl))
  have extended := State.extendNote_eq hf (more.map (·.rect))
  unfold State.doHighlight
  rw [hf]
  refine (State.beginDrawing_eq extended r (fresh.length - more.length) (n.rects.length + more.length) n.style n.tone
    drawn).trans ?_
  rw [State.raiseCut_eq (s := s) rfl rfl rfl]

/-- Settles O42: the selection and its lines, the refusals, and the note that HIGHLIGHT makes or adds to. -/
theorem highlightMarks : Obligations.HighlightMarks := by
  unfold Obligations.HighlightMarks
  refine ⟨fun s r => ⟨fun e => ?_, List.filter_sublist⟩, fun s sel => ?_, fun s r style h ho hn hs => ?_⟩
  · unfold State.selection
    rw [List.mem_filter, LogEntry.selected_iff]
  · intro sameLine
    obtain ⟨sub, apart, covered, heads⟩ := lineHeads_spec sel []
    simp only [LogEntry.sameLine_iff] at apart covered heads
    refine ⟨lineHeads [] sel, sub, apart, fun e he => (covered e he).resolve_left (by simp),
      fun head hh => (heads head hh).2, ?_, fun head hh => ?_⟩
    · simp only [State.lineRects, Rect.nonempty_eq]
    · simpa only [mem_lineOf, and_imp, and_assoc, sameLine] using s.lineRect_spec (sub.subset hh)
  · intro lines cut
    have hx := exec_highlight h
    have checks := State.highlightChecks_eq ho hn hs
    refine ⟨fun hl => ?_, fun hl hf hfull => ?_, fun hl hf hroom hc => ?_, fun hl hf hroom hc => ?_,
      fun n hl hf => ?_⟩
    · exact yields_refused hx (by rw [checks, if_pos hl])
    · exact yields_refused hx (by rw [checks, if_neg hl, if_pos ⟨hf, hfull⟩])
    · rw [State.doHighlight_new hs hf (State.createNote_eq hc)] at hx
      exact yields_carryOut hx (State.highlightChecks_pass ho hn hs hl fun _ => hroom)
    · rw [State.doHighlight_new hs hf (State.createNote_top hc)] at hx
      exact yields_carryOut hx (State.highlightChecks_pass ho hn hs hl fun _ => hroom)
    · obtain ⟨sub, distinct, unheld, taken⟩ := freshRects_spec lines n.rects
      refine ⟨freshRects n.rects lines, sub, distinct, unheld, taken, ?_⟩
      rw [State.doHighlight_standing hf] at hx
      exact yields_carryOut hx (State.highlightChecks_pass ho hn hs hl fun unknown => by simp [hf] at unknown)

end Sys2Proof.Machine
end

section
/-! SUPPORT. The statement about REFRESH: its rectangle in tiles, its refusals and the decision on its request. -/

namespace Sys2Proof.Machine

/-! ## REFRESH (R112, R113, R115 to R118) -/

/-- The commit of a REFRESH record that is granted, with its number (R105). -/
def State.refreshCommit (s : State) (mode : Mode) : Commit :=
  { origin := .refresh, mode := some mode, number := s.commit.nextNumber }

/-- The PANEL request that it makes (R112). -/
def State.refreshRequest (s : State) (r : Record) (mode : Mode) : Request :=
  { source := none, rect := s.refreshTiles r, mode := mode, commits := [s.commit.nextNumber], repair := false }

/-- The state in which a granted REFRESH has taken its number, before its request is decided upon (R104, R105). -/
def State.refreshGranted (s : State) : State := { s.takeNumber with composer := .atCommitEngine }

/-- The rectangle of a REFRESH in tiles: whole, or clamped and snapped outward. -/
theorem State.refreshTiles_eq {s : State} {g : Geometry} (h : s.supply.geometry = some g) (r : Record) :
    s.refreshTiles r =
      if r.refreshWhole = true then { left := 0, top := 0, right := g.width / 32, bottom := g.height / 32 }
      else
        { left := min r.refreshRect.left g.width / 32, top := min r.refreshRect.top g.height / 32
          right := (min r.refreshRect.right g.width + 31) / 32
          bottom := (min r.refreshRect.bottom g.height + 31) / 32 } := by
  unfold State.refreshTiles
  rw [State.geometry_eq h]
  rfl

/-- A rectangle is empty exactly where it is the record's own and spans no tile one way or the other. -/
theorem State.refreshEmpty_iff {s : State} {r : Record} :
    s.refreshEmpty r = true ↔ r.refreshWhole = false ∧
      ((s.refreshTiles r).right ≤ (s.refreshTiles r).left ∨ (s.refreshTiles r).bottom ≤ (s.refreshTiles r).top) := by
  unfold State.refreshEmpty Rect.nonempty
  simp only [Bool.and_eq_true, Bool.not_eq_true', Bool.and_eq_false_iff, decide_eq_false_iff_not, Nat.not_lt]

/-- A record of a defined mode whose rectangle spans some tile passes its checks (R113). -/
theorem State.refreshChecks_pass {s : State} {r : Record} {g : Geometry} {mode : Mode}
    (hg : s.supply.geometry = some g) (hm : refreshModeOf r.refreshMode = some mode)
    (ht : r.refreshWhole = true ∨
      ((s.refreshTiles r).left < (s.refreshTiles r).right ∧ (s.refreshTiles r).top < (s.refreshTiles r).bottom)) :
    firstFailing (s.refreshChecks r) = none := by
  have filled : s.refreshEmpty r = false := by
    refine Bool.eq_false_iff.2 fun he => ?_
    obtain ⟨hw, hempty⟩ := State.refreshEmpty_iff.1 he
    obtain ⟨hl, ht⟩ := ht.resolve_left (by simp [hw])
    omega
  simp [State.refreshChecks, hg, hm, filled]

/-- A granted REFRESH of a defined mode, carried out or refused. -/
theorem exec_refresh {s : State} {r : Record} (hr : s.executing r .refresh) (hf : s.engineFree) {mode : Mode}
    (hm : refreshModeOf r.refreshMode = some mode) :
    exec .refresh s =
      proceed s (s.checked r (s.refreshChecks r)
        (s.refreshGranted.decideRequest (s.refreshCommit mode) (s.refreshRequest r mode))) := by
  have hx : exec .refresh s = proceed s _ := onHandOver_eq hr hf
  rw [hx, hm]
  rfl

/-- Settles O48: a REFRESH is refused, or its PANEL request is merged, appended or left waiting. -/
theorem refreshRequests : Obligations.RefreshRequests := by
  unfold Obligations.RefreshRequests
  intro s r hr hf
  have hx : exec .refresh s = proceed s (s.checked r (s.refreshChecks r) _) := onHandOver_eq hr hf
  refine ⟨fun hg => yields_refused hx (by simp [State.refreshChecks, hg]), fun g hg => ?_⟩
  intro f tiles
  have tiled : tiles = s.refreshTiles r := (State.refreshTiles_eq hg r).symm
  clear_value tiles
  subst tiled
  refine ⟨fun hm => ?_, fun hw ht => ?_, fun mode hm ht => ?_⟩
  · exact yields_refused hx (by simp [State.refreshChecks, hg, hm])
  · exact yields_refused hx (by simp [State.refreshChecks, hg, State.refreshEmpty_iff.2 ⟨hw, ht⟩])
  · intro c q numbered
    have decided : Yields .refresh s (s.refreshGranted.decideRequest c q) :=
      yields_carryOut (exec_refresh hr hf hm) (State.refreshChecks_pass hg hm ht)
    have quiet (t : State) : t.noDiscardWaits c := fun i hi => by cases hi
    refine ⟨fun before p younger hmerge => ?_, fun hn hl => ?_, fun hn hl => ?_⟩
    · have merged := State.decideRequest_merge (s := s.refreshGranted) (c := c)
        (mergePending_eq_some.2 ⟨before, p, younger, hmerge, rfl⟩)
      rw [merged, State.endCommit_left (quiet _)] at decided
      exact decided
    · rw [State.decideRequest_append (s := s.refreshGranted) (mergePending_eq_none.2 hn) hl] at decided
      obtain ⟨t, ht, hagrees⟩ := decided
      exact ⟨t, ht, State.agrees_trans hagrees (State.append_endCommit_left (quiet _))⟩
    · rw [State.decideRequest_wait (s := s.refreshGranted) (mergePending_eq_none.2 hn) hl] at decided
      exact decided

end Sys2Proof.Machine
end

section
/-! SUPPORT. The statement about the waveform check: its grants, the two refusals at its end, and the LOAD that
succeeds. -/

namespace Sys2Proof.Machine

/-! ## The checks at the end (R139, R140) -/

theorem State.lengthsOk_iff {s : State} : s.lengthsOk = true ↔
    ∀ i, i < 32 → 1 ≤ (s.storeWord (8 + i)).toNat ∧ (s.storeWord (8 + i)).toNat ≤ 64 := by
  unfold State.lengthsOk
  simp only [List.all_eq_true, List.mem_range, Bool.and_eq_true, decide_eq_true_eq]

theorem State.thresholdsOk_iff {s : State} : s.thresholdsOk = true ↔
    ∀ i, i < 6 → (s.storeWord i).toInt ≤ (s.storeWord (i + 1)).toInt := by
  unfold State.thresholdsOk
  simp only [List.all_eq_true, List.mem_range, decide_eq_true_eq]

/-- A check passes with the record's sum, unspoilt, and with lengths and thresholds as R140 wants them. -/
theorem State.checkPasses_iff {s : State} {k : Check} {r : Record} : s.checkPasses k r = true ↔
    k.sum = r.panelCheck ∧ k.spoilt = false ∧
      (∀ i, i < 32 → 1 ≤ (s.storeWord (8 + i)).toNat ∧ (s.storeWord (8 + i)).toNat ≤ 64) ∧
      (∀ i, i < 6 → (s.storeWord i).toInt ≤ (s.storeWord (i + 1)).toInt) := by
  unfold State.checkPasses
  rw [← State.lengthsOk_iff, ← State.thresholdsOk_iff]
  simp only [Bool.and_eq_true, decide_eq_true_eq, Bool.not_eq_true']
  tauto

/-- The slots that are not FREE, by their updates. -/
theorem State.mem_busyUpdates {s : State} {x : Update} : x ∈ s.busyUpdates ↔ ∃ u, s.update u = some x := by
  unfold State.busyUpdates State.update
  simp [Vector.mem_iff_getElem, Fin.exists_iff]

theorem State.anySlot_iff {s : State} {st : UpdateState} :
    s.anySlot st = true ↔ ∃ u x, s.update u = some x ∧ x.state = st := by
  unfold State.anySlot
  simp only [List.any_eq_true, State.mem_busyUpdates, beq_iff_eq]
  exact ⟨fun ⟨x, ⟨u, hu⟩, hx⟩ => ⟨u, x, hu, hx⟩, fun ⟨u, x, hu, hx⟩ => ⟨x, ⟨u, hu⟩, hx⟩⟩

theorem State.allFree_eq_false_iff {s : State} : s.allFree = false ↔ ∃ u x, s.update u = some x := by
  unfold State.allFree
  rw [List.isEmpty_eq_false_iff_exists_mem]
  simp only [State.mem_busyUpdates]
  exact exists_comm

theorem PanelState.isDown_eq_false_iff {p : PanelState} :
    p.isDown = false ↔ p ≠ .unconfigured ∧ p ≠ .off ∧ p ≠ .failed := by
  cases p <;> simp [PanelState.isDown]

/-- The conditions of BUSY for a LOAD, as R139 gives them. -/
theorem State.loadBusy_iff {s : State} {r : Record} : s.loadBusy r = true ↔
    (s.supply.panel ≠ .unconfigured ∧ s.supply.panel ≠ .off ∧ s.supply.panel ≠ .failed) ∨ s.updates.repairs ≠ [] ∨
    ∃ u x, s.update u = some x ∧
      (s.supply.panel = .failed ∧ s.supply.geometry = some r.panelGeometry →
        x.state = .active ∨ x.state = .frozen) := by
  have keeps : s.changesGeometry r = false ↔ s.supply.geometry = some r.panelGeometry := by
    unfold State.changesGeometry; simp
  unfold State.loadBusy State.panelBusy
  simp only [Bool.or_eq_true, Bool.not_eq_true', PanelState.isDown_eq_false_iff, keeps, List.isEmpty_eq_false_iff,
    or_assoc]
  refine or_congr_right (or_congr_right ?_)
  split_ifs with h
  · simp only [Bool.or_eq_true, State.anySlot_iff, h, and_self, true_implies, and_or_left, exists_or]
  · simp only [Bool.not_eq_true', State.allFree_eq_false_iff, h, false_implies, and_true]

/-! ## The end of the check (R140, R141) -/

/-- WAVEFORM_CHECK_END of the record in execution. -/
theorem exec_waveformCheckEnd {s : State} {r : Record} {rest : List Record} {k : Check} (hq : s.queue = r :: rest)
    (hc : s.supply.check = some k) (hn : k.next = 32832) (hk : k.clearing = false) :
    exec .waveformCheckEnd s =
      proceed s
        (if s.checkPasses k r then
          if s.loadBusy r then s.refuseLoad r .busy
          else if s.changesGeometry r then (s.setSupply (s.supply.load r)).changeGeometry k r.panelGeometry
          else (s.setSupply (s.supply.load r)).finishLoad
         else s.refuseLoad r .badWaveform) := by
  have head : s.headRecord = r := by unfold State.headRecord; rw [hq]; rfl
  show execWaveformCheckEnd s = _
  unfold execWaveformCheckEnd
  rw [hc, head]
  exact if_pos ⟨hn, hk⟩

/-- The Supply Controller of a LOAD that is done, before a READY slot is looked for (R141). -/
def Supply.loadedOff (p : Supply) : Supply := { p with panel := .off, attempt := 0, check := none }

/-- The first rise attempt of a panel whose panel-ready line is low (R145). -/
theorem Supply.enterRising_waits {p : Supply} (h : p.readyLine = false) :
    p.enterRising =
      { p with
        panel := .rising, attempt := 1, enable := true, gapTimer := none, riseTimer := some p.riseTimeout } := by
  unfold Supply.enterRising Supply.beginAttempt
  exact if_neg (ne_true_of_eq_false h)

/-- The first rise attempt of a panel whose panel-ready line is already asserted; the attempt number is kept (R145, log
entry 22). -/
theorem Supply.enterRising_on {p : Supply} (h : p.readyLine = true) :
    p.enterRising =
      { p with
        panel := .on, attempt := 1, enable := true, gapTimer := none, riseTimer := none, lossNoted := false
        readingsAsked := p.readingsAsked + 1, readingTimer := some 30000 } := by
  unfold Supply.enterRising Supply.beginAttempt
  exact if_pos h

/-- A panel that is OFF rises where a slot is READY (R145). -/
theorem State.riseIfReady_off {s : State} (h : s.supply.panel = .off) :
    s.riseIfReady = s.setSupply (if s.anySlot .ready = true then s.supply.enterRising else s.supply) := by
  unfold State.riseIfReady
  simp only [h, true_and]
  split <;> rfl

/-- A LOAD that is done takes a panel that was down to OFF, and on to its first rise attempt where a slot is READY. -/
theorem State.finishLoad_eq (s : State) {p : Supply}
    (hp : p.panel = .unconfigured ∨ p.panel = .off ∨ p.panel = .failed) :
    (s.setSupply p).finishLoad =
      { s with
        supply := if s.anySlot .ready = true then p.loadedOff.enterRising else p.loadedOff
        updates := { s.updates with due := true }, composer := .ended } := by
  have off : (s.setSupply p).finishLoad = (s.setSupply p.loadedOff).callConsideration.riseIfReady.endExecution := by
    unfold State.finishLoad Supply.loadedOff
    rw [State.setSupply_supply]
    rcases hp with h | h | h <;> rw [h] <;> rfl
  rw [off, State.riseIfReady_off rfl]
  rfl

/-- Events are raised alike whatever the Commit Engine, the Update Scheduler and the Supply Controller hold. -/
theorem State.raiseAll_with (s : State) (c : CommitEngine) (u : Scheduler) (p : Supply) (es : List Event) :
    State.raiseAll { s with commit := c, updates := u, supply := p } es =
      { s.raiseAll es with commit := c, updates := u, supply := p } := by
  have told := State.raiseAll_reporter (es := es) (s := s)
    (t := { s with commit := c, updates := u, supply := p }) rfl rfl rfl
  rw [State.raiseAll_eq es { s with commit := c, updates := u, supply := p }, told, State.raiseAll_eq es s]

/-- A geometry change cancels every entry of the Pending List, oldest first (R120). -/
theorem State.cancelAll_eq (s : State) :
    s.cancelAll =
      { (s.raiseAll (cancelEvents none s.commit.pending)) with
        commit := { (s.commit) with pending := [] }
        updates := { (s.updates) with due := s.updates.due || !s.commit.pending.isEmpty } } := by
  unfold State.cancelAll
  dsimp only
  rw [State.raiseAll_with, State.raiseAll_eq _ s]
  cases s.commit.pending with
  | nil => simp
  | cons e es => simp [State.callConsideration]

theorem State.raiseAll_setSupply (s : State) (p : Supply) (es : List Event) :
    (s.setSupply p).raiseAll es = (s.raiseAll es).setSupply p :=
  (State.raiseAll_with s s.commit s.updates p es).trans (by rw [State.raiseAll_eq es s]; rfl)

theorem State.cancelAll_setSupply (s : State) (p : Supply) : (s.setSupply p).cancelAll = s.cancelAll.setSupply p := by
  rw [State.cancelAll_eq, State.cancelAll_eq, State.raiseAll_setSupply]
  rfl

/-- A LOAD that changes the geometry cancels the Pending List and begins the clearing (R120, R141). -/
theorem State.changeGeometry_eq {s : State} (p : Supply) (k : Check) {g : Geometry} (hg : g.legal) :
    (s.setSupply p).changeGeometry k g =
      { (s.raiseAll (cancelEvents none s.commit.pending)) with
        commit := { (s.commit) with pending := [] }
        supply := { p with geometry := some g, check := some { k with clearing := true } }
        columns := Vector.replicate 4 none
        updates := { (s.updates) with ghosts := [], due := s.updates.due || !s.commit.pending.isEmpty }
        loader := { (s.loader) with clear := some { words := g.width * g.height / 2 / 4, next := 0 } } } := by
  have clears : Clear.start (g.imageBytes / 4) = some { words := g.width * g.height / 2 / 4, next := 0 } := by
    obtain ⟨-, hw, -, -, hh, -⟩ := hg
    have := Nat.mul_le_mul hw hh
    unfold Clear.start Geometry.imageBytes
    rw [if_neg (by omega)]
  unfold State.changeGeometry
  rw [clears, State.cancelAll_setSupply, State.cancelAll_setSupply, State.cancelAll_eq, State.raiseAll_eq _ s]
  rfl

/-! ## The grants of the check (R140) -/

/-- A grant of the check adds its words. -/
theorem State.serveCheck_eq {s : State} {k : Check} (hk : s.supply.check = some k) :
    s.serveCheck =
      { s with supply := { (s.supply) with check := (some
          { k with
            next := k.next + min 8 (32832 - k.next)
            sum := (s.mem.words (s.memBytes - 0x600000 + 0x500000 + 4 * k.next)
              (min 8 (32832 - k.next))).foldl (· + ·) k.sum }) } } := by
  unfold State.serveCheck
  rw [hk]
  rfl

/-- Settles O45: the checks at the end of the waveform check choose between its two refusals and the LOAD. -/
theorem waveformCheckEnds : Obligations.WaveformCheckEnds := by
  unfold Obligations.WaveformCheckEnds
  refine ⟨fun s r rest k hq hc hn hk => ?_, fun needs pick s k hg hk => ?_⟩
  · have hx := exec_waveformCheckEnd hq hc hn hk
    intro passes keeps busy refusedWith loaded finished
    have passes_iff : s.checkPasses k r = true ↔ passes := State.checkPasses_iff
    have busy_iff : s.loadBusy r = true ↔ busy := State.loadBusy_iff
    have changes_iff : s.changesGeometry r = true ↔ ¬ keeps := decide_eq_true_iff
    refine ⟨fun hp => ?_, fun hp hb => ?_, fun hp hb hg => ?_, fun hp hb hg hl => ?_⟩
    · rw [if_neg (mt passes_iff.1 hp)] at hx
      exact yields_of_proceed hx
    · rw [if_pos (passes_iff.2 hp), if_pos (busy_iff.2 hb)] at hx
      exact yields_of_proceed hx
    · have down : s.supply.panel = .unconfigured ∨ s.supply.panel = .off ∨ s.supply.panel = .failed := by
        by_contra up
        exact hb (.inl (by simpa only [not_or] using up))
      rw [if_pos (passes_iff.2 hp), if_neg (mt busy_iff.1 hb), if_neg (fun h => changes_iff.1 h hg),
        s.finishLoad_eq (p := s.supply.load r) down] at hx
      refine ⟨fun hr => ?_, fun hr hline => ?_, fun hr hline => ?_⟩
      · rw [if_neg (ne_true_of_eq_false hr)] at hx
        exact yields_of_proceed hx
      · rw [if_pos hr, Supply.enterRising_waits (p := (s.supply.load r).loadedOff) hline] at hx
        exact yields_of_proceed hx
      · rw [if_pos hr, Supply.enterRising_on (p := (s.supply.load r).loadedOff) hline] at hx
        exact yields_of_proceed hx
    · rw [if_pos (passes_iff.2 hp), if_neg (mt busy_iff.1 hb), if_pos (changes_iff.2 hg),
        State.changeGeometry_eq _ _ hl] at hx
      exact yields_of_proceed hx
  · intro n
    exact yields_of_proceed_eq hg.exec_eq (State.serveCheck_eq (s := { s with port := _ }) hk)

end Sys2Proof.Machine
end

section
/-! SUPPORT. The operations that leave the Commit Engine and the Update Scheduler as they are, said once for each that
branches: paintings, notes, runs of glyphs, the Relay, the Ring Decoder, the Reporter and the Slot Loader's grants. -/

namespace Sys2Proof.Machine

variable (s : State)

/-- Items taken one after another leave what each of them leaves. -/
theorem State.foldl_commit_updates {α : Type} {f : State → α → State}
    (hf : ∀ s x, (f s x).commit = s.commit ∧ (f s x).updates = s.updates) (xs : List α) : ∀ s : State,
    (xs.foldl f s).commit = s.commit ∧ (xs.foldl f s).updates = s.updates := by
  induction xs with
  | nil => exact fun _ => ⟨rfl, rfl⟩
  | cons x xs ih =>
    intro s
    obtain ⟨hc, hu⟩ := ih (f s x)
    exact ⟨hc.trans (hf s x).1, hu.trans (hf s x).2⟩

/-! ## Events and answers -/

@[simp] theorem State.raiseAll_commit_updates (es : List Event) :
    (s.raiseAll es).commit = s.commit ∧ (s.raiseAll es).updates = s.updates :=
  State.foldl_commit_updates (fun s e => ⟨s.raise_commit e, s.raise_updates e⟩) es s

@[simp] theorem conclude_commit_updates (before after : State) :
    (conclude before after).commit = after.commit ∧ (conclude before after).updates = after.updates := by
  simp [conclude]

@[simp] theorem State.refuse_commit_updates (r : Record) (reason : Reason) :
    (s.refuse r reason).commit = s.commit ∧ (s.refuse r reason).updates = s.updates := by
  simp [State.refuse]

/-! ## Painting, copying and notes (R9, R46, R47, R88 to R99) -/

@[simp] theorem State.resumePainting_commit_updates (p : Painting) :
    (s.resumePainting p).commit = s.commit ∧ (s.resumePainting p).updates = s.updates := by
  unfold State.resumePainting
  split <;> simp

@[simp] theorem State.beginPainting_commit_updates (i : Fin 4) (paints : List Paint) :
    (s.beginPainting i paints).commit = s.commit ∧ (s.beginPainting i paints).updates = s.updates := by
  simp [State.beginPainting]

@[simp] theorem State.servePainting_commit_updates (p : Painting) :
    (s.servePainting p).commit = s.commit ∧ (s.servePainting p).updates = s.updates := by
  unfold State.servePainting
  split
  · simp
  · dsimp only
    split
    · simp [State.markOffsets]
    · split <;> simp [State.markOffsets]

@[simp] theorem State.serveCopying_commit_updates (c : Copying) :
    (s.serveCopying c).commit = s.commit ∧ (s.serveCopying c).updates = s.updates := by
  unfold State.serveCopying
  dsimp only
  split
  · simp
  · split <;> simp [State.markOffsets]

@[simp] theorem State.createNote_commit_updates (n : Note) :
    (s.createNote n).commit = s.commit ∧ (s.createNote n).updates = s.updates := by
  unfold State.createNote State.renumberNotes
  split <;> simp

@[simp] theorem State.copyNotes_commit_updates (source dest : Fin 4) :
    (s.copyNotes source dest).commit = s.commit ∧ (s.copyNotes source dest).updates = s.updates :=
  State.foldl_commit_updates (fun s _ => s.createNote_commit_updates _) _ (s.dropNotes dest)

@[simp] theorem State.raiseCut_commit_updates (r : Record) (dropped held : Nat) :
    (s.raiseCut r dropped held).commit = s.commit ∧ (s.raiseCut r dropped held).updates = s.updates := by
  unfold State.raiseCut
  split <;> simp

@[simp] theorem State.doHighlight_commit_updates (r : Record) :
    (s.doHighlight r).commit = s.commit ∧ (s.doHighlight r).updates = s.updates := by
  unfold State.doHighlight
  dsimp only
  split <;> simp [State.extendNote]

/-! ## Text (R65 to R86) -/

@[simp] theorem State.resetOpenCursors_commit_updates (k : Fin 4) :
    (s.resetOpenCursors k).commit = s.commit ∧ (s.resetOpenCursors k).updates = s.updates :=
  State.foldl_commit_updates (fun s i => by split <;> simp) _ s

@[simp] theorem State.appendLog_commit_updates (r : Run) (e : LogEntry) :
    (s.appendLog r e).commit = s.commit ∧ (s.appendLog r e).updates = s.updates := by
  unfold State.appendLog
  dsimp only
  split
  · simp
  · split <;> simp

@[simp] theorem State.endWord_commit_updates (r : Run) :
    (s.endWord r).1.commit = s.commit ∧ (s.endWord r).1.updates = s.updates := by
  unfold State.endWord
  split
  · simp
  · have logged (xs : List (List SetGlyph × Nat)) (t : State) :=
      State.foldl_commit_updates
        (fun s (x : List SetGlyph × Nat) => s.appendLog_commit_updates r (logEntryOf r x.1 x.2)) xs t
    dsimp only
    split <;> simp [State.overflowRun, logged]

@[simp] theorem State.forceBreak_commit_updates (r : Run) :
    (s.forceBreak r).1.commit = s.commit ∧ (s.forceBreak r).1.updates = s.updates := by
  unfold State.forceBreak
  dsimp only
  split <;> simp [State.overflowRun]

@[simp] theorem State.searchZero_commit_updates (r : Run) (b : Font) (l : Lookup) (n : Nat) :
    (s.searchZero r b l n).1.commit = s.commit ∧ (s.searchZero r b l n).1.updates = s.updates := by
  unfold State.searchZero
  split <;> simp

@[simp] theorem State.resolveOwn_commit_updates (r : Run) (b : Font) (l : Lookup) (g : Glyph) (bad : Bool) :
    (s.resolveOwn r b l g bad).1.commit = s.commit ∧ (s.resolveOwn r b l g bad).1.updates = s.updates := by
  unfold State.resolveOwn
  split_ifs <;> simp

@[simp] theorem State.beginLookup_commit_updates (r : Run) (b : Font) (l : Lookup) :
    (s.beginLookup r b l).1.commit = s.commit ∧ (s.beginLookup r b l).1.updates = s.updates := by
  unfold State.beginLookup
  split
  · split <;> simp
  · simp

@[simp] theorem State.readCode_commit_updates (r : Run) (code : BitVec 16) (rest : List (BitVec 16)) :
    (s.readCode r code rest).1.commit = s.commit ∧ (s.readCode r code rest).1.updates = s.updates := by
  unfold State.readCode
  dsimp only
  split
  · simp
  · split <;> simp

@[simp] theorem State.finishRun_commit_updates (r : Run) :
    (s.finishRun r).commit = s.commit ∧ (s.finishRun r).updates = s.updates := by
  unfold State.finishRun
  split <;> simp

/-- A run that goes on without a grant. -/
@[simp] theorem State.runOn_commit_updates (n : Nat) : ∀ (s : State) (r : Run),
    (s.runOn n r).commit = s.commit ∧ (s.runOn n r).updates = s.updates := by
  induction n with
  | zero => exact fun s r => ⟨rfl, rfl⟩
  | succ n ih =>
    intro s r
    unfold State.runOn
    split
    · simp
    · split
      · simp
      · exact ih _ _
      · simp [ih]
      · simp [ih, State.addSpace]
      · simp [ih]
      · split <;> simp [ih]

@[simp] theorem State.resumeRun_commit_updates (r : Run) :
    (s.resumeRun r).commit = s.commit ∧ (s.resumeRun r).updates = s.updates :=
  State.runOn_commit_updates _ s r

@[simp] theorem State.blendOn_commit_updates (r : Run) (touches : List Touch) :
    (s.blendOn r touches).commit = s.commit ∧ (s.blendOn r touches).updates = s.updates := by
  unfold State.blendOn
  split <;> simp [State.nextBlit]

@[simp] theorem State.serveRun_commit_updates (r : Run) :
    (s.serveRun r).commit = s.commit ∧ (s.serveRun r).updates = s.updates := by
  unfold State.serveRun
  split
  · split
    · unfold State.serveBitmap
      dsimp only
      split <;> simp
    · simp [State.markOffsets]
    · simp
    · simp [State.nextBlit]
  · split
    · unfold State.serveEntry
      dsimp only
      split <;> simp
    · simp

@[simp] theorem State.beginRun_commit_updates (r : Run) :
    (s.beginRun r).commit = s.commit ∧ (s.beginRun r).updates = s.updates := by
  unfold State.beginRun
  split
  · split <;> simp
  · simp

/-! ## The Relay (R1 to R9) -/

@[simp] theorem State.handOff_commit_updates (d : Handoff) :
    (s.handOff d).commit = s.commit ∧ (s.handOff d).updates = s.updates := by
  cases d with
  | nobody => exact ⟨rfl, rfl⟩
  | page e o =>
    show (s.draftWritten e o).commit = s.commit ∧ (s.draftWritten e o).updates = s.updates
    unfold State.draftWritten
    split
    · split <;> simp
    · simp
  | font e => exact ⟨rfl, rfl⟩
  | consumedCount => exact ⟨rfl, rfl⟩
  | faultClear =>
    show s.faultClearWritten.commit = s.commit ∧ s.faultClearWritten.updates = s.updates
    unfold State.faultClearWritten
    split <;> simp

@[simp] theorem State.landWrite_commit_updates (w : HostWrite) (d : Handoff) :
    (s.landWrite w d).commit = s.commit ∧ (s.landWrite w d).updates = s.updates := by
  simp [State.landWrite]

@[simp] theorem State.serveRelay_commit_updates :
    s.serveRelay.commit = s.commit ∧ s.serveRelay.updates = s.updates := by
  unfold State.serveRelay
  split <;> simp

@[simp] theorem State.landIfGranted_commit_updates :
    s.landIfGranted.commit = s.commit ∧ s.landIfGranted.updates = s.updates := by
  unfold State.landIfGranted
  split <;> simp

@[simp] theorem State.serveBeat_commit_updates (b : Beat) :
    (s.serveBeat b).commit = s.commit ∧ (s.serveBeat b).updates = s.updates := by
  cases b with
  | read addr =>
    show (s.serveRead addr).commit = s.commit ∧ (s.serveRead addr).updates = s.updates
    unfold State.serveRead
    split <;> simp
  | write w =>
    rw [State.serveBeat_write]
    split <;> simp

@[simp] theorem State.arrive_commit_updates (b : Beat) :
    (s.arrive b).commit = s.commit ∧ (s.arrive b).updates = s.updates := by
  unfold State.arrive
  split <;> simp

@[simp] theorem State.serveHeld_commit_updates : s.serveHeld.commit = s.commit ∧ s.serveHeld.updates = s.updates := by
  unfold State.serveHeld
  split <;> simp

/-! ## The Ring Decoder (R17 to R26) -/

@[simp] theorem State.tear_commit_updates (cause : TornCause) (offset : BitVec 12) (words : List Word) :
    (s.tear cause offset words).commit = s.commit ∧ (s.tear cause offset words).updates = s.updates := by
  simp [State.tear]

@[simp] theorem State.startRecord_commit_updates (w : Word) :
    (s.startRecord w).commit = s.commit ∧ (s.startRecord w).updates = s.updates := by
  unfold State.startRecord
  dsimp only
  split <;> simp [State.complete]

@[simp] theorem State.doRestart_commit_updates (w : Word) :
    (s.doRestart w).commit = s.commit ∧ (s.doRestart w).updates = s.updates := by
  unfold State.doRestart
  dsimp only
  split <;> simp

@[simp] theorem State.overrun_commit_updates (w : Word) :
    (s.overrun w).commit = s.commit ∧ (s.overrun w).updates = s.updates := by
  simp [State.overrun]

@[simp] theorem State.takeHeader_commit_updates (w : Word) :
    (s.takeHeader w).state.commit = s.commit ∧ (s.takeHeader w).state.updates = s.updates := by
  unfold State.takeHeader
  split_ifs <;> simp

@[simp] theorem State.offerAtEp_commit_updates (whole : Bool) (w : Word) :
    (s.offerAtEp whole w).state.commit = s.commit ∧ (s.offerAtEp whole w).state.updates = s.updates := by
  unfold State.offerAtEp
  split
  · split <;> simp [State.skipToHunt]
  · split
    · unfold State.collect
      dsimp only
      split <;> simp [State.complete]
    · simp [State.skipToHunt]
  · unfold State.skipInSkip
    dsimp only
    split <;> simp
  · split <;> simp [State.endHunt, State.skipInHunt]

@[simp] theorem State.offer_commit_updates (o : BitVec 12) (whole : Bool) (w : Word) :
    (s.offer o whole w).state.commit = s.commit ∧ (s.offer o whole w).state.updates = s.updates := by
  unfold State.offer
  split_ifs <;> simp

@[simp] theorem State.release_commit_updates (w : HostWrite) :
    (s.release w).commit = s.commit ∧ (s.release w).updates = s.updates := by
  simp [State.release]

@[simp] theorem State.offerWrite_commit_updates (w : HostWrite) :
    (s.offerWrite w).commit = s.commit ∧ (s.offerWrite w).updates = s.updates := by
  unfold State.offerWrite
  dsimp only
  split <;> simp

/-! ## The Reporter, the scanner, the Slot Loader and the waveform check (R130 to R133, R140, R144, R152 to R156) -/

@[simp] theorem State.serveReport_commit_updates (w : ReportWork) :
    (s.serveReport w).commit = s.commit ∧ (s.serveReport w).updates = s.updates := by
  cases w <;> exact ⟨rfl, rfl⟩

@[simp] theorem State.deliver_commit_updates (f : Frame) (n : Nat) (codes : List (BitVec 2)) :
    (s.deliver f n codes).commit = s.commit ∧ (s.deliver f n codes).updates = s.updates := by
  unfold State.deliver
  split <;> simp

@[simp] theorem State.serveScan_commit_updates : s.serveScan.commit = s.commit ∧ s.serveScan.updates = s.updates := by
  unfold State.serveScan
  split
  · dsimp only
    split <;> simp
  · simp

@[simp] theorem State.serveLoader_commit_updates :
    s.serveLoader.commit = s.commit ∧ s.serveLoader.updates = s.updates := by
  unfold State.serveLoader
  split
  · simp [State.serveClear]
  · split
    · unfold State.serveLoad
      dsimp only
      split <;> simp
    · simp

@[simp] theorem State.serveCheck_commit_updates :
    s.serveCheck.commit = s.commit ∧ s.serveCheck.updates = s.updates := by
  unfold State.serveCheck
  split <;> simp

@[simp] theorem State.riseIfReady_commit_updates :
    s.riseIfReady.commit = s.commit ∧ s.riseIfReady.updates = s.updates := by
  unfold State.riseIfReady
  split <;> simp

@[simp] theorem State.slotBecameReady_commit_updates :
    s.slotBecameReady.commit = s.commit ∧ s.slotBecameReady.updates = s.updates := by
  unfold State.slotBecameReady
  split <;> simp

end Sys2Proof.Machine
end

section
/-! SUPPORT. What the commands do with the requests for updates and with the update slots: the steps that there are, and
that every command is made of them. -/

namespace Sys2Proof.Machine

/-! ## The tables and their steps -/

/-- The request that waits with the Commit Engine for room in the Pending List (R117). -/
def EngineState.request : EngineState → Option Request
  | .waiting _ r => some r
  | _ => none

/-- The requests that wait and the update slots: the Pending List, the Commit Engine's request in hand, the Repair List,
the Slot Table and the start order. -/
structure RequestTables where
  pending : List Request
  waiting : Option Request
  repairs : List Request
  slots : Vector (Option Update) 15
  order : List (Fin 15)

/-- The tables of a state. -/
def State.requests (s : State) : RequestTables :=
  { pending := s.commit.pending, waiting := s.commit.state.request, repairs := s.updates.repairs
    slots := s.updates.slots, order := s.updates.order }

/-- What an update keeps of its request from its start on: the rectangle and the commit list (R127). -/
def Update.asks (x : Update) : Rect × List (BitVec 16) := (x.rect, x.commits)

/-- A request that the Commit Engine decides upon: one just made, with its commit's number alone, or the one that waits
(R110, R112, R117). -/
def RequestTables.decides (q : RequestTables) (r : Request) : Prop := r.commits.length = 1 ∨ q.waiting = some r

/-- What can become of the tables, one operation at a time. -/
inductive RequestTables.Step : RequestTables → RequestTables → Prop
  /-- RESET empties them (R157). -/
  | reset {q : RequestTables} : Step q State.reset.requests
  /-- A request merges into its candidate (R115, R116). -/
  | merge {q : RequestTables} {r : Request} {merged : List Request} (decides : q.decides r)
      (into : mergePending q.pending r = some merged) : Step q { q with pending := merged }
  /-- A request is appended while the list has room (R116). -/
  | append {q : RequestTables} {r : Request} (decides : q.decides r) (room : q.pending.length < 32) :
      Step q { q with pending := q.pending ++ [r] }
  /-- A request that finds the list full waits (R117). -/
  | wait {q : RequestTables} {r : Request} (decides : q.decides r) : Step q { q with waiting := some r }
  /-- No request waits any longer (R118). -/
  | decided {q : RequestTables} : Step q { q with waiting := none }
  /-- Entries are cancelled (R119, R120). -/
  | cancel {q : RequestTables} {kept : List Request} (sub : kept.Sublist q.pending) : Step q { q with pending := kept }
  /-- The update slots change in other things than what was asked for. -/
  | progress {q : RequestTables} {slots : Vector (Option Update) 15}
      (same : ∀ u : Fin 15, slots[u].map Update.asks = q.slots[u].map Update.asks) : Step q { q with slots := slots }
  /-- A slot becomes FREE and leaves the start order (R122, R135). -/
  | free {q : RequestTables} (u : Fin 15) :
      Step q { q with slots := q.slots.set u none, order := q.order.filter (fun v => decide (v ≠ u)) }
  /-- An aborted update gives up its slot for a repair (R123, R149). -/
  | abort {q : RequestTables} {u : Fin 15} {x : Update} (busy : q.slots[u] = some x) :
      Step q
        { q with
          slots := q.slots.set u none, order := q.order.filter (fun v => decide (v ≠ u))
          repairs := q.repairs ++ [x.toRepair] }
  /-- A consideration of starts is made (R126). -/
  | consider (s : State) : Step s.requests s.consider.requests

/-- The tables after any number of steps. -/
def RequestTables.Reaches : RequestTables → RequestTables → Prop := Relation.ReflTransGen RequestTables.Step

/-- What every step keeps, any number of them keeps. -/
theorem RequestTables.Reaches.keeps {P : RequestTables → Prop}
    (hP : ∀ q q', q.Step q' → P q → P q') {q q' : RequestTables} (h : q.Reaches q') (hq : P q) : P q' := by
  induction h with
  | refl => exact hq
  | tail _ hstep ih => exact hP _ _ hstep ih

/-- The second state's tables come from the first one's by such steps. -/
def State.tablesReach (s t : State) : Prop := s.requests.Reaches t.requests

section
variable {s t : State}

theorem State.tablesReach_refl (s : State) : s.tablesReach s := Relation.ReflTransGen.refl

/-- One more step. -/
theorem State.tablesReach.step {u : State} (h : s.tablesReach t) (hstep : t.requests.Step u.requests) :
    s.tablesReach u :=
  Relation.ReflTransGen.tail h hstep

/-- A change beside the tables. -/
theorem State.tablesReach.beside {u : State} (h : s.tablesReach t) (hu : u.requests = t.requests := by rfl) :
    s.tablesReach u := by
  unfold State.tablesReach
  rw [hu]
  exact h

/-- An operation that leaves the Commit Engine and the Update Scheduler as they are. -/
theorem State.tablesReach.kept {u : State} (h : s.tablesReach t)
    (hu : u.commit = t.commit ∧ u.updates = t.updates) : s.tablesReach u :=
  h.beside (by unfold State.requests; rw [hu.1, hu.2])

theorem State.tablesReach_of_kept (h : t.commit = s.commit ∧ t.updates = s.updates) : s.tablesReach t :=
  s.tablesReach_refl.kept h

/-- Items taken one after another. -/
theorem State.tablesReach.foldl {α : Type} {f : State → α → State} (hf : ∀ t x, s.tablesReach t → s.tablesReach (f t x))
    (xs : List α) : ∀ {t : State}, s.tablesReach t → s.tablesReach (xs.foldl f t) := by
  induction xs with
  | nil => exact fun h => h
  | cons x xs ih => exact fun h => ih (hf _ x h)

/-! ## The operations that touch the tables -/

theorem State.tablesReach.raise (h : s.tablesReach t) (e : Event) : s.tablesReach (t.raise e) :=
  h.kept ⟨t.raise_commit e, t.raise_updates e⟩

/-- The Commit Engine goes on to a state in which no request waits. -/
theorem State.tablesReach.busy {u : State} (h : s.tablesReach t)
    (hu : u.requests = { t.requests with waiting := none }) : s.tablesReach u :=
  h.step (hu ▸ .decided)

/-- A consideration is called for, or not. -/
theorem State.callIf_requests (c : Bool) (t : State) :
    (if c then t else t.callConsideration).requests = t.requests := by
  split <;> rfl

theorem State.tablesReach.cancelPage (h : s.tablesReach t) (i : Fin 4) : s.tablesReach (t.cancelPage i) := by
  have cancelled : s.tablesReach { t with commit := { t.commit with
      pending := t.commit.pending.filter (fun e => !decide (e.source = some i)) } } :=
    h.step (.cancel List.filter_sublist)
  exact (cancelled.kept (State.raiseAll_commit_updates _ _)).beside (State.callIf_requests _ _)

theorem State.tablesReach.cancelAll (h : s.tablesReach t) : s.tablesReach t.cancelAll := by
  have cancelled : s.tablesReach { t with commit := { t.commit with pending := [] } } :=
    h.step (.cancel (List.nil_sublist _))
  exact (cancelled.kept (State.raiseAll_commit_updates _ _)).beside (State.callIf_requests _ _)

theorem State.tablesReach.discardPage (h : s.tablesReach t) (i : Fin 4) : s.tablesReach (t.discardPage i) :=
  (h.cancelPage i).beside

theorem State.tablesReach.takeWaitingDiscard (h : s.tablesReach t) (i : Fin 4) :
    s.tablesReach (t.takeWaitingDiscard i) := by
  unfold State.takeWaitingDiscard
  split
  · exact (h.discardPage i).beside
  · exact h

theorem State.tablesReach.endCommit (h : s.tablesReach t) (c : Commit) : s.tablesReach (t.endCommit c) := by
  have left : s.tablesReach (t.leftBy c t.commit.pending) := h.busy rfl
  rw [State.endCommit_eq]
  split
  · exact left.takeWaitingDiscard _
  · exact left

theorem State.tablesReach.decideRequest (h : s.tablesReach t) (c : Commit) {r : Request} (hr : t.requests.decides r) :
    s.tablesReach (t.decideRequest c r) := by
  rcases t.decideRequest_cases c r with ⟨pending, hm, hd⟩ | ⟨-, room, hd⟩ | ⟨-, -, hd⟩ <;> rw [hd]
  · have merged : s.tablesReach { t with commit := { t.commit with pending := pending } } := h.step (.merge hr hm)
    exact merged.endCommit c
  · have appended : s.tablesReach (t.append r) := h.step (.append hr room)
    exact appended.endCommit c
  · exact h.step (.wait hr)

/-- The slots change one by one in other things than what was asked for. -/
theorem State.tablesReach.mapUpdates (h : s.tablesReach t) {f : Update → Update} (hf : ∀ x, (f x).asks = x.asks) :
    s.tablesReach (t.mapUpdates f) := by
  refine h.step (.progress fun u => ?_)
  show ((t.updates.slots.map (Option.map f))[u]).map Update.asks = _
  simp [Function.comp_def, hf, State.requests]

theorem State.tablesReach.setSlotState (h : s.tablesReach t) (u : Fin 15) (st : UpdateState) :
    s.tablesReach (t.setSlotState u st) := by
  unfold State.setSlotState
  split
  · rename_i x hx
    refine h.step (.progress fun v => ?_)
    show ((t.setUpdate u _).update v).map Update.asks = (t.update v).map Update.asks
    rw [State.setUpdate_update]
    split
    · rename_i huv
      rw [← huv, hx]
      rfl
    · rfl
  · exact h

theorem State.tablesReach.freeSlot (h : s.tablesReach t) (u : Fin 15) : s.tablesReach (t.freeSlot u) :=
  h.step (.free u)

theorem State.tablesReach.abort (h : s.tablesReach t) (u : Fin 15) : s.tablesReach (t.abort u) := by
  unfold State.abort
  split
  · rename_i x hx
    exact h.step (.abort hx)
  · exact h

theorem State.tablesReach.finishSlot (h : s.tablesReach t) (u : Fin 15) : s.tablesReach (t.finishSlot u) := by
  unfold State.finishSlot
  split
  · exact (h.freeSlot u).raise _
  · exact h

theorem State.tablesReach.countFrames (h : s.tablesReach t) : s.tablesReach t.countFrames := by
  have counted : s.tablesReach (t.mapUpdates Update.countFrame) :=
    h.mapUpdates fun x => by unfold Update.countFrame; split <;> rfl
  exact (State.tablesReach.foldl (fun _ u h => h.finishSlot u) _ counted).beside (State.callIf_requests _ _)

theorem State.tablesReach.suspend (h : s.tablesReach t) : s.tablesReach t.suspend := by
  have frozen : s.tablesReach (t.mapUpdates Update.freeze) :=
    h.mapUpdates fun x => by unfold Update.freeze; split <;> rfl
  exact frozen.beside

theorem State.tablesReach.finishLoad (h : s.tablesReach t) : s.tablesReach t.finishLoad := by
  unfold State.finishLoad
  have called (p : Supply) : s.tablesReach (t.setSupply p).callConsideration := h.beside
  exact ((called _).kept (State.riseIfReady_commit_updates _)).beside

theorem State.tablesReach.changeGeometry (h : s.tablesReach t) (k : Check) (g : Geometry) :
    s.tablesReach (t.changeGeometry k g) := by
  have set (p : Supply) : s.tablesReach (t.setSupply p) := h.beside
  exact (set _).cancelAll.beside

theorem State.tablesReach.serveDiff (h : s.tablesReach t) : s.tablesReach t.serveDiff := by
  unfold State.serveDiff
  split
  · split
    · exact h.busy rfl
    · exact h
  · exact h

end

end Sys2Proof.Machine
end

section
/-! SUPPORT. Every command takes the tables of requests and update slots through the steps that there are. -/

namespace Sys2Proof.Machine

/-! ## Answers -/

/-- The tables of every next state that an answer gives come from a state's by the steps. -/
def State.answersReach (s : State) (o : Host.Outcome State Fault Refusal) : Prop :=
  ∀ t, o = .next t → s.tablesReach t

section
variable {s x : State}

theorem State.answersReach_proceed (h : s.tablesReach x) : s.answersReach (proceed s x) := by
  rintro t ⟨⟩
  exact h.kept (conclude_commit_updates s x)

theorem State.answersReach_noOccasion (s : State) : s.answersReach (noOccasion s) := by
  rintro t ⟨⟩
  exact s.tablesReach_refl

/-- A command with one condition. -/
theorem State.answersReach_ite (h : s.tablesReach x) (p : Prop) [Decidable p] :
    s.answersReach (if p then proceed s x else noOccasion s) := by
  split
  · exact State.answersReach_proceed h
  · exact State.answersReach_noOccasion s

/-- A record command. -/
theorem State.answersReach_onRecord {run : Record → State} (h : ∀ r, s.tablesReach (run r)) (fits : Record → Bool) :
    s.answersReach (onRecord s fits run) := by
  unfold onRecord
  split
  · exact State.answersReach_ite (h _) _
  · exact State.answersReach_noOccasion s

/-- A record refused or carried out. -/
theorem State.tablesReach_checked {carryOut : State} (h : s.tablesReach carryOut) (r : Record)
    (checks : List (Bool × Reason)) : s.tablesReach (s.checked r checks carryOut) := by
  unfold State.checked
  split
  · exact State.tablesReach_of_kept (s.refuse_commit_updates r _)
  · exact h

/-- A record command with checks. -/
theorem State.answersReach_checked {carryOut : Record → State} (h : ∀ r, s.tablesReach (carryOut r))
    (fits : Record → Bool) (checks : Record → List (Bool × Reason)) :
    s.answersReach (onRecord s fits (fun r => s.checked r (checks r) (carryOut r))) :=
  State.answersReach_onRecord (fun r => State.tablesReach_checked (h r) r _) fits

/-- A hand-over with checks. -/
theorem State.answersReach_onHandOver {carryOut : Record → State} (h : ∀ r, s.tablesReach (carryOut r))
    (k : RecordKind) (checks : Record → List (Bool × Reason)) :
    s.answersReach (onHandOver s k (fun r => s.checked r (checks r) (carryOut r))) := by
  unfold onHandOver
  split
  · exact State.answersReach_checked h _ checks
  · exact State.answersReach_noOccasion s

theorem State.answersReach_onLanding (s : State) (fits : Handoff → Bool) : s.answersReach (onLanding s fits) := by
  unfold onLanding
  split
  · exact State.answersReach_ite (State.tablesReach_of_kept (s.landWrite_commit_updates _ _)) _
  · exact State.answersReach_noOccasion s

end

/-! ## Commands by block -/

theorem execDiffTileVisit_reach (s : State) : s.answersReach (execDiffTileVisit s) := by
  unfold execDiffTileVisit
  split
  · split
    · exact State.answersReach_proceed (s.tablesReach_refl.busy rfl)
    · exact State.answersReach_noOccasion s
  · exact State.answersReach_noOccasion s

theorem execDiffEnd_reach (s : State) : s.answersReach (execDiffEnd s) := by
  unfold execDiffEnd
  split
  · split
    · split
      · exact State.answersReach_proceed ((s.tablesReach_refl.raise _).endCommit _)
      · exact State.answersReach_proceed (s.tablesReach_refl.decideRequest _ (.inl rfl))
    · exact State.answersReach_noOccasion s
  · exact State.answersReach_noOccasion s

theorem execPendingRetry_reach (s : State) : s.answersReach (execPendingRetry s) := by
  unfold execPendingRetry
  split
  · rename_i c r hw
    have decides : s.requests.decides r := .inr (by unfold State.requests; rw [hw]; rfl)
    exact State.answersReach_proceed (s.tablesReach_refl.decideRequest c decides)
  · exact State.answersReach_noOccasion s

theorem execPageDiscard_reach (s : State) : s.answersReach (execPageDiscard s) := by
  refine State.answersReach_checked (fun r => ?_) _ (fun r => [(!(s.page r.slot).isOpen, .notOpen)])
  split
  · exact s.tablesReach_refl
  · exact (s.tablesReach_refl.discardPage _).beside

theorem execPageCopy_reach (s : State) : s.answersReach (execPageCopy s) := by
  refine State.answersReach_checked (fun r => ?_) _ s.copyChecks
  dsimp only
  have copied := State.tablesReach_of_kept (s.copyNotes_commit_updates r.copySource r.slot)
  split
  · exact copied.beside
  · exact copied.beside

theorem execPanelUnload_reach (s : State) : s.answersReach (execPanelUnload s) := by
  refine State.answersReach_checked (fun r => ?_) _ (fun _ => s.unloadChecks)
  dsimp only
  split
  · exact s.tablesReach_refl.beside
  · exact s.tablesReach_refl.beside

theorem execWaveformCheckEnd_reach (s : State) : s.answersReach (execWaveformCheckEnd s) := by
  have refused (r : Record) (reason : Reason) : s.tablesReach (s.refuseLoad r reason) :=
    State.tablesReach_of_kept (by simp [State.refuseLoad])
  have loaded (r : Record) : s.tablesReach (s.setSupply (s.supply.load r)) := s.tablesReach_refl.beside
  unfold execWaveformCheckEnd
  split
  · refine State.answersReach_ite ?_ _
    split
    · split
      · exact refused ..
      · split
        · exact (loaded _).changeGeometry ..
        · exact (loaded _).finishLoad
    · exact refused ..
  · exact State.answersReach_noOccasion s

theorem execRiseTimerExpiry_reach (s : State) : s.answersReach (execRiseTimerExpiry s) := by
  unfold execRiseTimerExpiry
  split
  · dsimp only
    split
    · exact State.answersReach_proceed s.tablesReach_refl.beside
    · exact State.answersReach_proceed (State.tablesReach_of_kept (by simp))
  · exact State.answersReach_noOccasion s

theorem execGraceTimerExpiry_reach (s : State) : s.answersReach (execGraceTimerExpiry s) := by
  unfold execGraceTimerExpiry
  split
  · have falling : s.tablesReach (s.setSupply s.supply.enterFalling) := s.tablesReach_refl.beside
    have aborted := State.tablesReach.foldl (fun _ u h => h.abort u) (s.inOrder .frozen) falling
    exact State.answersReach_proceed (aborted.raise _).beside
  · exact State.answersReach_noOccasion s

theorem execPanelReadyDropped_reach (s : State) : s.answersReach (execPanelReadyDropped s) := by
  unfold execPanelReadyDropped
  refine State.answersReach_ite ?_ _
  split
  · exact s.tablesReach_refl.beside
  · exact State.tablesReach_of_kept (by simp)
  · exact s.tablesReach_refl.beside

theorem execTemperatureReading_reach (s : State) (reading : Option Int) :
    s.answersReach (execTemperatureReading reading s) := by
  unfold execTemperatureReading
  dsimp only
  split
  · exact State.answersReach_ite s.tablesReach_refl.beside _
  · exact State.answersReach_proceed (State.tablesReach_of_kept (by simp))

theorem execLoadingComplete_reach (s : State) : s.answersReach (execLoadingComplete s) := by
  unfold execLoadingComplete
  split
  · rename_i u _
    split
    · have ready : s.tablesReach { s.setSlotState u .ready with loader := { s.loader with load := none } } :=
        (s.tablesReach_refl.setSlotState u .ready).beside
      exact State.answersReach_ite (ready.kept (State.slotBecameReady_commit_updates _)) _
    · exact State.answersReach_noOccasion s
  · exact State.answersReach_noOccasion s

theorem execFrameStart_reach (s : State) : s.answersReach (execFrameStart s) := by
  unfold execFrameStart
  split
  · have started : s.tablesReach (s.mapUpdates Update.atFrameStart) :=
      s.tablesReach_refl.mapUpdates fun x => by unfold Update.atFrameStart; split <;> rfl
    exact State.answersReach_proceed started.beside
  · exact State.answersReach_noOccasion s

theorem execFrameEnd_reach (s : State) : s.answersReach (execFrameEnd s) := by
  unfold execFrameEnd
  split
  · have ended : s.tablesReach { s with scanner := { s.scanner with frame := none } } := s.tablesReach_refl.beside
    refine State.answersReach_proceed ?_
    dsimp only
    split
    · exact ended.countFrames.suspend
    · split
      · exact ended.countFrames.beside
      · exact ended.countFrames
  · exact State.answersReach_noOccasion s

/-- A grant made leaves the tables alone; one of the diff leaves the Commit Engine at its diff. -/
theorem State.serveGrant_reach (s : State) (pick : Nat) (g : Grant) : s.tablesReach (s.serveGrant pick g) := by
  cases g with
  | refresh => exact s.tablesReach_refl.beside
  | scanner => exact State.tablesReach_of_kept s.serveScan_commit_updates
  | relay => exact State.tablesReach_of_kept s.serveRelay_commit_updates
  | engine e =>
    have turned : s.tablesReach { s with port := { s.port with turn := e.after } } := s.tablesReach_refl.beside
    show s.tablesReach (State.serveEngine { s with port := { s.port with turn := e.after } } pick e)
    cases e with
    | composer =>
      unfold State.serveEngine
      dsimp only
      split
      · exact turned.kept (State.servePainting_commit_updates _ _)
      · exact turned.kept (State.serveCopying_commit_updates _ _)
      · exact turned.kept (State.serveRun_commit_updates _ _)
      · exact turned
    | commitEngine => exact turned.serveDiff
    | slotLoader => exact turned.kept (State.serveLoader_commit_updates _)
    | reporter =>
      unfold State.serveEngine
      dsimp only
      split
      · exact turned.kept (State.serveReport_commit_updates _ _)
      · exact turned
    | waveformCheck => exact turned.kept (State.serveCheck_commit_updates _)

theorem execDownstreamGrant_reach (s : State) (needs : Bool) (pick : Nat) :
    s.answersReach (execDownstreamGrant needs pick s) := by
  have raised : s.tablesReach (s.raiseScan needs) := s.tablesReach_refl.beside
  unfold execDownstreamGrant
  dsimp only
  split
  · split
    · exact State.answersReach_proceed (raised.trans (State.serveGrant_reach _ pick _))
    · rintro t ⟨⟩
  · exact State.answersReach_noOccasion s

theorem execStallTimerExpiry_reach (s : State) : s.answersReach (execStallTimerExpiry s) := by
  unfold execStallTimerExpiry
  split
  · exact State.answersReach_proceed (State.tablesReach_of_kept (by simp))
  · exact State.answersReach_proceed s.tablesReach_refl.beside
  · exact State.answersReach_noOccasion s

/-! ## Every command -/

/-- Every command takes the tables through the steps that there are. -/
theorem exec_reach {c : Instr} {s t : State} (h : exec c s = .next t) : s.tablesReach t := by
  have hs := s.tablesReach_refl
  suffices ho : s.answersReach (exec c s) from ho t h
  cases c with
  | reset straps =>
    rintro t ⟨⟩
    exact hs.step .reset
  | sdramInitializationEnd =>
    show s.answersReach (execSdramInitializationEnd s)
    unfold execSdramInitializationEnd
    split
    · exact State.answersReach_proceed (State.tablesReach_of_kept (by simp))
    · exact State.answersReach_noOccasion s
  | startUpClearingEnd =>
    show s.answersReach (execStartUpClearingEnd s)
    unfold execStartUpClearingEnd
    split
    · exact State.answersReach_ite hs.beside _
    · exact State.answersReach_noOccasion s
  | hostReadBeat addr => exact State.answersReach_ite (State.tablesReach_of_kept (s.arrive_commit_updates _)) _
  | hostWriteBeat addr data enables =>
    exact State.answersReach_ite (State.tablesReach_of_kept (s.arrive_commit_updates _)) _
  | hostWriteLands | draftWrite | fontRegionWrite | consumedCountWrite | faultClearWrite =>
    exact State.answersReach_onLanding s _
  | controlRingWrite =>
    show s.answersReach (execControlRingWrite s)
    unfold execControlRingWrite
    split
    · split
      · exact State.answersReach_noOccasion s
      · exact State.answersReach_proceed (State.tablesReach_of_kept (s.offerWrite_commit_updates _))
    · exact State.answersReach_noOccasion s
  | restart =>
    show s.answersReach (execRestart s)
    unfold execRestart
    split
    · exact State.answersReach_ite (State.tablesReach_of_kept (s.offerWrite_commit_updates _)) _
    · exact State.answersReach_noOccasion s
  | holdReleaseOnRoom =>
    show s.answersReach (execHoldReleaseOnRoom s)
    unfold execHoldReleaseOnRoom
    split
    · exact State.answersReach_ite (State.tablesReach_of_kept (by simp [State.releaseHeld])) _
    · exact State.answersReach_noOccasion s
  | holdTimerExpiry =>
    show s.answersReach (execHoldTimerExpiry s)
    unfold execHoldTimerExpiry
    split
    · split
      · exact State.answersReach_noOccasion s
      · exact State.answersReach_proceed (State.tablesReach_of_kept (by simp))
    · exact State.answersReach_noOccasion s
  | stallTimerExpiry => exact execStallTimerExpiry_reach s
  | autoCommitGrant =>
    show s.answersReach (execAutoCommitGrant s)
    unfold execAutoCommitGrant
    split
    · exact State.answersReach_proceed (hs.busy rfl)
    · exact State.answersReach_noOccasion s
  | recordExecutionEnd =>
    show s.answersReach (execRecordExecutionEnd s)
    unfold execRecordExecutionEnd
    split
    · exact State.answersReach_proceed (State.tablesReach_of_kept (by simp))
    · exact State.answersReach_noOccasion s
  | recordTake | settleTimerExpiry | latencyTimerExpiry | gapTimerExpiry | holdTimeExpiry | readingTimerExpiry =>
    dsimp only [exec, execRecordTake, execSettleTimerExpiry, execLatencyTimerExpiry, execGapTimerExpiry,
      execHoldTimeExpiry, execReadingTimerExpiry]
    split
    · exact State.answersReach_proceed hs.beside
    · exact State.answersReach_noOccasion s
  | nop | lockTight | fontUnbind => exact State.answersReach_onRecord (fun _ => hs.beside) _
  | tune => exact State.answersReach_onRecord (fun _ => State.tablesReach_of_kept (by simp)) _
  | region | guard | panelLoad | fontBind | pageOpenKeepClean | pageOpenKeepDirty | noteClearOne | noteClearAll =>
    exact State.answersReach_checked (fun _ => hs.beside) _ _
  | column | pageOpenFill | fillSet | fillMultiply | glyphRunContinue | glyphRunSet | highlight =>
    exact State.answersReach_checked
      (fun _ => State.tablesReach_of_kept (by simp [State.openMarked, State.openPage])) _ _
  | pageDiscard => exact execPageDiscard_reach s
  | pageCopy => exact execPageCopy_reach s
  | probe => exact State.answersReach_onRecord (fun _ => State.tablesReach_of_kept (by simp)) _
  | pageCommit => exact State.answersReach_onHandOver (fun _ => hs.busy rfl) _ _
  | refresh =>
    exact State.answersReach_onHandOver (fun _ => State.tablesReach.decideRequest hs.beside _ (.inl rfl)) _ _
  | panelUnload => exact execPanelUnload_reach s
  | waveformCheckEnd => exact execWaveformCheckEnd_reach s
  | geometryClearEnd =>
    show s.answersReach (execGeometryClearEnd s)
    unfold execGeometryClearEnd
    split
    · exact State.answersReach_ite hs.finishLoad _
    · exact State.answersReach_noOccasion s
  | diffTileVisit => exact execDiffTileVisit_reach s
  | diffEnd => exact execDiffEnd_reach s
  | pendingRetry => exact execPendingRetry_reach s
  | startConsideration =>
    have considered : s.tablesReach (State.consider { s with updates := { s.updates with due := false } }) :=
      hs.step (.consider { s with updates := { s.updates with due := false } })
    exact State.answersReach_ite considered _
  | downstreamGrant needs pick => exact execDownstreamGrant_reach s needs pick
  | refreshTimerExpiry => exact State.answersReach_ite hs.beside _
  | loadingComplete => exact execLoadingComplete_reach s
  | frameStart => exact execFrameStart_reach s
  | frameEnd => exact execFrameEnd_reach s
  | panelReadyAsserted =>
    show s.answersReach (execPanelReadyAsserted s)
    unfold execPanelReadyAsserted
    split
    · exact State.answersReach_noOccasion s
    · exact State.answersReach_proceed hs.beside
  | panelReadyDropped => exact execPanelReadyDropped_reach s
  | riseTimerExpiry => exact execRiseTimerExpiry_reach s
  | fallTimerExpiry =>
    show s.answersReach (execFallTimerExpiry s)
    unfold execFallTimerExpiry
    split
    · exact State.answersReach_proceed (State.tablesReach_of_kept (by simp))
    · exact State.answersReach_noOccasion s
  | graceTimerExpiry => exact execGraceTimerExpiry_reach s
  | temperatureReading reading => exact execTemperatureReading_reach s reading
  | dozeTimerExpiry =>
    show s.answersReach (execDozeTimerExpiry s)
    unfold execDozeTimerExpiry
    split
    · exact State.answersReach_ite hs.beside _
    · exact State.answersReach_noOccasion s
  | dozeWake =>
    show s.answersReach (execDozeWake s)
    unfold execDozeWake
    split
    · exact State.answersReach_ite (State.tablesReach_of_kept (by simp)) _
    · exact State.answersReach_noOccasion s
  | interruptPulseEnd =>
    exact State.answersReach_ite (x := { s with reporter := { s.reporter with
      pulse := decide (0 < s.reporter.pulsesQueued), pulsesQueued := s.reporter.pulsesQueued - 1 } }) hs.beside _
  | timeStampTick => exact State.answersReach_proceed hs.beside

end Sys2Proof.Machine
end

section
/-! SUPPORT. The statement that the requests stay bounded: what keeps the rectangles of slots and repairs apart, what a
consideration of starts does, and the two laws through the steps of the tables. -/

namespace Sys2Proof.Machine

/-! ## Rectangles apart (R123, R126) -/

theorem Rect.overlaps_comm (p q : Rect) : p.overlaps q = q.overlaps p := by
  unfold Rect.overlaps spansOverlap
  simp only [max_comm, min_comm]

/-- The number of update slots that are not FREE. -/
def busySlots (slots : Vector (Option Update) 15) : Nat := slots.countP Option.isSome

theorem State.busyUpdates_length (s : State) : s.busyUpdates.length = busySlots s.updates.slots := by
  unfold State.busyUpdates busySlots
  rw [List.length_filterMap_eq_countP, ← Vector.countP_toList]
  rfl

section
variable {slots : Vector (Option Update) 15} {waiting : List Request} {u : Fin 15} {x : Update}

theorem getElem_set_slot (slots : Vector (Option Update) 15) (u v : Fin 15) (y : Option Update) :
    (slots.set u y)[v] = if u = v then y else slots[v] := by
  simp [Vector.getElem_set, Fin.ext_iff]

/-- A slot that is filled. -/
theorem busySlots_fill (free : slots[u] = none) : busySlots (slots.set u (some x)) = busySlots slots + 1 := by
  have free : slots[u.val] = none := free
  unfold busySlots
  rw [Vector.countP_set, free]
  rfl

/-- A slot that becomes FREE. -/
theorem busySlots_free (busy : slots[u] = some x) : busySlots slots = busySlots (slots.set u none) + 1 := by
  have refilled : (slots.set u none).set u (some x) = slots := by
    rw [Vector.set_set, ← busy]
    exact Vector.set_getElem_self _
  rw [← busySlots_fill (slots := slots.set u none) (u := u) (x := x) (by simp), refilled]

/-- The rectangles of the busy slots and of the requests that wait for their turn are apart, and slots and requests are
together at most 15. -/
structure RectsApart (slots : Vector (Option Update) 15) (waiting : List Request) : Prop where
  ofSlots : ∀ (u v : Fin 15) (x y : Update), u ≠ v → slots[u] = some x → slots[v] = some y →
    x.rect.overlaps y.rect = false
  ofWaiting : waiting.Pairwise (fun p q => p.rect.overlaps q.rect = false)
  ofBoth : ∀ p ∈ waiting, ∀ (u : Fin 15) (x : Update), slots[u] = some x → x.rect.overlaps p.rect = false
  room : waiting.length + busySlots slots ≤ 15

theorem State.repairsBounded_iff {s : State} :
    s.repairsBounded ↔ RectsApart s.updates.slots s.updates.repairs := by
  unfold State.repairsBounded
  rw [State.busyUpdates_length]
  exact ⟨fun ⟨hs, hw, hb, hr⟩ => ⟨hs, hw, hb, hr⟩, fun ⟨hs, hw, hb, hr⟩ => ⟨hs, hw, hb, hr⟩⟩

theorem RectsApart.sublist (h : RectsApart slots waiting) {fewer : List Request} (sub : fewer.Sublist waiting) :
    RectsApart slots fewer where
  ofSlots := h.ofSlots
  ofWaiting := h.ofWaiting.sublist sub
  ofBoth p hp := h.ofBoth p (sub.subset hp)
  room := (Nat.add_le_add_right sub.length_le _).trans h.room

/-- A FREE slot takes a rectangle that is clear of all others. -/
theorem RectsApart.fill (h : RectsApart slots waiting) (free : slots[u] = none)
    (clear : ∀ (v : Fin 15) (y : Update), slots[v] = some y → y.rect.overlaps x.rect = false)
    (clearWaiting : ∀ p ∈ waiting, p.rect.overlaps x.rect = false)
    (room : waiting.length + (busySlots slots + 1) ≤ 15) : RectsApart (slots.set u (some x)) waiting where
  ofSlots v w y z hne hv hw := by
    rw [getElem_set_slot] at hv hw
    split_ifs at hv hw with huv huw huw
    · exact absurd (huv.symm.trans huw) hne
    · cases hv
      rw [Rect.overlaps_comm]
      exact clear w z hw
    · cases hw
      exact clear v y hv
    · exact h.ofSlots v w y z hne hv hw
  ofWaiting := h.ofWaiting
  ofBoth p hp v y hv := by
    rw [getElem_set_slot] at hv
    split_ifs at hv with huv
    · cases hv
      rw [Rect.overlaps_comm]
      exact clearWaiting p hp
    · exact h.ofBoth p hp v y hv
  room := by
    rw [busySlots_fill free]
    exact room

/-- The busy slots left when one becomes FREE. -/
theorem getElem_free_slot {v : Fin 15} {y : Update} (h : (slots.set u none)[v] = some y) :
    u ≠ v ∧ slots[v] = some y := by
  rw [getElem_set_slot] at h
  split_ifs at h with huv
  exact ⟨huv, h⟩

theorem RectsApart.free (h : RectsApart slots waiting) (u : Fin 15) : RectsApart (slots.set u none) waiting where
  ofSlots v w y z hne hv hw := h.ofSlots v w y z hne (getElem_free_slot hv).2 (getElem_free_slot hw).2
  ofWaiting := h.ofWaiting
  ofBoth p hp v y hv := h.ofBoth p hp v y (getElem_free_slot hv).2
  room := by
    have fewer : busySlots (slots.set u none) ≤ busySlots slots := by
      unfold busySlots
      rw [Vector.countP_set]
      exact Nat.sub_le _ _
    exact (Nat.add_le_add_left fewer _).trans h.room

/-- A busy slot gives its rectangle up to a request. -/
theorem RectsApart.abort (h : RectsApart slots waiting) (busy : slots[u] = some x) {r : Request}
    (hr : r.rect = x.rect) : RectsApart (slots.set u none) (waiting ++ [r]) where
  ofSlots := (h.free u).ofSlots
  ofWaiting := by
    refine List.pairwise_append.2 ⟨h.ofWaiting, List.pairwise_singleton .., fun p hp q hq => ?_⟩
    rw [List.mem_singleton.1 hq, hr, Rect.overlaps_comm]
    exact h.ofBoth p hp u x busy
  ofBoth p hp v y hv := by
    obtain ⟨huv, hv⟩ := getElem_free_slot hv
    rcases List.mem_append.1 hp with hp | hp
    · exact h.ofBoth p hp v y hv
    · rw [List.mem_singleton.1 hp, hr]
      exact h.ofSlots v u y x huv.symm hv busy
  room := by
    have := h.room
    rw [busySlots_free busy] at this
    simp only [List.length_append, List.length_singleton]
    omega

/-- Slots that keep what was asked for keep their rectangles and commit lists. -/
theorem exists_of_same_asks {slots' : Vector (Option Update) 15} {u : Fin 15} {y : Update}
    (same : slots'[u].map Update.asks = slots[u].map Update.asks) (h : slots'[u] = some y) :
    ∃ x, slots[u] = some x ∧ x.rect = y.rect ∧ x.commits = y.commits := by
  rw [h] at same
  obtain ⟨x, hx, hasks⟩ := Option.map_eq_some_iff.1 same.symm
  obtain ⟨hrect, hcommits⟩ := Prod.mk.inj hasks
  exact ⟨x, hx, hrect, hcommits⟩

theorem RectsApart.progress (h : RectsApart slots waiting) {slots' : Vector (Option Update) 15}
    (same : ∀ u : Fin 15, slots'[u].map Update.asks = slots[u].map Update.asks) : RectsApart slots' waiting where
  ofSlots u v x y hne hu hv := by
    obtain ⟨x', hx, hxr, -⟩ := exists_of_same_asks (same u) hu
    obtain ⟨y', hy, hyr, -⟩ := exists_of_same_asks (same v) hv
    rw [← hxr, ← hyr]
    exact h.ofSlots u v x' y' hne hx hy
  ofWaiting := h.ofWaiting
  ofBoth p hp u x hu := by
    obtain ⟨x', hx, hxr, -⟩ := exists_of_same_asks (same u) hu
    rw [← hxr]
    exact h.ofBoth p hp u x' hx
  room := by
    have busy : slots'.map Option.isSome = slots.map Option.isSome := by
      ext i hi
      have := congrArg Option.isSome (same ⟨i, hi⟩)
      simpa using this
    have count : busySlots slots' = busySlots slots := by
      have counted (v : Vector (Option Update) 15) : busySlots v = (v.map Option.isSome).countP id := by
        rw [Vector.countP_map]
        rfl
      rw [counted, counted, busy]
    rw [count]
    exact h.room

end

/-! ## A consideration of starts (R126, R127) -/

/-- There is a FREE slot, and the store and the panel let an update start (R126, conditions 1 and 2). -/
def State.startsOpen (s : State) : Prop := (∃ u, s.lowestFree = some u) ∧ s.allowsStarts = true

theorem State.canStart_iff {s : State} {older : List Request} {e : Request} : s.canStart older e = true ↔
    s.startsOpen ∧ (∀ u x, s.update u = some x → x.rect.overlaps e.rect = false) ∧
      ∀ q ∈ older, q.rect.overlaps e.rect = false := by
  unfold State.canStart State.startsOpen
  simp only [Bool.and_eq_true, Option.isSome_iff_exists, List.all_eq_true, State.mem_busyUpdates, Bool.not_eq_true',
    and_assoc, forall_exists_index]
  exact and_congr_right fun _ => and_congr_right fun _ =>
    and_congr_left' ⟨fun h u x hu => h x u hu, fun h x u hu => h u x hu⟩

theorem State.update_lowestFree {s : State} {u : Fin 15} (h : s.lowestFree = some u) : s.update u = none := by
  simpa using List.find?_some h

/-- A start fills the lowest-numbered FREE slot and changes no other. -/
theorem State.startUpdate_slots {s : State} {u : Fin 15} (h : s.lowestFree = some u) (e : Request) :
    (s.startUpdate e).updates.slots = s.updates.slots.set u (some (s.startedUpdate e)) := by
  unfold State.startUpdate
  rw [h]

/-- Where no update may start, a walk leaves every entry waiting. -/
theorem State.walkEntries_closed {s : State} (h : ¬ s.startsOpen) (es : List Request) : ∀ waiting : List Request,
    s.walkEntries waiting es = (s, waiting ++ es) := by
  induction es with
  | nil => simp [State.walkEntries]
  | cons e es ih =>
    intro waiting
    unfold State.walkEntries
    rw [if_neg fun hc => h (State.canStart_iff.1 hc).1, ih]
    simp

/-- A walk over requests whose rectangles are apart from one another and from the slots starts all of them, or ends
where no update may start. -/
theorem State.walkEntries_apart (es : List Request) : ∀ (s : State) (waiting : List Request),
    RectsApart s.updates.slots (waiting ++ es) →
    RectsApart (s.walkEntries waiting es).1.updates.slots (s.walkEntries waiting es).2 ∧
    ((s.walkEntries waiting es).2 = waiting ∨ ¬ (s.walkEntries waiting es).1.startsOpen) := by
  induction es with
  | nil =>
    intro s waiting h
    rw [List.append_nil] at h
    exact ⟨h, .inl rfl⟩
  | cons e es ih =>
    intro s waiting h
    have sub : (waiting ++ es).Sublist (waiting ++ e :: es) := (List.sublist_cons_self e es).append_left waiting
    obtain ⟨-, rest, cross⟩ := List.pairwise_append.1 h.ofWaiting
    have clear : ∀ u x, s.update u = some x → x.rect.overlaps e.rect = false := fun u x hu =>
      h.ofBoth e (by simp) u x hu
    have older : ∀ q ∈ waiting, q.rect.overlaps e.rect = false := fun q hq => cross q hq e List.mem_cons_self
    by_cases hopen : s.startsOpen
    · have start : s.walkEntries waiting (e :: es) = (s.startUpdate e).walkEntries waiting es :=
        if_pos (State.canStart_iff.2 ⟨hopen, clear, older⟩)
      rw [start]
      obtain ⟨⟨u, hu⟩, -⟩ := hopen
      refine ih _ waiting ?_
      rw [State.startUpdate_slots hu]
      refine (h.sublist sub).fill (State.update_lowestFree hu) clear (fun q hq => ?_) ?_
      · rcases List.mem_append.1 hq with hq | hq
        · exact older q hq
        · rw [Rect.overlaps_comm]
          exact List.rel_of_pairwise_cons rest hq
      · have := h.room
        simp only [List.length_append, List.length_cons] at this ⊢
        omega
    · rw [State.walkEntries_closed hopen]
      exact ⟨h, .inr hopen⟩

/-- An update that starts is clear of the slots. -/
theorem RectsApart.start {s : State} (h : RectsApart s.updates.slots []) {waiting : List Request} {e : Request}
    (hc : s.canStart waiting e = true) : RectsApart (s.startUpdate e).updates.slots [] := by
  obtain ⟨⟨⟨u, hu⟩, -⟩, clear, -⟩ := State.canStart_iff.1 hc
  have free := State.update_lowestFree hu
  rw [State.startUpdate_slots hu]
  refine h.fill free clear (fun p hp => by cases hp) ?_
  rw [← busySlots_fill (x := s.startedUpdate e) free, List.length_nil, Nat.zero_add]
  exact Vector.countP_le_size

/-- A consideration keeps slots and repairs apart: the repairs that can start do so before any entry of the Pending List
can. -/
theorem State.consider_apart {s : State} (h : RectsApart s.updates.slots s.updates.repairs) :
    RectsApart s.consider.updates.slots s.consider.updates.repairs := by
  let first := s.walkEntries [] s.updates.repairs
  show RectsApart (first.1.walkEntries first.2 s.commit.pending).1.updates.slots first.2
  obtain ⟨apart, started | closed⟩ : RectsApart first.1.updates.slots first.2 ∧ (first.2 = [] ∨ ¬ first.1.startsOpen) :=
    State.walkEntries_apart _ s [] h
  · rw [started] at apart ⊢
    exact State.walkEntries_keeps (P := fun t => RectsApart t.updates.slots []) (fun _ _ _ h hc => h.start hc) _ _ _
      apart
  · rw [State.walkEntries_closed closed]
    exact apart

/-- An update in a slot after a walk stood there before, or has come from an entry of the walk. -/
theorem State.walkEntries_update (es : List Request) : ∀ (s : State) (waiting : List Request) {u : Fin 15} {x : Update},
    (s.walkEntries waiting es).1.update u = some x → s.update u = some x ∨ ∃ e ∈ es, x.commits = e.commits := by
  induction es with
  | nil => exact fun s waiting u x h => .inl h
  | cons e es ih =>
    intro s waiting u x h
    unfold State.walkEntries at h
    split at h
    · rename_i hc
      rcases ih _ _ h with hx | ⟨e', he', hx⟩
      · obtain ⟨⟨⟨v, hv⟩, -⟩, -⟩ := State.canStart_iff.1 hc
        unfold State.update at hx
        rw [State.startUpdate_slots hv, getElem_set_slot] at hx
        split_ifs at hx
        · cases hx
          exact .inr ⟨e, List.mem_cons_self, rfl⟩
        · exact .inl hx
      · exact .inr ⟨e', List.mem_cons_of_mem e he', hx⟩
    · rcases ih _ _ h with hx | ⟨e', he', hx⟩
      · exact .inl hx
      · exact .inr ⟨e', List.mem_cons_of_mem e he', hx⟩

/-- A consideration leaves some of the repairs and some of the Pending List, each in its order. -/
theorem State.consider_sublists (s : State) :
    s.consider.updates.repairs.Sublist s.updates.repairs ∧ s.consider.commit.pending.Sublist s.commit.pending := by
  let first := s.walkEntries [] s.updates.repairs
  obtain ⟨repairs, hr, hrepairs⟩ := State.walkEntries_waiting s.updates.repairs s []
  obtain ⟨pending, hp, hpending⟩ := State.walkEntries_waiting s.commit.pending first.1 first.2
  refine ⟨?_, ?_⟩
  · show first.2.Sublist _
    rwa [show first.2 = repairs from hr]
  · show ((first.1.walkEntries first.2 s.commit.pending).2.drop first.2.length).Sublist _
    rwa [hp, List.drop_left]

/-- A consideration leaves the Commit Engine's state as it is. -/
theorem State.consider_engine (s : State) : s.consider.commit.state = s.commit.state := by
  have started (t : State) (waiting : List Request) (e : Request) (h : t.commit.state = s.commit.state)
      (_ : t.canStart waiting e = true) : (t.startUpdate e).commit.state = s.commit.state := by
    unfold State.startUpdate
    split <;> exact h
  exact State.walkEntries_keeps started _ _ _ (State.walkEntries_keeps started _ s _ rfl)

/-- An update in a slot after a consideration stood there before, or has come from a repair or a pending entry. -/
theorem State.consider_update {s : State} {u : Fin 15} {x : Update} (h : s.consider.update u = some x) :
    s.update u = some x ∨ (∃ e ∈ s.updates.repairs, x.commits = e.commits) ∨
      ∃ e ∈ s.commit.pending, x.commits = e.commits := by
  rcases State.walkEntries_update s.commit.pending _ _ h with h | h
  · rcases State.walkEntries_update s.updates.repairs s [] h with h | h
    · exact .inl h
    · exact .inr (.inl h)
  · exact .inr (.inr h)

/-! ## The lists stay bounded (R114, R116, R117, R121, R123) -/

/-- The Pending List holds at most 32 entries, every commit list one to four numbers, and that of a request that waits
one. -/
structure RequestTables.Bounded (q : RequestTables) : Prop where
  pendingLength : q.pending.length ≤ 32
  ofPending : ∀ e ∈ q.pending, commitListOk e.commits
  ofRepairs : ∀ e ∈ q.repairs, commitListOk e.commits
  ofSlots : ∀ (u : Fin 15) (x : Update), q.slots[u] = some x → commitListOk x.commits
  ofWaiting : ∀ r, q.waiting = some r → r.commits.length = 1

theorem EngineState.request_eq_some {x : EngineState} {r : Request} : x.request = some r ↔ ∃ c, x = .waiting c r := by
  cases x <;> simp [EngineState.request]

theorem State.requestsBounded_iff {s : State} : s.requestsBounded ↔ s.requests.Bounded := by
  have waits : (∀ c r, s.commit.state = .waiting c r → r.commits.length = 1) ↔
      ∀ r, s.requests.waiting = some r → r.commits.length = 1 := by
    simp only [State.requests, EngineState.request_eq_some, forall_exists_index]
    exact forall_comm
  unfold State.requestsBounded
  rw [waits]
  exact ⟨fun ⟨hl, hp, hr, hs, hw⟩ => ⟨hl, hp, hr, hs, hw⟩, fun ⟨hl, hp, hr, hs, hw⟩ => ⟨hl, hp, hr, hs, hw⟩⟩

theorem RequestTables.Bounded.decided {q : RequestTables} (h : q.Bounded) {r : Request} (hr : q.decides r) :
    r.commits.length = 1 :=
  hr.elim id (h.ofWaiting r)

/-- A merge gives the entry one number more, and it had fewer than four (R115, R116). -/
theorem mergePending_commitLists {pending merged : List Request} {r : Request}
    (h : ∀ e ∈ pending, commitListOk e.commits) (hr : r.commits.length = 1)
    (hm : mergePending pending r = some merged) : ∀ e ∈ merged, commitListOk e.commits := by
  obtain ⟨before, p, younger, ⟨rfl, ⟨-, -, few⟩, -, -⟩, rfl⟩ := mergePending_eq_some.1 hm
  intro e he
  rcases List.mem_append.1 he with he | he
  · exact h e (by simp [he])
  · rcases List.mem_cons.1 he with rfl | he
    · show 1 ≤ (p.commits ++ r.commits).length ∧ (p.commits ++ r.commits).length ≤ 4
      rw [List.length_append, hr]
      omega
    · exact h e (by simp [he])

/-- Every step keeps the lists bounded. -/
theorem RequestTables.Step.bounded {q q' : RequestTables} (hstep : q.Step q') (h : q.Bounded) : q'.Bounded := by
  have one {r : Request} (hr : q.decides r) : r.commits.length = 1 := h.decided hr
  obtain ⟨hlen, hpending, hrepairs, hslots, hwaiting⟩ := h
  cases hstep with
  | reset => exact State.requestsBounded_iff.1 State.reset_requestsBounded
  | merge decides into =>
    exact ⟨(mergePending_length into).trans_le hlen, mergePending_commitLists hpending (one decides) into,
      hrepairs, hslots, hwaiting⟩
  | @append _ r decides room =>
    refine ⟨?_, fun e he => ?_, hrepairs, hslots, hwaiting⟩
    · rw [List.length_append]
      exact room
    · rcases List.mem_append.1 he with he | he
      · exact hpending e he
      · rw [List.mem_singleton.1 he, commitListOk, one decides]
        decide
  | wait decides => exact ⟨hlen, hpending, hrepairs, hslots, by rintro r ⟨⟩; exact one decides⟩
  | decided => exact ⟨hlen, hpending, hrepairs, hslots, by rintro r ⟨⟩⟩
  | cancel sub => exact ⟨sub.length_le.trans hlen, fun e he => hpending e (sub.subset he), hrepairs, hslots, hwaiting⟩
  | progress same =>
    refine ⟨hlen, hpending, hrepairs, fun u y hy => ?_, hwaiting⟩
    obtain ⟨x, hx, -, hcommits⟩ := exists_of_same_asks (same u) hy
    rw [← hcommits]
    exact hslots u x hx
  | free u => exact ⟨hlen, hpending, hrepairs, fun v x hx => hslots v x (getElem_free_slot hx).2, hwaiting⟩
  | @abort _ u x busy =>
    refine ⟨hlen, hpending, fun e he => ?_, fun v y hy => hslots v y (getElem_free_slot hy).2, hwaiting⟩
    rcases List.mem_append.1 he with he | he
    · exact hrepairs e he
    · rw [List.mem_singleton.1 he]
      exact hslots u x busy
  | consider s =>
    obtain ⟨subRepairs, subPending⟩ := s.consider_sublists
    refine ⟨subPending.length_le.trans hlen, fun e he => hpending e (subPending.subset he),
      fun e he => hrepairs e (subRepairs.subset he), fun u x hx => ?_, fun r hr => hwaiting r ?_⟩
    · rcases State.consider_update hx with hx | ⟨e, he, hx⟩ | ⟨e, he, hx⟩
      · exact hslots u x hx
      · exact hx ▸ hrepairs e he
      · exact hx ▸ hpending e he
    · rwa [State.requests, State.consider_engine] at hr

/-- Every step keeps the slots and the repairs apart. -/
theorem RequestTables.Step.apart {q q' : RequestTables} (hstep : q.Step q') (h : RectsApart q.slots q.repairs) :
    RectsApart q'.slots q'.repairs := by
  cases hstep with
  | reset => exact State.repairsBounded_iff.1 State.reset_repairsBounded
  | merge | append | wait | decided | cancel => exact h
  | progress same => exact h.progress same
  | free u => exact h.free u
  | abort busy => exact h.abort busy rfl
  | consider s => exact State.consider_apart h

/-- Settles O9: each step of the tables keeps both laws, and every command is made of such steps. -/
theorem requestsStayBounded : Obligations.RequestsStayBounded := by
  unfold Obligations.RequestsStayBounded
  refine ⟨step_keeps (fun _ _ => id) fun c s t hs hx => ?_, fun s t hs hx => ?_⟩
  · rw [State.requestsBounded_iff] at hs ⊢
    exact (exec_reach hx).keeps (fun q q' hstep => hstep.bounded) hs
  · have kept : t.repairsBounded := step_keeps (P := State.repairsBounded) (fun _ _ => id)
      (fun c s t hs hx => by
        rw [State.repairsBounded_iff] at hs ⊢
        exact (exec_reach hx).keeps (P := fun q => RectsApart q.slots q.repairs) (fun q q' hstep => hstep.apart) hs)
      s t hs hx
    exact ⟨kept, (Nat.le_add_right ..).trans (State.repairsBounded_iff.1 kept).room⟩

end Sys2Proof.Machine
end

section
/-! SUPPORT. The statement that the rectangles of busy slots stay disjoint and the start order lists each busy slot once:
both laws through the steps of the tables. -/

namespace Sys2Proof.Machine

/-! ## Disjoint rectangles (R126) -/

/-- With no request to wait for, rectangles apart are the slots' disjointness: there are only fifteen slots. -/
theorem State.slotsDisjoint_iff {s : State} : s.slotsDisjoint ↔ RectsApart s.updates.slots [] :=
  ⟨fun h => ⟨h, .nil, (fun _ hp => by cases hp), (Nat.zero_add _).trans_le Vector.countP_le_size⟩, fun h => h.ofSlots⟩

/-- Every step of the tables keeps the rectangles of the busy slots disjoint. -/
theorem RequestTables.Step.slotsApart {q q' : RequestTables} (hstep : q.Step q') (h : RectsApart q.slots []) :
    RectsApart q'.slots [] := by
  cases hstep with
  | reset => exact (State.repairsBounded_iff.1 State.reset_repairsBounded).sublist (List.nil_sublist _)
  | merge | append | wait | decided | cancel => exact h
  | progress same => exact h.progress same
  | free u => exact h.free u
  | @abort _ u => exact h.free u
  | consider s =>
    have start (t : State) (waiting : List Request) (e : Request) (h : RectsApart t.updates.slots [])
        (hc : t.canStart waiting e = true) : RectsApart (t.startUpdate e).updates.slots [] := h.start hc
    exact State.walkEntries_keeps (P := fun t => RectsApart t.updates.slots []) start _ _ _
      (State.walkEntries_keeps start _ _ _ h)

/-! ## The start order (R122) -/

/-- The start order lists each busy slot exactly once, and no other. -/
structure OrderOk (slots : Vector (Option Update) 15) (order : List (Fin 15)) : Prop where
  nodup : order.Nodup
  lists : ∀ u : Fin 15, u ∈ order ↔ slots[u] ≠ none

theorem State.orderLaw_iff {s : State} : s.orderLaw ↔ OrderOk s.updates.slots s.updates.order :=
  ⟨fun ⟨hn, hl⟩ => ⟨hn, hl⟩, fun ⟨hn, hl⟩ => ⟨hn, hl⟩⟩

section
variable {slots : Vector (Option Update) 15} {order : List (Fin 15)}

/-- A FREE slot is filled and joins the order (R127). -/
theorem OrderOk.fill (h : OrderOk slots order) {u : Fin 15} (free : slots[u] = none) (x : Update) :
    OrderOk (slots.set u (some x)) (order ++ [u]) where
  nodup := by
    have new : u ∉ order := fun hu => (h.lists u).1 hu free
    exact h.nodup.append (List.nodup_singleton u) (List.disjoint_singleton.2 new)
  lists v := by
    rw [getElem_set_slot, List.mem_append, List.mem_singleton, h.lists]
    split_ifs with huv
    · simp [huv]
    · simp [Ne.symm huv]

/-- A slot becomes FREE and leaves the order (R122). -/
theorem OrderOk.free (h : OrderOk slots order) (u : Fin 15) :
    OrderOk (slots.set u none) (order.filter (fun v => decide (v ≠ u))) where
  nodup := h.nodup.filter _
  lists v := by
    rw [getElem_set_slot, List.mem_filter, h.lists]
    split_ifs with huv
    · simp [huv]
    · simp [Ne.symm huv]

/-- The slots change in other things than what was asked for. -/
theorem OrderOk.progress (h : OrderOk slots order) {slots' : Vector (Option Update) 15}
    (same : ∀ u : Fin 15, slots'[u].map Update.asks = slots[u].map Update.asks) : OrderOk slots' order where
  nodup := h.nodup
  lists u := by
    rw [h.lists, not_iff_not, ← Option.map_eq_none_iff (f := Update.asks), ← same u, Option.map_eq_none_iff]

end

theorem State.startUpdate_order {s : State} {u : Fin 15} (h : s.lowestFree = some u) (e : Request) :
    (s.startUpdate e).updates.order = s.updates.order ++ [u] := by
  unfold State.startUpdate
  rw [h]

/-- Every step of the tables keeps the start order in order. -/
theorem RequestTables.Step.orderOk {q q' : RequestTables} (hstep : q.Step q') (h : OrderOk q.slots q.order) :
    OrderOk q'.slots q'.order := by
  cases hstep with
  | reset => exact ⟨List.nodup_nil, by decide⟩
  | merge | append | wait | decided | cancel => exact h
  | progress same => exact h.progress same
  | free u => exact h.free u
  | @abort _ u => exact h.free u
  | consider s =>
    have start (t : State) (waiting : List Request) (e : Request) (h : OrderOk t.updates.slots t.updates.order)
        (hc : t.canStart waiting e = true) :
        OrderOk (t.startUpdate e).updates.slots (t.startUpdate e).updates.order := by
      obtain ⟨⟨⟨u, hu⟩, -⟩, -⟩ := State.canStart_iff.1 hc
      rw [State.startUpdate_slots hu, State.startUpdate_order hu]
      exact h.fill (State.update_lowestFree hu) _
    exact State.walkEntries_keeps (P := fun t => OrderOk t.updates.slots t.updates.order) start _ _ _
      (State.walkEntries_keeps start _ _ _ h)

/-- Settles O6: each step of the tables keeps both laws, and every command is made of such steps. -/
theorem slotRectanglesStayDisjoint : Obligations.SlotRectanglesStayDisjoint := by
  unfold Obligations.SlotRectanglesStayDisjoint
  refine ⟨step_keeps (fun _ _ => id) fun c s t hs hx => ?_, step_keeps (fun _ _ => id) fun c s t hs hx => ?_⟩
  · rw [State.slotsDisjoint_iff] at hs ⊢
    exact (exec_reach hx).keeps (P := fun q => RectsApart q.slots []) (fun q q' hstep => hstep.slotsApart) hs
  · rw [State.orderLaw_iff] at hs ⊢
    exact (exec_reach hx).keeps (P := fun q => OrderOk q.slots q.order) (fun q q' hstep => hstep.orderOk) hs

end Sys2Proof.Machine
end

section
/-! SUPPORT. Memory, the Ghost Counters and the panel link's codes: the writes there are, and the operations that leave the
three tables as they are. -/

namespace Sys2Proof.Machine

/-! ## The tables and their writes -/

/-- Memory, the table of Ghost Counters and the table of the panel link's codes. -/
structure SparseTables where
  mem : Memory
  ghosts : List (Nat × Nat)
  link : List (Nat × List (BitVec 2))

/-- The tables of a state. -/
def State.sparse (s : State) : SparseTables :=
  { mem := s.mem, ghosts := s.updates.ghosts, link := s.scanner.link }

/-- What can become of the tables, one write at a time. -/
inductive SparseTables.Step : SparseTables → SparseTables → Prop
  /-- A word is written with its byte enables (R1). -/
  | write {q : SparseTables} (a : Nat) (w : Word) (enables : BitVec 4) :
      Step q { q with mem := q.mem.writeMasked a w enables }
  /-- A Ghost Counter takes a value of its range (R124, R129). -/
  | count {q : SparseTables} (tile : Nat) {v : Nat} (range : v ≤ Config.ghostTop) :
      Step q { q with ghosts := Sparse.put Config.ghostTop tile v q.ghosts }
  /-- Every Ghost Counter becomes 63 (R141, R157). -/
  | forget {q : SparseTables} : Step q { q with ghosts := [] }
  /-- A word of the panel receives its codes (R144). -/
  | deliver {q : SparseTables} (n : Nat) (codes : List (BitVec 2)) :
      Step q { q with link := Sparse.put holdCodes n codes q.link }
  /-- A frame starts (R143). -/
  | frame {q : SparseTables} : Step q { q with link := [] }

/-- The second state's tables come from the first one's by such writes. -/
def State.sparseReach (s t : State) : Prop := Relation.ReflTransGen SparseTables.Step s.sparse t.sparse

section
variable {s t u : State}

theorem State.sparse_ext (hm : t.mem = s.mem) (hu : t.updates = s.updates) (hs : t.scanner = s.scanner) :
    t.sparse = s.sparse := by
  unfold State.sparse
  rw [hm, hu, hs]

theorem State.sparseReach_of_eq (h : t.sparse = s.sparse) : s.sparseReach t := by
  unfold State.sparseReach
  rw [h]

theorem State.sparseReach_refl (s : State) : s.sparseReach s := State.sparseReach_of_eq rfl

theorem State.sparseReach.trans (h : s.sparseReach t) (h' : t.sparseReach u) : s.sparseReach u :=
  Relation.ReflTransGen.trans h h'

/-- An operation that leaves the tables as they are. -/
theorem State.sparseReach.kept (h : s.sparseReach t) (hu : u.sparse = t.sparse := by rfl) : s.sparseReach u :=
  h.trans (State.sparseReach_of_eq hu)

/-- One more write. -/
theorem State.sparseReach.step (h : s.sparseReach t) (hstep : t.sparse.Step u.sparse) : s.sparseReach u :=
  Relation.ReflTransGen.tail h hstep

/-- Words are written one after another. -/
theorem SparseTables.reach_setWords (ws : List Word) : ∀ (q : SparseTables) (a : Nat),
    Relation.ReflTransGen SparseTables.Step q { q with mem := q.mem.setWords a ws } := by
  induction ws with
  | nil => exact fun q a => .refl
  | cons w ws ih => exact fun q a => .head (.write a w 15) (ih { q with mem := q.mem.setWord a w } (a + 4))

/-- A grant that writes the words of its access, or none, and leaves the Update Scheduler and the Panel Scanner. -/
theorem State.sparseReach_of_written {access : Option Access} (hm : WrittenBy access s.mem t.mem)
    (hu : t.updates = s.updates) (hs : t.scanner = s.scanner) : s.sparseReach t := by
  have written : t.sparse = { s.sparse with mem := t.mem } := by
    unfold State.sparse
    rw [hu, hs]
  unfold State.sparseReach
  rw [written]
  rcases hm with hm | ⟨a, ws, -, -, -, hm⟩
  · rw [hm]
    exact .refl
  · rw [hm]
    exact SparseTables.reach_setWords ws s.sparse a.addr

end

/-! ## Operations that leave the tables as they are -/

section
variable (s : State)

/-- Items taken one after another leave what each of them leaves. -/
theorem State.foldl_sparse {α : Type} {f : State → α → State} (hf : ∀ s x, (f s x).sparse = s.sparse) (xs : List α) :
    ∀ s : State, (xs.foldl f s).sparse = s.sparse := by
  induction xs with
  | nil => exact fun s => rfl
  | cons x xs ih => exact fun s => (ih _).trans (hf s x)

theorem State.raiseAll_sparse (es : List Event) : (s.raiseAll es).sparse = s.sparse := by
  rw [State.raiseAll_eq]
  rfl

theorem State.raise_sparse (e : Event) : (s.raise e).sparse = s.sparse := s.raiseAll_sparse [e]

theorem State.accessFault_sparse (a : BusAddr) (c : FaultCause) : (s.accessFault a c).sparse = s.sparse := by
  unfold State.accessFault
  dsimp only
  split
  · exact State.raise_sparse _ _
  · rfl

theorem conclude_sparse (before after : State) : (conclude before after).sparse = after.sparse := by
  rw [conclude_eq]
  rfl

theorem State.endExecution_sparse : s.endExecution.sparse = s.sparse := rfl

theorem State.refuse_sparse (r : Record) (reason : Reason) : (s.refuse r reason).sparse = s.sparse :=
  s.raise_sparse _

theorem State.resumePainting_sparse (p : Painting) : (s.resumePainting p).sparse = s.sparse := by
  unfold State.resumePainting
  split <;> rfl

theorem State.beginPainting_sparse (i : Fin 4) (paints : List Paint) : (s.beginPainting i paints).sparse = s.sparse :=
  s.resumePainting_sparse _

theorem State.createNote_sparse (n : Note) : (s.createNote n).sparse = s.sparse := by
  unfold State.createNote State.renumberNotes
  split <;> rfl

theorem State.copyNotes_sparse (source dest : Fin 4) : (s.copyNotes source dest).sparse = s.sparse :=
  State.foldl_sparse (fun s _ => s.createNote_sparse _) _ (s.dropNotes dest)

theorem State.raiseCut_sparse (r : Record) (dropped held : Nat) : (s.raiseCut r dropped held).sparse = s.sparse := by
  unfold State.raiseCut
  split
  · rfl
  · exact s.raise_sparse _

theorem State.doHighlight_sparse (r : Record) : (s.doHighlight r).sparse = s.sparse := by
  unfold State.doHighlight
  dsimp only
  split
  · exact (State.beginPainting_sparse _ _ _).trans (State.raiseCut_sparse _ _ _ _)
  · exact (State.beginPainting_sparse _ _ _).trans ((State.raiseCut_sparse _ _ _ _).trans (s.createNote_sparse _))

/-- What a run may change without a grant lies beside the tables. -/
theorem State.RunsTo.sparse {s t : State} {i k : Fin 4} (h : s.RunsTo i k t) : t.sparse = s.sparse := by
  rw [h.beside]
  rfl

theorem State.resumeRun_sparse (r : Run) : (s.resumeRun r).sparse = s.sparse :=
  (State.runOn_runsTo _ s r).1.sparse

theorem State.beginRun_sparse (r : Run) : (s.beginRun r).sparse = s.sparse := by
  unfold State.beginRun
  split
  · split
    · rfl
    · exact s.raise_sparse _
  · exact s.resumeRun_sparse r

/-- What an offered write may change lies beside the tables. -/
theorem State.ringOnly.sparse {s t : State} (h : s.ringOnly t) : t.sparse = s.sparse := by
  obtain ⟨d, q, r, rfl⟩ := h
  rfl

theorem State.handOff_sparse (d : Handoff) : (s.handOff d).sparse = s.sparse := by
  cases d with
  | nobody | font | consumedCount => rfl
  | page e o =>
    show (s.draftWritten e o).sparse = s.sparse
    unfold State.draftWritten
    split
    · split <;> rfl
    · rfl
  | faultClear =>
    show s.faultClearWritten.sparse = s.sparse
    unfold State.faultClearWritten
    split <;> rfl

/-! ## Commits (R103 to R120) -/

/-- A consideration called for where some entry is gone. -/
theorem State.callIf_sparse (c : Bool) : (if c then s else s.callConsideration).sparse = s.sparse := by
  split <;> rfl

theorem State.cancelPage_sparse (i : Fin 4) : (s.cancelPage i).sparse = s.sparse :=
  (State.callIf_sparse _ _).trans (State.raiseAll_sparse _ _)

theorem State.cancelAll_sparse : s.cancelAll.sparse = s.sparse :=
  (State.callIf_sparse _ _).trans (State.raiseAll_sparse _ _)

theorem State.discardPage_sparse (i : Fin 4) : (s.discardPage i).sparse = s.sparse := s.cancelPage_sparse i

theorem State.takeWaitingDiscard_sparse (i : Fin 4) : (s.takeWaitingDiscard i).sparse = s.sparse := by
  unfold State.takeWaitingDiscard
  split
  · exact s.discardPage_sparse i
  · rfl

theorem State.endCommit_sparse (c : Commit) : (s.endCommit c).sparse = s.sparse := by
  rw [State.endCommit_eq]
  split
  · exact State.takeWaitingDiscard_sparse _ _
  · rfl

theorem State.decideRequest_sparse (c : Commit) (r : Request) : (s.decideRequest c r).sparse = s.sparse := by
  rcases s.decideRequest_cases c r with ⟨pending, -, h⟩ | ⟨-, -, h⟩ | ⟨-, -, h⟩ <;> rw [h]
  · exact State.endCommit_sparse _ c
  · exact State.endCommit_sparse _ c
  · rfl

theorem State.serveDiff_scanner : s.serveDiff.scanner = s.scanner := by
  unfold State.serveDiff
  split
  · split <;> rfl
  · rfl

/-! ## Updates and panel power (R121 to R151) -/

theorem State.riseIfReady_sparse : s.riseIfReady.sparse = s.sparse := by
  unfold State.riseIfReady
  split <;> rfl

theorem State.slotBecameReady_sparse : s.slotBecameReady.sparse = s.sparse := by
  unfold State.slotBecameReady
  split
  · rfl
  · exact s.riseIfReady_sparse

theorem State.setSlotState_sparse (u : Fin 15) (st : UpdateState) : (s.setSlotState u st).sparse = s.sparse := by
  unfold State.setSlotState
  split <;> rfl

theorem State.abort_sparse (u : Fin 15) : (s.abort u).sparse = s.sparse := by
  unfold State.abort
  split <;> rfl

theorem State.finishSlot_sparse (u : Fin 15) : (s.finishSlot u).sparse = s.sparse := by
  unfold State.finishSlot
  split
  · exact State.raise_sparse _ _
  · rfl

theorem State.countFrames_sparse : s.countFrames.sparse = s.sparse :=
  (State.callIf_sparse _ _).trans (State.foldl_sparse State.finishSlot_sparse _ (s.mapUpdates Update.countFrame))

theorem State.suspend_sparse : s.suspend.sparse = s.sparse := rfl

theorem State.hold_sparse : s.hold.sparse = s.sparse := rfl

theorem State.finishLoad_sparse : s.finishLoad.sparse = s.sparse := State.riseIfReady_sparse _

end

/-! ## The grants of engines -/

section
variable (s : State)

theorem State.resumePainting_scanner (p : Painting) : (s.resumePainting p).scanner = s.scanner := by
  unfold State.resumePainting
  split <;> rfl

theorem State.servePainting_scanner (p : Painting) : (s.servePainting p).scanner = s.scanner := by
  unfold State.servePainting
  split
  · rfl
  · dsimp only
    split
    · exact State.resumePainting_scanner _ _
    · split
      · exact State.resumePainting_scanner _ _
      · rfl

theorem State.serveCopying_scanner (c : Copying) : (s.serveCopying c).scanner = s.scanner := by
  unfold State.serveCopying
  dsimp only
  split
  · rfl
  · split <;> rfl

theorem State.resumeRun_scanner (r : Run) : (s.resumeRun r).scanner = s.scanner := by
  unfold State.resumeRun
  rw [(State.runOn_runsTo _ s r).1.beside]

theorem State.blendOn_scanner (r : Run) (touches : List Touch) : (s.blendOn r touches).scanner = s.scanner := by
  unfold State.blendOn
  split
  · exact s.resumeRun_scanner _
  · rfl

theorem State.resolveOwn_scanner (r : Run) (b : Font) (l : Lookup) (g : Glyph) (bad : Bool) :
    (s.resolveOwn r b l g bad).1.scanner = s.scanner := by
  obtain ⟨⟨cache, found⟩, -⟩ := State.looksUp_resolveOwn s r b l g bad
  rw [found]

theorem State.serveEntry_scanner (r : Run) (b : Font) (l : Lookup) : (s.serveEntry r b l).scanner = s.scanner := by
  unfold State.serveEntry
  dsimp only
  split
  · exact State.resumeRun_scanner _ _
  · exact (State.resumeRun_scanner _ _).trans (State.resolveOwn_scanner ..)

theorem State.serveRun_scanner (r : Run) : (s.serveRun r).scanner = s.scanner := by
  unfold State.serveRun
  split
  · split
    · unfold State.serveBitmap
      dsimp only
      split
      · rfl
      · exact s.blendOn_scanner _ _
    · exact State.blendOn_scanner _ _ _
    · rfl
    · exact s.resumeRun_scanner _
  · split
    · exact s.serveEntry_scanner _ _ _
    · rfl

theorem State.serveLoader_scanner : s.serveLoader.scanner = s.scanner := by
  unfold State.serveLoader
  split
  · rfl
  · split
    · unfold State.serveLoad
      dsimp only
      split <;> rfl
    · rfl

theorem State.serveCheck_scanner : s.serveCheck.scanner = s.scanner := by
  unfold State.serveCheck
  split <;> rfl

theorem State.serveDiff_updates : s.serveDiff.updates = s.updates := by
  unfold State.serveDiff
  split
  · split <;> rfl
  · rfl

/-- An engine's grant leaves the Update Scheduler and the Panel Scanner. -/
theorem State.serveEngine_updates_scanner (pick : Nat) (e : EngineName) :
    (s.serveEngine pick e).updates = s.updates ∧ (s.serveEngine pick e).scanner = s.scanner := by
  cases e with
  | composer =>
    unfold State.serveEngine
    dsimp only
    split
    · exact ⟨(s.servePainting_commit_updates _).2, s.servePainting_scanner _⟩
    · exact ⟨(s.serveCopying_commit_updates _).2, s.serveCopying_scanner _⟩
    · exact ⟨(s.serveRun_commit_updates _).2, s.serveRun_scanner _⟩
    · exact ⟨rfl, rfl⟩
  | commitEngine => exact ⟨s.serveDiff_updates, s.serveDiff_scanner⟩
  | slotLoader => exact ⟨s.serveLoader_commit_updates.2, s.serveLoader_scanner⟩
  | reporter =>
    unfold State.serveEngine
    dsimp only
    split
    · rename_i w _
      cases w <;> exact ⟨rfl, rfl⟩
    · exact ⟨rfl, rfl⟩
  | waveformCheck => exact ⟨s.serveCheck_commit_updates.2, s.serveCheck_scanner⟩

end

end Sys2Proof.Machine
end

section
/-! SUPPORT. Every command takes memory, the Ghost Counters and the panel link's codes through the writes that there are;
the statement that their tables stay canonical and the counters in their range. -/

namespace Sys2Proof.Machine

/-! ## The operations that write the tables -/

section
variable (s : State)

theorem State.landWrite_reach (w : HostWrite) (d : Handoff) : s.sparseReach (s.landWrite w d) := by
  have written : s.sparse.Step
      ({ s with mem := s.mem.writeMasked (wordAddr w.addr.toNat) w.data w.enables, relay := .idle } : State).sparse :=
    .write ..
  exact (s.sparseReach_refl.step written).kept (State.handOff_sparse _ d)

theorem State.serveRelay_reach : s.sparseReach s.serveRelay := by
  unfold State.serveRelay
  split
  · exact s.sparseReach_refl.kept
  · exact s.landWrite_reach _ _
  · exact s.sparseReach_refl

theorem State.landIfGranted_reach : s.sparseReach s.landIfGranted := by
  unfold State.landIfGranted
  split
  · exact s.serveRelay_reach
  · exact s.sparseReach_refl

/-- A released Control Ring write lands, or waits for its grant. -/
theorem State.sparseReach.release {t : State} (h : s.sparseReach t) (w : HostWrite) : s.sparseReach (t.release w) :=
  State.sparseReach.trans h.kept (State.landIfGranted_reach { t with relay := .writing w .nobody })

theorem State.serveBeat_reach (b : Beat) : s.sparseReach (s.serveBeat b) := by
  cases b with
  | read addr =>
    show s.sparseReach (s.serveRead addr)
    unfold State.serveRead
    split
    · exact State.sparseReach_of_eq (State.accessFault_sparse _ _ _)
    · exact State.sparseReach.trans s.sparseReach_refl.kept (State.landIfGranted_reach { s with relay := .reading addr })
  | write w =>
    rw [State.serveBeat_write]
    split
    · exact State.sparseReach_of_eq (State.accessFault_sparse _ _ _)
    · exact State.sparseReach_of_eq (State.accessFault_sparse _ _ _)
    · refine State.sparseReach_of_eq ?_
      unfold State.spoilCheck
      split
      · split <;> rfl
      · rfl
    · exact s.sparseReach_refl.kept

theorem State.arrive_reach (b : Beat) : s.sparseReach (s.arrive b) := by
  unfold State.arrive
  split
  · exact State.sparseReach.trans s.sparseReach_refl.kept (s.touchDoze.serveBeat_reach b)
  · exact s.sparseReach_refl.kept

theorem State.serveHeld_reach : s.sparseReach s.serveHeld := by
  unfold State.serveHeld
  split
  · exact s.serveBeat_reach _
  · exact s.sparseReach_refl

theorem State.offerWrite_reach (w : HostWrite) : s.sparseReach (s.offerWrite w) := by
  have offered := State.sparseReach_of_eq (s.ringOnly_offer (s.ringWord w) w.whole w.data).sparse
  unfold State.offerWrite
  dsimp only
  split
  · exact offered.kept
  · exact offered.release s w

theorem State.deliver_reach (f : Frame) (n : Nat) (codes : List (BitVec 2)) : s.sparseReach (s.deliver f n codes) := by
  unfold State.deliver
  split
  · exact s.sparseReach_refl.step (.deliver n codes)
  · exact s.sparseReach_refl.kept

theorem State.serveScan_reach : s.sparseReach s.serveScan := by
  have lowered : s.sparseReach { s with scanner := { s.scanner with request := false } } := s.sparseReach_refl.kept
  unfold State.serveScan
  split
  · dsimp only
    split
    · exact s.sparseReach_refl.kept
    · exact lowered.trans (State.deliver_reach _ _ _ _)
    · exact lowered.trans (State.deliver_reach _ _ _ _)
  · exact s.sparseReach_refl

theorem State.serveGrant_sparseReach (pick : Nat) (g : Grant) : s.sparseReach (s.serveGrant pick g) := by
  cases g with
  | refresh => exact s.sparseReach_refl.kept
  | scanner => exact s.serveScan_reach
  | relay => exact s.serveRelay_reach
  | engine e =>
    obtain ⟨kept, beside⟩ :=
      State.serveEngine_updates_scanner { s with port := { s.port with turn := e.after } } pick e
    exact State.sparseReach_of_written (s.serveGrant_written pick (g := .engine e) (by simp)) kept beside

/-- A start keeps a changed Ghost Counter in its range (R129). -/
theorem ghostAfter_le (m : Mode) (count : Nat) : ghostAfter m count ≤ Config.ghostTop := by
  unfold ghostAfter
  split
  · exact Nat.zero_le _
  · exact Nat.min_le_left ..

theorem SparseTables.reach_ghostsAfter (m : Mode) (tiles : List Nat) : ∀ q : SparseTables,
    Relation.ReflTransGen SparseTables.Step q { q with ghosts := ghostsAfter m tiles q.ghosts } := by
  induction tiles with
  | nil => exact fun q => .refl
  | cons tile tiles ih => exact fun q => .head (.count tile (ghostAfter_le m _)) (ih { q with ghosts := _ })

theorem State.startUpdate_reach (e : Request) : s.sparseReach (s.startUpdate e) := by
  unfold State.startUpdate
  split
  · exact SparseTables.reach_ghostsAfter _ _ s.sparse
  · exact s.sparseReach_refl

theorem State.consider_reach : s.sparseReach s.consider := by
  have start (t : State) (waiting : List Request) (e : Request) (h : s.sparseReach t)
      (_ : t.canStart waiting e = true) : s.sparseReach (t.startUpdate e) := h.trans (t.startUpdate_reach e)
  have walked : s.sparseReach
      (((s.walkEntries [] s.updates.repairs).1.walkEntries (s.walkEntries [] s.updates.repairs).2 s.commit.pending).1) :=
    State.walkEntries_keeps start _ _ _ (State.walkEntries_keeps start _ _ _ s.sparseReach_refl)
  exact walked.kept

theorem State.changeGeometry_reach (k : Check) (g : Geometry) : s.sparseReach (s.changeGeometry k g) := by
  have cancelled (p : Supply) : s.sparseReach (s.setSupply p).cancelAll :=
    State.sparseReach_of_eq (State.cancelAll_sparse _)
  exact (cancelled _).step .forget

end

/-! ## Answers -/

/-- The tables of every next state that an answer gives come from a state's by the writes that there are. -/
def State.answersSparse (s : State) (o : Host.Outcome State Fault Refusal) : Prop :=
  ∀ t, o = .next t → s.sparseReach t

section
variable {s x : State}

theorem State.answersSparse_proceed (h : s.sparseReach x) : s.answersSparse (proceed s x) := by
  rintro t ⟨⟩
  exact h.kept (conclude_sparse s x)

theorem State.answersSparse_noOccasion (s : State) : s.answersSparse (noOccasion s) := by
  rintro t ⟨⟩
  exact s.sparseReach_refl

/-- A command with one condition. -/
theorem State.answersSparse_ite (h : s.sparseReach x) (p : Prop) [Decidable p] :
    s.answersSparse (if p then proceed s x else noOccasion s) := by
  split
  · exact State.answersSparse_proceed h
  · exact State.answersSparse_noOccasion s

/-- A record command leaves the tables as they are. -/
theorem State.answersSparse_onRecord {run : Record → State} (h : ∀ r, (run r).sparse = s.sparse)
    (fits : Record → Bool) : s.answersSparse (onRecord s fits run) := by
  unfold onRecord
  split
  · exact State.answersSparse_ite (State.sparseReach_of_eq (h _)) _
  · exact State.answersSparse_noOccasion s

/-- A record command with checks. -/
theorem State.answersSparse_checked {carryOut : Record → State} (h : ∀ r, (carryOut r).sparse = s.sparse)
    (fits : Record → Bool) (checks : Record → List (Bool × Reason)) :
    s.answersSparse (onRecord s fits (fun r => s.checked r (checks r) (carryOut r))) := by
  refine State.answersSparse_onRecord (fun r => ?_) fits
  unfold State.checked
  split
  · exact s.refuse_sparse r _
  · exact h r

/-- A hand-over with checks. -/
theorem State.answersSparse_onHandOver {carryOut : Record → State} (h : ∀ r, (carryOut r).sparse = s.sparse)
    (k : RecordKind) (checks : Record → List (Bool × Reason)) :
    s.answersSparse (onHandOver s k (fun r => s.checked r (checks r) (carryOut r))) := by
  unfold onHandOver
  split
  · exact State.answersSparse_checked h _ checks
  · exact State.answersSparse_noOccasion s

theorem State.answersSparse_onLanding (s : State) (fits : Handoff → Bool) : s.answersSparse (onLanding s fits) := by
  unfold onLanding
  split
  · exact State.answersSparse_ite (s.landWrite_reach _ _) _
  · exact State.answersSparse_noOccasion s

end

/-! ## Commands by block -/

theorem execControlRingWrite_sparse (s : State) : s.answersSparse (execControlRingWrite s) := by
  unfold execControlRingWrite
  split
  · split
    · exact State.answersSparse_noOccasion s
    · exact State.answersSparse_proceed (s.offerWrite_reach _)
  · exact State.answersSparse_noOccasion s

theorem execHoldTimerExpiry_sparse (s : State) : s.answersSparse (execHoldTimerExpiry s) := by
  unfold execHoldTimerExpiry
  split
  · split
    · exact State.answersSparse_noOccasion s
    · exact State.answersSparse_proceed ((State.sparseReach_of_eq (s.ringOnly_overrun _).sparse).release s _)
  · exact State.answersSparse_noOccasion s

theorem execHoldReleaseOnRoom_sparse (s : State) : s.answersSparse (execHoldReleaseOnRoom s) := by
  have released (w : Word) : s.ringOnly (s.releaseHeld w) :=
    (s.ringOnly_decoder _).trans (State.ringOnly_startRecord _ w)
  unfold execHoldReleaseOnRoom
  split
  · exact State.answersSparse_ite ((State.sparseReach_of_eq (released _).sparse).release s _) _
  · exact State.answersSparse_noOccasion s

theorem execStallTimerExpiry_sparse (s : State) : s.answersSparse (execStallTimerExpiry s) := by
  unfold execStallTimerExpiry
  split
  · exact State.answersSparse_proceed (State.sparseReach_of_eq (s.ringOnly_tear ..).sparse).kept
  · exact State.answersSparse_proceed s.sparseReach_refl.kept
  · exact State.answersSparse_noOccasion s

theorem execDiffTileVisit_sparse (s : State) : s.answersSparse (execDiffTileVisit s) := by
  unfold execDiffTileVisit
  split
  · split
    · exact State.answersSparse_proceed s.sparseReach_refl.kept
    · exact State.answersSparse_noOccasion s
  · exact State.answersSparse_noOccasion s

theorem execDiffEnd_sparse (s : State) : s.answersSparse (execDiffEnd s) := by
  unfold execDiffEnd
  split
  · split
    · split
      · exact State.answersSparse_proceed
          (State.sparseReach_of_eq ((State.endCommit_sparse _ _).trans (s.raise_sparse _)))
      · exact State.answersSparse_proceed (State.sparseReach_of_eq (s.decideRequest_sparse _ _))
    · exact State.answersSparse_noOccasion s
  · exact State.answersSparse_noOccasion s

theorem execWaveformCheckEnd_sparse (s : State) : s.answersSparse (execWaveformCheckEnd s) := by
  have refused (r : Record) (reason : Reason) : s.sparseReach (s.refuseLoad r reason) :=
    State.sparseReach_of_eq (State.refuse_sparse _ _ _)
  have loaded (r : Record) : s.sparseReach (s.setSupply (s.supply.load r)) := s.sparseReach_refl.kept
  unfold execWaveformCheckEnd
  split
  · refine State.answersSparse_ite ?_ _
    split
    · split
      · exact refused _ _
      · split
        · exact (loaded _).trans (State.changeGeometry_reach _ _ _)
        · exact (loaded _).kept (State.finishLoad_sparse _)
    · exact refused _ _
  · exact State.answersSparse_noOccasion s

theorem execDownstreamGrant_sparse (s : State) (needs : Bool) (pick : Nat) :
    s.answersSparse (execDownstreamGrant needs pick s) := by
  have raised : s.sparseReach (s.raiseScan needs) := s.sparseReach_refl.kept
  unfold execDownstreamGrant
  dsimp only
  split
  · split
    · exact State.answersSparse_proceed (raised.trans (State.serveGrant_sparseReach _ pick _))
    · rintro t ⟨⟩
  · exact State.answersSparse_noOccasion s

theorem execLoadingComplete_sparse (s : State) : s.answersSparse (execLoadingComplete s) := by
  unfold execLoadingComplete
  split
  · split
    · refine State.answersSparse_ite (State.sparseReach_of_eq ?_) _
      exact (State.slotBecameReady_sparse _).trans (s.setSlotState_sparse _ .ready)
    · exact State.answersSparse_noOccasion s
  · exact State.answersSparse_noOccasion s

theorem execFrameEnd_sparse (s : State) : s.answersSparse (execFrameEnd s) := by
  unfold execFrameEnd
  split
  · have counted : s.sparseReach (State.countFrames { s with scanner := { s.scanner with frame := none } }) :=
      State.sparseReach_of_eq (State.countFrames_sparse _)
    refine State.answersSparse_proceed ?_
    dsimp only
    split
    · exact counted.kept (State.suspend_sparse _)
    · split
      · exact counted.kept (State.hold_sparse _)
      · exact counted
  · exact State.answersSparse_noOccasion s

theorem execGraceTimerExpiry_sparse (s : State) : s.answersSparse (execGraceTimerExpiry s) := by
  unfold execGraceTimerExpiry
  split
  · have aborted := State.foldl_sparse State.abort_sparse (s.inOrder .frozen) (s.setSupply s.supply.enterFalling)
    exact State.answersSparse_proceed (State.sparseReach_of_eq ((State.raise_sparse _ _).trans aborted))
  · exact State.answersSparse_noOccasion s

theorem execRiseTimerExpiry_sparse (s : State) : s.answersSparse (execRiseTimerExpiry s) := by
  unfold execRiseTimerExpiry
  split
  · dsimp only
    split
    · exact State.answersSparse_proceed s.sparseReach_refl.kept
    · exact State.answersSparse_proceed (State.sparseReach_of_eq (State.raise_sparse _ _))
  · exact State.answersSparse_noOccasion s

theorem execPanelReadyDropped_sparse (s : State) : s.answersSparse (execPanelReadyDropped s) := by
  unfold execPanelReadyDropped
  refine State.answersSparse_ite ?_ _
  split
  · exact s.sparseReach_refl.kept
  · exact State.sparseReach_of_eq (State.raise_sparse _ _)
  · exact s.sparseReach_refl.kept

theorem execTemperatureReading_sparse (s : State) (reading : Option Int) :
    s.answersSparse (execTemperatureReading reading s) := by
  unfold execTemperatureReading
  dsimp only
  split
  · exact State.answersSparse_ite s.sparseReach_refl.kept _
  · exact State.answersSparse_proceed (State.sparseReach_of_eq (State.raise_sparse _ _))

theorem execPageCopy_sparse (s : State) : s.answersSparse (execPageCopy s) := by
  refine State.answersSparse_checked (fun r => ?_) _ s.copyChecks
  dsimp only
  split
  · exact s.copyNotes_sparse r.copySource r.slot
  · exact s.copyNotes_sparse r.copySource r.slot

theorem execPageDiscard_sparse (s : State) : s.answersSparse (execPageDiscard s) := by
  refine State.answersSparse_checked (fun r => ?_) _ (fun r => [(!(s.page r.slot).isOpen, .notOpen)])
  split
  · rfl
  · exact s.discardPage_sparse _

theorem execPanelUnload_sparse (s : State) : s.answersSparse (execPanelUnload s) := by
  refine State.answersSparse_checked (fun r => ?_) _ (fun _ => s.unloadChecks)
  dsimp only
  split <;> rfl

/-! ## Every command -/

/-- Every command takes the tables through the writes that there are. -/
theorem exec_sparseReach {c : Instr} {s t : State} (h : exec c s = .next t) : s.sparseReach t := by
  have hs := s.sparseReach_refl
  suffices ho : s.answersSparse (exec c s) from ho t h
  cases c with
  | reset straps =>
    rintro t ⟨⟩
    have forgotten : s.sparseReach { s with updates := { s.updates with ghosts := [] } } := hs.step .forget
    exact forgotten.step .frame
  | sdramInitializationEnd =>
    show s.answersSparse (execSdramInitializationEnd s)
    unfold execSdramInitializationEnd
    split
    · exact State.answersSparse_proceed (hs.kept.trans (State.serveHeld_reach _))
    · exact State.answersSparse_noOccasion s
  | startUpClearingEnd =>
    show s.answersSparse (execStartUpClearingEnd s)
    unfold execStartUpClearingEnd
    split
    · exact State.answersSparse_ite hs.kept _
    · exact State.answersSparse_noOccasion s
  | hostReadBeat | hostWriteBeat => exact State.answersSparse_ite (s.arrive_reach _) _
  | hostWriteLands | draftWrite | fontRegionWrite | consumedCountWrite | faultClearWrite =>
    exact State.answersSparse_onLanding s _
  | controlRingWrite => exact execControlRingWrite_sparse s
  | holdReleaseOnRoom => exact execHoldReleaseOnRoom_sparse s
  | holdTimerExpiry => exact execHoldTimerExpiry_sparse s
  | stallTimerExpiry => exact execStallTimerExpiry_sparse s
  | restart =>
    show s.answersSparse (execRestart s)
    unfold execRestart
    split
    · exact State.answersSparse_ite (s.offerWrite_reach _) _
    · exact State.answersSparse_noOccasion s
  | recordExecutionEnd =>
    show s.answersSparse (execRecordExecutionEnd s)
    unfold execRecordExecutionEnd
    split
    · exact State.answersSparse_proceed (State.sparseReach_of_eq (State.ringOnly_checkSpace _).sparse)
    · exact State.answersSparse_noOccasion s
  | recordTake | settleTimerExpiry | latencyTimerExpiry | autoCommitGrant | gapTimerExpiry | holdTimeExpiry
  | readingTimerExpiry =>
    dsimp only [exec, execRecordTake, execSettleTimerExpiry, execLatencyTimerExpiry, execAutoCommitGrant,
      execGapTimerExpiry, execHoldTimeExpiry, execReadingTimerExpiry]
    split
    · exact State.answersSparse_proceed hs.kept
    · exact State.answersSparse_noOccasion s
  | nop | lockTight | fontUnbind =>
    refine State.answersSparse_onRecord (fun _ => ?_) _
    rfl
  | tune =>
    refine State.answersSparse_onRecord (fun _ => ?_) _
    exact State.sparse_ext (by simp) (by simp) (by simp)
  | probe =>
    refine State.answersSparse_onRecord (fun _ => ?_) _
    exact (State.endExecution_sparse _).trans (s.raise_sparse _)
  | region | guard | panelLoad | fontBind | pageOpenKeepClean | pageOpenKeepDirty | noteClearOne | noteClearAll =>
    refine State.answersSparse_checked (fun _ => ?_) _ _
    rfl
  | column =>
    refine State.answersSparse_checked (fun r => ?_) _ _
    refine (State.endExecution_sparse _).trans ?_
    rw [State.resetOpenCursors_frame]
    rfl
  | pageOpenFill | fillSet | fillMultiply =>
    refine State.answersSparse_checked (fun _ => ?_) _ _
    exact State.beginPainting_sparse _ _ _
  | pageDiscard => exact execPageDiscard_sparse s
  | pageCopy => exact execPageCopy_sparse s
  | glyphRunContinue | glyphRunSet =>
    refine State.answersSparse_checked (fun _ => ?_) _ _
    exact State.beginRun_sparse _ _
  | highlight => exact State.answersSparse_checked (fun _ => s.doHighlight_sparse _) _ _
  | pageCommit =>
    refine State.answersSparse_onHandOver (fun _ => ?_) _ _
    rfl
  | refresh =>
    refine State.answersSparse_onHandOver (fun _ => ?_) _ _
    exact State.decideRequest_sparse _ _ _
  | panelUnload => exact execPanelUnload_sparse s
  | waveformCheckEnd => exact execWaveformCheckEnd_sparse s
  | geometryClearEnd =>
    show s.answersSparse (execGeometryClearEnd s)
    unfold execGeometryClearEnd
    split
    · exact State.answersSparse_ite (State.sparseReach_of_eq s.finishLoad_sparse) _
    · exact State.answersSparse_noOccasion s
  | diffTileVisit => exact execDiffTileVisit_sparse s
  | diffEnd => exact execDiffEnd_sparse s
  | pendingRetry =>
    show s.answersSparse (execPendingRetry s)
    unfold execPendingRetry
    split
    · exact State.answersSparse_proceed (State.sparseReach_of_eq (s.decideRequest_sparse _ _))
    · exact State.answersSparse_noOccasion s
  | startConsideration => exact State.answersSparse_ite (hs.kept.trans (State.consider_reach _)) _
  | downstreamGrant needs pick => exact execDownstreamGrant_sparse s needs pick
  | refreshTimerExpiry => exact State.answersSparse_ite hs.kept _
  | loadingComplete => exact execLoadingComplete_sparse s
  | frameStart =>
    show s.answersSparse (execFrameStart s)
    unfold execFrameStart
    split
    · exact State.answersSparse_proceed (hs.step .frame)
    · exact State.answersSparse_noOccasion s
  | frameEnd => exact execFrameEnd_sparse s
  | panelReadyAsserted =>
    show s.answersSparse (execPanelReadyAsserted s)
    unfold execPanelReadyAsserted
    split
    · exact State.answersSparse_noOccasion s
    · exact State.answersSparse_proceed hs.kept
  | panelReadyDropped => exact execPanelReadyDropped_sparse s
  | riseTimerExpiry => exact execRiseTimerExpiry_sparse s
  | fallTimerExpiry =>
    show s.answersSparse (execFallTimerExpiry s)
    unfold execFallTimerExpiry
    split
    · exact State.answersSparse_proceed (State.sparseReach_of_eq (State.riseIfReady_sparse _))
    · exact State.answersSparse_noOccasion s
  | graceTimerExpiry => exact execGraceTimerExpiry_sparse s
  | temperatureReading reading => exact execTemperatureReading_sparse s reading
  | dozeTimerExpiry =>
    show s.answersSparse (execDozeTimerExpiry s)
    unfold execDozeTimerExpiry
    split
    · exact State.answersSparse_ite hs.kept _
    · exact State.answersSparse_noOccasion s
  | dozeWake =>
    show s.answersSparse (execDozeWake s)
    unfold execDozeWake
    split
    · exact State.answersSparse_ite (hs.kept.trans (State.serveBeat_reach _ _)) _
    · exact State.answersSparse_noOccasion s
  | interruptPulseEnd =>
    exact State.answersSparse_ite (x := { s with reporter := { s.reporter with
      pulse := decide (0 < s.reporter.pulsesQueued), pulsesQueued := s.reporter.pulsesQueued - 1 } }) hs.kept _
  | timeStampTick => exact State.answersSparse_proceed hs.kept

/-! ## The laws of the tables -/

/-- The tables are in canonical form. -/
def SparseTables.Canonical (q : SparseTables) : Prop :=
  q.mem.wf = true ∧ Sparse.wf Config.ghostTop q.ghosts = true ∧ Sparse.wf holdCodes q.link = true

/-- Every write keeps the canonical form. -/
theorem SparseTables.Step.canonical {q q' : SparseTables} (hstep : q.Step q') (h : q.Canonical) : q'.Canonical := by
  obtain ⟨mem, ghosts, link⟩ := h
  cases hstep with
  | write => exact ⟨Memory.writeMasked_wf mem, ghosts, link⟩
  | count => exact ⟨mem, Sparse.put_wf ghosts, link⟩
  | forget => exact ⟨mem, rfl, link⟩
  | deliver => exact ⟨mem, ghosts, Sparse.put_wf link⟩
  | frame => exact ⟨mem, ghosts, rfl⟩

/-- An entry of a table after a write is the one written or stood there before. -/
theorem Sparse.mem_put {α : Type} [DecidableEq α] {d v : α} {k : Nat} {p : Nat × α} : ∀ {l : List (Nat × α)},
    p ∈ Sparse.put d k v l → p = (k, v) ∨ p ∈ l := by
  intro l
  induction l with
  | nil =>
    unfold Sparse.put
    split_ifs <;> simp
  | cons x l ih =>
    unfold Sparse.put
    split_ifs
    · exact .inr
    · simp
    · exact fun h => .inr (List.mem_cons_of_mem _ h)
    · simp only [List.mem_cons]
      tauto
    · simp only [List.mem_cons]
      rintro (h | h)
      · exact .inr (.inl h)
      · exact (ih h).imp_right .inr

/-- Every write keeps the Ghost Counters in their range. -/
theorem SparseTables.Step.ghostsBounded {q q' : SparseTables} (hstep : q.Step q') (h : ∀ p ∈ q.ghosts, p.2 ≤ 63) :
    ∀ p ∈ q'.ghosts, p.2 ≤ 63 := by
  cases hstep with
  | write | deliver | frame => exact h
  | forget => simp
  | count tile range =>
    intro p hp
    rcases Sparse.mem_put hp with rfl | hp
    · exact range
    · exact h p hp

/-- What every write keeps, every command keeps. -/
theorem State.sparseReach.keeps {P : SparseTables → Prop} (hP : ∀ q q', q.Step q' → P q → P q') {s t : State}
    (h : s.sparseReach t) (hs : P s.sparse) : P t.sparse :=
  Relation.ReflTransGen.head_induction_on (motive := fun q _ => P q → P t.sparse) h id
    (fun hstep _ ih hq => ih (hP _ _ hstep hq)) hs

/-- Settles O4: each write of the tables keeps both laws, and every command is made of such writes. -/
theorem tablesStayCanonical : Obligations.TablesStayCanonical := by
  unfold Obligations.TablesStayCanonical
  refine ⟨step_keeps (fun _ _ => id) fun c s t hs hx => ?_, step_keeps (fun _ _ => id) fun c s t hs hx => ?_⟩
  · exact (exec_sparseReach hx).keeps (P := SparseTables.Canonical) (fun q q' hstep => hstep.canonical) hs
  · exact (exec_sparseReach hx).keeps (P := fun q => ∀ p ∈ q.ghosts, p.2 ≤ 63)
      (fun q q' hstep => hstep.ghostsBounded) hs

end Sys2Proof.Machine
end

section
/-! SUPPORT. The statements about the Ghost Counters after a start and about the start of a frame. -/

namespace Sys2Proof.Machine

/-! ## Ghost Counters (R124, R129) -/

theorem mem_span {a b n : Nat} : n ∈ span a b ↔ a ≤ n ∧ n < b := by
  unfold span
  rw [List.mem_map]
  constructor
  · rintro ⟨k, hk, rfl⟩
    rw [List.mem_range] at hk
    omega
  · rintro ⟨ha, hb⟩
    exact ⟨n - a, List.mem_range.2 (by omega), by omega⟩

theorem nodup_span (a b : Nat) : (span a b).Nodup :=
  List.nodup_range.map (fun _ _ => Nat.add_left_cancel)

/-- Tiles of a panel no wider than 80 of them have a number each. -/
theorem tileNumber_inj {i i' j j' : Nat} (hi : i < 80) (hi' : i' < 80) :
    tileNumber i j = tileNumber i' j' ↔ i = i' ∧ j = j' := by
  unfold tileNumber Config.tileStride
  omega

theorem Rect.mem_tiles {r : Rect} (hr : r.right ≤ 80) {i j : Nat} (hi : i < 80) :
    tileNumber i j ∈ r.tiles ↔ r.left ≤ i ∧ i < r.right ∧ r.top ≤ j ∧ j < r.bottom := by
  unfold Rect.tiles
  simp only [List.mem_flatMap, List.mem_map, mem_span]
  constructor
  · rintro ⟨j', hj, i', ⟨hl, hri⟩, h⟩
    obtain ⟨rfl, rfl⟩ := (tileNumber_inj (by omega) hi).1 h
    exact ⟨hl, hri, hj⟩
  · rintro ⟨hl, hri, hj⟩
    exact ⟨j, hj, i, ⟨hl, hri⟩, rfl⟩

theorem Rect.nodup_tiles {r : Rect} (hr : r.right ≤ 80) : r.tiles.Nodup := by
  have column {i : Nat} (h : i ∈ span r.left r.right) : i < 80 := (mem_span.1 h).2.trans_le hr
  refine List.nodup_flatMap.2 ⟨fun j _ => ?_, (nodup_span ..).imp fun {j j'} hne => ?_⟩
  · exact (nodup_span ..).map_on fun i hi i' hi' h => ((tileNumber_inj (column hi) (column hi')).1 h).1
  · rw [Function.onFun, List.disjoint_left]
    intro n hn hn'
    obtain ⟨i, hi, rfl⟩ := List.mem_map.1 hn
    obtain ⟨i', hi', h⟩ := List.mem_map.1 hn'
    exact hne ((tileNumber_inj (column hi') (column hi)).1 h).2.symm

/-- The counters of some tiles, each listed once, are changed, and the others left. -/
theorem get_ghostsAfter (m : Mode) {tiles : List Nat} (hn : tiles.Nodup) (k : Nat) : ∀ {ghosts : List (Nat × Nat)},
    Sparse.wf Config.ghostTop ghosts = true →
    Sparse.get Config.ghostTop (ghostsAfter m tiles ghosts) k =
      if k ∈ tiles then ghostAfter m (Sparse.get Config.ghostTop ghosts k) else Sparse.get Config.ghostTop ghosts k := by
  induction tiles with
  | nil => exact fun _ => rfl
  | cons tile tiles ih =>
    intro ghosts h
    obtain ⟨fresh, hn⟩ := List.nodup_cons.1 hn
    refine (ih hn (Sparse.put_wf h)).trans ?_
    rw [Sparse.get_put h]
    by_cases hk : k = tile
    · subst hk
      simp [fresh]
    · simp [hk]

/-- Settles O53: the tiles of the rectangle have a number each, and a start writes each of their counters once. -/
theorem ghostsAfterStart : Obligations.GhostsAfterStart := by
  unfold Obligations.GhostsAfterStart
  intro m rect ghosts hw hr i j hi
  refine (get_ghostsAfter m (Rect.nodup_tiles hr) (tileNumber i j) hw).trans ?_
  rw [if_congr (Rect.mem_tiles hr hi) rfl rfl]
  cases m <;> rfl

/-! ## Frame starts (R134, R143) -/

/-- A change made to every slot that is not FREE. -/
theorem State.mapUpdates_update (s : State) (f : Update → Update) (u : Fin 15) :
    (s.mapUpdates f).update u = (s.update u).map f := by
  unfold State.mapUpdates State.update
  simp

theorem conclude_update (before after : State) (u : Fin 15) : (conclude before after).update u = after.update u := by
  unfold State.update
  rw [conclude_eq]

/-- Settles O55: the change of a frame start, slot by slot. -/
theorem frameStarts : Obligations.FrameStarts := by
  unfold Obligations.FrameStarts
  intro s hp hf
  let started : State := { s.mapUpdates Update.atFrameStart with scanner :=
    { s.scanner with frame := some { next := 0, panel := none, prior := none, codes := [] }, link := [] } }
  have hx : exec .frameStart s = proceed s started := by
    show execFrameStart s = _
    unfold execFrameStart
    rw [hp, hf]
    rfl
  have slots (u : Fin 15) : (conclude s started).update u = (s.update u).map Update.atFrameStart :=
    (conclude_update ..).trans (s.mapUpdates_update _ u)
  have link : (conclude s started).scanner.link = [] := by rw [conclude_eq]
  have updates : (conclude s started).updates = started.updates := (conclude_commit_updates s started).2
  refine ⟨conclude s started, hx, ?_, fun n => ?_, fun u => ⟨fun hu => ?_, fun x hu => ?_⟩⟩
  · rw [updates]
    exact conclude_agrees s started
  · unfold State.linkCodes
    rw [link]
    rfl
  · rw [slots, hu]
    rfl
  · rw [slots, hu]
    unfold Update.atFrameStart
    cases h : x.state <;> simp [h]

end Sys2Proof.Machine
end

section
/-! SUPPORT. Update slots that become FREE one after another, and the statements about the grace timer's expiry and about the
end of a frame. -/

namespace Sys2Proof.Machine

/-! ## Slots freed one after another (R122) -/

/-- From one state to the other some update slots have become FREE and left the start order; the others are as before. -/
structure State.Frees (s : State) (us : List (Fin 15)) (t : State) : Prop where
  slots : ∀ u, t.update u = if u ∈ us then none else s.update u
  order : t.updates.order = s.updates.order.filter (fun u => decide (u ∉ us))

theorem State.Frees.of_freeSlot {s t : State} {u : Fin 15} (hs : t.updates.slots = s.updates.slots.set u none)
    (ho : t.updates.order = s.updates.order.filter (fun v => decide (v ≠ u))) : s.Frees [u] t where
  slots v := by
    unfold State.update
    rw [hs, getElem_set_slot]
    simp [eq_comm]
  order := by simp [ho]

theorem State.Frees.others {s t : State} {u : Fin 15} {us : List (Fin 15)} (h : s.Frees [u] t) (fresh : u ∉ us)
    {v : Fin 15} (hv : v ∈ us) : t.update v = s.update v := by
  rw [h.slots, if_neg]
  intro huv
  exact fresh (List.mem_singleton.1 huv ▸ hv)

/-- An operation that frees the busy slot it is given frees all of a list of them. -/
theorem State.Frees.foldl {f : State → Fin 15 → State}
    (hf : ∀ (s : State) (u : Fin 15) (x : Update), s.update u = some x → s.Frees [u] (f s u)) (us : List (Fin 15)) :
    ∀ s : State, us.Nodup → (∀ u ∈ us, ∃ x, s.update u = some x) → s.Frees us (us.foldl f s) := by
  induction us with
  | nil => exact fun s _ _ => ⟨fun u => by simp, by simp⟩
  | cons u us ih =>
    intro s hn busy
    obtain ⟨fresh, hn⟩ := List.nodup_cons.1 hn
    obtain ⟨x, hx⟩ := busy u List.mem_cons_self
    have first := hf s u x hx
    have rest := ih (f s u) hn fun v hv => by
      rw [first.others fresh hv]
      exact busy v (List.mem_cons_of_mem u hv)
    refine ⟨fun v => ?_, ?_⟩
    · rw [List.foldl_cons, rest.slots, first.slots]
      by_cases hv : v ∈ us <;> simp [hv]
    · rw [List.foldl_cons, rest.order, first.order, List.filter_filter]
      congr 1
      funext v
      simp [Bool.and_comm]

/-! ## The grace timer (R149) -/

theorem State.abort_eq {s : State} {u : Fin 15} {x : Update} (h : s.update u = some x) :
    s.abort u = { s with updates := { s.updates with
      slots := s.updates.slots.set u none, order := s.updates.order.filter (fun v => decide (v ≠ u))
      repairs := s.updates.repairs ++ [x.toRepair] } } := by
  unfold State.abort
  rw [h]
  rfl

theorem State.abort_frees {s : State} {u : Fin 15} {x : Update} (h : s.update u = some x) :
    s.Frees [u] (s.abort u) :=
  .of_freeSlot (by rw [State.abort_eq h]) (by rw [State.abort_eq h])

/-- Aborted slots leave their repairs at the tail of the Repair List, in the order of the aborts. -/
theorem State.foldl_abort_eq (us : List (Fin 15)) : ∀ s : State, us.Nodup → (∀ u ∈ us, ∃ x, s.update u = some x) →
    us.foldl State.abort s = { s with updates := { s.updates with
      slots := (us.foldl State.abort s).updates.slots, order := (us.foldl State.abort s).updates.order
      repairs := s.updates.repairs ++ us.filterMap (fun u => (s.update u).map Update.toRepair) } } := by
  induction us with
  | nil => simp
  | cons u us ih =>
    intro s hn busy
    obtain ⟨fresh, hn⟩ := List.nodup_cons.1 hn
    obtain ⟨x, hx⟩ := busy u List.mem_cons_self
    have others {v : Fin 15} (hv : v ∈ us) := (State.abort_frees hx).others fresh hv
    have repairs : us.filterMap (fun v => ((s.abort u).update v).map Update.toRepair) =
        us.filterMap (fun v => (s.update v).map Update.toRepair) :=
      List.filterMap_congr fun v hv => by rw [others hv]
    have rest := ih (s.abort u) hn fun v hv => by
      rw [others hv]
      exact busy v (List.mem_cons_of_mem u hv)
    rw [repairs] at rest
    rw [List.foldl_cons, List.filterMap_cons, hx]
    refine rest.trans ?_
    generalize us.foldl State.abort (s.abort u) = t
    rw [State.abort_eq hx]
    simp

theorem State.mem_inOrder {s : State} {st : UpdateState} {u : Fin 15} :
    u ∈ s.inOrder st ↔ u ∈ s.updates.order ∧ s.slotState u = some st := by
  unfold State.inOrder
  simp

theorem exec_graceTimerExpiry {s : State} (hp : s.supply.panel = .suspended) (hg : s.supply.graceTimer.isSome = true) :
    exec .graceTimerExpiry s = proceed s (State.callConsideration
      (((s.inOrder .frozen).foldl State.abort (s.setSupply s.supply.enterFalling)).raise
        (.panelFault (s.inOrder .frozen).length))) := by
  obtain ⟨n, hn⟩ := Option.isSome_iff_exists.1 hg
  show execGraceTimerExpiry s = _
  unfold execGraceTimerExpiry
  rw [hp, hn]

/-- Settles O59: the FROZEN slots are aborted one after another in start order. -/
theorem graceAborts : Obligations.GraceAborts := by
  unfold Obligations.GraceAborts
  intro s hp hg hn frozen
  have busy : ∀ u ∈ frozen, ∃ x, (s.setSupply s.supply.enterFalling).update u = some x := fun u hu => by
    obtain ⟨x, hx, -⟩ := Option.map_eq_some_iff.1 (State.mem_inOrder.1 hu).2
    exact ⟨x, hx⟩
  have frees := State.Frees.foldl (fun _ _ _ => State.abort_frees) frozen (s.setSupply s.supply.enterFalling)
    (hn.filter _) busy
  have aborted := State.foldl_abort_eq frozen (s.setSupply s.supply.enterFalling) (hn.filter _) busy
  have hx := exec_graceTimerExpiry hp hg
  rw [show s.inOrder .frozen = frozen from rfl] at hx
  generalize frozen.foldl State.abort (s.setSupply s.supply.enterFalling) = a at frees aborted hx
  have told : a.raise (.panelFault frozen.length) =
      { a with reporter := (s.raise (.panelFault frozen.length)).reporter } :=
    State.raise_eq (by rw [aborted]; rfl) (by rw [aborted]; rfl) (by rw [aborted]; rfl) _
  rw [told] at hx
  refine ⟨_, hx, ?_, ?_, ?_, ?_, fun u hu => ?_, fun u hu => ?_, ?_⟩
  · rw [State.agrees_iff, conclude_eq, aborted, State.raise_eq (s := s) rfl rfl rfl]
    exact ⟨_, _, rfl⟩
  · rw [(conclude_commit_updates _ _).2]
    rfl
  · rw [(conclude_commit_updates _ _).2]
    show a.updates.ghosts = _
    rw [aborted]
    rfl
  · rw [(conclude_commit_updates _ _).2]
    refine frees.order.trans (List.filter_congr fun u hu => ?_)
    have hu : u ∈ s.updates.order := hu
    simp [frozen, hu]
  · rw [conclude_update]
    exact (frees.slots u).trans (if_pos hu)
  · rw [conclude_update]
    exact (frees.slots u).trans (if_neg hu)
  · rw [(conclude_commit_updates _ _).2]
    show a.updates.repairs = _
    rw [aborted]
    rfl

end Sys2Proof.Machine
end

section
/-! SUPPORT. The statement about the end of a frame: the updates that finish, one event after another, the slots that stay
busy, and what becomes of panel power. -/

namespace Sys2Proof.Machine

/-! ## Updates that finish (R135, R136) -/

/-- The event that a finished update raises (R136). -/
def Update.doneEvent (x : Update) : Event := .updateDone x.source x.mode x.repair x.commits

/-- The slot's update is driven in its last frame: it finishes as the frame ends (R135). -/
def State.finishes (s : State) (u : Fin 15) : Bool :=
  match s.update u with
  | some x => decide (x.state = .active ∧ x.counter + 1 = x.length)
  | none => false

/-- The slots whose updates finish as the frame ends, in start order. -/
def State.doneSlots (s : State) : List (Fin 15) := s.updates.order.filter s.finishes

/-- The events of the updates that finish, in start order. -/
def State.doneEvents (s : State) : List Event := s.doneSlots.filterMap (fun u => (s.update u).map Update.doneEvent)

theorem State.finishes_iff {s : State} {u : Fin 15} :
    s.finishes u = true ↔ ∃ x, s.update u = some x ∧ x.state = .active ∧ x.counter + 1 = x.length := by
  unfold State.finishes
  cases s.update u <;> simp

theorem State.mem_doneSlots {s : State} {u : Fin 15} :
    u ∈ s.doneSlots ↔ u ∈ s.updates.order ∧ s.finishes u = true :=
  List.mem_filter

theorem State.finishSlot_eq {s : State} {u : Fin 15} {x : Update} (h : s.update u = some x) :
    s.finishSlot u = { s with
      reporter := (s.raise x.doneEvent).reporter
      updates := { s.updates with
        slots := s.updates.slots.set u none, order := s.updates.order.filter (fun v => decide (v ≠ u)) } } := by
  unfold State.finishSlot
  rw [h]
  exact State.raise_eq (s := s) (t := s.freeSlot u) rfl rfl rfl x.doneEvent

theorem State.finishSlot_frees {s : State} {u : Fin 15} {x : Update} (h : s.update u = some x) :
    s.Frees [u] (s.finishSlot u) :=
  .of_freeSlot (by rw [State.finishSlot_eq h]) (by rw [State.finishSlot_eq h])

/-- Finished slots raise their events one after another. -/
theorem State.foldl_finishSlot_eq (us : List (Fin 15)) : ∀ s : State, us.Nodup →
    (∀ u ∈ us, ∃ x, s.update u = some x) →
    us.foldl State.finishSlot s = { s with
      reporter := (s.raiseAll (us.filterMap (fun u => (s.update u).map Update.doneEvent))).reporter
      updates := { s.updates with
        slots := (us.foldl State.finishSlot s).updates.slots
        order := (us.foldl State.finishSlot s).updates.order } } := by
  induction us with
  | nil => exact fun s _ _ => rfl
  | cons u us ih =>
    intro s hn busy
    obtain ⟨fresh, hn⟩ := List.nodup_cons.1 hn
    obtain ⟨x, hx⟩ := busy u List.mem_cons_self
    have others {v : Fin 15} (hv : v ∈ us) := (State.finishSlot_frees hx).others fresh hv
    have events : us.filterMap (fun v => ((s.finishSlot u).update v).map Update.doneEvent) =
        us.filterMap (fun v => (s.update v).map Update.doneEvent) :=
      List.filterMap_congr fun v hv => by rw [others hv]
    have told (es : List Event) :
        ((s.finishSlot u).raiseAll es).reporter = (s.raiseAll (x.doneEvent :: es)).reporter :=
      State.raiseAll_reporter (s := s.raise x.doneEvent) (by rw [State.finishSlot_eq hx])
        (by rw [State.finishSlot_eq hx]; simp) (by rw [State.finishSlot_eq hx]; simp)
    have rest := ih (s.finishSlot u) hn fun v hv => by
      rw [others hv]
      exact busy v (List.mem_cons_of_mem u hv)
    rw [events, told] at rest
    rw [List.foldl_cons, List.filterMap_cons, hx]
    refine rest.trans ?_
    generalize us.foldl State.finishSlot (s.finishSlot u) = t
    rw [State.finishSlot_eq hx]
    rfl

/-! ## The count of a frame (R135) -/

theorem Update.countFrame_finished (x : Update) :
    x.countFrame.finished = decide (x.state = .active ∧ x.counter + 1 = x.length) := by
  unfold Update.countFrame Update.finished
  cases h : x.state <;> simp [h]

/-- The slots that have finished once the frame is counted are those whose updates finish. -/
theorem State.finishedSlots_counted (s : State) : (s.mapUpdates Update.countFrame).finishedSlots = s.doneSlots := by
  refine List.filter_congr fun u _ => ?_
  unfold State.finishes
  rw [State.mapUpdates_update]
  cases s.update u with
  | none => rfl
  | some x => exact x.countFrame_finished

/-- The counting and completions of a frame end. -/
theorem State.countFrames_eq {s : State} (hn : s.doneSlots.Nodup) :
    s.countFrames = { s with
      reporter := (s.raiseAll s.doneEvents).reporter
      updates := { s.updates with
        slots := s.countFrames.updates.slots, due := s.updates.due || !s.doneSlots.isEmpty
        order := s.updates.order.filter (fun u => !s.finishes u) } } ∧
    ∀ u, s.countFrames.update u = if u ∈ s.doneSlots then none else (s.update u).map Update.countFrame := by
  have counted (u : Fin 15) := s.mapUpdates_update Update.countFrame u
  have busy : ∀ u ∈ s.doneSlots, ∃ x, (s.mapUpdates Update.countFrame).update u = some x := fun u hu => by
    obtain ⟨x, hx, -⟩ := State.finishes_iff.1 (State.mem_doneSlots.1 hu).2
    exact ⟨x.countFrame, by rw [counted, hx]; rfl⟩
  have frees := State.Frees.foldl (fun _ _ _ => State.finishSlot_frees) _ _ hn busy
  have finished := State.foldl_finishSlot_eq _ _ hn busy
  have events : s.doneSlots.filterMap (fun u => ((s.mapUpdates Update.countFrame).update u).map Update.doneEvent) =
      s.doneEvents :=
    List.filterMap_congr fun u _ => by
      rw [counted, Option.map_map]
      congr 1
      funext x
      unfold Function.comp Update.countFrame
      split <;> rfl
  have order : s.updates.order.filter (fun u => decide (u ∉ s.doneSlots)) =
      s.updates.order.filter (fun u => !s.finishes u) :=
    List.filter_congr fun u hu => by simp [State.mem_doneSlots, hu]
  have called : s.countFrames = { s.doneSlots.foldl State.finishSlot (s.mapUpdates Update.countFrame) with
      updates := { (s.doneSlots.foldl State.finishSlot (s.mapUpdates Update.countFrame)).updates with
        due := (s.doneSlots.foldl State.finishSlot (s.mapUpdates Update.countFrame)).updates.due ||
          !s.doneSlots.isEmpty } } := by
    unfold State.countFrames
    dsimp only
    rw [State.finishedSlots_counted]
    cases s.doneSlots.isEmpty <;> simp [State.callConsideration]
  rw [events] at finished
  have freedOrder := frees.order.trans order
  have freedSlots := frees.slots
  generalize s.doneSlots.foldl State.finishSlot (s.mapUpdates Update.countFrame) = a at *
  refine ⟨?_, fun u => ?_⟩
  · have told : ((s.mapUpdates Update.countFrame).raiseAll s.doneEvents).reporter =
        (s.raiseAll s.doneEvents).reporter := State.raiseAll_reporter rfl rfl rfl
    rw [told] at finished
    rw [called]
    dsimp only
    rw [freedOrder, finished]
    rfl
  · rw [called, ← counted]
    exact freedSlots u

/-! ## The end of a frame (R135, R146, R148) -/

/-- What a frame end does to a slot whose update has not finished (R135, R148). -/
def Update.atFrameEnd (lost : Bool) (x : Update) : Update :=
  match x.state with
  | .active => { x with counter := x.counter + 1, state := if lost then .frozen else .active }
  | _ => x

/-- The panel enters HOLDING, or falls at once under a panel hold time of 0 (R146). -/
def State.held (s : State) : Supply :=
  if s.tune.panelHold = 0 then
    { (s.supply) with
      panel := .falling, enable := false, holdTimer := none, graceTimer := none, readingTimer := none
      fallTimer := some 10, lossNoted := false }
  else { (s.supply) with panel := .holding, holdTimer := some (10 * s.tune.panelHold) }

/-- Panel power after a frame end: it follows a loss, and otherwise whether a slot that stays busy needs frames. -/
structure State.PowerAfterFrame (s : State) (p : Supply) : Prop where
  lost : s.supply.lossNoted = true → s.supply.readyLine = false →
    p = { (s.supply) with panel := .suspended, lossNoted := false, graceTimer := some (10 * s.supply.grace) }
  back : s.supply.lossNoted = true → s.supply.readyLine = true →
    p = { (s.supply) with panel := .on, lossNoted := false, holdTimer := none, graceTimer := none }
  driven : s.supply.lossNoted = false →
    (∃ u x, u ∉ s.doneSlots ∧ s.update u = some x ∧ x.state ≠ .loading) → p = s.supply
  idle : s.supply.lossNoted = false → (∀ u x, u ∉ s.doneSlots → s.update u = some x → x.state = .loading) → p = s.held

/-- What a frame end leaves with some slots and panel power: the frame is over, and the finished updates are told and gone
from the start order. -/
def State.frameOver (s : State) (slots : Vector (Option Update) 15) (p : Supply) : State :=
  { (s.raiseAll s.doneEvents) with
    updates := { s.updates with
      slots := slots, due := s.updates.due || !s.doneSlots.isEmpty
      order := s.updates.order.filter (fun u => !s.finishes u) }
    scanner := { s.scanner with frame := none }, supply := p }

/-- What a frame end leaves, with its slots and panel power. -/
structure State.FrameEnded (s t : State) : Prop where
  beside : t.agrees (s.frameOver t.updates.slots t.supply)
  slots : ∀ u, t.update u =
    if u ∈ s.doneSlots then none else (s.update u).map (Update.atFrameEnd s.supply.lossNoted)
  power : s.PowerAfterFrame t.supply

theorem State.noFramesNeeded_iff {s : State} :
    s.noFramesNeeded = true ↔ ∀ u x, s.update u = some x → x.state = .loading := by
  unfold State.noFramesNeeded
  rw [Bool.not_eq_true', Bool.or_eq_false_iff, Bool.or_eq_false_iff]
  simp only [Bool.eq_false_iff, ne_eq, State.anySlot_iff, not_exists, not_and]
  constructor
  · rintro ⟨⟨ready, active⟩, frozen⟩ u x hx
    cases h : x.state with
    | loading => rfl
    | ready => exact absurd h (ready u x hx)
    | active => exact absurd h (active u x hx)
    | frozen => exact absurd h (frozen u x hx)
  · intro h
    refine ⟨⟨?_, ?_⟩, ?_⟩ <;> · intro u x hx; simp [h u x hx]

theorem Update.freeze_countFrame (x : Update) : x.countFrame.freeze = x.atFrameEnd true := by
  unfold Update.countFrame Update.freeze Update.atFrameEnd
  cases h : x.state <;> simp [h]

theorem Update.countFrame_eq (x : Update) : x.countFrame = x.atFrameEnd false := by
  unfold Update.countFrame Update.atFrameEnd
  cases x.state <;> rfl

theorem Update.countFrame_state (x : Update) : x.countFrame.state = x.state := by
  unfold Update.countFrame
  split <;> rfl

/-- The count at a frame end leaves panel power as it is. -/
theorem State.countFrames_frameOver {s : State} (hn : s.doneSlots.Nodup) :
    ∃ slots : Vector (Option Update) 15,
      State.countFrames { s with scanner := { s.scanner with frame := none } } = s.frameOver slots s.supply ∧
      ∀ u : Fin 15, slots[u] = if u ∈ s.doneSlots then none else (s.update u).map Update.countFrame := by
  obtain ⟨counted, slots⟩ := State.countFrames_eq (s := { s with scanner := { s.scanner with frame := none } }) hn
  refine ⟨_, counted.trans ?_, slots⟩
  unfold State.frameOver
  rw [State.raiseAll_eq s.doneEvents s]
  congr 1
  exact State.raiseAll_reporter rfl rfl rfl

/-- Where no slot that stays busy needs frames, the panel is not driven further (R146). -/
theorem State.noFramesNeeded_frameOver {s : State} {slots : Vector (Option Update) 15} (p : Supply)
    (hs : ∀ u : Fin 15, slots[u] = if u ∈ s.doneSlots then none else (s.update u).map Update.countFrame) :
    (s.frameOver slots p).noFramesNeeded = true ↔
      ∀ u x, u ∉ s.doneSlots → s.update u = some x → x.state = .loading := by
  have update (u : Fin 15) : (s.frameOver slots p).update u = slots[u] := rfl
  rw [State.noFramesNeeded_iff]
  constructor
  · intro h u x hu hx
    rw [← x.countFrame_state]
    exact h u x.countFrame (by rw [update, hs, if_neg hu, hx]; rfl)
  · intro h u y hy
    rw [update, hs] at hy
    split_ifs at hy with hu
    obtain ⟨x, hx, rfl⟩ := Option.map_eq_some_iff.1 hy
    rw [x.countFrame_state]
    exact h u x hu hx

theorem exec_frameEnd {s : State} {f : Frame} (hp : s.supply.panel = .on) (hf : s.scanner.frame = some f)
    (hs : s.scanInHand = none) {s1 : State}
    (hc : State.countFrames { s with scanner := { s.scanner with frame := none } } = s1) :
    exec .frameEnd s =
      proceed s (if s1.supply.lossNoted then s1.suspend else if s1.noFramesNeeded then s1.hold else s1) := by
  show execFrameEnd s = _
  unfold execFrameEnd
  rw [hp, hf, hs, ← hc]

/-- A state left by a frame end, with its Status Block marked or not. -/
theorem State.frameEnded_of {s x : State} {slots : Vector (Option Update) 15} {p : Supply}
    (hx : x.agrees (s.frameOver slots p))
    (hs : ∀ u : Fin 15, slots[u] =
      if u ∈ s.doneSlots then none else (s.update u).map (Update.atFrameEnd s.supply.lossNoted))
    (hp : s.PowerAfterFrame p) : s.FrameEnded (conclude s x) := by
  obtain ⟨m, d, ht⟩ := State.agrees_iff.1 (State.agrees_trans (conclude_agrees s x) hx)
  rw [ht]
  exact ⟨State.agrees_iff.2 ⟨m, d, rfl⟩, hs, hp⟩

/-- Panel power as the panel is suspended: back ON at once where panel-ready is asserted again (R148). -/
def Supply.suspended (p : Supply) : Supply :=
  if p.readyLine then { p with panel := .on, lossNoted := false, holdTimer := none, graceTimer := none }
  else { p with panel := .suspended, lossNoted := false, graceTimer := some (10 * p.grace) }

theorem State.suspend_agrees (s : State) :
    s.suspend.agrees { s with
      updates := { s.updates with slots := s.updates.slots.map (Option.map Update.freeze) }
      supply := s.supply.suspended } :=
  State.agrees_iff.2 ⟨_, _, rfl⟩

theorem State.frameOver_suspend_agrees (s : State) (slots : Vector (Option Update) 15) :
    (s.frameOver slots s.supply).suspend.agrees
      (s.frameOver (slots.map (Option.map Update.freeze)) s.supply.suspended) := by
  unfold State.frameOver
  generalize s.raiseAll s.doneEvents = a
  exact State.suspend_agrees _

/-- A frame end after a loss: the ACTIVE slots freeze (R148). -/
theorem State.suspend_frameEnded {s : State} (lost : s.supply.lossNoted = true) {slots : Vector (Option Update) 15}
    (hs : ∀ u : Fin 15, slots[u] = if u ∈ s.doneSlots then none else (s.update u).map Update.countFrame) :
    s.FrameEnded (conclude s (s.frameOver slots s.supply).suspend) := by
  have kept : s.supply.lossNoted ≠ false := by simp [lost]
  have power : s.PowerAfterFrame s.supply.suspended :=
    ⟨fun _ off => if_neg (ne_true_of_eq_false off), fun _ on => if_pos on, fun h => absurd h kept,
      fun h => absurd h kept⟩
  refine State.frameEnded_of (s.frameOver_suspend_agrees slots) (fun u => ?_) power
  have frozen : (slots.map (Option.map Update.freeze))[u] = slots[u].map Update.freeze := by simp
  rw [frozen, hs, lost]
  split
  · rfl
  · rw [Option.map_map]
    exact congrArg (Option.map · _) (funext Update.freeze_countFrame)

/-- A frame end without a loss (R146). -/
theorem State.hold_frameEnded {s : State} (kept : s.supply.lossNoted = false) {slots : Vector (Option Update) 15}
    (hs : ∀ u : Fin 15, slots[u] = if u ∈ s.doneSlots then none else (s.update u).map Update.countFrame) :
    s.FrameEnded (conclude s
      (if (s.frameOver slots s.supply).noFramesNeeded then (s.frameOver slots s.supply).hold
       else s.frameOver slots s.supply)) := by
  have limits : (s.frameOver slots s.supply).tune = s.tune := by
    unfold State.frameOver
    rw [State.raiseAll_eq]
  have power : s.PowerAfterFrame
      (if (s.frameOver slots s.supply).noFramesNeeded then s.held else s.supply) := by
    refine ⟨fun lost => ?_, fun lost => ?_, fun _ ⟨u, x, hu, hx, driven⟩ => if_neg fun idle => ?_, fun _ idle => ?_⟩
    · rw [lost] at kept
      cases kept
    · rw [lost] at kept
      cases kept
    · exact driven ((State.noFramesNeeded_frameOver _ hs).1 idle u x hu hx)
    · exact if_pos ((State.noFramesNeeded_frameOver _ hs).2 idle)
  refine State.frameEnded_of (slots := slots) ?_ (fun u => ?_) power
  · split
    · unfold State.hold State.held
      rw [limits]
      split <;> exact State.agrees_iff.2 ⟨_, _, rfl⟩
    · exact State.agrees_refl _
  · rw [hs, kept]
    split
    · rfl
    · exact congrArg (Option.map · _) (funext Update.countFrame_eq)

/-- A frame end leaves what it should. -/
theorem State.frameEnd_ended {s : State} {f : Frame} (hp : s.supply.panel = .on) (hf : s.scanner.frame = some f)
    (hs : s.scanInHand = none) (hn : s.doneSlots.Nodup) :
    ∃ t, exec .frameEnd s = .next t ∧ s.FrameEnded t := by
  obtain ⟨slots, counted, hslots⟩ := State.countFrames_frameOver hn
  refine ⟨_, exec_frameEnd hp hf hs counted, ?_⟩
  show s.FrameEnded (conclude s (if s.supply.lossNoted then _ else _))
  by_cases lost : s.supply.lossNoted = true
  · rw [if_pos lost]
    exact State.suspend_frameEnded lost hslots
  · rw [if_neg lost]
    exact State.hold_frameEnded (eq_false_of_ne_true lost) hslots

/-- A slot that is not done stays busy. -/
theorem State.FrameEnded.kept {s t : State} (h : s.FrameEnded t) {u : Fin 15} {x : Update} (hu : u ∉ s.doneSlots)
    (hx : s.update u = some x) : t.update u = some (x.atFrameEnd s.supply.lossNoted) := by
  rw [h.slots, if_neg hu, hx]
  rfl

/-- A slot that is FREE or done is FREE. -/
theorem State.FrameEnded.free {s t : State} (h : s.FrameEnded t) {u : Fin 15}
    (hu : s.update u = none ∨ u ∈ s.doneSlots) : t.update u = none := by
  rw [h.slots]
  rcases hu with free | done
  · rw [free]
    exact ite_self none
  · exact if_pos done

/-- A frame end at which nothing finishes leaves the start order and raises nothing. -/
theorem State.frameOver_of_nothing_done {s : State} (h : s.doneSlots = []) (slots : Vector (Option Update) 15)
    (p : Supply) :
    s.frameOver slots p = { s with
      updates := { s.updates with slots := slots }, scanner := { s.scanner with frame := none }, supply := p } := by
  have events : s.doneEvents = [] := by rw [State.doneEvents, h]; rfl
  have order : s.updates.order.filter (fun u => !s.finishes u) = s.updates.order :=
    List.filter_eq_self.2 fun u hu => by simpa using List.filter_eq_nil_iff.1 h u hu
  unfold State.frameOver
  rw [events, order, h, List.isEmpty_nil, Bool.not_true, Bool.or_false]
  rfl

/-- A frame end at which the only busy slot finishes. -/
theorem State.FrameEnded.of_single {s t : State} (h : s.FrameEnded t) {u : Fin 15} {x : Update}
    (lost : s.supply.lossNoted = false) (hx : s.update u = some x) (hu : s.finishes u = true)
    (others : ∀ v, v ≠ u → s.update v = none) (order : s.updates.order = [u]) (hold : s.tune.panelHold ≠ 0) :
    t.agrees { (s.raise x.doneEvent) with
      updates := { s.updates with slots := s.updates.slots.set u none, order := [], due := true }
      scanner := { s.scanner with frame := none }
      supply := { (s.supply) with panel := .holding, holdTimer := some (10 * s.tune.panelHold) } } := by
  have done : s.doneSlots = [u] := by simp [State.doneSlots, order, hu]
  have free (v : Fin 15) (hv : v ∉ s.doneSlots) : s.update v = none :=
    others v fun h => hv (by rw [done, h]; exact List.mem_singleton_self u)
  have slots : t.updates.slots = s.updates.slots.set u none := by
    refine Vector.ext fun i hi => ?_
    have now : t.updates.slots[i] = none := h.free (u := ⟨i, hi⟩) (Decidable.or_iff_not_imp_right.2 (free _))
    rw [now, Vector.getElem_set]
    split
    · rfl
    · next hne => exact (others ⟨i, hi⟩ fun e => hne (congrArg Fin.val e).symm).symm
  have power : t.supply = s.held := h.power.idle lost fun v y hv hy => by
    rw [free v hv] at hy
    cases hy
  have beside := h.beside
  have events : s.doneEvents = [x.doneEvent] := by simp [State.doneEvents, done, hx]
  have gone : s.updates.order.filter (fun u => !s.finishes u) = [] := by simp [order, hu]
  unfold State.frameOver at beside
  rwa [slots, power, State.held, if_neg hold, events, gone, done, List.isEmpty_cons, Bool.not_false, Bool.or_true]
    at beside

/-- Settles O56: which updates finish, and what then becomes of the other slots and of panel power. -/
theorem frameEnds : Obligations.FrameEnds := by
  unfold Obligations.FrameEnds
  refine ⟨fun s f hp hf hs unfinished => ?_, fun s f u x hp lost hf hs hx active last others order hold => ?_,
    fun s f hp hf hs hn some => ?_⟩
  · have none : s.doneSlots = [] := by
      refine List.filter_eq_nil_iff.2 fun u _ h => ?_
      obtain ⟨x, hx, active, last⟩ := State.finishes_iff.1 h
      exact unfinished u x hx active last
    have all (u : Fin 15) : u ∉ s.doneSlots := by simp [none]
    obtain ⟨t, ht, ended⟩ := State.frameEnd_ended hp hf hs (none ▸ List.nodup_nil)
    refine ⟨t, ht, ?_, fun u hu => ended.free (.inl hu), fun u x hx => ended.kept (all u) hx, ended.power.lost,
      ended.power.back, fun kept ⟨u, x, hx, driven⟩ => ended.power.driven kept ⟨u, x, all u, hx, driven⟩,
      fun kept idle => ended.power.idle kept fun u x _ => idle u x⟩
    have beside := ended.beside
    rwa [State.frameOver_of_nothing_done none] at beside
  · have hu : s.finishes u = true := State.finishes_iff.2 ⟨x, hx, active, last⟩
    have hn : s.doneSlots.Nodup := (order ▸ List.nodup_singleton u : s.updates.order.Nodup).filter _
    obtain ⟨t, ht, ended⟩ := State.frameEnd_ended hp hf hs hn
    exact ⟨t, ht, ended.of_single lost hx hu others order hold⟩
  · obtain ⟨t, ht, ended⟩ := State.frameEnd_ended hp hf hs (hn.filter s.finishes)
    have due : (s.updates.due || !s.doneSlots.isEmpty) = true := by
      have some : s.doneSlots ≠ [] := some
      simp [some]
    have beside := ended.beside
    unfold State.frameOver at beside
    rw [due] at beside
    exact ⟨t, ht, beside, fun u => ended.free, fun u x => ended.kept, ended.power.lost, ended.power.back,
      ended.power.driven, ended.power.idle⟩

end Sys2Proof.Machine
end

section
/-! SUPPORT. The statement about the Slot Loader: the pieces of a load, its grants, and the load that is complete. -/

namespace Sys2Proof.Machine

/-! ## Pieces (R130, R131) -/

/-- Level `k` of a piece. -/
def levelAt (ws : List Word) (k : Nat) : Nat := pixel (ws.getD (k / 8) 0) (k % 8)

section Pieces

variable {old new : List Word} (ho : old.length = 4) (hn : new.length = 4)
include ho hn

/-- The pairs of levels of two pieces. -/
theorem zip_levelsOf :
    (levelsOf old).zip (levelsOf new) = (List.range 32).map (fun k => (levelAt old k, levelAt new k)) := by
  rw [levelsOf_eq, levelsOf_eq, ho, hn, List.zip_map']
  rfl

theorem pieceChanges_iff : pieceChanges old new = true ↔ ¬ ∀ k, k < 32 → levelAt old k = levelAt new k := by
  unfold pieceChanges
  rw [zip_levelsOf ho hn]
  simp

theorem pieceChangesWhole_iff :
    pieceChangesWhole old new = true ↔ ∀ k, k < 32 → levelAt old k ≠ levelAt new k := by
  unfold pieceChangesWhole
  rw [zip_levelsOf ho hn]
  simp

theorem priorPiece_eq (m : Memory) (a : Nat) :
    priorPiece old new (m.words a 4) =
      (List.range 4).map (fun k => priorWord (old.getD k 0) (new.getD k 0) (m.word (a + 4 * k))) :=
  match old, new, ho, hn with
  | [_, _, _, _], [_, _, _, _], _, _ => rfl

end Pieces

theorem Memory.length_words (m : Memory) (a n : Nat) : (m.words a n).length = n := by simp [Memory.words]

section Plans

variable (l : Load) {x : Update} {old new : List Word}

/-- A piece in which no pixel changes is passed, and only CLEAN writes its old levels. -/
theorem Load.plan_same (h : pieceChanges old new = false) :
    l.plan x old new = if x.mode = .clean then { l with phase := .writePrior old none } else l.next x := by
  unfold Load.plan
  rw [h]
  cases x.mode <;> rfl

/-- Under CLEAN, or where every pixel changes, the old levels are written. -/
theorem Load.plan_whole (h : pieceChanges old new = true) (hw : x.mode = .clean ∨ pieceChangesWhole old new = true) :
    l.plan x old new = { l with phase := .writePrior old (some new) } := by
  unfold Load.plan
  rw [h]
  rcases hw with clean | whole
  · rw [clean]
    rfl
  · rw [whole]
    cases x.mode <;> rfl

/-- Where some pixels change and some do not, the Prior piece is read first. -/
theorem Load.plan_part (h : pieceChanges old new = true) (hm : x.mode ≠ .clean)
    (hw : pieceChangesWhole old new = false) : l.plan x old new = { l with phase := .readPrior old new } := by
  unfold Load.plan
  rw [h, hw]
  cases hx : x.mode with
  | clean => exact absurd hx hm
  | grey => rfl
  | text => rfl
  | pen => rfl

end Plans

/-! ## Grants of a load (R130, R131) -/

/-- A load that has been carried on. -/
def State.loaded (s : State) (m : Memory) (l : Load) : State :=
  { s with mem := m, loader := { s.loader with load := some l } }

section Grants

variable {s : State} {x : Update} {l : Load}

theorem State.serveLoader_load (hc : s.loader.clear = none) (hl : s.loadInHand = some (x, l)) :
    s.serveLoader = s.serveLoad x l := by
  unfold State.serveLoader
  rw [hc, hl]

/-- A grant to the Slot Loader carries the load in hand on. -/
theorem State.grantsTo.load_leaves {needs : Bool} {pick : Nat} (hg : s.grantsTo needs pick .slotLoader)
    (hc : s.loader.clear = none) (hl : s.loadInHand = some (x, l)) {m : Memory} {l' : Load}
    (h : ∀ p, State.serveLoad { s with port := p } x l = State.loaded { s with port := p } m l') :
    GrantLeaves needs pick s .slotLoader (s.loaded m l') :=
  yields_of_proceed_eq hg.exec_eq ((State.serveLoader_load
    (s := { s with port := { s.port with turn := EngineName.after .slotLoader } }) hc hl).trans (h _))

theorem State.serveLoad_readPanel (h : l.phase = .readPanel) :
    s.serveLoad x l = s.loaded s.mem
      (if x.source.isSome then { l with phase := .readDraft (s.mem.words (s.panelBase + s.pieceOffset l) 4) }
       else l.plan x (s.mem.words (s.panelBase + s.pieceOffset l) 4)
        (s.mem.words (s.panelBase + s.pieceOffset l) 4)) := by
  unfold State.serveLoad State.loadAccess
  rw [h]
  rfl

theorem State.serveLoad_readDraft {old : List Word} (h : l.phase = .readDraft old) :
    s.serveLoad x l =
      s.loaded s.mem (l.plan x old (s.mem.words (x.draftBase.getD 0 + s.pieceOffset l) 4)) := by
  unfold State.serveLoad State.loadAccess
  rw [h]
  rfl

theorem State.serveLoad_readPrior {old new : List Word} (h : l.phase = .readPrior old new) :
    s.serveLoad x l = s.loaded s.mem
      { l with phase := .writePrior (priorPiece old new (s.mem.words (s.priorBase + s.pieceOffset l) 4)) (some new) } := by
  unfold State.serveLoad State.loadAccess
  rw [h]
  rfl

theorem State.serveLoad_writePrior {prior : List Word} (h : l.phase = .writePrior prior none) :
    s.serveLoad x l = s.loaded (s.mem.setWords (s.priorBase + s.pieceOffset l) prior) (l.next x) := by
  unfold State.serveLoad State.loadAccess
  rw [h]
  rfl

theorem State.serveLoad_writePrior_changed {prior new : List Word} (h : l.phase = .writePrior prior (some new)) :
    s.serveLoad x l =
      s.loaded (s.mem.setWords (s.priorBase + s.pieceOffset l) prior) { l with phase := .writePanel new } := by
  unfold State.serveLoad State.loadAccess
  rw [h]
  rfl

theorem State.serveLoad_writePanel {new : List Word} (h : l.phase = .writePanel new) :
    s.serveLoad x l = s.loaded (s.mem.setWords (s.panelBase + s.pieceOffset l) new) (l.next x) := by
  unfold State.serveLoad State.loadAccess
  rw [h]
  rfl

/-- A piece without a page source has the levels it had. -/
theorem State.serveLoad_readPanel_still (h : l.phase = .readPanel) (hx : x.source = none) :
    s.serveLoad x l = s.loaded s.mem
      (if x.mode = .clean then
        { l with phase := .writePrior (s.mem.words (s.panelBase + s.pieceOffset l) 4) none } else l.next x) := by
  have words := s.mem.length_words (s.panelBase + s.pieceOffset l) 4
  have same : pieceChanges (s.mem.words (s.panelBase + s.pieceOffset l) 4)
      (s.mem.words (s.panelBase + s.pieceOffset l) 4) = false :=
    eq_false_of_ne_true fun h => (pieceChanges_iff words words).1 h fun _ _ => rfl
  rw [State.serveLoad_readPanel h, hx, ← l.plan_same same]
  rfl

end Grants

/-! ## The load that is complete (R133, R145, R146) -/

/-- A loaded slot is READY. -/
def State.readied (s : State) (u : Fin 15) (x : Update) : State :=
  { s with
    updates := { s.updates with slots := s.updates.slots.set u (some { x with state := .ready }) }
    loader := { s.loader with load := none } }

section Complete

variable {s : State} {u : Fin 15} {x : Update}

theorem exec_loadingComplete (hl : s.loadingSlot = some u) (hx : s.update u = some x)
    (hf : (s.loadOf x).finished x = true) :
    exec .loadingComplete s = proceed s (s.readied u x).slotBecameReady := by
  show execLoadingComplete s = _
  unfold execLoadingComplete State.setSlotState
  rw [hl]
  dsimp only
  rw [hx]
  exact if_pos hf

theorem State.readied_anySlot (s : State) (u : Fin 15) (x : Update) : (s.readied u x).anySlot .ready = true := by
  refine State.anySlot_iff.2 ⟨u, { x with state := .ready }, ?_, rfl⟩
  show (s.updates.slots.set u _)[u] = _
  simp

theorem State.slotBecameReady_on (h : s.supply.panel = .on) : s.slotBecameReady = s := by
  unfold State.slotBecameReady State.riseIfReady
  rw [h]
  exact if_neg fun ⟨off, _⟩ => PanelState.noConfusion off

theorem State.slotBecameReady_holding (h : s.supply.panel = .holding) :
    s.slotBecameReady = s.setSupply s.supply.backOn := by
  unfold State.slotBecameReady
  rw [h]

/-- A panel that is OFF rises for the loaded slot (R145). -/
theorem State.readied_rises (s : State) (u : Fin 15) (x : Update) (h : s.supply.panel = .off) :
    (s.readied u x).slotBecameReady = (s.readied u x).setSupply s.supply.enterRising := by
  have off : (s.readied u x).supply.panel = .off := h
  have rises : (s.readied u x).slotBecameReady = (s.readied u x).riseIfReady := by
    unfold State.slotBecameReady
    rw [off]
  rw [rises, State.riseIfReady_off off, if_pos (s.readied_anySlot u x)]
  rfl

end Complete

/-- Settles O54: what a complete load makes of its slot and of panel power, and each grant of a load by its phase. -/
theorem loadingCompletes : Obligations.LoadingCompletes := by
  unfold Obligations.LoadingCompletes
  refine ⟨fun s u x hl hx hf => ?_, fun needs pick s x l hg hc hl => ?_⟩
  · have complete := exec_loadingComplete hl hx hf
    refine ⟨fun on => ?_, fun holding => ?_, fun off waits => ?_, fun off answered => ?_⟩
    · exact yields_of_proceed_eq complete (State.slotBecameReady_on (s := s.readied u x) on)
    · exact yields_of_proceed_eq complete (State.slotBecameReady_holding (s := s.readied u x) holding)
    · rw [s.readied_rises u x off, Supply.enterRising_waits waits] at complete
      exact yields_of_proceed complete
    · rw [s.readied_rises u x off, Supply.enterRising_on answered] at complete
      exact yields_of_proceed complete
  · refine ⟨fun h page => ?_, fun h still => ?_, fun old h ho => ⟨fun same => ?_, fun differ whole => ?_,
      fun differ other part => ?_⟩, fun old new h ho hn => ?_, fun prior h => ?_, fun prior new h => ?_, fun new h => ?_⟩
    · exact hg.load_leaves hc hl fun p => (State.serveLoad_readPanel h).trans (by rw [if_pos page]; rfl)
    · exact hg.load_leaves hc hl fun p => State.serveLoad_readPanel_still h still
    · have still := eq_false_of_ne_true fun e => (pieceChanges_iff ho (Memory.length_words _ _ _)).1 e same
      exact hg.load_leaves hc hl fun p =>
        (State.serveLoad_readDraft h).trans (congrArg (State.loaded _ s.mem) (l.plan_same still))
    · have changes := (pieceChanges_iff ho (Memory.length_words _ _ _)).2 differ
      have whole := whole.imp_right (pieceChangesWhole_iff ho (Memory.length_words _ _ _)).2
      exact hg.load_leaves hc hl fun p =>
        (State.serveLoad_readDraft h).trans (congrArg (State.loaded _ s.mem) (l.plan_whole changes whole))
    · have changes := (pieceChanges_iff ho (Memory.length_words _ _ _)).2 differ
      have part := eq_false_of_ne_true fun e => part ((pieceChangesWhole_iff ho (Memory.length_words _ _ _)).1 e)
      exact hg.load_leaves hc hl fun p =>
        (State.serveLoad_readDraft h).trans (congrArg (State.loaded _ s.mem) (l.plan_part changes other part))
    · refine hg.load_leaves hc hl fun p => (State.serveLoad_readPrior h).trans ?_
      rw [priorPiece_eq ho hn]
      rfl
    · exact hg.load_leaves hc hl fun p => State.serveLoad_writePrior h
    · exact hg.load_leaves hc hl fun p => State.serveLoad_writePrior_changed h
    · exact hg.load_leaves hc hl fun p => State.serveLoad_writePanel h

end Sys2Proof.Machine
end

section
/-! SUPPORT. A start, and the walk of a list entry by entry: which entries start, which FREE slots they take, and what the
walk leaves after each. -/

namespace Sys2Proof.Machine

/-! ## A start (R126 to R129) -/

/-- The FREE slots in ascending order. -/
def State.freeSlots (s : State) : List (Fin 15) := (List.finRange 15).filter (fun u => (s.update u).isNone)

theorem State.lowestFree_eq (s : State) : s.lowestFree = s.freeSlots.head? := List.head?_filter.symm

/-- From one state to the other starts alone have been made: slots, start order and Ghost Counters. -/
def State.startsTo (s t : State) : Prop :=
  t = { s with updates := { s.updates with
    slots := t.updates.slots, order := t.updates.order, ghosts := t.updates.ghosts } }

theorem State.startsTo_refl (s : State) : s.startsTo s := rfl

theorem State.startsTo.startUpdate {s t : State} (h : s.startsTo t) (e : Request) : s.startsTo (t.startUpdate e) := by
  unfold State.startUpdate
  split
  · unfold State.startsTo at h ⊢
    rw [h]
  · exact h

theorem State.startsTo.walkEntries {s t : State} (h : s.startsTo t) (waiting es : List Request) :
    s.startsTo (t.walkEntries waiting es).1 :=
  State.walkEntries_keeps (fun _ _ e h _ => h.startUpdate e) es t waiting h

theorem State.startsTo.allowsStarts {s t : State} (h : s.startsTo t) : t.allowsStarts = s.allowsStarts := by rw [h]; rfl

theorem State.allowsStarts_iff {s : State} : s.allowsStarts = true ↔
    s.supply.valid = true ∧ s.supply.panel ≠ .failed ∧ s.supply.panel ≠ .unconfigured := by
  unfold State.allowsStarts
  cases s.supply.panel <;> simp

section Start

variable {s : State} {u : Fin 15} (h : s.lowestFree = some u) (e : Request)
include h

theorem State.startUpdate_update (v : Fin 15) :
    (s.startUpdate e).update v = if u = v then some (s.startedUpdate e) else s.update v := by
  unfold State.update
  rw [State.startUpdate_slots h]
  exact getElem_set_slot _ _ _ _

theorem State.startUpdate_ghosts :
    (s.startUpdate e).updates.ghosts = ghostsAfter (s.resolvedMode e) e.rect.tiles s.updates.ghosts := by
  unfold State.startUpdate
  rw [h]

/-- A start leaves a slot that is busy. -/
theorem State.startUpdate_busy {v : Fin 15} {x : Update} (hx : s.update v = some x) :
    (s.startUpdate e).update v = some x := by
  have other : u ≠ v := by
    rintro rfl
    rw [State.update_lowestFree h] at hx
    cases hx
  rw [State.startUpdate_update h, if_neg other, hx]

/-- The rectangles of the busy slots after a start: the entry's, and those before it. -/
theorem State.startUpdate_rects (P : Rect → Prop) :
    (∀ v x, (s.startUpdate e).update v = some x → P x.rect) ↔
      (∀ v x, s.update v = some x → P x.rect) ∧ P e.rect := by
  constructor
  · intro all
    refine ⟨fun v x hx => all v x (State.startUpdate_busy h e hx), ?_⟩
    exact all u (s.startedUpdate e) (by rw [State.startUpdate_update h, if_pos rfl])
  · rintro ⟨all, new⟩ v x hx
    rw [State.startUpdate_update h] at hx
    split at hx
    · cases hx
      exact new
    · exact all v x hx

/-- A start takes the first of the FREE slots. -/
theorem State.startUpdate_freeSlots : (s.startUpdate e).freeSlots = s.freeSlots.tail := by
  obtain ⟨rest, hs⟩ : ∃ rest, s.freeSlots = u :: rest := by
    rw [State.lowestFree_eq] at h
    exact List.head?_eq_some_iff.1 h
  have fresh : u ∉ rest := by
    have hn : s.freeSlots.Nodup := (List.nodup_finRange 15).filter _
    rw [hs] at hn
    exact (List.nodup_cons.1 hn).1
  have filtered : (s.startUpdate e).freeSlots = s.freeSlots.filter (fun v => decide (v ≠ u)) := by
    unfold State.freeSlots
    rw [List.filter_filter]
    refine List.filter_congr fun v _ => ?_
    rw [State.startUpdate_update h]
    split
    · next huv => simp [huv]
    · next huv => simp [Ne.symm huv]
  rw [filtered, hs, List.filter_cons_of_neg (by simp)]
  exact List.filter_eq_self.2 fun v hv => decide_eq_true fun e => fresh (e ▸ hv)

end Start

/-- CLEAN and PEN stay as asked for (R129). -/
theorem State.resolvedMode_kept {s : State} {e : Request} (h : e.mode = .clean ∨ e.mode = .pen) :
    s.resolvedMode e = e.mode := by
  unfold State.resolvedMode
  rcases h with h | h <;> rw [h]

/-- GREY and TEXT are promoted to CLEAN over a tile at the ghost limit (R129). -/
theorem State.resolvedMode_promoted {s : State} {e : Request} (h : e.mode = .grey ∨ e.mode = .text) :
    s.resolvedMode e = if ∃ tile ∈ e.rect.tiles, s.tune.ghostLimit ≤ s.ghost tile then .clean else e.mode := by
  unfold State.resolvedMode
  rcases h with h | h <;> rw [h] <;> simp

/-! ## Whether an entry starts (R126) -/

/-- No slot that is not FREE and no older entry that waits overlaps a rectangle. -/
def State.clearOf (s : State) (waiting : List Request) (r : Rect) : Prop :=
  (∀ u x, s.update u = some x → x.rect.overlaps r = false) ∧ ∀ q ∈ waiting, q.rect.overlaps r = false

theorem State.canStart_iff_clearOf {s : State} {waiting : List Request} {e : Request} :
    s.canStart waiting e = true ↔ s.freeSlots ≠ [] ∧ s.allowsStarts = true ∧ s.clearOf waiting e.rect := by
  have some_iff : (∃ u, s.lowestFree = some u) ↔ s.freeSlots ≠ [] := by
    rw [State.lowestFree_eq, ← Option.isSome_iff_exists, List.isSome_head?, ne_eq]
  rw [State.canStart_iff, State.startsOpen, some_iff, and_assoc]
  rfl

theorem State.walkEntries_cons (s : State) (waiting : List Request) (e : Request) (es : List Request) :
    s.walkEntries waiting (e :: es) =
      if s.canStart waiting e then (s.startUpdate e).walkEntries waiting es
      else s.walkEntries (waiting ++ [e]) es := rfl

/-- What is clear after a walk was clear before it, of the slots, the waiting entries and those walked. -/
theorem State.walkEntries_clearOf (r : Rect) (es : List Request) : ∀ (s : State) (waiting : List Request),
    (s.walkEntries waiting es).1.clearOf (s.walkEntries waiting es).2 r ↔
      s.clearOf waiting r ∧ ∀ e ∈ es, e.rect.overlaps r = false := by
  induction es with
  | nil => intro s waiting; simp [State.walkEntries]
  | cons e es ih =>
    intro s waiting
    rw [State.walkEntries_cons, List.forall_mem_cons]
    split
    · next hc =>
      obtain ⟨⟨⟨u, hu⟩, -⟩, -⟩ := State.canStart_iff.1 hc
      rw [ih, State.clearOf, State.startUpdate_rects hu e (fun q => q.overlaps r = false), State.clearOf]
      tauto
    · rw [ih, State.clearOf, List.forall_mem_append, List.forall_mem_singleton, State.clearOf]
      tauto

/-! ## The walk entry by entry (R126) -/

theorem State.walkEntries_append (es es' : List Request) : ∀ (s : State) (waiting : List Request),
    s.walkEntries waiting (es ++ es') =
      (s.walkEntries waiting es).1.walkEntries (s.walkEntries waiting es).2 es' := by
  induction es with
  | nil => exact fun _ _ => rfl
  | cons e es ih =>
    intro s waiting
    rw [List.cons_append, State.walkEntries_cons, State.walkEntries_cons]
    split <;> exact ih _ _

section Walk

variable (s : State) (es : List Request)

/-- The state, and the entries that wait, after the first `k` entries of a walk. -/
def State.walked (k : Nat) : State × List Request := s.walkEntries [] (es.take k)

/-- Entry `k` of a walk starts. -/
def State.startsAt (k : Nat) : Bool :=
  match es[k]? with
  | some e => (s.walked es k).1.canStart (s.walked es k).2 e
  | none => false

/-- The number of entries before entry `k` that start. -/
def State.startsBefore (k : Nat) : Nat := ((List.range k).filter (s.startsAt es)).length

variable {s es} {k : Nat}

theorem State.startsAt_eq {e : Request} (he : es[k]? = some e) :
    s.startsAt es k = (s.walked es k).1.canStart (s.walked es k).2 e := by
  unfold State.startsAt
  rw [he]

theorem State.startsAt_entry (h : s.startsAt es k = true) : ∃ e, es[k]? = some e := by
  unfold State.startsAt at h
  cases he : es[k]? with
  | none => rw [he] at h; cases h
  | some e => exact ⟨e, rfl⟩

theorem State.walked_succ_of_starts {e : Request} (he : es[k]? = some e) (h : s.startsAt es k = true) :
    s.walked es (k + 1) = ((s.walked es k).1.startUpdate e, (s.walked es k).2) := by
  rw [State.startsAt_eq he] at h
  unfold State.walked at h ⊢
  rw [List.take_add_one, he, State.walkEntries_append]
  exact if_pos h

theorem State.walked_succ_of_waits {e : Request} (he : es[k]? = some e) (h : s.startsAt es k = false) :
    s.walked es (k + 1) = ((s.walked es k).1, (s.walked es k).2 ++ [e]) := by
  rw [State.startsAt_eq he] at h
  unfold State.walked at h ⊢
  rw [List.take_add_one, he, State.walkEntries_append]
  exact if_neg (ne_true_of_eq_false h)

/-- Past the last entry a walk goes no further. -/
theorem State.walked_succ_of_end (he : es[k]? = none) : s.walked es (k + 1) = s.walked es k := by
  unfold State.walked
  rw [List.take_add_one, he]
  simp

theorem State.startsBefore_succ :
    s.startsBefore es (k + 1) = if s.startsAt es k = true then s.startsBefore es k + 1 else s.startsBefore es k := by
  unfold State.startsBefore
  rw [List.range_succ, List.filter_append, List.length_append]
  split
  · next h => simp [h]
  · next h => simp [h]

/-- A walk changes its state at the entries that start alone. -/
theorem State.walked_succ_state (h : s.startsAt es k = false) : (s.walked es (k + 1)).1 = (s.walked es k).1 := by
  cases he : es[k]? with
  | none => rw [State.walked_succ_of_end he]
  | some e => rw [State.walked_succ_of_waits he h]

variable (s es k)

theorem State.walked_startsTo : s.startsTo (s.walked es k).1 := s.startsTo_refl.walkEntries [] _

/-- The entries that started have taken the FREE slots in ascending order. -/
theorem State.walked_freeSlots : (s.walked es k).1.freeSlots = s.freeSlots.drop (s.startsBefore es k) := by
  induction k with
  | zero => rfl
  | succ k ih =>
    rw [State.startsBefore_succ]
    split
    · next h =>
      obtain ⟨e, he⟩ := State.startsAt_entry h
      have starts := h
      rw [State.startsAt_eq he] at h
      obtain ⟨⟨⟨u, hu⟩, -⟩, -⟩ := State.canStart_iff.1 h
      rw [State.walked_succ_of_starts he starts, State.startUpdate_freeSlots hu, ih, List.tail_drop]
    · next h => rw [State.walked_succ_state (eq_false_of_ne_true h), ih]

variable {k}

/-- The slot that an entry takes as it starts. -/
theorem State.startsAt_slot (h : s.startsAt es k = true) :
    ∃ u, s.freeSlots[s.startsBefore es k]? = some u ∧ (s.walked es k).1.lowestFree = some u := by
  obtain ⟨e, he⟩ := State.startsAt_entry h
  rw [State.startsAt_eq he] at h
  obtain ⟨⟨⟨u, hu⟩, -⟩, -⟩ := State.canStart_iff.1 h
  refine ⟨u, ?_, hu⟩
  rwa [State.lowestFree_eq, State.walked_freeSlots, List.head?_drop] at hu

/-- An entry starts while a slot is FREE, and no busy slot and no entry before it overlaps it. -/
theorem State.startsAt_iff {e : Request} (he : es[k]? = some e) : s.startsAt es k = true ↔
    s.allowsStarts = true ∧ s.startsBefore es k < s.freeSlots.length ∧
      (∀ u x, s.update u = some x → x.rect.overlaps e.rect = false) ∧
      ∀ j e', j < k → es[j]? = some e' → e'.rect.overlaps e.rect = false := by
  have earlier : (∀ q ∈ es.take k, q.rect.overlaps e.rect = false) ↔
      ∀ j e', j < k → es[j]? = some e' → e'.rect.overlaps e.rect = false := by
    constructor
    · intro all j e' hj he'
      exact all e' (List.mem_of_getElem? ((List.getElem?_take_of_lt hj).trans he'))
    · intro all q hq
      obtain ⟨j, hj⟩ := List.getElem?_of_mem hq
      rw [List.getElem?_take] at hj
      split at hj
      · next hjk => exact all j q hjk hj
      · cases hj
  have clear : (s.walked es k).1.clearOf (s.walked es k).2 e.rect ↔
      (∀ u x, s.update u = some x → x.rect.overlaps e.rect = false) ∧
      ∀ q ∈ es.take k, q.rect.overlaps e.rect = false := by
    unfold State.walked
    rw [State.walkEntries_clearOf, State.clearOf]
    simp
  have room : s.freeSlots.drop (s.startsBefore es k) ≠ [] ↔ s.startsBefore es k < s.freeSlots.length := by simp
  rw [State.startsAt_eq he, State.canStart_iff_clearOf, (s.walked_startsTo es k).allowsStarts, State.walked_freeSlots,
    clear, room, earlier]
  exact and_left_comm

/-- A slot that an entry has filled stays as it was filled through the rest of the walk. -/
theorem State.walked_kept {u : Fin 15} {x : Update} (hu : (s.walked es k).1.update u = some x) {n : Nat} (hn : k ≤ n) :
    (s.walked es n).1.update u = some x := by
  have rest : es.take n = es.take k ++ (es.take n).drop k := by
    have first : (es.take n).take k = es.take k := by rw [List.take_take, min_eq_left hn]
    rw [← first, List.take_append_drop]
  unfold State.walked
  rw [rest, State.walkEntries_append]
  exact State.walkEntries_keeps (P := fun t => t.update u = some x)
    (fun t _ e ht hc => by
      obtain ⟨⟨⟨v, hv⟩, -⟩, -⟩ := State.canStart_iff.1 hc
      exact State.startUpdate_busy hv e ht) _ _ _ hu

variable (k)

/-- The entries that started have joined the start order. -/
theorem State.walked_order :
    (s.walked es k).1.updates.order = s.updates.order ++ s.freeSlots.take (s.startsBefore es k) := by
  induction k with
  | zero => simp [State.walked, State.walkEntries, State.startsBefore]
  | succ k ih =>
    rw [State.startsBefore_succ]
    split
    · next h =>
      obtain ⟨e, he⟩ := State.startsAt_entry h
      obtain ⟨u, free, low⟩ := s.startsAt_slot es h
      rw [State.walked_succ_of_starts he h, State.startUpdate_order low, ih, List.take_add_one, free, List.append_assoc]
      rfl
    · next h => rw [State.walked_succ_state (eq_false_of_ne_true h), ih]

/-- No slot has changed but those the entries that started have taken. -/
theorem State.walked_update {u : Fin 15} (hu : u ∉ s.freeSlots.take (s.startsBefore es k)) :
    (s.walked es k).1.update u = s.update u := by
  induction k with
  | zero => rfl
  | succ k ih =>
    rw [State.startsBefore_succ] at hu
    split at hu
    · next h =>
      obtain ⟨e, he⟩ := State.startsAt_entry h
      obtain ⟨v, free, low⟩ := s.startsAt_slot es h
      rw [List.take_add_one, free, List.mem_append, not_or] at hu
      obtain ⟨older, other⟩ := hu
      have other : v ≠ u := fun e => other (by simp [e])
      rw [State.walked_succ_of_starts he h, State.startUpdate_update low, if_neg other, ih older]
    · next h => rw [State.walked_succ_state (eq_false_of_ne_true h), ih hu]

/-- The entries that wait, in their order. -/
theorem State.walked_waiting :
    (s.walked es k).2 = ((es.take k).zipIdx.filter (fun p => !s.startsAt es p.2)).map (·.1) := by
  induction k with
  | zero => simp [State.walked, State.walkEntries]
  | succ k ih =>
    cases he : es[k]? with
    | none =>
      rw [State.walked_succ_of_end he, ih, List.take_add_one, he]
      simp
    | some e =>
      have length : (es.take k).length = k := by
        rw [List.length_take]
        exact min_eq_left (List.getElem?_eq_some_iff.1 he).1.le
      rw [List.take_add_one, he, List.zipIdx_append, List.filter_append, List.map_append, ← ih, length]
      cases h : s.startsAt es k with
      | true =>
        rw [State.walked_succ_of_starts he h]
        simp [h]
      | false =>
        rw [State.walked_succ_of_waits he h]
        simp [h]

end Walk

end Sys2Proof.Machine
end

section
/-! SUPPORT. The statement about a consideration of starts: the walk over the Repair List and the Pending List. -/

namespace Sys2Proof.Machine

/-! ## A consideration as one walk (R125, R126) -/

/-- The entries that wait, from the oldest repair to the youngest entry of the Pending List. -/
def State.entries (s : State) : List Request := s.updates.repairs ++ s.commit.pending

/-- The request for a consideration is taken off. -/
def State.called (s : State) : State := { s with updates := { s.updates with due := false } }

theorem exec_startConsideration {s : State} (h : s.updates.due = true) :
    exec .startConsideration s = proceed s s.called.consider := by
  show execStartConsideration s = _
  exact if_pos h

/-- A consideration walks the entries of both lists, and leaves in each those that wait. -/
theorem State.consider_eq (s : State) :
    s.consider = { (s.walked s.entries s.entries.length).1 with
      updates := { (s.walked s.entries s.entries.length).1.updates with
        repairs := (s.updates.repairs.zipIdx.filter (fun p => !s.startsAt s.entries p.2)).map (·.1) }
      commit := { (s.walked s.entries s.entries.length).1.commit with
        pending := ((s.commit.pending.zipIdx s.updates.repairs.length).filter
          (fun p => !s.startsAt s.entries p.2)).map (·.1) } } := by
  have first : s.walkEntries [] s.updates.repairs = s.walked s.entries s.updates.repairs.length := by
    unfold State.walked State.entries
    rw [List.take_left]
  have second : (s.walked s.entries s.updates.repairs.length).1.walkEntries
      (s.walked s.entries s.updates.repairs.length).2 s.commit.pending = s.walked s.entries s.entries.length := by
    rw [← first, ← State.walkEntries_append]
    unfold State.walked
    rw [List.take_length]
    rfl
  have repairs := s.walked_waiting s.entries s.updates.repairs.length
  have all := s.walked_waiting s.entries s.entries.length
  rw [State.entries, List.take_left, ← State.entries] at repairs
  rw [List.take_length, State.entries, List.zipIdx_append, List.filter_append, List.map_append, ← State.entries,
    ← repairs, Nat.zero_add] at all
  unfold State.consider
  dsimp only
  rw [first, second, all, List.drop_left, repairs]

/-- Where no entry starts, a walk leaves the state as it is. -/
theorem State.walked_of_waits {s : State} {es : List Request} (h : ∀ k e, es[k]? = some e → s.startsAt es k = false)
    (k : Nat) : (s.walked es k).1 = s := by
  induction k with
  | zero => rfl
  | succ k ih =>
    refine (State.walked_succ_state ?_).trans ih
    refine eq_false_of_ne_true fun starts => ?_
    obtain ⟨e, he⟩ := State.startsAt_entry starts
    rw [h k e he] at starts
    cases starts

/-- Where no entry starts, a consideration changes nothing. -/
theorem State.consider_of_waits {s : State} (h : ∀ k e, s.entries[k]? = some e → s.startsAt s.entries k = false) :
    s.consider = s := by
  have all (l : List Request) (n : Nat) (hl : ∀ p ∈ l.zipIdx n, s.startsAt s.entries p.2 = false) :
      ((l.zipIdx n).filter (fun p => !s.startsAt s.entries p.2)).map (·.1) = l := by
    rw [List.filter_eq_self.2 fun p hp => by rw [hl p hp]; rfl]
    exact List.zipIdx_map_fst n l
  have entry : ∀ p ∈ s.entries.zipIdx, s.startsAt s.entries p.2 = false := fun p hp =>
    h p.2 p.1 (List.mem_zipIdx_iff_getElem?.1 hp)
  rw [State.entries, List.zipIdx_append, Nat.zero_add, ← State.entries, List.forall_mem_append] at entry
  obtain ⟨repairs, pending⟩ := entry
  rw [s.consider_eq, State.walked_of_waits h, all _ 0 repairs, all _ _ pending]

/-! ## What an entry starts as (R127 to R129) -/

/-- The update an entry starts as in a mode (R127). -/
def State.startedIn (s : State) (m : Mode) (e : Request) : Update :=
  { state := .loading, source := e.source, draftBase := e.source.map s.draftBase, rect := e.rect, mode := m,
    band := s.bandNow, length := s.waveLength m s.bandNow, counter := 0, commits := e.commits, repair := e.repair }

theorem State.startsTo.startedUpdate {s t : State} (h : s.startsTo t) (e : Request) :
    t.startedUpdate e = s.startedIn (t.resolvedMode e) e := by
  rw [h]
  rfl

theorem State.startsTo.tune {s t : State} (h : s.startsTo t) : t.tune = s.tune := by rw [h]

/-- The band of R128 under a VALID store. -/
theorem State.bandNow_of_valid {s : State} (h : s.supply.valid = true) :
    s.bandNow = match s.supply.reading with
      | some v => ((List.range 7).filter (fun k => decide ((s.storeWord k).toInt ≤ v))).length
      | none => s.tune.defaultBand := by
  unfold State.bandNow State.bandOf
  rw [h]
  rfl

section Walk

variable (s : State) (es : List Request) {k : Nat}

/-- An entry that starts fills its slot for the rest of the walk, and changes the Ghost Counters of its tiles. -/
theorem State.walked_entry {e : Request} (he : es[k]? = some e) (h : s.startsAt es k = true) {n : Nat} (hn : k < n) :
    (∃ u, s.freeSlots[s.startsBefore es k]? = some u ∧
      (s.walked es n).1.update u = some (s.startedIn ((s.walked es k).1.resolvedMode e) e)) ∧
    (s.walked es (k + 1)).1.updates.ghosts =
      ghostsAfter ((s.walked es k).1.resolvedMode e) e.rect.tiles (s.walked es k).1.updates.ghosts := by
  obtain ⟨u, free, low⟩ := s.startsAt_slot es h
  have next := State.walked_succ_of_starts he h
  refine ⟨⟨u, free, s.walked_kept es ?_ hn⟩, ?_⟩
  · rw [next, State.startUpdate_update low, if_pos rfl, (s.walked_startsTo es k).startedUpdate]
  · rw [next, State.startUpdate_ghosts low]

/-- The mode an entry of a walk starts in (R129). -/
theorem State.walked_mode (k : Nat) (e : Request) :
    (e.mode = .clean ∨ e.mode = .pen → (s.walked es k).1.resolvedMode e = e.mode) ∧
    (e.mode = .grey ∨ e.mode = .text → (s.walked es k).1.resolvedMode e =
      if ∃ tile ∈ e.rect.tiles,
        s.tune.ghostLimit ≤ Sparse.get 63 (s.walked es k).1.updates.ghosts tile then .clean else e.mode) := by
  refine ⟨State.resolvedMode_kept, fun h => ?_⟩
  rw [State.resolvedMode_promoted h, (s.walked_startsTo es k).tune]
  rfl

end Walk

/-- The walk of some entries from state `s` leaves `t`, with the entries that wait in their lists (R126). -/
structure State.Considered (s : State) (es : List Request) (t : State) : Prop where
  beside : t.agrees { s with commit := { s.commit with pending := t.commit.pending }, updates := t.updates }
  slots : ∀ u, t.update u = (s.called.walked es es.length).1.update u
  ghosts : t.updates.ghosts = (s.called.walked es es.length).1.updates.ghosts
  due : t.updates.due = false
  repairs : t.updates.repairs = (s.updates.repairs.zipIdx.filter (fun p => !s.called.startsAt es p.2)).map (·.1)
  pending : t.commit.pending = ((s.commit.pending.zipIdx s.updates.repairs.length).filter
    (fun p => !s.called.startsAt es p.2)).map (·.1)
  order : t.updates.order = s.updates.order ++ s.freeSlots.take (s.called.startsBefore es es.length)

/-- A consideration walks the entries of both lists. -/
theorem State.considers {s : State} (h : s.updates.due = true) :
    ∃ t, exec .startConsideration s = .next t ∧ s.Considered s.entries t := by
  refine ⟨conclude s s.called.consider, exec_startConsideration h, ?_⟩
  have started := s.called.walked_startsTo s.entries s.entries.length
  have order := s.called.walked_order s.entries s.entries.length
  have considered := s.called.consider_eq
  have same : s.called.entries = s.entries := rfl
  rw [same] at considered
  obtain ⟨m, d, ht⟩ := State.agrees_iff.1 (conclude_agrees s s.called.consider)
  rw [ht, considered]
  exact {
    beside := State.agrees_iff.2 ⟨m, d, by rw [started]; rfl⟩
    slots := fun _ => rfl
    ghosts := rfl
    due := by rw [started]; rfl
    repairs := rfl
    pending := rfl
    order := order }

section Considered

variable {s t : State} {es : List Request} (h : s.Considered es t)
include h

/-- A slot that no entry has taken is as it was. -/
theorem State.Considered.kept {u : Fin 15} (hu : u ∉ s.freeSlots.take (s.called.startsBefore es es.length)) :
    t.update u = s.update u :=
  (h.slots u).trans (s.called.walked_update es _ hu)

/-- An entry that starts fills its slot. -/
theorem State.Considered.filled {k : Nat} {e : Request} (he : es[k]? = some e) (starts : s.called.startsAt es k = true) :
    ∃ u, s.freeSlots[s.called.startsBefore es k]? = some u ∧
      t.update u = some (s.startedIn ((s.called.walked es k).1.resolvedMode e) e) := by
  obtain ⟨⟨u, free, filled⟩, -⟩ := s.called.walked_entry es he starts (List.getElem?_eq_some_iff.1 he).1
  exact ⟨u, free, (h.slots u).trans filled⟩

end Considered

/-! ## Lists of one and two entries -/

theorem State.mem_freeSlots {s : State} {u : Fin 15} : u ∈ s.freeSlots ↔ s.update u = none := by
  simp [State.freeSlots]

/-- The lowest-numbered FREE slot is the first of them. -/
theorem State.freeSlots_eq_cons {s : State} {u : Fin 15} (free : s.update u = none)
    (least : ∀ v, v < u → s.update v ≠ none) : ∃ rest, s.freeSlots = u :: rest := by
  refine List.head?_eq_some_iff.1 ?_
  rw [← State.lowestFree_eq, State.lowestFree, List.find?_eq_some_iff_getElem]
  refine ⟨by rw [free]; rfl, u.val, by simp, by simp, fun j hj => ?_⟩
  have busy := least ⟨j, hj.trans u.isLt⟩ hj
  simpa [Option.isSome_iff_ne_none] using busy

theorem State.freeSlots_of_allFree {s : State} (free : ∀ u, s.update u = none) : s.freeSlots = List.finRange 15 :=
  List.filter_eq_self.2 fun u _ => by rw [free]; rfl

section Counts

variable {s : State} {es : List Request} {k : Nat}

theorem State.startsBefore_succ_of_starts (h : s.startsAt es k = true) :
    s.startsBefore es (k + 1) = s.startsBefore es k + 1 := by rw [State.startsBefore_succ, if_pos h]

theorem State.startsBefore_succ_of_waits (h : s.startsAt es k = false) :
    s.startsBefore es (k + 1) = s.startsBefore es k := by rw [State.startsBefore_succ, h]; rfl

end Counts

/-- The first entry of a walk starts where a slot is FREE and no busy slot overlaps it. -/
theorem State.startsAt_zero_iff {s : State} {e : Request} {es : List Request} : s.startsAt (e :: es) 0 = true ↔
    s.allowsStarts = true ∧ s.freeSlots ≠ [] ∧ ∀ u x, s.update u = some x → x.rect.overlaps e.rect = false := by
  rw [s.startsAt_iff (e :: es) (List.getElem?_cons_zero), ← List.length_pos_iff]
  refine and_congr_right fun _ => and_congr_right fun _ => ⟨fun h => h.1, fun h => ⟨h, fun j e' hj => ?_⟩⟩
  exact absurd hj j.not_lt_zero

/-- A single entry waits while no slot is FREE, starts are not allowed, or a busy slot overlaps it. -/
theorem State.single_waits {s : State} {e : Request}
    (h : s.supply.valid = false ∨ s.supply.panel = .failed ∨ s.supply.panel = .unconfigured ∨ (∀ u, s.update u ≠ none) ∨
      ∃ u x, s.update u = some x ∧ x.rect.overlaps e.rect = true) : s.startsAt [e] 0 = false := by
  refine eq_false_of_ne_true fun starts => ?_
  rw [State.startsAt_zero_iff, State.allowsStarts_iff] at starts
  obtain ⟨⟨valid, failed, unconf⟩, room, apart⟩ := starts
  rcases h with h | h | h | h | ⟨u, x, hu, hx⟩
  · rw [valid] at h
    cases h
  · exact failed h
  · exact unconf h
  · obtain ⟨u, hu⟩ := List.exists_mem_of_ne_nil _ room
    exact h u (State.mem_freeSlots.1 hu)
  · rw [apart u x hu] at hx
    cases hx

/-- An entry that waits for a busy slot keeps the younger entry that overlaps it waiting. -/
theorem State.pair_waits {s : State} {e e' : Request} {u : Fin 15} {x : Update} (hu : s.update u = some x)
    (hx : x.rect.overlaps e.rect = true) (hy : e.rect.overlaps e'.rect = true) :
    ∀ k q, [e, e'][k]? = some q → s.startsAt [e, e'] k = false := by
  intro k q hq
  refine eq_false_of_ne_true fun starts => ?_
  obtain ⟨-, -, apart, older⟩ := (s.startsAt_iff [e, e'] hq).1 starts
  match k with
  | 0 =>
    cases hq
    rw [apart u x hu] at hx
    cases hx
  | 1 =>
    cases hq
    rw [older 0 e Nat.zero_lt_one rfl] at hy
    cases hy

section Pair

variable {s : State} (free : ∀ u, s.update u = none) (allowed : s.allowsStarts = true) (p e : Request)
include free allowed

/-- With every slot FREE the first entry starts. -/
theorem State.pair_first_starts : s.startsAt [p, e] 0 = true := by
  refine State.startsAt_zero_iff.2 ⟨allowed, by rw [State.freeSlots_of_allFree free]; decide, fun u x hx => ?_⟩
  rw [free] at hx
  cases hx

/-- The second entry starts where it overlaps the first nowhere. -/
theorem State.pair_second_iff : s.startsAt [p, e] 1 = true ↔ p.rect.overlaps e.rect = false := by
  have one : s.startsBefore [p, e] 1 = 1 := State.startsBefore_succ_of_starts (State.pair_first_starts free allowed p e)
  rw [s.startsAt_iff [p, e] rfl, one, State.freeSlots_of_allFree free, List.length_finRange]
  refine ⟨fun ⟨_, _, _, older⟩ => older 0 p Nat.zero_lt_one rfl,
    fun apart => ⟨allowed, by decide, fun u x hx => ?_, fun j q hj hq => ?_⟩⟩
  · rw [free] at hx
    cases hx
  · obtain rfl : j = 0 := Nat.lt_one_iff.1 hj
    cases hq
    exact apart

end Pair

/-- Settles O52: the walk entry by entry; the shorter lists are cases of it. -/
theorem considerationStarts : Obligations.ConsiderationStarts := by
  unfold Obligations.ConsiderationStarts
  refine ⟨fun s e due hr hp => ⟨fun waits => ?_, fun u free least apart valid failed unconf => ?_⟩,
    fun s e e' u x due hr hp hu hx hy => ?_, fun s p e due hr hp free valid failed unconf => ?_, fun s due => ?_⟩
  · have entries : s.called.entries = [e] := congrArg₂ (· ++ ·) hr hp
    refine yields_of_proceed_eq (exec_startConsideration due) (State.consider_of_waits (s := s.called) ?_)
    rw [entries]
    intro k q hq
    match k with
    | 0 => exact State.single_waits (s := s.called) waits
  · have entries : s.entries = [e] := congrArg₂ (· ++ ·) hr hp
    obtain ⟨rest, first⟩ := State.freeSlots_eq_cons free least
    have room : s.freeSlots ≠ [] := by simp [first]
    have starts : s.called.startsAt [e] 0 = true :=
      State.startsAt_zero_iff.2 ⟨State.allowsStarts_iff.2 ⟨valid, failed, unconf⟩, room, apart⟩
    have taken : s.freeSlots.take (s.called.startsBefore [e] 1) = [u] := by
      rw [State.startsBefore_succ_of_starts starts, first]
      rfl
    obtain ⟨t, ht, h⟩ := State.considers due
    rw [entries] at h
    obtain ⟨v, hv, filled⟩ := h.filled rfl starts
    rw [first] at hv
    cases hv
    have none : t.commit.pending = [] := by rw [h.pending, hp, hr]; simp [starts]
    have beside := h.beside
    rw [none] at beside
    obtain ⟨-, changed⟩ := s.called.walked_entry [e] rfl starts Nat.zero_lt_one
    obtain ⟨kept, promoted⟩ := s.called.walked_mode [e] 0 e
    exact ⟨t, _, ht, beside, h.order.trans (congrArg _ taken), by rw [h.repairs, hr]; rfl, h.due,
      h.ghosts.trans changed, filled, fun v hv => h.kept (taken ▸ mt List.mem_singleton.1 hv), rfl, rfl, rfl, rfl, rfl,
      rfl, rfl, s.bandNow_of_valid valid, rfl, kept, promoted⟩
  · have entries : s.called.entries = [e, e'] := congrArg₂ (· ++ ·) hr hp
    refine yields_of_proceed_eq (exec_startConsideration due) (State.consider_of_waits (s := s.called) ?_)
    rw [entries]
    exact State.pair_waits (s := s.called) hu hx hy
  · have entries : s.entries = [p, e] := congrArg₂ (· ++ ·) hr hp
    have all := State.freeSlots_of_allFree free
    have allowed := State.allowsStarts_iff.2 ⟨valid, failed, unconf⟩
    have starts := State.pair_first_starts (s := s.called) free allowed p e
    have second := State.pair_second_iff (s := s.called) free allowed p e
    have one : s.called.startsBefore [p, e] 1 = 1 := State.startsBefore_succ_of_starts starts
    obtain ⟨t, ht, h⟩ := State.considers due
    rw [entries] at h
    have pending := h.pending
    rw [hp, hr] at pending
    obtain ⟨v, hv, filled⟩ := h.filled rfl starts
    rw [all] at hv
    cases hv
    refine ⟨t, _, ht, by rw [h.repairs, hr]; simp [starts], h.due, filled, rfl, rfl, rfl, rfl, fun overlap => ?_,
      fun apart => ?_⟩
    · have waits : s.called.startsAt [p, e] 1 = false := eq_false_of_ne_true fun h => by
        rw [second.1 h] at overlap
        cases overlap
      have taken : s.freeSlots.take (s.called.startsBefore [p, e] 2) = [0] := by
        rw [State.startsBefore_succ_of_waits waits, one, all]
        rfl
      exact ⟨pending.trans (by simp [waits]), h.order.trans (congrArg _ taken),
        fun u hu => (h.kept (taken ▸ mt List.mem_singleton.1 hu)).trans (free u)⟩
    · have starts' := second.2 apart
      have taken : s.freeSlots.take (s.called.startsBefore [p, e] 2) = [0, 1] := by
        rw [State.startsBefore_succ_of_starts starts', one, all]
        rfl
      obtain ⟨v, hv, filled'⟩ := h.filled rfl starts'
      rw [one, all] at hv
      cases hv
      exact ⟨pending.trans (by simp [starts']), h.order.trans (congrArg _ taken),
        fun u h0 h1 => (h.kept (taken ▸ by simp [h0, h1])).trans (free u), _, filled', rfl, rfl, rfl, rfl, rfl, rfl⟩
  · obtain ⟨t, ht, h⟩ := State.considers due
    refine ⟨t, s.called.startsAt s.entries, fun k => (s.called.walked s.entries k).1.updates.ghosts, ht, h.beside,
      fun k e he => ⟨?_, fun waits => ?_, fun starts => ?_⟩, rfl, h.ghosts, h.due, h.repairs, h.pending, h.order,
      fun u => h.kept⟩
    · rw [s.called.startsAt_iff s.entries he, State.allowsStarts_iff]
      exact ⟨fun ⟨⟨valid, failed, unconf⟩, rest⟩ => ⟨valid, failed, unconf, rest⟩,
        fun ⟨valid, failed, unconf, rest⟩ => ⟨⟨valid, failed, unconf⟩, rest⟩⟩
    · exact congrArg (fun w : State => w.updates.ghosts) (State.walked_succ_state waits)
    · obtain ⟨u, free, filled⟩ := h.filled he starts
      obtain ⟨-, changed⟩ := s.called.walked_entry s.entries he starts k.lt_succ_self
      obtain ⟨kept, promoted⟩ := s.called.walked_mode s.entries k e
      exact ⟨u, _, free, filled, rfl, rfl, rfl, rfl, rfl, rfl, rfl, rfl, kept, promoted, changed⟩

end Sys2Proof.Machine
end

section
/-! SUPPORT. Panel power as the law of the supply enable sees it, and the operations that leave it as it is, said once for
each that branches. -/

namespace Sys2Proof.Machine

/-! ## Panel power -/

/-- What the law of the supply enable is about: the panel state, the enable, the rise timer and the update slots. -/
structure PanelPower where
  panel : PanelState
  enable : Bool
  riseTimer : Timer
  slots : Vector (Option Update) 15

/-- The panel power of a state. -/
def State.power (s : State) : PanelPower :=
  { panel := s.supply.panel, enable := s.supply.enable, riseTimer := s.supply.riseTimer, slots := s.updates.slots }

theorem State.power_ext {s t : State} (hp : t.supply = s.supply) (hu : t.updates = s.updates) : t.power = s.power := by
  unfold State.power
  rw [hp, hu]

section
variable (s : State)

/-- Items taken one after another leave what each of them leaves. -/
theorem State.foldl_power {α : Type} {f : State → α → State} (hf : ∀ s x, (f s x).power = s.power) (xs : List α) :
    ∀ s : State, (xs.foldl f s).power = s.power := by
  induction xs with
  | nil => exact fun s => rfl
  | cons x xs ih => exact fun s => (ih _).trans (hf s x)

/-! ## Events, records and notes -/

theorem State.raiseAll_power (es : List Event) : (s.raiseAll es).power = s.power := by
  rw [State.raiseAll_eq]
  rfl

theorem State.raise_power (e : Event) : (s.raise e).power = s.power := s.raiseAll_power [e]

theorem State.accessFault_power (a : BusAddr) (c : FaultCause) : (s.accessFault a c).power = s.power := by
  unfold State.accessFault
  dsimp only
  split
  · exact State.raise_power _ _
  · rfl

theorem conclude_power (before after : State) : (conclude before after).power = after.power := by
  rw [conclude_eq]
  rfl

theorem State.refuse_power (r : Record) (reason : Reason) : (s.refuse r reason).power = s.power := s.raise_power _

theorem State.createNote_power (n : Note) : (s.createNote n).power = s.power := by
  unfold State.createNote State.renumberNotes
  split <;> rfl

theorem State.copyNotes_power (source dest : Fin 4) : (s.copyNotes source dest).power = s.power :=
  State.foldl_power (fun s _ => s.createNote_power _) _ (s.dropNotes dest)

theorem State.raiseCut_power (r : Record) (dropped held : Nat) : (s.raiseCut r dropped held).power = s.power := by
  unfold State.raiseCut
  split
  · rfl
  · exact s.raise_power _

/-! ## The Composer's long works (R9, R46, R47, R65 to R99) -/

theorem State.resumePainting_power (p : Painting) : (s.resumePainting p).power = s.power := by
  unfold State.resumePainting
  split <;> rfl

theorem State.beginPainting_power (i : Fin 4) (paints : List Paint) : (s.beginPainting i paints).power = s.power :=
  s.resumePainting_power _

theorem State.servePainting_power (p : Painting) : (s.servePainting p).power = s.power := by
  unfold State.servePainting
  split
  · rfl
  · dsimp only
    split
    · exact State.resumePainting_power _ _
    · split
      · exact State.resumePainting_power _ _
      · rfl

theorem State.serveCopying_power (c : Copying) : (s.serveCopying c).power = s.power := by
  unfold State.serveCopying
  dsimp only
  split
  · rfl
  · split <;> rfl

theorem State.doHighlight_power (r : Record) : (s.doHighlight r).power = s.power := by
  unfold State.doHighlight
  dsimp only
  split
  · exact (State.beginPainting_power _ _ _).trans (State.raiseCut_power _ _ _ _)
  · exact (State.beginPainting_power _ _ _).trans ((State.raiseCut_power _ _ _ _).trans (s.createNote_power _))

/-- What a run may change without a grant lies beside panel power. -/
theorem State.RunsTo.power {s t : State} {i k : Fin 4} (h : s.RunsTo i k t) : t.power = s.power := by
  rw [h.beside]
  rfl

theorem State.resumeRun_power (r : Run) : (s.resumeRun r).power = s.power := (State.runOn_runsTo _ s r).1.power

theorem State.beginRun_power (r : Run) : (s.beginRun r).power = s.power := by
  unfold State.beginRun
  split
  · split
    · rfl
    · exact s.raise_power _
  · exact s.resumeRun_power r

theorem State.blendOn_power (r : Run) (touches : List Touch) : (s.blendOn r touches).power = s.power := by
  unfold State.blendOn
  split
  · exact s.resumeRun_power _
  · rfl

theorem State.resolveOwn_power (r : Run) (b : Font) (l : Lookup) (g : Glyph) (bad : Bool) :
    (s.resolveOwn r b l g bad).1.power = s.power := by
  obtain ⟨⟨cache, found⟩, -⟩ := State.looksUp_resolveOwn s r b l g bad
  rw [found]
  rfl

theorem State.serveEntry_power (r : Run) (b : Font) (l : Lookup) : (s.serveEntry r b l).power = s.power := by
  unfold State.serveEntry
  dsimp only
  split
  · exact State.resumeRun_power _ _
  · exact (State.resumeRun_power _ _).trans (State.resolveOwn_power ..)

theorem State.serveRun_power (r : Run) : (s.serveRun r).power = s.power := by
  unfold State.serveRun
  split
  · split
    · unfold State.serveBitmap
      dsimp only
      split
      · rfl
      · exact s.blendOn_power _ _
    · exact State.blendOn_power _ _ _
    · rfl
    · exact s.resumeRun_power _
  · split
    · exact s.serveEntry_power _ _ _
    · rfl

/-! ## The Relay and the Ring Decoder (R1 to R9, R17 to R26) -/

theorem State.handOff_power (d : Handoff) : (s.handOff d).power = s.power := by
  cases d with
  | nobody | font | consumedCount => rfl
  | page e o =>
    show (s.draftWritten e o).power = s.power
    unfold State.draftWritten
    split
    · split <;> rfl
    · rfl
  | faultClear =>
    show s.faultClearWritten.power = s.power
    unfold State.faultClearWritten
    split <;> rfl

theorem State.landWrite_power (w : HostWrite) (d : Handoff) : (s.landWrite w d).power = s.power :=
  State.handOff_power _ d

theorem State.serveRelay_power : s.serveRelay.power = s.power := by
  unfold State.serveRelay
  split
  · rfl
  · exact s.landWrite_power _ _
  · rfl

theorem State.landIfGranted_power : s.landIfGranted.power = s.power := by
  unfold State.landIfGranted
  split
  · exact s.serveRelay_power
  · rfl

/-- A write that spoils the waveform check leaves panel power (R140). -/
theorem State.spoilCheck_power (a : Nat) : (s.spoilCheck a).power = s.power := by
  unfold State.spoilCheck
  split
  · split <;> rfl
  · rfl

theorem State.serveBeat_power (b : Beat) : (s.serveBeat b).power = s.power := by
  cases b with
  | read addr =>
    show (s.serveRead addr).power = s.power
    unfold State.serveRead
    split
    · exact State.accessFault_power _ _ _
    · exact State.landIfGranted_power _
  | write w =>
    rw [State.serveBeat_write]
    split
    · exact State.accessFault_power _ _ _
    · exact State.accessFault_power _ _ _
    · exact State.spoilCheck_power _ _
    · rfl

theorem State.arrive_power (b : Beat) : (s.arrive b).power = s.power := by
  unfold State.arrive
  split
  · exact State.serveBeat_power _ b
  · rfl

theorem State.serveHeld_power : s.serveHeld.power = s.power := by
  unfold State.serveHeld
  split
  · exact s.serveBeat_power _
  · rfl

/-- What an offered write may change lies beside panel power. -/
theorem State.ringOnly.power {s t : State} (h : s.ringOnly t) : t.power = s.power := by
  obtain ⟨d, q, r, rfl⟩ := h
  rfl

theorem State.release_power (w : HostWrite) : (s.release w).power = s.power := State.landIfGranted_power _

theorem State.offerWrite_power (w : HostWrite) : (s.offerWrite w).power = s.power := by
  have offered := (s.ringOnly_offer (s.ringWord w) w.whole w.data).power
  unfold State.offerWrite
  dsimp only
  split
  · exact offered
  · exact (State.release_power _ w).trans offered

theorem State.releaseHeld_power (w : Word) : (s.releaseHeld w).power = s.power :=
  ((s.ringOnly_decoder _).trans (State.ringOnly_startRecord _ w)).power

/-! ## Commits (R103 to R120) -/

/-- A consideration called for, or not. -/
theorem State.callIf_power (c : Bool) : (if c then s else s.callConsideration).power = s.power := by
  split <;> rfl

theorem State.cancelPage_power (i : Fin 4) : (s.cancelPage i).power = s.power :=
  (State.callIf_power _ _).trans (State.raiseAll_power _ _)

theorem State.cancelAll_power : s.cancelAll.power = s.power :=
  (State.callIf_power _ _).trans (State.raiseAll_power _ _)

theorem State.changeGeometry_power (k : Check) (g : Geometry) : (s.changeGeometry k g).power = s.power :=
  State.cancelAll_power (s.setSupply _)

theorem State.discardPage_power (i : Fin 4) : (s.discardPage i).power = s.power := s.cancelPage_power i

theorem State.takeWaitingDiscard_power (i : Fin 4) : (s.takeWaitingDiscard i).power = s.power := by
  unfold State.takeWaitingDiscard
  split
  · exact s.discardPage_power i
  · rfl

theorem State.endCommit_power (c : Commit) : (s.endCommit c).power = s.power := by
  rw [State.endCommit_eq]
  split
  · exact State.takeWaitingDiscard_power _ _
  · rfl

theorem State.decideRequest_power (c : Commit) (r : Request) : (s.decideRequest c r).power = s.power := by
  rcases s.decideRequest_cases c r with ⟨pending, -, h⟩ | ⟨-, -, h⟩ | ⟨-, -, h⟩ <;> rw [h]
  · exact State.endCommit_power _ c
  · exact State.endCommit_power _ c
  · rfl

theorem State.serveDiff_power : s.serveDiff.power = s.power := by
  unfold State.serveDiff
  split
  · split <;> rfl
  · rfl

/-! ## Grants (R7) -/

theorem State.serveScan_power : s.serveScan.power = s.power := by
  unfold State.serveScan State.deliver
  split
  · dsimp only
    split
    · rfl
    · split <;> rfl
    · split <;> rfl
  · rfl

theorem State.serveLoader_power : s.serveLoader.power = s.power := by
  unfold State.serveLoader
  split
  · rfl
  · split
    · unfold State.serveLoad
      dsimp only
      split <;> rfl
    · rfl

theorem State.serveReport_power (w : ReportWork) : (s.serveReport w).power = s.power := by
  cases w <;> rfl

/-- The waveform check adds its words beside panel power (R140). -/
theorem State.serveCheck_power : s.serveCheck.power = s.power := by
  unfold State.serveCheck
  split <;> rfl

theorem State.serveEngine_power (pick : Nat) (e : EngineName) : (s.serveEngine pick e).power = s.power := by
  cases e with
  | composer =>
    unfold State.serveEngine
    dsimp only
    split
    · exact s.servePainting_power _
    · exact s.serveCopying_power _
    · exact s.serveRun_power _
    · rfl
  | commitEngine => exact s.serveDiff_power
  | slotLoader => exact s.serveLoader_power
  | reporter =>
    unfold State.serveEngine
    dsimp only
    split
    · exact s.serveReport_power _
    · rfl
  | waveformCheck => exact s.serveCheck_power

theorem State.serveGrant_power (pick : Nat) (g : Grant) : (s.serveGrant pick g).power = s.power := by
  cases g with
  | refresh => rfl
  | scanner => exact s.serveScan_power
  | relay => exact s.serveRelay_power
  | engine e => exact State.serveEngine_power _ pick e

end

end Sys2Proof.Machine
end

section
/-! SUPPORT. The law of the supply enable in terms of panel power, what keeps it, and the commands of the Supply Controller
and of frames, each of which keeps it. -/

namespace Sys2Proof.Machine

/-! ## The law (R145, R146) -/

/-- A slot is ACTIVE. -/
def PanelPower.drives (q : PanelPower) : Prop := ∃ (u : Fin 15) (x : Update), q.slots[u] = some x ∧ x.state = .active

/-- An ACTIVE slot needs the panel ON, and the enable is raised in ON, HOLDING and SUSPENDED and while the rise timer runs
in RISING. -/
structure PanelPower.Lawful (q : PanelPower) : Prop where
  driven : q.drives → q.panel = .on
  raised : q.panel = .on ∨ q.panel = .holding ∨ q.panel = .suspended → q.enable = true
  rising : q.panel = .rising → q.riseTimer.isSome = true → q.enable = true

theorem State.anySlot_active_iff {s : State} : s.anySlot .active = true ↔ s.power.drives := State.anySlot_iff

theorem State.enableLaw_iff {s : State} : s.enableLaw ↔ s.power.Lawful := by
  unfold State.enableLaw
  rw [State.anySlot_active_iff]
  exact ⟨fun ⟨driven, raised, rising⟩ => ⟨driven, raised, rising⟩,
    fun ⟨driven, raised, rising⟩ => ⟨driven, raised, rising⟩⟩

section
variable {q q' : PanelPower}

theorem PanelPower.Lawful.undriven (h : q.Lawful) (hp : q.panel ≠ .on) : ¬ q.drives := fun d => hp (h.driven d)

/-- The panel ON with its enable raised. -/
theorem PanelPower.lawful_of_on (hp : q.panel = .on) (he : q.enable = true) : q.Lawful :=
  ⟨fun _ => hp, fun _ => he, fun _ _ => he⟩

/-- No slot ACTIVE and the enable raised, whatever the panel state. -/
theorem PanelPower.lawful_of_raised (hd : ¬ q.drives) (he : q.enable = true) : q.Lawful :=
  ⟨fun d => absurd d hd, fun _ => he, fun _ _ => he⟩

/-- No slot ACTIVE, and a panel that is not powered and in no rise attempt. -/
theorem PanelPower.lawful_of_down (hd : ¬ q.drives) (ho : q.panel ≠ .on) (hh : q.panel ≠ .holding)
    (hs : q.panel ≠ .suspended) (hr : q.panel = .rising → q.riseTimer = none) : q.Lawful where
  driven d := absurd d hd
  raised h := by
    rcases h with h | h | h
    · exact absurd h ho
    · exact absurd h hh
    · exact absurd h hs
  rising h ht := by
    rw [hr h] at ht
    cases ht

/-- From one view to the other only the slots differ, and a slot is ACTIVE only where one was. -/
structure PanelPower.Calms (q q' : PanelPower) : Prop where
  panel : q'.panel = q.panel
  enable : q'.enable = q.enable
  riseTimer : q'.riseTimer = q.riseTimer
  drives : q'.drives → q.drives

theorem PanelPower.Calms.of_eq (h : q' = q) : q.Calms q' := h ▸ ⟨rfl, rfl, rfl, id⟩

theorem PanelPower.Calms.trans {q'' : PanelPower} (h : q.Calms q') (h' : q'.Calms q'') : q.Calms q'' :=
  ⟨h'.panel.trans h.panel, h'.enable.trans h.enable, h'.riseTimer.trans h.riseTimer, h.drives ∘ h'.drives⟩

theorem PanelPower.Lawful.calms (h : q.Lawful) (hc : q.Calms q') : q'.Lawful where
  driven d := hc.panel.trans (h.driven (hc.drives d))
  raised hp := hc.enable.trans (h.raised (hc.panel ▸ hp))
  rising hp ht := hc.enable.trans (h.rising (hc.panel ▸ hp) (hc.riseTimer ▸ ht))

/-- A slot becomes FREE or holds an update that is not ACTIVE. -/
theorem PanelPower.calms_set (q : PanelPower) (u : Fin 15) {x : Option Update}
    (hx : ∀ y, x = some y → y.state ≠ .active) : q.Calms { q with slots := q.slots.set u x } where
  panel := rfl
  enable := rfl
  riseTimer := rfl
  drives := by
    rintro ⟨v, y, hv, hy⟩
    dsimp only at hv
    rw [getElem_set_slot] at hv
    split_ifs at hv
    · exact absurd hy (hx y hv)
    · exact ⟨v, y, hv, hy⟩

/-- A change of every busy slot after which a slot is ACTIVE only if it was. -/
theorem PanelPower.calms_map (q : PanelPower) {f : Update → Update}
    (hf : ∀ x, (f x).state = .active → x.state = .active) : q.Calms { q with slots := q.slots.map (Option.map f) } where
  panel := rfl
  enable := rfl
  riseTimer := rfl
  drives := by
    rintro ⟨u, y, hu, hy⟩
    have mapped : (q.slots.map (Option.map f))[u] = q.slots[u].map f := by simp
    obtain ⟨x, hx, rfl⟩ := Option.map_eq_some_iff.1 (mapped.symm.trans hu)
    exact ⟨u, x, hx, hf x hy⟩

end

/-! ## Slots that calm (R122, R126, R133, R135, R148, R149) -/

section
variable (s : State)

/-- Items taken one after another, each calming panel power. -/
theorem State.foldl_calms {α : Type} {f : State → α → State} (hf : ∀ (s : State) x, s.power.Calms (f s x).power)
    (xs : List α) : ∀ s : State, s.power.Calms (xs.foldl f s).power := by
  induction xs with
  | nil => exact fun s => .of_eq rfl
  | cons x xs ih => exact fun s => (hf s x).trans (ih _)

theorem State.freeSlot_calms (u : Fin 15) : s.power.Calms (s.freeSlot u).power := s.power.calms_set u (by rintro _ ⟨⟩)

theorem State.abort_calms (u : Fin 15) : s.power.Calms (s.abort u).power := by
  unfold State.abort
  split
  · exact s.freeSlot_calms u
  · exact .of_eq rfl

theorem State.finishSlot_calms (u : Fin 15) : s.power.Calms (s.finishSlot u).power := by
  unfold State.finishSlot
  split
  · exact (s.freeSlot_calms u).trans (.of_eq (State.raise_power _ _))
  · exact .of_eq rfl

theorem State.setSlotState_ready_calms (u : Fin 15) : s.power.Calms (s.setSlotState u .ready).power := by
  unfold State.setSlotState
  split
  · exact s.power.calms_set u (by rintro _ ⟨⟩; exact nofun)
  · exact .of_eq rfl

theorem State.countFrames_calms : s.power.Calms s.countFrames.power := by
  have counted : s.power.Calms (s.mapUpdates Update.countFrame).power :=
    s.power.calms_map fun x => by rw [x.countFrame_state]; exact id
  exact (counted.trans (State.foldl_calms State.finishSlot_calms _ _)).trans (.of_eq (State.callIf_power _ _))

/-- A start fills its slot with an update that is LOADING (R127). -/
theorem State.startUpdate_calms (e : Request) : s.power.Calms (s.startUpdate e).power := by
  unfold State.startUpdate
  split
  · exact s.power.calms_set _ (by rintro _ ⟨⟩; exact nofun)
  · exact .of_eq rfl

theorem State.consider_calms : s.power.Calms s.consider.power := by
  have start (t : State) (waiting : List Request) (e : Request) (h : s.power.Calms t.power)
      (_ : t.canStart waiting e = true) : s.power.Calms (t.startUpdate e).power := h.trans (t.startUpdate_calms e)
  have walked : s.power.Calms
      ((s.walkEntries [] s.updates.repairs).1.walkEntries (s.walkEntries [] s.updates.repairs).2
        s.commit.pending).1.power :=
    State.walkEntries_keeps start _ _ _ (State.walkEntries_keeps start _ _ _ (.of_eq rfl))
  exact walked.trans (.of_eq rfl)

end

/-! ## What keeps the law -/

/-- Where the law holds in the first state, it holds in the second. -/
def State.keepsPower (s t : State) : Prop := s.power.Lawful → t.power.Lawful

section
variable {s t u : State}

theorem State.keepsPower_of_eq (h : t.power = s.power := by rfl) : s.keepsPower t := by
  unfold State.keepsPower
  rw [h]
  exact id

theorem State.keepsPower_of_calms (h : s.power.Calms t.power) : s.keepsPower t := fun law => law.calms h

theorem State.keepsPower.trans (h : s.keepsPower t) (h' : t.keepsPower u) : s.keepsPower u := h' ∘ h

/-- An operation that leaves panel power as it is. -/
theorem State.keepsPower.kept (h : s.keepsPower t) (hu : u.power = t.power := by rfl) : s.keepsPower u :=
  h.trans (State.keepsPower_of_eq hu)

/-- No slot is ACTIVE once the panel is not ON, whatever the Supply Controller then does. -/
theorem PanelPower.Lawful.undriven_setSupply (law : s.power.Lawful) (hp : s.supply.panel ≠ .on) (p : Supply) :
    ¬ (s.setSupply p).power.drives :=
  law.undriven hp

end

/-! ## The Supply Controller's transitions (R145, R146, R149) -/

theorem Supply.beginAttempt_enable (p : Supply) : p.beginAttempt.enable = true := by
  unfold Supply.beginAttempt
  dsimp only
  split <;> rfl

section
variable {s : State}

/-- A rise attempt is begun where no slot is ACTIVE. -/
theorem State.keepsPower_beginAttempt (hp : s.supply.panel ≠ .on) (p : Supply) :
    s.keepsPower (s.setSupply p.beginAttempt) := fun law =>
  PanelPower.lawful_of_raised (law.undriven_setSupply hp _) p.beginAttempt_enable

/-- The panel falls where no slot is ACTIVE. -/
theorem State.lawful_enterFalling (hd : ¬ s.power.drives) : (s.setSupply s.supply.enterFalling).power.Lawful :=
  PanelPower.lawful_of_down hd nofun nofun nofun nofun

theorem State.keepsPower_riseIfReady (s : State) : s.keepsPower s.riseIfReady := by
  unfold State.riseIfReady
  split
  · rename_i h
    exact State.keepsPower_beginAttempt (by rw [h.1]; exact nofun) _
  · exact State.keepsPower_of_eq

theorem State.keepsPower_slotBecameReady (s : State) : s.keepsPower s.slotBecameReady := by
  unfold State.slotBecameReady
  split
  · rename_i h
    exact fun law => PanelPower.lawful_of_on rfl (law.raised (.inr (.inl h)))
  · exact s.keepsPower_riseIfReady

/-- No slot is ACTIVE after the ACTIVE ones have frozen (R148). -/
theorem State.freeze_undriven (s : State) : ¬ (s.mapUpdates Update.freeze).power.drives := by
  rintro ⟨u, y, hu, hy⟩
  obtain ⟨x, -, rfl⟩ := Option.map_eq_some_iff.1 ((s.mapUpdates_update _ u).symm.trans hu)
  unfold Update.freeze at hy
  split at hy
  · cases hy
  · contradiction

/-- A loss of panel power leaves the enable raised, and no slot ACTIVE (R148). -/
theorem State.lawful_suspend (he : s.supply.enable = true) : s.suspend.power.Lawful := by
  refine PanelPower.lawful_of_raised s.freeze_undriven ?_
  unfold State.suspend
  dsimp only
  split <;> exact he

/-- The panel holds, or falls at once, where no slot needs frames (R146). -/
theorem State.lawful_hold (he : s.supply.enable = true) (hn : s.noFramesNeeded = true) : s.hold.power.Lawful := by
  have undriven : ¬ s.power.drives := by
    rintro ⟨u, x, hu, hx⟩
    rw [State.noFramesNeeded_iff.1 hn u x hu] at hx
    cases hx
  unfold State.hold
  dsimp only
  split
  · exact PanelPower.lawful_of_down undriven nofun nofun nofun nofun
  · exact PanelPower.lawful_of_raised undriven he

/-- A LOAD that is done takes a panel that was UNCONFIGURED or FAILED to OFF, and leaves every other (R141). -/
theorem State.keepsPower_finishLoad (s : State) : s.keepsPower s.finishLoad := by
  intro law
  unfold State.finishLoad
  refine State.keepsPower_riseIfReady _ ?_
  have down (hp : s.supply.panel ≠ .on) : (State.callConsideration (s.setSupply
      { s.supply with panel := .off, attempt := 0, check := none })).power.Lawful :=
    PanelPower.lawful_of_down (law.undriven_setSupply hp _) nofun nofun nofun nofun
  dsimp only
  split
  · rename_i h
    exact down (by rw [h]; exact nofun)
  · rename_i h
    exact down (by rw [h]; exact nofun)
  · exact law

end

end Sys2Proof.Machine
end

section
/-! SUPPORT. What every command but RESET answers: the state as it was, or a state concluded that keeps the law of the supply
enable; the statements about the supply enable and about the change marks. -/

namespace Sys2Proof.Machine

set_option Elab.async false

/-! ## Answers -/

/-- Every next state that an answer gives is the state as it was, or the conclusion of one that keeps the law of the
supply enable. -/
def State.concludes (s : State) (o : Host.Outcome State Fault Refusal) : Prop :=
  ∀ t, o = .next t → t = s ∨ ∃ x, t = conclude s x ∧ s.keepsPower x

section
variable {s x : State}

theorem State.concludes_proceed (h : s.keepsPower x) : s.concludes (proceed s x) := by
  rintro t ⟨⟩
  exact .inr ⟨x, rfl, h⟩

theorem State.concludes_kept (h : x.power = s.power := by rfl) : s.concludes (proceed s x) :=
  State.concludes_proceed (State.keepsPower_of_eq h)

theorem State.concludes_noOccasion (s : State) : s.concludes (noOccasion s) := by
  rintro t ⟨⟩
  exact .inl rfl

/-- A command with one condition. -/
theorem State.concludes_ite (h : s.keepsPower x) (p : Prop) [Decidable p] :
    s.concludes (if p then proceed s x else noOccasion s) := by
  split
  · exact State.concludes_proceed h
  · exact State.concludes_noOccasion s

theorem State.concludes_ite_kept (p : Prop) [Decidable p] (h : x.power = s.power := by rfl) :
    s.concludes (if p then proceed s x else noOccasion s) :=
  State.concludes_ite (State.keepsPower_of_eq h) p

theorem State.concludes_onRecord {run : Record → State} (h : ∀ r, s.keepsPower (run r)) (fits : Record → Bool) :
    s.concludes (onRecord s fits run) := by
  unfold onRecord
  split
  · exact State.concludes_ite (h _) _
  · exact State.concludes_noOccasion s

/-- A record refused, or carried out once every check has passed. -/
theorem State.keepsPower_checked {carryOut : State} {r : Record} {checks : List (Bool × Reason)}
    (h : firstFailing checks = none → s.keepsPower carryOut) : s.keepsPower (s.checked r checks carryOut) := by
  unfold State.checked
  split
  · exact State.keepsPower_of_eq (s.refuse_power r _)
  · exact h ‹_›

/-- A record command with checks that leaves panel power as it is. -/
theorem State.concludes_checked {carryOut : Record → State} (h : ∀ r, (carryOut r).power = s.power)
    (fits : Record → Bool) (checks : Record → List (Bool × Reason)) :
    s.concludes (onRecord s fits (fun r => s.checked r (checks r) (carryOut r))) :=
  State.concludes_onRecord (fun r => State.keepsPower_checked fun _ => State.keepsPower_of_eq (h r)) fits

theorem State.concludes_onHandOver {carryOut : Record → State} (h : ∀ r, (carryOut r).power = s.power)
    (k : RecordKind) (checks : Record → List (Bool × Reason)) :
    s.concludes (onHandOver s k (fun r => s.checked r (checks r) (carryOut r))) := by
  unfold onHandOver
  split
  · exact State.concludes_checked h _ checks
  · exact State.concludes_noOccasion s

theorem State.concludes_onLanding (s : State) (fits : Handoff → Bool) : s.concludes (onLanding s fits) := by
  unfold onLanding
  split
  · exact State.concludes_ite_kept _ (s.landWrite_power _ _)
  · exact State.concludes_noOccasion s

end

/-! ## Panel power, frames and PANEL records (R138 to R151) -/

/-- The panel enters ON where the enable is raised already: in RISING with the rise timer running, or in SUSPENDED. -/
theorem execPanelReadyAsserted_concludes (s : State) : s.concludes (execPanelReadyAsserted s) := by
  unfold execPanelReadyAsserted
  split
  · exact State.concludes_noOccasion s
  · refine State.concludes_proceed fun law => ?_
    split
    · rename_i panel timer
      exact PanelPower.lawful_of_on rfl (law.rising panel (Option.isSome_iff_exists.2 ⟨_, timer⟩))
    · rename_i panel
      exact PanelPower.lawful_of_on rfl (law.raised (.inr (.inr panel)))
    · exact law

theorem execPanelReadyDropped_concludes (s : State) : s.concludes (execPanelReadyDropped s) := by
  unfold execPanelReadyDropped
  refine State.concludes_ite (fun law => ?_) _
  split
  · exact law
  · rename_i holding
    have undriven : ¬ s.power.drives := law.undriven (by rw [show s.power.panel = _ from holding]; exact nofun)
    exact State.keepsPower_of_eq (State.raise_power _ _)
      (PanelPower.lawful_of_down (q := (s.setSupply _).power) undriven nofun nofun nofun nofun)
  · exact law

theorem execRiseTimerExpiry_concludes (s : State) : s.concludes (execRiseTimerExpiry s) := by
  unfold execRiseTimerExpiry
  split
  · rename_i rising _
    have away : s.power.panel ≠ .on := by rw [show s.power.panel = _ from rising]; exact nofun
    dsimp only
    split
    · refine State.concludes_proceed fun law => PanelPower.lawful_of_down (law.undriven_setSupply away _) away ?_ ?_ ?_
      · exact ne_of_eq_of_ne rising nofun
      · exact ne_of_eq_of_ne rising nofun
      · exact fun _ => rfl
    · refine State.concludes_proceed fun law => State.keepsPower_of_eq (State.raise_power _ _) ?_
      exact PanelPower.lawful_of_down (law.undriven_setSupply away _) nofun nofun nofun nofun
  · exact State.concludes_noOccasion s

theorem execGapTimerExpiry_concludes (s : State) : s.concludes (execGapTimerExpiry s) := by
  unfold execGapTimerExpiry
  split
  · rename_i rising _
    exact State.concludes_proceed (State.keepsPower_beginAttempt (ne_of_eq_of_ne rising nofun) _)
  · exact State.concludes_noOccasion s

theorem execHoldTimeExpiry_concludes (s : State) : s.concludes (execHoldTimeExpiry s) := by
  unfold execHoldTimeExpiry
  split
  · rename_i holding _
    refine State.concludes_proceed fun law => State.lawful_enterFalling (law.undriven ?_)
    exact ne_of_eq_of_ne holding nofun
  · exact State.concludes_noOccasion s

theorem execFallTimerExpiry_concludes (s : State) : s.concludes (execFallTimerExpiry s) := by
  unfold execFallTimerExpiry
  split
  · rename_i falling _
    refine State.concludes_proceed fun law => State.keepsPower_riseIfReady _ ?_
    exact PanelPower.lawful_of_down (law.undriven_setSupply (ne_of_eq_of_ne falling nofun) _) nofun nofun nofun nofun
  · exact State.concludes_noOccasion s

/-- The panel falls, and the FROZEN slots are aborted (R149). -/
theorem execGraceTimerExpiry_concludes (s : State) : s.concludes (execGraceTimerExpiry s) := by
  unfold execGraceTimerExpiry
  split
  · rename_i suspended _
    refine State.concludes_proceed fun law => ?_
    have falls := State.lawful_enterFalling (law.undriven (ne_of_eq_of_ne suspended nofun))
    have aborted := falls.calms (State.foldl_calms State.abort_calms (s.inOrder .frozen) _)
    exact State.keepsPower_of_eq (State.raise_power _ _) aborted
  · exact State.concludes_noOccasion s

theorem execTemperatureReading_concludes (s : State) (reading : Option Int) :
    s.concludes (execTemperatureReading reading s) := by
  unfold execTemperatureReading
  dsimp only
  split
  · exact State.concludes_ite_kept _
  · exact State.concludes_kept (State.raise_power _ _)

/-- A frame starts with the panel ON. -/
theorem execFrameStart_concludes (s : State) : s.concludes (execFrameStart s) := by
  unfold execFrameStart
  split
  · rename_i on _
    exact State.concludes_proceed fun law => PanelPower.lawful_of_on on (law.raised (.inl on))
  · exact State.concludes_noOccasion s

/-- A frame ends with the panel ON, and its count leaves the enable raised. -/
theorem execFrameEnd_concludes (s : State) : s.concludes (execFrameEnd s) := by
  unfold execFrameEnd
  split
  · rename_i on _ _
    have counted := State.countFrames_calms { s with scanner := { s.scanner with frame := none } }
    refine State.concludes_proceed fun law => ?_
    have raised : (State.countFrames { s with scanner := { s.scanner with frame := none } }).supply.enable = true :=
      counted.enable.trans (law.raised (.inl on))
    dsimp only
    split
    · exact State.lawful_suspend raised
    · split
      · exact State.lawful_hold raised ‹_›
      · exact law.calms counted
  · exact State.concludes_noOccasion s

theorem execLoadingComplete_concludes (s : State) : s.concludes (execLoadingComplete s) := by
  unfold execLoadingComplete
  split
  · rename_i u _
    split
    · have ready : s.keepsPower { s.setSlotState u .ready with loader := { s.loader with load := none } } :=
        State.keepsPower_of_calms (s.setSlotState_ready_calms u)
      exact State.concludes_ite (ready.trans (State.keepsPower_slotBecameReady _)) _
    · exact State.concludes_noOccasion s
  · exact State.concludes_noOccasion s

/-- An UNLOAD that is not refused finds the panel down (R139). -/
theorem execPanelUnload_concludes (s : State) : s.concludes (execPanelUnload s) := by
  refine State.concludes_onRecord (fun r => State.keepsPower_checked fun passed law => ?_) _
  have away : s.supply.panel ≠ .on := by
    intro on
    have busy : s.panelBusy = true := by unfold State.panelBusy; rw [on]; rfl
    unfold State.unloadChecks at passed
    simp only [firstFailing_cons, busy, Bool.true_or, if_true] at passed
    split at passed <;> cases passed
  have unloaded : (s.setSupply
      { s.supply.stopTimers with valid := false, panel := .unconfigured, enable := false }).power.Lawful :=
    PanelPower.lawful_of_down (law.undriven_setSupply away _) nofun nofun nofun nofun
  dsimp only
  split <;> exact unloaded

theorem execWaveformCheckEnd_concludes (s : State) : s.concludes (execWaveformCheckEnd s) := by
  have refused (r : Record) (reason : Reason) : s.keepsPower (s.refuseLoad r reason) :=
    State.keepsPower_of_eq (State.refuse_power _ r reason)
  have loaded (r : Record) : s.keepsPower (s.setSupply (s.supply.load r)) := State.keepsPower_of_eq
  unfold execWaveformCheckEnd
  split
  · refine State.concludes_ite ?_ _
    dsimp only
    split
    · split
      · exact refused _ _
      · split
        · exact (loaded _).kept (State.changeGeometry_power _ _ _)
        · exact (loaded _).trans (State.keepsPower_finishLoad _)
    · exact refused _ _
  · exact State.concludes_noOccasion s

theorem execGeometryClearEnd_concludes (s : State) : s.concludes (execGeometryClearEnd s) := by
  unfold execGeometryClearEnd
  split
  · exact State.concludes_ite s.keepsPower_finishLoad _
  · exact State.concludes_noOccasion s

/-! ## Commands that leave panel power as it is -/

theorem execControlRingWrite_concludes (s : State) : s.concludes (execControlRingWrite s) := by
  unfold execControlRingWrite
  split
  · split
    · exact State.concludes_noOccasion s
    · exact State.concludes_kept (s.offerWrite_power _)
  · exact State.concludes_noOccasion s

theorem execRestart_concludes (s : State) : s.concludes (execRestart s) := by
  unfold execRestart
  split
  · exact State.concludes_ite_kept _ (s.offerWrite_power _)
  · exact State.concludes_noOccasion s

theorem execHoldReleaseOnRoom_concludes (s : State) : s.concludes (execHoldReleaseOnRoom s) := by
  unfold execHoldReleaseOnRoom
  split
  · exact State.concludes_ite_kept _ ((State.release_power _ _).trans (s.releaseHeld_power _))
  · exact State.concludes_noOccasion s

theorem execHoldTimerExpiry_concludes (s : State) : s.concludes (execHoldTimerExpiry s) := by
  unfold execHoldTimerExpiry
  split
  · split
    · exact State.concludes_noOccasion s
    · exact State.concludes_kept ((State.release_power _ _).trans (s.ringOnly_overrun _).power)
  · exact State.concludes_noOccasion s

theorem execStallTimerExpiry_concludes (s : State) : s.concludes (execStallTimerExpiry s) := by
  unfold execStallTimerExpiry
  split
  · exact State.concludes_kept (s.ringOnly_tear ..).power
  · exact State.concludes_kept
  · exact State.concludes_noOccasion s

theorem execDiffTileVisit_concludes (s : State) : s.concludes (execDiffTileVisit s) := by
  unfold execDiffTileVisit
  split
  · split
    · exact State.concludes_kept
    · exact State.concludes_noOccasion s
  · exact State.concludes_noOccasion s

theorem execDiffEnd_concludes (s : State) : s.concludes (execDiffEnd s) := by
  unfold execDiffEnd
  split
  · split
    · split
      · exact State.concludes_kept ((State.endCommit_power _ _).trans (State.raise_power _ _))
      · exact State.concludes_kept (s.decideRequest_power _ _)
    · exact State.concludes_noOccasion s
  · exact State.concludes_noOccasion s

theorem execPageCopy_concludes (s : State) : s.concludes (execPageCopy s) := by
  refine State.concludes_checked (fun r => ?_) _ s.copyChecks
  dsimp only
  split
  · exact s.copyNotes_power r.copySource r.slot
  · exact s.copyNotes_power r.copySource r.slot

theorem execPageDiscard_concludes (s : State) : s.concludes (execPageDiscard s) := by
  refine State.concludes_checked (fun r => ?_) _ (fun r => [(!(s.page r.slot).isOpen, .notOpen)])
  split
  · rfl
  · exact s.discardPage_power _

theorem execDownstreamGrant_concludes (s : State) (needs : Bool) (pick : Nat) :
    s.concludes (execDownstreamGrant needs pick s) := by
  unfold execDownstreamGrant
  dsimp only
  split
  · split
    · exact State.concludes_kept (State.serveGrant_power (s.raiseScan needs) pick _)
    · rintro t ⟨⟩
  · exact State.concludes_noOccasion s

theorem execDozeWake_concludes (s : State) : s.concludes (execDozeWake s) := by
  unfold execDozeWake
  split
  · exact State.concludes_ite_kept _ (State.serveBeat_power _ _)
  · exact State.concludes_noOccasion s

/-! ## Every command -/

/-- Every command but RESET leaves the state as it was, or concludes with a state that keeps the law. -/
theorem exec_concludes {c : Instr} (hc : ∀ straps, c ≠ .reset straps) {s t : State} (h : exec c s = .next t) :
    t = s ∨ ∃ x, t = conclude s x ∧ s.keepsPower x := by
  suffices ho : s.concludes (exec c s) from ho t h
  cases c with
  | reset straps => exact absurd rfl (hc straps)
  | sdramInitializationEnd =>
    show s.concludes (execSdramInitializationEnd s)
    unfold execSdramInitializationEnd
    split
    · exact State.concludes_kept (State.serveHeld_power _)
    · exact State.concludes_noOccasion s
  | startUpClearingEnd =>
    show s.concludes (execStartUpClearingEnd s)
    unfold execStartUpClearingEnd
    split
    · exact State.concludes_ite_kept _
    · exact State.concludes_noOccasion s
  | hostReadBeat | hostWriteBeat => exact State.concludes_ite_kept _ (s.arrive_power _)
  | hostWriteLands | draftWrite | fontRegionWrite | consumedCountWrite | faultClearWrite =>
    exact State.concludes_onLanding s _
  | controlRingWrite => exact execControlRingWrite_concludes s
  | holdReleaseOnRoom => exact execHoldReleaseOnRoom_concludes s
  | holdTimerExpiry => exact execHoldTimerExpiry_concludes s
  | stallTimerExpiry => exact execStallTimerExpiry_concludes s
  | restart => exact execRestart_concludes s
  | recordExecutionEnd =>
    show s.concludes (execRecordExecutionEnd s)
    unfold execRecordExecutionEnd
    split
    · exact State.concludes_kept (State.ringOnly_checkSpace _).power
    · exact State.concludes_noOccasion s
  | recordTake | settleTimerExpiry | latencyTimerExpiry | autoCommitGrant | readingTimerExpiry =>
    dsimp only [exec, execRecordTake, execSettleTimerExpiry, execLatencyTimerExpiry, execAutoCommitGrant,
      execReadingTimerExpiry]
    split
    · exact State.concludes_kept
    · exact State.concludes_noOccasion s
  | nop | lockTight | fontUnbind =>
    refine State.concludes_onRecord (fun _ => ?_) _
    exact State.keepsPower_of_eq
  | tune =>
    exact State.concludes_onRecord (fun _ => State.keepsPower_of_eq (State.power_ext (by simp) (by simp))) _
  | probe =>
    refine State.concludes_onRecord (fun _ => ?_) _
    exact State.keepsPower_of_eq (s.raise_power _)
  | region | guard | panelLoad | fontBind | pageOpenKeepClean | pageOpenKeepDirty | noteClearOne | noteClearAll =>
    refine State.concludes_checked (fun _ => ?_) _ _
    rfl
  | column =>
    refine State.concludes_checked (fun r => ?_) _ _
    rw [State.resetOpenCursors_frame]
    rfl
  | pageOpenFill | fillSet | fillMultiply =>
    refine State.concludes_checked (fun _ => ?_) _ _
    exact State.beginPainting_power _ _ _
  | pageDiscard => exact execPageDiscard_concludes s
  | pageCopy => exact execPageCopy_concludes s
  | glyphRunContinue | glyphRunSet =>
    refine State.concludes_checked (fun _ => ?_) _ _
    exact State.beginRun_power _ _
  | highlight => exact State.concludes_checked (fun _ => s.doHighlight_power _) _ _
  | pageCommit =>
    refine State.concludes_onHandOver (fun _ => ?_) _ _
    rfl
  | refresh =>
    refine State.concludes_onHandOver (fun _ => ?_) _ _
    exact State.decideRequest_power _ _ _
  | panelUnload => exact execPanelUnload_concludes s
  | waveformCheckEnd => exact execWaveformCheckEnd_concludes s
  | geometryClearEnd => exact execGeometryClearEnd_concludes s
  | diffTileVisit => exact execDiffTileVisit_concludes s
  | diffEnd => exact execDiffEnd_concludes s
  | pendingRetry =>
    show s.concludes (execPendingRetry s)
    unfold execPendingRetry
    split
    · exact State.concludes_kept (s.decideRequest_power _ _)
    · exact State.concludes_noOccasion s
  | startConsideration =>
    have considered : s.keepsPower (State.consider { s with updates := { s.updates with due := false } }) :=
      State.keepsPower_of_calms (State.consider_calms { s with updates := { s.updates with due := false } })
    exact State.concludes_ite considered _
  | downstreamGrant needs pick => exact execDownstreamGrant_concludes s needs pick
  | refreshTimerExpiry => exact State.concludes_ite_kept _
  | loadingComplete => exact execLoadingComplete_concludes s
  | frameStart => exact execFrameStart_concludes s
  | frameEnd => exact execFrameEnd_concludes s
  | panelReadyAsserted => exact execPanelReadyAsserted_concludes s
  | panelReadyDropped => exact execPanelReadyDropped_concludes s
  | riseTimerExpiry => exact execRiseTimerExpiry_concludes s
  | gapTimerExpiry => exact execGapTimerExpiry_concludes s
  | holdTimeExpiry => exact execHoldTimeExpiry_concludes s
  | fallTimerExpiry => exact execFallTimerExpiry_concludes s
  | graceTimerExpiry => exact execGraceTimerExpiry_concludes s
  | temperatureReading reading => exact execTemperatureReading_concludes s reading
  | dozeTimerExpiry =>
    show s.concludes (execDozeTimerExpiry s)
    unfold execDozeTimerExpiry
    split
    · exact State.concludes_ite_kept _
    · exact State.concludes_noOccasion s
  | dozeWake => exact execDozeWake_concludes s
  | interruptPulseEnd =>
    exact State.concludes_ite_kept (x := { s with reporter := { s.reporter with
      pulse := decide (0 < s.reporter.pulsesQueued), pulsesQueued := s.reporter.pulsesQueued - 1 } }) _
  | timeStampTick => exact State.concludes_kept

/-! ## The supply enable (R138, R145 to R149, R151) -/

/-- Every command keeps the law of the supply enable. -/
theorem exec_keeps_enableLaw (c : Instr) (s t : State) (law : s.enableLaw) (h : exec c s = .next t) : t.enableLaw := by
  by_cases hreset : ∃ straps, c = .reset straps
  · obtain ⟨straps, rfl⟩ := hreset
    cases h
    exact State.reset_enableLaw
  · rcases exec_concludes (fun straps hc => hreset ⟨straps, hc⟩) h with rfl | ⟨x, rfl, kept⟩
    · exact law
    · rw [State.enableLaw_iff, conclude_power]
      exact kept (State.enableLaw_iff.1 law)

/-- An ACTIVE slot needs the panel ON, and a panel that is ON its enable. -/
theorem State.enableLaw.powered {s : State} (law : s.enableLaw) : s.poweredWhileActive := by
  obtain ⟨driven, raised, -⟩ := law
  exact fun active => raised (.inl (driven active))

/-- Settles O7: every command keeps the law of the supply enable, and the law raises it while a slot is ACTIVE. -/
theorem enableRaisedWhileActive : Obligations.EnableRaisedWhileActive := by
  unfold Obligations.EnableRaisedWhileActive
  intro s t law h
  have kept : t.enableLaw := step_keeps (fun _ _ => id) exec_keeps_enableLaw s t law h
  exact ⟨kept, kept.powered⟩

/-! ## Change marks (R138, R148, R152) -/

/-- What the Status Block shows depends neither on the change marks nor on the Doze Controller. -/
theorem conclude_statusWord (before after : State) (k : Nat) :
    (conclude before after).statusWord k = after.statusWord k := by
  rw [conclude_eq]
  rfl

theorem conclude_marks (before after : State) :
    (conclude before after).reporter.marks = after.reporter.marks ||| changedMarks before after := by
  rw [conclude_eq]

/-- A mark, once set, stays set as further words are compared, and a word compared is marked where it has changed. -/
theorem foldl_marks_getLsbD {p : Nat → Prop} [DecidablePred p] {k : Nat} (hk : k < 18) (ks : List Nat) :
    ∀ m : BitVec 18, m.getLsbD k = true ∨ k ∈ ks ∧ p k →
      (ks.foldl (fun m j => if p j then m ||| (1#18 <<< j) else m) m).getLsbD k = true := by
  induction ks with
  | nil => simp
  | cons j ks ih =>
    intro m h
    refine ih _ ?_
    dsimp only
    rcases h with set | ⟨mem, changed⟩
    · split <;> simp [set]
    · rcases List.mem_cons.1 mem with rfl | mem
      · rw [if_pos changed]
        simp [hk]
      · exact .inr ⟨mem, changed⟩

theorem changedMarks_getLsbD {before after : State} {k : Nat} (hk : k ∈ comparedWords)
    (changed : before.statusWord k ≠ after.statusWord k) : (changedMarks before after).getLsbD k = true :=
  foldl_marks_getLsbD (p := fun k => before.statusWord k ≠ after.statusWord k)
    ((by decide : ∀ k ∈ comparedWords, k < 18) k hk) comparedWords 0 (.inr ⟨hk, changed⟩)

theorem State.countFrames_supply (s : State) : s.countFrames.supply = s.supply := by
  have finished (us : List (Fin 15)) : ∀ s : State, (us.foldl State.finishSlot s).supply = s.supply := by
    induction us with
    | nil => exact fun _ => rfl
    | cons u us ih =>
      intro s
      refine (ih _).trans ?_
      unfold State.finishSlot
      split
      · exact State.raise_supply _ _
      · rfl
  unfold State.countFrames
  dsimp only
  split
  · exact finished _ _
  · exact finished _ _

theorem State.suspend_supply (s : State) : s.suspend.supply = s.supply.suspended := rfl

/-- A panel that is suspended is marked, whatever the panel-ready line then does (R148, R152). -/
theorem State.suspend_marked (s : State) : s.suspend.reporter.marks.getLsbD 10 = true := by
  have marks : s.suspend.reporter.marks = s.reporter.marks ||| statusMark 10 := rfl
  rw [marks, BitVec.getLsbD_or]
  exact Bool.or_eq_true_iff.2 (.inr (by decide))

/-- A suspended panel whose panel-ready line is asserted is ON again at once (R148). -/
theorem State.suspend_on {s : State} (h : s.supply.readyLine = true) : s.suspend.supply.panel = .on := by
  rw [State.suspend_supply, Supply.suspended, if_pos h]

/-- Settles O11: a command that finds its occasion concludes by marking the words that show a new value, and the marks of a
suspended panel are set where it is suspended. -/
theorem marksFollowChanges : Obligations.MarksFollowChanges := by
  unfold Obligations.MarksFollowChanges
  refine ⟨fun c s t hc h k hk changed => ?_, fun s f hp hf hs lost ready => ?_⟩
  · rcases exec_concludes hc h with rfl | ⟨x, rfl, -⟩
    · exact absurd rfl changed
    · rw [conclude_statusWord] at changed
      rw [conclude_marks, BitVec.getLsbD_or, changedMarks_getLsbD hk changed, Bool.or_true]
  · have counted : (State.countFrames { s with scanner := { s.scanner with frame := none } }).supply = s.supply :=
      State.countFrames_supply _
    refine ⟨_, exec_frameEnd hp hf hs rfl, ?_, ?_⟩
    · rw [counted, if_pos lost, conclude_eq]
      exact State.suspend_on (by rw [counted]; exact ready)
    · rw [counted, if_pos lost, conclude_marks, BitVec.getLsbD_or, State.suspend_marked, Bool.true_or]

end Sys2Proof.Machine
end

section
/-! SUPPORT. The statements about PANEL LOAD and UNLOAD as they begin, and about the end of the clearing after a geometry
change. -/

namespace Sys2Proof.Machine

/-! ## The checks of a PANEL record (R139) -/

theorem dimensionOk_iff {n most : Nat} : dimensionOk n most = true ↔ n % 32 = 0 ∧ 32 ≤ n ∧ n ≤ most := by
  unfold dimensionOk
  simp only [Bool.and_eq_true, decide_eq_true_eq, and_assoc]

/-- The fields of a LOAD of a legal geometry pass their check. -/
theorem Geometry.legal.dimensionsOk {r : Record} (h : r.panelGeometry.legal) :
    dimensionOk r.panelWidth 2560 = true ∧ dimensionOk r.panelHeight 2048 = true := by
  obtain ⟨wm, wl, wu, hm, hl, hu⟩ := h
  exact ⟨dimensionOk_iff.2 ⟨wm, wl, wu⟩, dimensionOk_iff.2 ⟨hm, hl, hu⟩⟩

theorem State.anyOpen_iff {s : State} : s.pages.toList.any (·.isOpen) = true ↔ ∃ i, (s.page i).isOpen = true := by
  unfold State.page
  rw [List.any_eq_true]
  simp [Vector.mem_iff_getElem, Fin.exists_iff]

/-- A LOAD of a legal geometry is refused with BUSY, and then with BOUND. -/
theorem State.firstFailing_loadChecks (s : State) {r : Record} (ha : r.panelAction = 1) (hl : r.panelGeometry.legal) :
    firstFailing (s.loadChecks r) =
      if s.loadBusy r then some .busy
      else if s.changesGeometry r && s.pages.toList.any (·.isOpen) then some .bound else none := by
  obtain ⟨width, height⟩ := hl.dimensionsOk
  unfold State.loadChecks
  simp only [firstFailing_cons, firstFailing_nil, ha, width, height, ne_eq, not_true, decide_false, Bool.not_true,
    Bool.or_false, if_false, Bool.false_eq_true]

/-- A panel that is down, with no repair and every slot FREE, is not busy. -/
theorem State.loadBusy_eq_false {s : State} (r : Record) (hp : s.supply.panel = .off ∨ s.supply.panel = .unconfigured)
    (hr : s.updates.repairs = []) (hu : ∀ u, s.update u = none) : s.loadBusy r = false := by
  refine eq_false_of_ne_true fun busy => ?_
  rcases State.loadBusy_iff.1 busy with ⟨unconfigured, off, -⟩ | repairs | ⟨u, x, hx, -⟩
  · exact hp.elim off unconfigured
  · exact repairs hr
  · rw [hu] at hx
    cases hx

theorem State.anySlot_eq_false {s : State} (hu : ∀ u, s.update u = none) (st : UpdateState) : s.anySlot st = false := by
  refine eq_false_of_ne_true fun h => ?_
  obtain ⟨u, x, hx, -⟩ := State.anySlot_iff.1 h
  rw [hu] at hx
  cases hx

theorem State.allFree_eq_true {s : State} (hu : ∀ u, s.update u = none) : s.allFree = true := by
  refine eq_true_of_ne_false fun h => ?_
  obtain ⟨u, x, hx⟩ := State.allFree_eq_false_iff.1 h
  rw [hu] at hx
  cases hx

/-! ## PANEL LOAD begins (R139, R140) -/

/-- PANEL_LOAD on the record in execution. -/
theorem exec_panelLoad {s : State} {r : Record} (h : s.executing r .panel) (ha : r.panelAction = 1) :
    exec .panelLoad s =
      proceed s (s.checked r (s.loadChecks r)
        { s with
          composer := .atSupply
          supply := { s.supply with check := some { next := 0, sum := 0, spoilt := false, clearing := false } } }) := by
  have fits : (r.isKind .panel && decide (r.panelAction ≠ 2)) = true := by simp [h.isKind, ha]
  exact onRecord_eq h fits

/-- Settles O44: the checks of a LOAD choose between its two refusals and the waveform check. -/
theorem panelLoadBegins : Obligations.PanelLoadBegins := by
  unfold Obligations.PanelLoadBegins
  intro s r h ha hl
  have hx := exec_panelLoad h ha
  have checks := s.firstFailing_loadChecks ha hl
  refine ⟨fun on => ?_, fun off hr hu changes opened => ?_, fun down hr hu kept => ?_⟩
  · have busy : s.loadBusy r = true := State.loadBusy_iff.2 (.inl (by rw [on]; exact ⟨nofun, nofun, nofun⟩))
    rw [busy, if_pos rfl] at checks
    exact yields_of_proceed_eq hx (State.checked_fail checks)
  · have bound : (s.changesGeometry r && s.pages.toList.any (·.isOpen)) = true :=
      Bool.and_eq_true_iff.2 ⟨decide_eq_true changes, State.anyOpen_iff.2 opened⟩
    rw [State.loadBusy_eq_false r (.inl off) hr hu, bound, if_neg nofun, if_pos rfl] at checks
    exact yields_of_proceed_eq hx (State.checked_fail checks)
  · have free : (s.changesGeometry r && s.pages.toList.any (·.isOpen)) = false := by
      rcases kept with same | closed
      · exact Bool.and_eq_false_iff.2 (.inl (decide_eq_false fun changes => changes same))
      · refine Bool.and_eq_false_iff.2 (.inr (eq_false_of_ne_true fun found => ?_))
        obtain ⟨i, isOpen⟩ := State.anyOpen_iff.1 found
        rw [closed i] at isOpen
        cases isOpen
    rw [State.loadBusy_eq_false r down hr hu, free, if_neg nofun, if_neg nofun] at checks
    exact yields_of_proceed_eq hx (State.checked_pass checks)

/-! ## The end of the clearing, and PANEL UNLOAD (R139, R141, R142) -/

theorem exec_geometryClearEnd {s : State} {k : Check} (hc : s.supply.check = some k) (hk : k.clearing = true)
    (hl : s.loader.clear = none) : exec .geometryClearEnd s = proceed s s.finishLoad := by
  show execGeometryClearEnd s = _
  unfold execGeometryClearEnd
  rw [hc, hl]
  exact if_pos hk

/-- The Supply Controller of an UNLOAD: the store INVALID, the panel UNCONFIGURED, the enable low and every timer stopped
(R142). -/
def Supply.unloaded (p : Supply) : Supply := { p.stopTimers with valid := false, panel := .unconfigured, enable := false }

theorem State.executing.fitsUnload {s : State} {r : Record} (h : s.executing r .panel) (ha : r.panelAction = 2) :
    (r.isKind .panel && decide (r.panelAction = 2)) = true := by
  simp [h.isKind, ha]

/-- PANEL_UNLOAD on the record in execution, of a panel that is not FAILED. -/
theorem exec_panelUnload {s : State} {r : Record} (h : s.executing r .panel) (ha : r.panelAction = 2)
    (hp : s.supply.panel ≠ .failed) :
    exec .panelUnload s = proceed s (s.checked r s.unloadChecks (s.setSupply s.supply.unloaded).ended) := by
  refine (onRecord_eq h (h.fitsUnload ha)).trans ?_
  dsimp only
  rw [if_neg hp]
  rfl

/-- An UNLOAD is refused after LOCK_TIGHT, whatever it would have carried out. -/
theorem State.unload_locked {s : State} (h : s.locked = true) (r : Record) (carryOut : State) :
    s.checked r s.unloadChecks carryOut = s.refused r .locked := by
  refine State.checked_fail ?_
  unfold State.unloadChecks
  rw [firstFailing_cons, if_pos h]

/-- An UNLOAD passes where nothing is locked, the panel is OFF, no repair waits and every slot is FREE. -/
theorem State.unloadChecks_pass {s : State} (hk : s.locked = false) (hp : s.supply.panel = .off)
    (hr : s.updates.repairs = []) (hu : ∀ u, s.update u = none) : firstFailing s.unloadChecks = none := by
  unfold State.unloadChecks State.panelBusy
  rw [hk, hp, hr, State.allFree_eq_true hu]
  rfl

/-- Settles O46: the LOAD completes at the end of the clearing, and the checks of an UNLOAD choose what becomes of it. -/
theorem loadCompletesAndUnloads : Obligations.LoadCompletesAndUnloads := by
  unfold Obligations.LoadCompletesAndUnloads
  refine ⟨fun s k hc hk hl hp hu => ?_, fun s r h ha => ⟨fun locked => ?_, fun unlocked off hr hu => ?_⟩⟩
  · have done := s.finishLoad_eq (p := s.supply) (.inl hp)
    rw [State.anySlot_eq_false hu, if_neg nofun] at done
    exact yields_of_proceed_eq (exec_geometryClearEnd hc hk hl) done
  · exact yields_of_proceed_eq (onRecord_eq h (h.fitsUnload ha)) (State.unload_locked locked r _)
  · have hx := exec_panelUnload h ha (by rw [off]; exact nofun)
    exact yields_of_proceed_eq hx (State.checked_pass (State.unloadChecks_pass unlocked off hr hu))

end Sys2Proof.Machine
end

section
/-! SUPPORT. The statements about the panel-ready line, the timers of panel power, temperature readings, pulses of the
interrupt line and the time stamp. -/

namespace Sys2Proof.Machine

/-! ## The panel-ready line (R145, R146, R148 to R150) -/

section
variable {s : State}

/-- The line is asserted in RISING with the rise timer running. -/
theorem exec_panelReadyAsserted_rising (low : s.supply.readyLine = false) (hp : s.supply.panel = .rising)
    (ht : s.supply.riseTimer.isSome = true) :
    exec .panelReadyAsserted s = proceed s (s.setSupply (Supply.onFromRising { s.supply with readyLine := true })) := by
  obtain ⟨n, hn⟩ := Option.isSome_iff_exists.1 ht
  show execPanelReadyAsserted s = _
  unfold execPanelReadyAsserted
  rw [if_neg (ne_true_of_eq_false low)]
  dsimp only
  rw [hp, hn]

/-- The line is asserted in SUSPENDED. -/
theorem exec_panelReadyAsserted_suspended (low : s.supply.readyLine = false) (hp : s.supply.panel = .suspended) :
    exec .panelReadyAsserted s = proceed s (s.setSupply (Supply.backOn { s.supply with readyLine := true })) := by
  show execPanelReadyAsserted s = _
  unfold execPanelReadyAsserted
  rw [if_neg (ne_true_of_eq_false low)]
  dsimp only
  rw [hp]

/-- The line is asserted in any other panel state. -/
theorem exec_panelReadyAsserted_other (low : s.supply.readyLine = false) (hr : s.supply.panel ≠ .rising)
    (hs : s.supply.panel ≠ .suspended) :
    exec .panelReadyAsserted s = proceed s (s.setSupply { s.supply with readyLine := true }) := by
  show execPanelReadyAsserted s = _
  unfold execPanelReadyAsserted
  rw [if_neg (ne_true_of_eq_false low)]
  dsimp only
  split
  · next rising _ => exact absurd rising hr
  · next suspended => exact absurd suspended hs
  · rfl

theorem exec_panelReadyDropped_on (high : s.supply.readyLine = true) (hp : s.supply.panel = .on) :
    exec .panelReadyDropped s = proceed s (s.setSupply { s.supply with readyLine := false, lossNoted := true }) := by
  show execPanelReadyDropped s = _
  unfold execPanelReadyDropped
  rw [if_pos high]
  dsimp only
  rw [hp]

theorem exec_panelReadyDropped_holding (high : s.supply.readyLine = true) (hp : s.supply.panel = .holding) :
    exec .panelReadyDropped s =
      proceed s ((s.setSupply (Supply.enterFalling { s.supply with readyLine := false })).raise (.panelFault 0)) := by
  show execPanelReadyDropped s = _
  unfold execPanelReadyDropped
  rw [if_pos high]
  dsimp only
  rw [hp]

theorem exec_panelReadyDropped_other (high : s.supply.readyLine = true) (ho : s.supply.panel ≠ .on)
    (hh : s.supply.panel ≠ .holding) :
    exec .panelReadyDropped s = proceed s (s.setSupply { s.supply with readyLine := false }) := by
  show execPanelReadyDropped s = _
  unfold execPanelReadyDropped
  rw [if_pos high]
  dsimp only
  split
  · next on => exact absurd on ho
  · next holding => exact absurd holding hh
  · rfl

end

/-- Settles O57: the panel state decides what the line's change does. -/
theorem panelReadyLine : Obligations.PanelReadyLine := by
  unfold Obligations.PanelReadyLine
  refine fun s => ⟨fun low => ⟨fun hp ht => ?_, fun hp => ?_, fun hr hs => ?_⟩,
    fun high => ⟨fun hp => ?_, fun hp => ?_, fun ho hh => ?_⟩⟩
  · exact yields_of_proceed (exec_panelReadyAsserted_rising low hp ht)
  · exact yields_of_proceed (exec_panelReadyAsserted_suspended low hp)
  · exact yields_of_proceed (exec_panelReadyAsserted_other low hr hs)
  · exact yields_of_proceed (exec_panelReadyDropped_on high hp)
  · exact yields_of_proceed (exec_panelReadyDropped_holding high hp)
  · exact yields_of_proceed (exec_panelReadyDropped_other high ho hh)

/-! ## The timers of panel power (R145, R146, R151) -/

/-- A rise attempt with the panel-ready line low: the rise timer runs (R145). -/
theorem Supply.beginAttempt_waits {p : Supply} (h : p.readyLine = false) :
    p.beginAttempt = { p with enable := true, gapTimer := none, riseTimer := some p.riseTimeout } :=
  if_neg (ne_true_of_eq_false h)

/-- A rise attempt with the panel-ready line asserted already succeeds at once (R145, log entry 22). -/
theorem Supply.beginAttempt_on {p : Supply} (h : p.readyLine = true) :
    p.beginAttempt =
      { p with
        panel := .on, enable := true, gapTimer := none, riseTimer := none, lossNoted := false
        readingsAsked := p.readingsAsked + 1, readingTimer := some 30000 } :=
  if_pos h

section
variable {s : State}

/-- A rise attempt that fails before the third leaves a gap (R145). -/
theorem exec_riseTimerExpiry_gap (hp : s.supply.panel = .rising) (ht : s.supply.riseTimer.isSome = true)
    (more : s.supply.attempt < 3) :
    exec .riseTimerExpiry s =
      proceed s (s.setSupply { s.supply with enable := false, riseTimer := none, gapTimer := some 10 }) := by
  obtain ⟨n, hn⟩ := Option.isSome_iff_exists.1 ht
  show execRiseTimerExpiry s = _
  unfold execRiseTimerExpiry
  rw [hp, hn]
  exact if_pos more

/-- The third rise attempt that fails leaves the panel FAILED (R151). -/
theorem exec_riseTimerExpiry_failed (hp : s.supply.panel = .rising) (ht : s.supply.riseTimer.isSome = true)
    (last : 3 ≤ s.supply.attempt) :
    exec .riseTimerExpiry s =
      proceed s ((s.setSupply { s.supply.stopTimers with panel := .failed, enable := false }).raise
        (.panelFailed s.readyCount)) := by
  obtain ⟨n, hn⟩ := Option.isSome_iff_exists.1 ht
  show execRiseTimerExpiry s = _
  unfold execRiseTimerExpiry
  rw [hp, hn]
  exact if_neg (Nat.not_lt.2 last)

theorem exec_gapTimerExpiry (hp : s.supply.panel = .rising) (ht : s.supply.gapTimer.isSome = true) :
    exec .gapTimerExpiry s =
      proceed s (s.setSupply (Supply.beginAttempt { s.supply with attempt := s.supply.attempt + 1 })) := by
  obtain ⟨n, hn⟩ := Option.isSome_iff_exists.1 ht
  show execGapTimerExpiry s = _
  unfold execGapTimerExpiry
  rw [hp, hn]

theorem exec_holdTimeExpiry (hp : s.supply.panel = .holding) (ht : s.supply.holdTimer.isSome = true) :
    exec .holdTimeExpiry s = proceed s (s.setSupply s.supply.enterFalling) := by
  obtain ⟨n, hn⟩ := Option.isSome_iff_exists.1 ht
  show execHoldTimeExpiry s = _
  unfold execHoldTimeExpiry
  rw [hp, hn]

/-- The panel that has fallen is OFF (R146). -/
def Supply.fallen (p : Supply) : Supply := { p with panel := .off, fallTimer := none }

/-- A panel that has fallen rises again where a slot is READY (R146). -/
theorem exec_fallTimerExpiry (hp : s.supply.panel = .falling) (ht : s.supply.fallTimer.isSome = true) :
    exec .fallTimerExpiry s =
      proceed s (s.setSupply
        (if s.anySlot .ready = true then s.supply.fallen.enterRising else s.supply.fallen)) := by
  obtain ⟨n, hn⟩ := Option.isSome_iff_exists.1 ht
  show execFallTimerExpiry s = _
  unfold execFallTimerExpiry
  rw [hp, hn]
  exact congrArg (proceed s) (State.riseIfReady_off (s := s.setSupply s.supply.fallen) rfl)

end

/-- Settles O58: each timer's expiry in the panel state that runs it, with the panel-ready line low and asserted. -/
theorem panelTimersExpire : Obligations.PanelTimersExpire := by
  unfold Obligations.PanelTimersExpire
  refine fun s => ⟨fun hp ht => ⟨fun more => ?_, fun last => ?_⟩, fun hp ht low => ?_, fun hp ht high => ?_,
    fun hp ht => ?_, fun hp ht => ⟨fun idle => ?_, fun ready low => ?_, fun ready high => ?_⟩⟩
  · exact yields_of_proceed (exec_riseTimerExpiry_gap hp ht more)
  · exact yields_of_proceed (exec_riseTimerExpiry_failed hp ht last)
  · have hx := exec_gapTimerExpiry hp ht
    rw [Supply.beginAttempt_waits (p := { s.supply with attempt := s.supply.attempt + 1 }) low] at hx
    exact yields_of_proceed hx
  · have hx := exec_gapTimerExpiry hp ht
    rw [Supply.beginAttempt_on (p := { s.supply with attempt := s.supply.attempt + 1 }) high] at hx
    exact yields_of_proceed hx
  · exact yields_of_proceed (exec_holdTimeExpiry hp ht)
  · have hx := exec_fallTimerExpiry hp ht
    rw [if_neg (ne_true_of_eq_false idle)] at hx
    exact yields_of_proceed hx
  · have hx := exec_fallTimerExpiry hp ht
    rw [if_pos ready, Supply.enterRising_waits (p := s.supply.fallen) low] at hx
    exact yields_of_proceed hx
  · have hx := exec_fallTimerExpiry hp ht
    rw [if_pos ready, Supply.enterRising_on (p := s.supply.fallen) high] at hx
    exact yields_of_proceed hx

/-! ## Readings, pulses and the time stamp (R147, R156) -/

theorem exec_readingTimerExpiry {s : State} (ht : s.supply.readingTimer.isSome = true) :
    exec .readingTimerExpiry s = proceed s (s.setSupply s.supply.askReading) := by
  obtain ⟨n, hn⟩ := Option.isSome_iff_exists.1 ht
  show execReadingTimerExpiry s = _
  unfold execReadingTimerExpiry
  rw [hn]

/-- A reading within the range of R147. -/
theorem exec_temperatureReading_valid (s : State) {v : Int} (hv : -40 ≤ v ∧ v ≤ 85) :
    exec (.temperatureReading (some v)) s =
      proceed s (s.setSupply { s.supply with readingsAsked := s.supply.readingsAsked - 1, reading := some v }) := by
  show execTemperatureReading (some v) s = _
  unfold execTemperatureReading
  exact if_pos hv

/-- A pulse that ends; the next one queued begins (R156, log entry 31). -/
theorem exec_interruptPulseEnd {s : State} (hp : s.reporter.pulse = true) :
    exec .interruptPulseEnd s =
      proceed s { s with reporter := { s.reporter with
        pulse := decide (0 < s.reporter.pulsesQueued), pulsesQueued := s.reporter.pulsesQueued - 1 } } := by
  show execInterruptPulseEnd s = _
  unfold execInterruptPulseEnd
  rw [if_pos hp]

/-- A tick wraps at 32 bits. -/
theorem word_succ_eq (t : Word) : t + 1 = BitVec.ofNat 32 (t.toNat + 1) :=
  BitVec.eq_of_toNat_eq (by simp [BitVec.toNat_add])

/-- Settles O60: each of these commands proceeds to the one change that it makes. -/
theorem readingsPulsesAndTicks : Obligations.ReadingsPulsesAndTicks := by
  unfold Obligations.ReadingsPulsesAndTicks
  refine ⟨fun s => ⟨fun ht => ?_, fun v low high => ?_, ?_⟩, fun s => ⟨fun hp hq => ?_, fun n hp hq => ?_, ?_⟩⟩
  · exact yields_of_proceed (exec_readingTimerExpiry ht)
  · exact yields_of_proceed (exec_temperatureReading_valid s ⟨low, high⟩)
  · exact yields_of_proceed (c := .temperatureReading none) rfl
  · exact yields_of_proceed_eq (exec_interruptPulseEnd hp) (by simp [hq])
  · exact yields_of_proceed_eq (exec_interruptPulseEnd hp) (by simp [hp, hq])
  · exact yields_of_proceed_eq (c := .timeStampTick) rfl (by rw [← word_succ_eq])

end Sys2Proof.Machine
end

section
/-! SUPPORT. The statement about events: the words a grant writes as they are read back, the grants of the Reporter, and
the signal that the Produced Count write gives. -/

namespace Sys2Proof.Machine

/-! ## Words written and read back -/

theorem Memory.words_succ (m : Memory) (a n : Nat) : m.words a (n + 1) = m.word a :: m.words (a + 4) n := by
  unfold Memory.words
  rw [List.range_succ_eq_map, List.map_cons, List.map_map]
  refine congrArg (m.word a :: ·) (List.map_congr_left fun k _ => congrArg m.word ?_)
  show a + 4 * (k + 1) = a + 4 + 4 * k
  omega

/-- A word that no written word reaches is read as it was. -/
theorem Memory.word_setWords_below {m : Memory} (h : m.wf = true) {a b : Nat} (hb : b + 4 ≤ a) (ws : List Word) :
    (m.setWords a ws).word b = m.word b := by
  unfold Memory.word
  rw [Memory.byte_setWords_outside h (by omega), Memory.byte_setWords_outside h (by omega),
    Memory.byte_setWords_outside h (by omega), Memory.byte_setWords_outside h (by omega)]

theorem Memory.word_setWords_cons {m : Memory} (h : m.wf = true) (a : Nat) (w : Word) (ws : List Word) :
    (m.setWords a (w :: ws)).word a = w :=
  (Memory.word_setWords_below (Memory.setWord_wf h) le_rfl ws).trans (Memory.word_setWord h)

/-- Words written are read back. -/
theorem Memory.words_setWords (ws : List Word) : ∀ {m : Memory} {a : Nat}, m.wf = true →
    (m.setWords a ws).words a ws.length = ws := by
  induction ws with
  | nil => intro m a _; rfl
  | cons w ws ih =>
    intro m a h
    rw [List.length_cons, Memory.words_succ, Memory.word_setWords_cons h]
    exact congrArg (w :: ·) (ih (Memory.setWord_wf h))

/-! ## What the Reporter picks (R152, R153) -/

theorem Reporter.runFrom_le (r : Reporter) (k : Nat) : r.runFrom k ≤ 8 :=
  (List.takeWhile_sublist _).length_le.trans_eq List.length_range

/-- Where the Reporter picks no word, its oldest entry is next. -/
theorem State.reportWork_entry {s : State} {e : Entry} {rest : List Entry} (h : s.startup = .running)
    (hu : s.reporter.unwritten = e :: rest) : s.reportWork 0 = some (.entry e) := by
  unfold State.reportWork Reporter.choice
  rw [h, hu]
  rfl

/-- A marked word that the Reporter picks is next, with its neighbours. -/
theorem State.reportWork_marked {s : State} {k : Nat} (h : s.startup = .running)
    (hm : s.reporter.marks.getLsbD k = true) :
    s.reportWork (k + 1) = some (.words k (s.reporter.runFrom k)) := by
  unfold State.reportWork
  rw [h]
  exact if_pos ⟨k.succ_pos, hm⟩

theorem State.reportAddr_eq (s : State) (word : Nat) :
    s.reportAddr word = s.memBytes - 0x600000 + 0x544000 + 4 * word := rfl

/-- The words of a work of the Reporter lie in the Report Area, and so below the memory size. -/
theorem State.reportAccess_below {s : State} {w : ReportWork} {word n : Nat}
    (ha : w.access s = { addr := s.reportAddr word, words := n, write := true }) (hn : word + n ≤ 1024) :
    (w.access s).below s.memBytes = true := by
  rw [ha]
  refine decide_eq_true ?_
  dsimp only
  rw [State.reportAddr_eq]
  rcases s.memBytes_cases with h | h | h <;> omega

/-! ## The Reporter's grants (R7, R8, R152, R153) -/

section Grants

variable {s : State} {needs : Bool} {pick : Nat} {w : ReportWork}

/-- On its turn the Reporter has the next grant of an engine, where there is something to write (R8). -/
theorem State.grantsTo_reporter (hp : s.portReady = true) (hr : s.port.refreshRequest = false)
    (hs : (s.raiseScan needs).scanner.request = false) (hq : s.relayRequests = false) (ht : s.port.turn = .reporter)
    (hw : s.reportWork pick = some w) (hb : (w.access s).below s.memBytes = true) :
    s.grantsTo needs pick .reporter := by
  have asks : s.engineAccess pick .reporter = some (w.access s) := by
    show (s.reportWork pick).map (·.access s) = _
    rw [hw]
    rfl
  refine ⟨hp, hr, hs, hq, (s.engineInTurn_iff pick .reporter).2 ⟨by rw [asks]; rfl, fun e' hlt => ?_⟩, ?_⟩
  · rw [ht] at hlt
    exact absurd hlt (Nat.not_lt_zero _)
  · unfold State.grantInMemory State.grantAccess
    dsimp only
    rw [asks]
    exact hb

/-- The state with the turn pointer past the Reporter (R8). -/
def State.pastReporter (s : State) : State := { s with port := { (s.port) with turn := .waveformCheck } }

theorem State.grantsTo.exec_report (hg : s.grantsTo needs pick .reporter) (hw : s.reportWork pick = some w) :
    exec (.downstreamGrant needs pick) s = proceed s (s.pastReporter.serveReport w) := by
  have work : s.pastReporter.reportWork pick = some w := hw
  rw [hg.exec_eq]
  show proceed s (s.pastReporter.serveEngine pick .reporter) = _
  unfold State.serveEngine
  rw [work]

/-- The grant that writes the oldest entry ends its write (R152, R153). -/
theorem State.grantsTo.writesEntry {e : Entry} (hg : s.grantsTo needs pick .reporter) (hm : s.mem.wf = true)
    (hw : s.reportWork pick = some (.entry e)) :
    ∃ t, exec (.downstreamGrant needs pick) s = .next t ∧
      t.mem.words (s.reportAddr (entryWord e.index)) e.words.length = e.words ∧
      t.reporter.unwritten = s.reporter.unwritten.tail ∧ t.reporter.writtenProduced = e.producedAfter ∧
      t.reporter.marks.getLsbD 0 = true := by
  have marked : (s.reporter.entryWritten e).marks.getLsbD 0 = true := by
    show (s.reporter.marks ||| statusMark 0).getLsbD 0 = true
    rw [BitVec.getLsbD_or, Bool.or_eq_true]
    exact .inr rfl
  refine ⟨_, hg.exec_report hw, ?_, ?_, ?_, conclude_keeps_mark s marked⟩
  · rw [conclude_mem]
    exact Memory.words_setWords e.words hm
  · rw [conclude_eq]
    rfl
  · rw [conclude_eq]
    rfl

end Grants

/-! ## The interrupt line (R156) -/

theorem conclude_interruptLine (before after : State) :
    (conclude before after).interruptLine = after.interruptLine := by rw [conclude_eq]; rfl

/-- With entries to signal and events outstanding, the Produced Count write sets attention, and in PULSE mode a pulse
begins. -/
theorem Reporter.signal_asserts {r : Reporter} (h : 0 < r.toSignal) (ho : r.outstanding ≠ 0) (pulseMode : Bool) :
    (r.signal pulseMode).attention = true ∧ (pulseMode = true → (r.signal pulseMode).pulse = true) := by
  unfold Reporter.signal
  rw [if_neg h.ne', if_neg ho]
  cases pulseMode with
  | true => exact ⟨rfl, fun _ => rfl⟩
  | false => exact ⟨rfl, nofun⟩

/-- The line is asserted by attention, together with a pulse in PULSE mode. -/
theorem State.interruptLine_asserted {s : State} (ha : s.reporter.attention = true)
    (hp : s.tune.pulseMode = true → s.reporter.pulse = true) : s.interruptLine = true := by
  unfold State.interruptLine
  cases hm : s.tune.pulseMode with
  | true => rw [hp hm]; rfl
  | false => rw [ha]; exact Bool.or_true _

/-- The grant that writes the Produced Count word, with entries to signal and events outstanding (R152, R156). -/
theorem State.grantsTo.signals {s : State} {needs : Bool} {pick count : Nat} (hg : s.grantsTo needs pick .reporter)
    (hm : s.mem.wf = true) (hw : s.reportWork pick = some (.words 0 count)) (hn : 0 < s.reporter.toSignal)
    (ho : s.reporter.outstanding ≠ 0) :
    ∃ t, exec (.downstreamGrant needs pick) s = .next t ∧ t.mem.word (s.reportAddr 0) = s.statusWord 0 ∧
      t.reporter.attention = true ∧ t.interruptLine = true := by
  obtain ⟨n, length⟩ : ∃ n, max 1 count = n + 1 := ⟨max 1 count - 1, by omega⟩
  obtain ⟨attention, pulse⟩ :=
    Reporter.signal_asserts (r := s.reporter.wordsWritten 0 (max 1 count)) hn ho s.tune.pulseMode
  refine ⟨_, hg.exec_report hw, ?_, ?_, ?_⟩
  · rw [conclude_mem]
    show (s.mem.setWords (s.reportAddr 0) ((List.range (max 1 count)).map fun i => s.statusWord (0 + i))).word _ = _
    rw [length, List.range_succ_eq_map, List.map_cons]
    exact Memory.word_setWords_cons hm ..
  · rw [conclude_eq]
    exact attention
  · rw [conclude_interruptLine]
    exact State.interruptLine_asserted attention pulse

/-! ## Events (R152, R153, R156, R161) -/

/-- The place after one in the Event Ring, the last place being 239 (R153). -/
theorem nextEntry_eq (n : Nat) : nextEntry n = if n = 239 then 0 else n + 1 :=
  if_congr (Nat.add_right_cancel_iff (m := n) (k := 239) (n := 1)) rfl rfl

/-- Settles O14: the two outcomes of an event, and the Reporter's grants of an entry and of the Produced Count word. -/
theorem eventsReachTheHost : Obligations.EventsReachTheHost := by
  unfold Obligations.EventsReachTheHost
  refine ⟨fun s e => ⟨fun h => ?_, fun h => ?_⟩,
    fun s needs hm run hp hr hs hq ht => ⟨fun e rest hu hl hi => ?_, fun marked hn ho => ?_⟩⟩
  · rw [State.raise_append h]
    unfold State.entryOf
    rw [nextEntry_eq]
  · rw [State.raise_drop (not_lt.2 h), sat16_eq]
  · have work := State.reportWork_entry run hu
    have inside : (ReportWork.access (.entry e) s).below s.memBytes = true :=
      State.reportAccess_below rfl (by unfold entryWord Config.statusWords; omega)
    obtain ⟨t, hx, words, unwritten, produced, mark⟩ :=
      (State.grantsTo_reporter hp hr hs hq ht work inside).writesEntry hm work
    have place : s.memBytes - 0x600000 + 0x544100 + 16 * e.index = s.reportAddr (entryWord e.index) := by
      rw [State.reportAddr_eq]
      unfold entryWord Config.statusWords
      omega
    refine ⟨t, hx, ?_, ?_, produced, mark⟩
    · rw [place, ← hl]
      exact words
    · rw [unwritten, hu]
      rfl
  · have work := State.reportWork_marked run marked
    have inside : (ReportWork.access (.words 0 (s.reporter.runFrom 0)) s).below s.memBytes = true :=
      State.reportAccess_below rfl (by have := s.reporter.runFrom_le 0; omega)
    have place : s.memBytes - 0x600000 + 0x544000 = s.reportAddr 0 := (s.reportAddr_eq 0).symm
    rw [place]
    exact (State.grantsTo_reporter hp hr hs hq ht work inside).signals hm work hn ho

end Sys2Proof.Machine
end

section
/-! SUPPORT. The statement that the doze timer follows the idle conditions: what looking at the timer leaves, and the
commands, with RESET apart from those that conclude. -/

namespace Sys2Proof.Machine

/-! ## The doze timer and the idle conditions (R159) -/

/-- The idle conditions do not read the Doze Controller. -/
theorem State.idleConditions_with_doze (s : State) (d : Doze) :
    State.idleConditions { s with doze := d } = s.idleConditions := rfl

/-- A part that is not running does not idle. -/
theorem State.idleConditions_of_not_running {s : State} (h : s.startup ≠ .running) :
    s.idleConditions = false := by
  unfold State.idleConditions
  cases hs : s.startup with
  | running => exact absurd hs h
  | initializing | clearing => exact Bool.and_false _

/-- Whatever the timer was, looking at it starts it, lets it run or stops it as the idle conditions ask. -/
theorem State.watchDoze_dozeLaw (s : State) : s.watchDoze.dozeLaw := by
  unfold State.watchDoze State.dozeLaw
  split
  next dozing => exact fun awake => absurd (dozing.symm.trans awake) nofun
  next =>
    split
    next idle =>
      split
      next running => exact fun _ => iff_of_true (by rw [running]; rfl) idle
      next => exact fun _ => iff_of_true rfl ((s.idleConditions_with_doze _).trans idle)
    next busy => exact fun _ => iff_of_false nofun (ne_of_eq_of_ne (s.idleConditions_with_doze _) busy)

/-- A command that finds its occasion leaves the law, whatever the state it starts from. -/
theorem conclude_dozeLaw (before after : State) : (conclude before after).dozeLaw :=
  State.watchDoze_dozeLaw _

/-- RESET leaves a part that waits for its SDRAM, AWAKE and with the timer stopped (R157). -/
theorem exec_reset_dozeLaw {straps : BitVec 2} {s t : State} (h : exec (.reset straps) s = .next t) : t.dozeLaw := by
  cases h
  exact fun _ => iff_of_false nofun (ne_true_of_eq_false (State.idleConditions_of_not_running nofun))

/-- Every command keeps the law: RESET, a command without its occasion, or one that concludes. -/
theorem exec_keeps_dozeLaw (c : Instr) (s t : State) (law : s.dozeLaw) (h : exec c s = .next t) : t.dozeLaw := by
  by_cases hreset : ∃ straps, c = .reset straps
  · obtain ⟨straps, rfl⟩ := hreset
    exact exec_reset_dozeLaw h
  · rcases exec_concludes (fun straps hc => hreset ⟨straps, hc⟩) h with rfl | ⟨x, rfl, -⟩
    · exact law
    · exact conclude_dozeLaw s x

/-- Settles O10: a command that finds its occasion ends by looking at the doze timer, one that does not changes nothing,
and RESET stops the timer of a part that is not running. -/
theorem dozeTimerFollowsIdle : Obligations.DozeTimerFollowsIdle := by
  unfold Obligations.DozeTimerFollowsIdle
  exact step_keeps (fun _ _ => id) exec_keeps_dozeLaw

end Sys2Proof.Machine
end

section
/-! SUPPORT. The statement that a step carries out the front command of the queue. -/

namespace Sys2Proof.Machine

/-! ## One step and the queue -/

/-- With no command waiting, a step leaves the state as it is. -/
theorem step_of_pending_nil {s : State} (h : s.pending = []) : step s = .next s := by
  unfold step; rw [h]

/-- Settles O1: a queue has a front command, which the step carries out, or it is empty and the part idles. -/
theorem stepRunsFrontCommand : Obligations.StepRunsFrontCommand := by
  unfold Obligations.StepRunsFrontCommand
  intro c rest s
  constructor
  · exact step_cons (s := { s with pending := c :: rest }) rfl
  · exact step_of_pending_nil rfl

end Sys2Proof.Machine
end
